-- ==== Sys2Proof/Word.lean ====
section
/-! DEFINITION. The words and identifiers of the Feriebo (R3, R14, R50): plain abbreviations, nothing computed. -/

namespace Sys2Proof

/-- An instruction word (R108). -/
abbrev Word := BitVec 32
/-- A general register, a system register, a memory dword (R3, R23). -/
abbrev Dword := BitVec 64
/-- A vector register (R23). -/
abbrev VReg := BitVec 512
/-- A 5-bit register specifier (R122). -/
abbrev Reg := BitVec 5
/-- A mask register number k0 to k7 (R147). -/
abbrev KReg := BitVec 3
/-- An endpoint identifier: package, die, unit (R14). -/
abbrev Ep := BitVec 22
/-- A package number (R19). -/
abbrev Pkg := BitVec 10
/-- One of a core's sixteen contexts (R16). -/
abbrev Ctx := BitVec 4
/-- A launch queue number (R259). -/
abbrev Qn := BitVec 12
/-- An address-space identifier (R13). -/
abbrev Asid := BitVec 16
/-- A launch identity: queue number and record number (R154). -/
abbrev Lid := BitVec 44

end Sys2Proof
end

