-- ==== Sys2Proof/Machine/Bits.lean ====
section
/-! DEFINITION. Bit-field, sign-extension and byte-order helpers of the pseudocode (R4). -/

namespace Sys2Proof.Machine

/-- Bits `lo` to `lo + len − 1` of a word, as a field of its own width. -/
def fld {n : Nat} (w : BitVec n) (lo len : Nat) : BitVec len := BitVec.ofNat len (w.toNat / 2 ^ lo)

/-- `bits(x, hi, lo)` of a number (R4). -/
def bitsN (x hi lo : Nat) : Nat := x / 2 ^ lo % 2 ^ (hi + 1 - lo)

/-- Bit `i` of a word as a Bool. -/
def bitOf {n : Nat} (w : BitVec n) (i : Nat) : Bool := w.getLsbD i

/-- `x` read as an n-bit signed value (R4). -/
def sextN (x n : Nat) : Int := let y := x % 2 ^ n; if 2 * y < 2 ^ n then y else (y : Int) - 2 ^ n

/-- A whole number modulo 2^n, as a word. -/
def wrap (n : Nat) (x : Int) : BitVec n := BitVec.ofInt n x

/-- `sat(x, n)` (R4). -/
def satS (x : Int) (n : Nat) : Int := max (-(2 ^ (n - 1))) (min x (2 ^ (n - 1) - 1))

/-- `usat(x, n)` of a whole number (R4), clamped to 0 … 2^n − 1. -/
def satU (x : Int) (n : Nat) : Int := max 0 (min x (2 ^ n - 1))

/-- Replaces `len` bits from `lo` by the low bits of `x`. -/
def setFld {n : Nat} (w : BitVec n) (lo len : Nat) (x : Nat) : BitVec n :=
  BitVec.ofNat n (w.toNat % 2 ^ lo + (x % 2 ^ len) * 2 ^ lo + w.toNat / 2 ^ (lo + len) * 2 ^ (lo + len))

/-- Byte `i` of a little-endian number. -/
def byteOf (x i : Nat) : BitVec 8 := BitVec.ofNat 8 (x / 2 ^ (8 * i))

/-- The little-endian number of a list of bytes. -/
def ofBytes : List (BitVec 8) → Nat
  | [] => 0
  | b :: r => b.toNat + 256 * ofBytes r

/-- The number whose bits are the list's numbers of `w` bits each, first lowest. -/
def packNats (w : Nat) : List Nat → Nat
  | [] => 0
  | x :: r => x % 2 ^ w + 2 ^ w * packNats w r

/-- The first `n` numbers of `w` bits each of a number, lowest first. -/
def unpackNats (w : Nat) : Nat → Nat → List Nat
  | 0, _ => []
  | n + 1, x => x % 2 ^ w :: unpackNats w n (x / 2 ^ w)

/-- One if the condition holds, zero otherwise. -/
def b2n (c : Bool) : Nat := if c then 1 else 0

end Sys2Proof.Machine
end

