-- ==== Sys2Proof/Config.lean ====
section
/-! DEFINITION. What one implementation fixes and the manual leaves open: free values. Each is a constant with no body, so
no proof can see its value (notes/assumptions/3.md). -/

namespace Sys2Proof.Config

/-- A fresh unconstrained dword, applied to `State.free` (notes/assumptions/3.md). -/
opaque freeDword : Nat → Dword
/-- A fresh unconstrained bit: old or new instruction word before the fence (R78). -/
opaque freeBit : Nat → Bool
/-- The silicon revision DEVID[15:0], which R317 leaves without a reset value. -/
opaque silicon : BitVec 16
/-- The ECC syndrome a check reports at a physical address or register code (R274, R324). -/
opaque syndrome : Nat → BitVec 8
/-- SHA-512 of a content, as a function of which nothing is known (R323; notes/assumptions/65.md). -/
opaque sha512 : Nat → BitVec 512
/-- The content of a package's boot ROM (R323). -/
opaque bootRom : Nat → Nat
/-- The digests that a package's two fused slots hold (R322). -/
opaque keySlot : Nat → Nat → BitVec 512
/-- The RSASSA-PSS signature of a response by a package's identity key (R323). -/
opaque signature : Nat → Nat → BitVec 4096
/-- The manufacturer's certificate of a package's identity key, slot 0 (R323). -/
opaque certificate : Nat → BitVec 8192
/-- What the self-test of a package found after a boot: the number of its tests, the first that fails, two dwords for each (R321, R329). -/
opaque selfTest : Nat → Nat → Nat → Dword

end Sys2Proof.Config
end

