-- ==== Sys2Proof/Syntax.lean ====
section
/-! DEFINITION. The instruction set as syntax: one constructor of `Instr` per row of spec/opcode_table.json. The first
246 constructors are instruction words (R108); the others are the part's own steps (95_what_each_step_holds.md), which no
word encodes, which an item of `State.agenda` names, and whose arguments stand in `State.ev`. -/

namespace Sys2Proof

/-- Operand fields: CM, loads: `d`, base `b`, offset, size, lookahead (R120, R174). -/
structure OpLoad where
  (d b : Reg)
  (off : BitVec 7)
  (sz : BitVec 2)
  (la : BitVec 4)
  deriving DecidableEq, Repr

/-- Operand fields: CM, stores: data `d`, base `b`, offset, size, stream, lookahead (R175). -/
structure OpStore where
  (d b : Reg)
  (off : BitVec 7)
  (sz : BitVec 2)
  (strm : BitVec 3)
  (la : BitVec 4)
  deriving DecidableEq, Repr

/-- Operand fields: CM, vector loads (R176). -/
structure OpVLoad where
  (d b : Reg)
  (off : BitVec 7)
  (la : BitVec 4)
  deriving DecidableEq, Repr

/-- Operand fields: CM, vector stores (R176). -/
structure OpVStore where
  (d b : Reg)
  (off : BitVec 7)
  (strm : BitVec 3)
  (la : BitVec 4)
  deriving DecidableEq, Repr

/-- Operand fields: CE, full/empty operations with a limit or threshold register `c` (R179). -/
structure OpFeWait where
  (d b c : Reg)
  (la : BitVec 4)
  deriving DecidableEq, Repr

/-- Operand fields: CE, full/empty operations with a value or destination register (R179). -/
structure OpFe where
  (d b : Reg)
  (la : BitVec 4)
  deriving DecidableEq, Repr

/-- Operand fields: CE, `sete` (R179). -/
structure OpFeAddr where
  (b : Reg)
  (la : BitVec 4)
  deriving DecidableEq, Repr

/-- Operand fields: CA, atomics of either width (R182). -/
structure OpAtomic where
  (d b a : Reg)
  (sc : BitVec 4)
  (strm : BitVec 3)
  (w : BitVec 1)
  deriving DecidableEq, Repr

/-- Operand fields: CA, atomics of one width (R184). -/
structure OpAtomicF where
  (d b a : Reg)
  (sc : BitVec 4)
  (strm : BitVec 3)
  deriving DecidableEq, Repr

/-- Operand fields: CA, `sig` (R185). -/
structure OpSig where
  (b a : Reg)
  (sc : BitVec 4)
  (strm : BitVec 3)
  deriving DecidableEq, Repr

/-- Operand fields: CS, `send` (R189): target `t`, first payload `a`, NR, OB, KIND, NP. -/
structure OpSend where
  (t a : Reg)
  (nr ob kind : BitVec 1)
  (np : BitVec 2)
  deriving DecidableEq, Repr

/-- Operand fields: CS, `waitq` (R194): count `n`, target code. -/
structure OpWaitq where
  (d a : Reg)
  (n : BitVec 6)
  (code : BitVec 4)
  deriving DecidableEq, Repr

/-- Operand fields: CS, `qlen` (R194). -/
structure OpQlen where
  (d : Reg)
  (code : BitVec 4)
  deriving DecidableEq, Repr

/-- Operand fields: CB (R149). -/
structure OpBranch where
  (a b : Reg)
  (off : BitVec 12)
  deriving DecidableEq, Repr

/-- Operand fields: J (R150). -/
structure OpJump where
  (d : Reg)
  (off : BitVec 21)
  deriving DecidableEq, Repr

/-- Operand fields: CS, `mfs` (R153): destination and register number. -/
structure OpMfs where
  (d : Reg)
  (sreg : BitVec 10)
  deriving DecidableEq, Repr

/-- Operand fields: CS, `mts` and `trap`: source and immediate (R153, R163). -/
structure OpMts where
  (a : Reg)
  (imm : BitVec 10)
  deriving DecidableEq, Repr

/-- Operand fields: CS, `jalr` (R151). -/
structure OpJalr where
  (d a : Reg)
  (imm : BitVec 10)
  deriving DecidableEq, Repr

/-- Operand fields: CS, `bkpt` (R164). -/
structure OpImm10 where
  (imm : BitVec 10)
  deriving DecidableEq, Repr

/-- Operand fields: two register fields `d`, `a`. -/
structure OpDA where
  (d a : Reg)
  deriving DecidableEq, Repr

/-- Operand fields: CS, `fns`: bit n − 1 names stream n (R197). -/
structure OpFns where
  (streams : BitVec 7)
  deriving DecidableEq, Repr

/-- Operand fields: CS, `bar` and `barw`: operation and group (R195). -/
structure OpBar where
  (d a : Reg)
  (op : BitVec 2)
  (group : BitVec 8)
  deriving DecidableEq, Repr

/-- Operand fields: CS, `bara` (R195). -/
structure OpBara where
  (a : Reg)
  (op : BitVec 2)
  (group : BitVec 8)
  deriving DecidableEq, Repr

/-- Operand fields: CS, `barq` (R195). -/
structure OpBarq where
  (d : Reg)
  (group : BitVec 8)
  deriving DecidableEq, Repr

/-- Operand fields: CE, copy commands (R223). -/
structure OpCopy where
  (o1 o2 o3 : Reg)
  (m : BitVec 2)
  (la : BitVec 4)
  deriving DecidableEq, Repr

/-- Operand fields: CE, `mmt`, `mmtz`, `mdr` (R248). -/
structure OpMmt where
  (o1 o2 o3 : Reg)
  (m : BitVec 2)
  (la : BitVec 4)
  deriving DecidableEq, Repr

/-- Operand fields: CE, `mld`, `mst` (R248). -/
structure OpMacc where
  (b : Reg)
  (m : BitVec 2)
  (la : BitVec 4)
  deriving DecidableEq, Repr

/-- Operand fields: CE, `mclr` (R248). -/
structure OpMclr where
  (m : BitVec 2)
  (la : BitVec 4)
  deriving DecidableEq, Repr

/-- Operand fields: CE, `mwait` (R248). -/
structure OpLa where
  (la : BitVec 4)
  deriving DecidableEq, Repr

/-- Operand fields: CE, gathers and scatters: data vector, base, index vector, mask (R177). -/
structure OpGs where
  (v b i : Reg)
  (m : BitVec 2)
  (la : BitVec 4)
  deriving DecidableEq, Repr

/-- Operand fields: XR with a word form (R139). -/
structure OpRrW where
  (d a b : Reg)
  (w : BitVec 1)
  deriving DecidableEq, Repr

/-- Operand fields: XR, two sources. -/
structure OpRr where
  (d a b : Reg)
  deriving DecidableEq, Repr

/-- Operand fields: XR, shift by a 6-bit amount (R140). -/
structure OpShiftI where
  (d a : Reg)
  (n : BitVec 6)
  deriving DecidableEq, Repr

/-- Operand fields: XI (R141). -/
structure OpAddI where
  (d a : Reg)
  (imm : BitVec 16)
  deriving DecidableEq, Repr

/-- Operand fields: XR, `lea`, `leal` (R144). -/
structure OpLea where
  (d a b : Reg)
  (sh : BitVec 3)
  deriving DecidableEq, Repr

/-- Operand fields: XR, compare with a 5-bit immediate (R146). -/
structure OpCmpI where
  (d a : Reg)
  (imm : BitVec 5)
  deriving DecidableEq, Repr

/-- Operand fields: four register fields (`sel`, XV4). -/
structure OpR4 where
  (d a b c : Reg)
  deriving DecidableEq, Repr

/-- Operand fields: XR, moves of one lane (R148). -/
structure OpLane where
  (d a : Reg)
  (lane : BitVec 5)
  deriving DecidableEq, Repr

/-- Operand fields: LI (R142). -/
structure OpLiI where
  (d : Reg)
  (imm : BitVec 21)
  deriving DecidableEq, Repr

/-- Operand fields: PFX, FMT (R113). -/
structure OpFmt where
  (fa fb : BitVec 5)
  (rm : BitVec 3)
  (va vb vr : BitVec 1)
  deriving DecidableEq, Repr

/-- Operand fields: PFX, EXT (R113). -/
structure OpExt where
  (extv : BitVec 24)
  deriving DecidableEq, Repr

/-- Operand fields: XV, two sources, mask, width (R120). -/
structure OpVv where
  (d a b : Reg)
  (k : KReg)
  (w : BitVec 2)
  deriving DecidableEq, Repr

/-- Operand fields: XV, one source, mask, width. -/
structure OpVu where
  (d a : Reg)
  (k : KReg)
  (w : BitVec 2)
  deriving DecidableEq, Repr

/-- Operand fields: XV, `vcvt`: rounding code, mask, part (R215). -/
structure OpVcvt where
  (d a : Reg)
  (rm : BitVec 3)
  (k : KReg)
  (part : BitVec 2)
  deriving DecidableEq, Repr

/-- Operand fields: XV, quantisation: scale register, slot (R219). -/
structure OpVq where
  (d a x : Reg)
  (part : BitVec 2)
  deriving DecidableEq, Repr

/-- Operand fields: XV, packing: 5-bit part, mask (R218). -/
structure OpVp where
  (d a part : Reg)
  (k : KReg)
  deriving DecidableEq, Repr

/-- Operand fields: XV, `vdraw` (R222). -/
structure OpVdraw where
  (d : Reg)
  (k : KReg)
  (w : BitVec 2)
  deriving DecidableEq, Repr

/-- Operand fields: one register field (`draw`). -/
structure OpD where
  (d : Reg)
  deriving DecidableEq, Repr

/-- One constructor per row of spec/opcode_table.json. -/
inductive Instr where
  | ld (o : OpLoad)
  | ldX (o : OpLoad)
  | st (o : OpStore)
  | vld (o : OpVLoad)
  | vldX (o : OpVLoad)
  | vst (o : OpVStore)
  | ldf (o : OpFeWait)
  | ldff (o : OpFeWait)
  | stf (o : OpFe)
  | stff (o : OpFe)
  | sete (o : OpFeAddr)
  | qfe (o : OpFe)
  | waita (o : OpFeWait)
  | aadd (o : OpAtomic)
  | aand (o : OpAtomic)
  | aor (o : OpAtomic)
  | axor (o : OpAtomic)
  | amin (o : OpAtomic)
  | amax (o : OpAtomic)
  | aminn (o : OpAtomic)
  | amaxn (o : OpAtomic)
  | aswp (o : OpAtomic)
  | acas (o : OpAtomic)
  | afadd (o : OpAtomicF)
  | afadd2 (o : OpAtomic)
  | afmax (o : OpAtomicF)
  | afmin (o : OpAtomicF)
  | sig (o : OpSig)
  | send (o : OpSend)
  | waitq (o : OpWaitq)
  | qlen (o : OpQlen)
  | beq (o : OpBranch)
  | bne (o : OpBranch)
  | blt (o : OpBranch)
  | bge (o : OpBranch)
  | bltu (o : OpBranch)
  | bgeu (o : OpBranch)
  | bbs (o : OpBranch)
  | bbc (o : OpBranch)
  | jal (o : OpJump)
  | mfs (o : OpMfs)
  | mts (o : OpMts)
  | jalr (o : OpJalr)
  | trap (o : OpMts)
  | bkpt (o : OpImm10)
  | spawn (o : OpDA)
  | fns (o : OpFns)
  | enq (o : OpDA)
  | bar (o : OpBar)
  | bara (o : OpBara)
  | barw (o : OpBar)
  | barq (o : OpBarq)
  | cpy (o : OpCopy)
  | cpys (o : OpCopy)
  | cpf (o : OpCopy)
  | tld (o : OpCopy)
  | tst (o : OpCopy)
  | gth (o : OpCopy)
  | sct (o : OpCopy)
  | scta (o : OpCopy)
  | cpz (o : OpCopy)
  | cpx (o : OpCopy)
  | hist (o : OpCopy)
  | tbld (o : OpCopy)
  | tern (o : OpCopy)
  | mmt (o : OpMmt)
  | mmtz (o : OpMmt)
  | mdr (o : OpMmt)
  | mld (o : OpMacc)
  | mst (o : OpMacc)
  | mclr (o : OpMclr)
  | mwait (o : OpLa)
  | vgldW (o : OpGs)
  | vgldD (o : OpGs)
  | vgstW (o : OpGs)
  | vgstD (o : OpGs)
  | add (o : OpRrW)
  | sub (o : OpRrW)
  | andR (o : OpRr)
  | orR (o : OpRr)
  | xorR (o : OpRr)
  | andn (o : OpRr)
  | orn (o : OpRr)
  | minR (o : OpRr)
  | maxR (o : OpRr)
  | minu (o : OpRr)
  | maxu (o : OpRr)
  | adds (o : OpRr)
  | subs (o : OpRr)
  | addus (o : OpRr)
  | subus (o : OpRr)
  | sll (o : OpRrW)
  | srl (o : OpRrW)
  | sra (o : OpRrW)
  | rol (o : OpRr)
  | ror (o : OpRr)
  | slli (o : OpShiftI)
  | srli (o : OpShiftI)
  | srai (o : OpShiftI)
  | rori (o : OpShiftI)
  | addi (o : OpAddI)
  | mul (o : OpRrW)
  | mulh (o : OpRr)
  | mulhu (o : OpRr)
  | mulhsu (o : OpRr)
  | div (o : OpRrW)
  | divu (o : OpRrW)
  | rem (o : OpRrW)
  | remu (o : OpRrW)
  | clz (o : OpDA)
  | ctz (o : OpDA)
  | popc (o : OpDA)
  | brev (o : OpDA)
  | bswap (o : OpDA)
  | sxb (o : OpDA)
  | sxh (o : OpDA)
  | sxw (o : OpDA)
  | zxb (o : OpDA)
  | zxh (o : OpDA)
  | zxw (o : OpDA)
  | bfx (o : OpRr)
  | bfxu (o : OpRr)
  | bfi (o : OpRr)
  | lea (o : OpLea)
  | leal (o : OpLea)
  | seq (o : OpRr)
  | sne (o : OpRr)
  | slt (o : OpRr)
  | sltu (o : OpRr)
  | sle (o : OpRr)
  | sleu (o : OpRr)
  | seqi (o : OpCmpI)
  | snei (o : OpCmpI)
  | slti (o : OpCmpI)
  | sltui (o : OpCmpI)
  | slei (o : OpCmpI)
  | sleui (o : OpCmpI)
  | sgti (o : OpCmpI)
  | sgtui (o : OpCmpI)
  | sel (o : OpR4)
  | movvsD (o : OpLane)
  | movvsW (o : OpLane)
  | movsvD (o : OpLane)
  | movsvW (o : OpLane)
  | vbcastD (o : OpDA)
  | vbcastW (o : OpDA)
  | vbcastH (o : OpDA)
  | vbcastB (o : OpDA)
  | mvgk (o : OpDA)
  | mvkg (o : OpDA)
  | kand (o : OpRr)
  | kor (o : OpRr)
  | kxor (o : OpRr)
  | kandn (o : OpRr)
  | knot (o : OpDA)
  | kpop (o : OpDA)
  | kfirst (o : OpDA)
  | li (o : OpLiI)
  | fmt (o : OpFmt)
  | ext (o : OpExt)
  | vadd (o : OpVv)
  | vsub (o : OpVv)
  | vadds (o : OpVv)
  | vsubs (o : OpVv)
  | vaddus (o : OpVv)
  | vsubus (o : OpVv)
  | vmul (o : OpVv)
  | vmulh (o : OpVv)
  | vmulhu (o : OpVv)
  | vmin (o : OpVv)
  | vmax (o : OpVv)
  | vminu (o : OpVv)
  | vmaxu (o : OpVv)
  | vand (o : OpVv)
  | vor (o : OpVv)
  | vxor (o : OpVv)
  | vandn (o : OpVv)
  | vsll (o : OpVv)
  | vsrl (o : OpVv)
  | vsra (o : OpVv)
  | vcmpeq (o : OpVv)
  | vcmplt (o : OpVv)
  | vcmpltu (o : OpVv)
  | vcmple (o : OpVv)
  | vcmpleu (o : OpVv)
  | vsel (o : OpVv)
  | vfadd (o : OpVv)
  | vfsub (o : OpVv)
  | vfmul (o : OpVv)
  | vfdiv (o : OpVv)
  | vfmin (o : OpVv)
  | vfmax (o : OpVv)
  | vfsqrt (o : OpVu)
  | vrcp (o : OpVu)
  | vrsq (o : OpVu)
  | vexp2 (o : OpVu)
  | vlog2 (o : OpVu)
  | vfabs (o : OpVu)
  | vfneg (o : OpVu)
  | vfcmpeq (o : OpVv)
  | vfcmplt (o : OpVv)
  | vfcmple (o : OpVv)
  | vfcmpun (o : OpVv)
  | vfmaW (o : OpR4)
  | vfmsW (o : OpR4)
  | vfnmaW (o : OpR4)
  | vfnmsW (o : OpR4)
  | vfmaH (o : OpR4)
  | vfmsH (o : OpR4)
  | vfnmaH (o : OpR4)
  | vfnmsH (o : OpR4)
  | vdp2 (o : OpR4)
  | vdp4 (o : OpR4)
  | vdp4s (o : OpR4)
  | vdp4u (o : OpR4)
  | vcvt (o : OpVcvt)
  | vqnt (o : OpVq)
  | vqnts (o : OpVq)
  | vdqt (o : OpVq)
  | vpk (o : OpVp)
  | vunp (o : OpVp)
  | vtpk (o : OpVp)
  | vtun (o : OpVp)
  | vperm (o : OpVv)
  | vsldu (o : OpVv)
  | vsldd (o : OpVv)
  | vcmpr (o : OpVu)
  | vexpd (o : OpVu)
  | vredi (o : OpVu)
  | vredmax (o : OpVu)
  | vredmin (o : OpVu)
  | vredmaxu (o : OpVu)
  | vredminu (o : OpVu)
  | vredor (o : OpVu)
  | vred (o : OpVu)
  | vfredmax (o : OpVu)
  | vfredmin (o : OpVu)
  | vscani (o : OpVu)
  | vfscan (o : OpVu)
  | draw (o : OpD)
  | vdraw (o : OpVdraw)
  | rett
  | yield
  | quit
  | fnc
  | ifnc
  /-- A long-latency result returns, is written and sets its full bit, or a poisoned read faults. (R24) -/
  | resultReturn
  /-- A system fault posted against a thread makes it FAULTED at an issue boundary. (R272) -/
  | systemFault
  /-- A bounded wait's limit expires and the wait is withdrawn with a wait-limit trap. (R45) -/
  | waitLimitExpiry
  /-- The home confirms withdrawal of an LDF wait, and the thread takes its trap. (R45) -/
  | ldfWithdrawConfirm
  /-- A refused full/empty wait is retried after 64 core cycles. (R58) -/
  | feWaitRetry
  /-- A combining entry idle for 64 core cycles is sent. (R67) -/
  | combineTimeout
  /-- A quit thread's context becomes FREE once its streams are acknowledged and results returned. (R36) -/
  | contextFree
  /-- A crew's allocation and engine set are cleared and released. (R32) -/
  | crewRelease
  /-- A page walk ends with a cached leaf, a fault or poison. (R56) -/
  | walkComplete
  /-- A miss refused by a full walk queue is retried after 64 cycles. (R80) -/
  | walkRetry
  /-- A cluster unit accepts, refuses or stores a spawn request. (R168) -/
  | spawnRequest
  /-- A waiting spawn request is placed when a context and crew become available. (R35) -/
  | spawnPlace
  /-- An arrival or partial value reaches a combining node of a group. (R196) -/
  | barrierArrival
  /-- A core handles a pre-emption message for a crew. (R46) -/
  | meshInterrupt
  /-- After drains, the crew's contexts are saved to the frame and enter SAVED. (R46) -/
  | crewSave
  /-- A queued copy command starts in queue order. (R224) -/
  | copyStart
  /-- A ring push proceeds once its tile fits, advancing TAIL. (R232) -/
  | ringPush
  /-- A copy command completes and frees its queue entry. (R224) -/
  | copyComplete
  /-- A copy command fails and posts a fault record. (R227) -/
  | copyFail
  /-- The next queued matrix command starts. (R249) -/
  | matrixStart
  /-- A K-step runs once its tiles are available, updating the accumulator and rings. (R251) -/
  | matrixStep
  /-- Host write of a queue's TAIL to enqueue records. (R260) -/
  | lqptrTailWrite
  /-- The scheduler reads and checks the record that has become head. (R262) -/
  | headRecordCheck
  /-- The scheduler rereads unsatisfied dependences of head records. (R263) -/
  | dependencePoll
  /-- A launch completes and updates its completion counter. (R263) -/
  | launchComplete
  /-- At a core's rotation boundary the scheduler places threads in FREE contexts. (R264) -/
  | rotationBoundary
  /-- After 1,024 boundaries a co-resident launch starts holding contexts. (R265) -/
  | coresidentHold
  /-- After 4,096 die cycles unplaced, the scheduler pre-empts a lower-priority crew. (R266) -/
  | priorityPreempt
  /-- Writing TD=1 starts a queue teardown and stops its threads. (R269) -/
  | teardownStart
  /-- After drains, crews are released, counters aborted and the queue reset. (R269) -/
  | teardownEnd
  /-- A record is written to the supervisor fault queue, with MSI-X and signal. (R277) -/
  | faultRecordPost
  /-- MCMD RESOLVE with RESUME. (R280) -/
  | resolveResume
  /-- MCMD RESOLVE with ABORT. (R280) -/
  | resolveAbort
  /-- MCMD RESOLVE with END. (R280) -/
  | resolveEnd
  /-- MCMD INVAL of one page leaf. (R292) -/
  | invalPage
  /-- MCMD INVAL of every leaf of an ASID. (R292) -/
  | invalAsid
  /-- MCMD INVAL of every leaf. (R292) -/
  | invalAll
  /-- INVAL completes once no matching leaf is held and prior accesses are performed. (R292) -/
  | invalComplete
  /-- MCMD MOVE of bytes with their F/E bits and poison, withdrawing waiters. (R293) -/
  | moveMem
  /-- MCMD PREEMPT in park-in-place mode. (R286) -/
  | preemptPark
  /-- MCMD PREEMPT in full-eviction mode. (R286) -/
  | preemptEvict
  /-- MCMD RESIDENT set of a resident-region entry. (R33) -/
  | residentSet
  /-- MCMD RESIDENT clear of a resident-region entry. (R33) -/
  | residentClear
  /-- A flit arrives on a link and is checked and accepted in order, or replay is requested. (R301) -/
  | flitReceive
  /-- A sender replays flits from the requested one. (R301) -/
  | linkReplay
  /-- After 4,096 idle port cycles a keepalive trailer is sent. (R300) -/
  | keepalive
  /-- A port declares its link down and starts retraining. (R301) -/
  | linkDown
  /-- Retraining succeeds and replay resumes, or fails and packets are discarded. (R301) -/
  | retrainEnd
  /-- A router forwards a packet by its bank, or returns it as no route. (R304) -/
  | packetForward
  /-- A READ packet is performed at the home and answered with RDATA. (R61) -/
  | read
  /-- Read data arrives at the requester. (R299) -/
  | rdata
  /-- A WRITE packet is committed, held, discarded or refused at its destination. (R66) -/
  | write
  /-- An ATOMIC packet is executed at its destination under the session rules. (R66) -/
  | atomic
  /-- A SIGNAL packet is committed at its destination. (R185) -/
  | signal
  /-- The value of an ATOMIC arrives at the requester. (R299) -/
  | aval
  /-- A message packet enters an inbox or reply slot, or is refused. (R190) -/
  | msg
  /-- An acknowledgement frees the source's copies up to its sequence. (R66) -/
  | ack
  /-- A refusal arrives and the source resends, backs off or counts toward the limit. (R302) -/
  | nack
  /-- A session close, or abandon, is committed at the destination. (R303) -/
  | close
  /-- A route-switch marker arrives on an input port. (R305) -/
  | drain
  /-- A management packet, including a probe, is handled. (R308) -/
  | mgmt
  /-- An unacknowledged packet's timeout fires and it is resent or raises a stream error. (R302) -/
  | retransmitTimeout
  /-- A backoff after a NACK ends and the packet is resent. (R302) -/
  | nackBackoffExpiry
  /-- A destination frees a closed or idle stream-table entry after its lifetime. (R303) -/
  | sessionReclaim
  /-- Writing RTCTL.SW flips the active route bank and sends DRAIN markers. (R305) -/
  | routeSwitch
  /-- Host read through BAR2 of device memory. (R313) -/
  | bar2Read
  /-- Host write through BAR2 of device memory. (R313) -/
  | bar2Write
  /-- Host AtomicOp to BAR2 completes as Unsupported Request. (R313) -/
  | bar2Atomicop
  /-- Power applied: boot, self-test, initialisation and training. (R320) -/
  | powerUp
  /-- Writing DEVCTL.RST resets the device. (R320) -/
  | deviceReset
  /-- A PF Function Level Reset acts as a device reset. (R315) -/
  | pfFlr
  /-- A VF Function Level Reset tears down each of its queues. (R315) -/
  | vfFlr
  /-- Writing MBXDB.GO passes the mailbox to firmware. (R322) -/
  | mailboxGo
  /-- Firmware answers the mailbox and clears GO. (R322) -/
  | mailboxAnswer
  /-- SPDM GET_VERSION over DOE. (R323) -/
  | getVersion
  /-- SPDM GET_CAPABILITIES. (R323) -/
  | getCapabilities
  /-- SPDM NEGOTIATE_ALGORITHMS. (R323) -/
  | negotiateAlgorithms
  /-- SPDM GET_DIGESTS. (R323) -/
  | getDigests
  /-- SPDM GET_CERTIFICATE. (R323) -/
  | getCertificate
  /-- SPDM CHALLENGE. (R323) -/
  | challenge
  /-- SPDM signed GET_MEASUREMENTS. (R323) -/
  | getMeasurements
  /-- Read through the readback aperture of the object RBSEL selects. (R324) -/
  | readbackRead
  /-- Write through the readback aperture, accepted or refused by class. (R325) -/
  | readbackWrite
  /-- Setting DEVCTL.QREQ stops issue, engines, schedulers and ingress. (R326) -/
  | quiesceRequest
  /-- QACK is set once every unit has stopped. (R326) -/
  | quiesceAck
  /-- Clearing QREQ resumes every unit where it stopped. (R326) -/
  | quiesceRelease
  /-- Every GINT core cycles a granary bank scrubs one dword. (R327) -/
  | scrubBankRead
  /-- Every TINT die cycles a channel scrubs one burst. (R327) -/
  | scrubChannelRead
  /-- A refresh postponed eight intervals is forced on its channel. (R270) -/
  | refreshForced
  /-- Every 2^20 die cycles a die moves its clock step by power and temperature. (R328) -/
  | clockStep
  /-- At 115 °C a die stops its clocks and the device enters maintenance. (R328) -/
  | thermalTrip
  /-- Write to a management or queue register that has no row of its own. (R2) -/
  | registerWrite
  /-- A word of a reserved major, an unassigned selecting-field value or a reserved prefix kind reaches issue and takes its illegal-instruction or illegal-bundle trap. (R123) -/
  | illegalInstruction
  /-- A completion from the host for a device read or AtomicOp to host memory arrives at home slice 0 of die 0, carrying data or Unsupported Request, Completer Abort or poison. (R314) -/
  | pcieCompletion
  /-- A device read to host memory gets no completion in time and returns poisoned dwords. (R314) -/
  | completionTimeout
  /-- The host writes PCI Express configuration space, such as Bus Master Enable, AtomicOp Requester Enable or the SR-IOV and BAR controls, which changes how device accesses to host memory behave. (R314) -/
  | configurationWrite
  /-- A partner package coming up after its own bring-up trains against a live package's Ubfort port, so that the port is up again. (R309) -/
  | portTraining
  /-- Power is removed from the package, which loses all architectural state. (R320) -/
  | powerRemoval
  deriving DecidableEq, Repr

end Sys2Proof
end

