-- ==== Sys2Proof/Machine/State.lean ====
section
/-! DEFINITION. The state of a Feriebo system: every package, die, core and context, the memory behind them, the packets in
flight, and the agenda that says which agent moves next. Plain data throughout. -/

namespace Sys2Proof.Machine

/-! ## Finite maps -/

/-- The value stored under a key of a sorted list, or a default. -/
def Assoc.get {α : Type} : List (Nat × α) → Nat → α → α
  | [], _, d => d
  | (k, v) :: r, n, d => if n = k then v else Assoc.get r n d

/-- Stores a value under a key, keeping keys in ascending order. -/
def Assoc.set {α : Type} : List (Nat × α) → Nat → α → List (Nat × α)
  | [], n, x => [(n, x)]
  | (k, v) :: r, n, x =>
    if n = k then (n, x) :: r else if n < k then (n, x) :: (k, v) :: r else (k, v) :: Assoc.set r n x

/-! ## Memory (R49 to R57) -/

/-- Physical memory of every package under 54-bit addresses: bytes that differ from zero, dwords whose full/empty bit is
empty, dwords that carry the poison mark. An unlisted byte reads zero, an unlisted dword is full and not poisoned. -/
structure Memory where
  cells : List Host.Cell := []
  empty : List Nat := []
  poison : List Nat := []
  deriving DecidableEq, Repr

/-! ## Threads (R23 to R29) -/

/-- Park reasons 1 to 7 (R29). -/
inductive ParkReason where
  | fill | fe | queue | barrier | matrix | copy | message
  deriving DecidableEq, Repr

/-- Context states (R29); SAVED threads hold no context. -/
inductive Status where
  | free | ready | parked (r : ParkReason) | faulted
  deriving DecidableEq, Repr

/-- What a parked thread waits for; the park reason alone does not say it (R24, R28, R39, R43, R45, R64, R68, R69). -/
inductive Wait where
  | none
  | pendingAll
  | reg (n : Reg)
  | vec (n : Reg)
  | acc (m : BitVec 2)
  | queue (code : BitVec 4) (push : Bool)
  | count (code : BitVec 4) (n : Nat)
  | walk
  | walkRefused (since : Nat)
  | streams (mask : BitVec 8)
  | ownStores (pa size : Nat)
  | streamRoom (n : BitVec 3)
  | closeStore
  | fenceAll
  | fenceCode
  | barrier (group : BitVec 8)
  | copyRoom
  | tableSlot (n : BitVec 2)
  | matrixRoom
  | matrixIdle
  | ringIdle (n : BitVec 3)
  | outbox (ob : BitVec 1) (slotOnly : Bool)
  | spawnAnswer
  | matrixCommand (id : Nat)
  deriving DecidableEq, Repr

/-- Operations a home performs on its memory. -/
inductive MemOp where
  | load | store
  | ldf | ldff | stf | stff | sete | qfe | waita
  | ami (aop : BitVec 3) | amf (aop : BitVec 3)
  | setDone | subDone
  deriving DecidableEq, Repr

/-- One access to one home: `data` holds the bytes to write or the operand as a little-endian number, `got` the bytes read
so far, `done` the dword indexes already performed (R59). -/
structure MemReq where
  op : MemOp := .load
  va : Dword := 0
  pa : Nat := 0
  size : Nat := 8
  data : Nat := 0
  cmp : Dword := 0
  got : Nat := 0
  done : List Nat := []
  deriving DecidableEq, Repr

/-- Where an access of a pending result stands. -/
inductive Stage where
  | here
  | unsent
  | sent
  | waiting
  | refused (since : Nat)
  | unitRead
  | unitWrite (old : Nat)
  | withdrawing
  | performed
  | poisoned
  deriving DecidableEq, Repr

/-- One access of a pending result: the vector lane it belongs to, the request and its stage. -/
structure Lane where
  lane : Nat := 0
  req : MemReq := {}
  stage : Stage := .here
  /-- The timeouts and counted refusals of its READ, 256 once they have reached the limit, and the die cycle of its last transmission (R302). -/
  tries : Nat := 0
  sentAt : Nat := 0
  deriving DecidableEq, Repr

/-- The destination of a result that returns later (R24, R28, R40). -/
inductive Dest where
  | none
  | reg (n : Reg)
  | port (port : BitVec 2) (code : BitVec 4)
  | reply (ob : BitVec 1) (header : Dword)
  | vec (n : Reg) (width : Nat)
  deriving DecidableEq, Repr

/-- What a pending result belongs to (R39, R40); `later` is a result already there whose push waits for an earlier one of its thread (R28), `record`
the record that a waiting TLD, TST or ENQ reads (R234, R268), `enq` the record that an ENQ writes as record `n` of a queue (R268). -/
inductive PendKind where
  | record
  | enq (p : Pkg) (q : Nat) (n : Word)
  | access
  | copy (id : Nat)
  | matrix (id : Nat) (m : BitVec 2)
  | spawn
  | later
  deriving DecidableEq, Repr

/-- A pending result of a thread (R38 to R40): the word that issued it, its destination and its accesses. -/
structure Pending where
  id : Nat := 0
  pc : BitVec 18 := 0
  xd : Bool := false
  kind : PendKind := .access
  dest : Dest := .none
  relaxed : Bool := false
  lanes : List Lane := []
  limit : Nat := 0
  since : Nat := 0
  /-- The shadow count the instruction asked for (R39). -/
  la : Nat := 0
  deriving DecidableEq, Repr

/-- Packet types (R299). -/
inductive PType where
  | read | rdata | write | atomic | signal | aval | msg | ack | nack | close | drain | mgmt
  deriving DecidableEq, Repr

/-- A Ubfort packet: the header fields of R297 but for ECRC, its payload as a little-endian number, and the model's own notes: the bytes
a WRITE enables, the access or launch it belongs to, the virtual addresses that its leaf translated (R292), the package whose mesh holds it, the output
port it waits at, the input port it came by (14 for none), and whether its ECRC failed (notes/assumptions/8.md). -/
structure Packet where
  type : PType := .read
  vn : BitVec 3 := 0
  bank : BitVec 1 := 0
  dst : Ep := 0
  src : Ep := 0
  ctx : Ctx := 0
  str : BitVec 4 := 15
  seq : BitVec 16 := 0
  opn : Bool := false
  cls : Bool := false
  epoch : BitVec 1 := 0
  abn : Bool := false
  len : BitVec 9 := 0
  op : BitVec 7 := 0
  pa : BitVec 54 := 0
  pmask : BitVec 32 := 0
  cqe : BitVec 5 := 0
  hops : BitVec 5 := 0
  auxf : BitVec 32 := 0
  payload : Nat := 0
  be : BitVec 256 := 0
  note : Nat := 0
  vas : List Dword := []
  at_ : Pkg := 0
  via : Option (BitVec 4) := none
  inPort : BitVec 4 := 14
  bad : Bool := false
  /-- The time at its destination when it was sent (R302), the cycle of the port it came by at which it came, or of the port it is queued for since when it
  waits (R302), and that it has crossed its package's bridge, or need not (R8). -/
  born : Nat := 0
  since : Nat := 0
  crossed : Bool := false
  /-- Of a packet whose sending on a link has begun: its flits already sent (R298). -/
  out : Nat := 0
  deriving DecidableEq, Repr

/-- A packet its source keeps until it is acknowledged (R66, R302). -/
structure Sent where
  pkt : Packet := {}
  sentAt : Nat := 0
  tries : Nat := 0
  backoff : Option Nat := none
  resent : Bool := false
  deriving DecidableEq, Repr

/-- A source's side of one stream (R64 to R66); `wire` is the epoch its packets carry (notes/assumptions/19.md). -/
structure Stream where
  bound : Bool := false
  ep : Ep := 0
  epoch : BitVec 1 := 0
  wire : BitVec 1 := 0
  seq : BitVec 16 := 0
  opened : Bool := false
  err : Bool := false
  unacked : List Sent := []
  deriving DecidableEq, Repr

/-- A fault to be posted against a thread (R271 to R274). -/
structure FaultReq where
  kind : BitVec 8 := 0
  src : BitVec 4 := 0
  id : Nat := 0
  pc : BitVec 18 := 0
  va : Dword := 0
  aux0 : Dword := 0
  aux1 : Dword := 0
  aux2 : Dword := 0
  aux3 : Dword := 0
  deriving DecidableEq, Repr

/-- A record outstanding against a thread, with the endpoint, the context and the SEQ that name it (R273, R280); `gone` once the command it is about
went with an evicted crew, done or failed. -/
structure Outstanding where
  ep : Ep := 0
  ctx : Ctx := 0
  gone : Bool := false
  seq : BitVec 16 := 0
  src : BitVec 4 := 0
  kind : BitVec 8 := 0
  id : Nat := 0
  deriving DecidableEq, Repr

/-- The record that a TLD, TST or ENQ has read, kept for the instruction's reissue: where it stands, the instruction's address, its dwords, and
the first of them that carried the poison mark (R234, R268). -/
structure RecordRead where
  pc : BitVec 18 := 0
  va : Dword := 0
  dwords : List Dword := []
  bad : Option Nat := none
  deriving DecidableEq, Repr

/-- A fault that a walk found, kept until the instruction reissues and takes it (R56, R171); `table` says that a table itself could not be read
(R274). -/
structure WalkFault where
  table : Bool := false
  page : Nat := 0
  kind : BitVec 8 := 0
  entry : Dword := 0
  entryPa : Nat := 0
  deriving DecidableEq, Repr

/-- A thread in its context: the architectural state of R23 with the state R29 to R48 imply. -/
structure Thread where
  status : Status := .free
  wait : Wait := .none
  g : Vector Dword 32 := Vector.replicate 32 0
  full : BitVec 32 := 0xFFFFFFFF
  v : Vector VReg 32 := Vector.replicate 32 0
  k : Vector Dword 8 := Vector.replicate 8 0
  pc : BitVec 18 := 0
  st : Dword := 0
  pfx : Dword := 0
  tvec : Dword := 0
  tepc : Dword := 0
  tst : Dword := 0
  tcause : Dword := 0
  tval0 : Dword := 0
  tval1 : Dword := 0
  lti : BitVec 24 := 0
  lid : Lid := 0
  asid : Asid := 0
  did : Dword := 0
  dkey0 : Dword := 0
  dkey1 : Dword := 0
  dctr : Dword := 0
  qbind : Dword := 0
  gms : Dword := 0
  wlim : Dword := 0
  streams : Vector Stream 8 := Vector.replicate 8 {}
  msgStreams : List (Nat × Stream) := []
  shadow : Nat := 0
  pend : List Pending := []
  nextId : Nat := 0
  lastIssue : Option Nat := none
  yielded : Bool := false
  stepTrap : Bool := false
  quitting : Bool := false
  /-- Of an instruction that waits at its PC after issue (R45, R69, R194, R195): one more than the cycle of its issue, 0 for none;
  its limit, 0 for none; its destination; the address after its unit. -/
  waitFrom : Nat := 0
  waitLimit : Nat := 0
  heldDest : Dest := .none
  heldNext : BitVec 18 := 0
  faultQ : List FaultReq := []
  outstanding : List Outstanding := []
  walkFault : Option WalkFault := none
  record : Option RecordRead := none
  /-- Of a unit that has parked: the targets of its port operands in the order in which they are served, each with whether it is pushed to (R28). -/
  needs : List (BitVec 4 × Bool) := []
  /-- The package of the launch's queue, which with LID names the launch (R23, R259). -/
  home : Pkg := 0
  /-- The crew's granary base and limit, its engine set, the CORUN bit, and the barriers arrived at (R16, R23, R42). -/
  cgb : BitVec 24 := 0
  cgl : BitVec 24 := 0
  eset : Bool := false
  corun : Bool := false
  arrived : BitVec 4 := 0
  episode : Vector (BitVec 7) 4 := Vector.replicate 4 0
  arrived255 : Bool := false
  header : Option Dword := none
  heldReq : Option Nat := none
  replyPos : Option (Nat × Nat) := none
  restMsg : List Dword := []
  restReply : List Dword := []
  /-- Dwords read of that message before its thread was saved, and since (R288). -/
  restGone : Nat := 0
  slotHome : Ep := 0
  /-- The thread was ended by END: what it sent and has not been acknowledged is discarded (R280, R303). -/
  abandon : Bool := false
  deriving DecidableEq, Repr

/-! ## Core resources (R16) -/

/-- A core queue: its dwords oldest first, the head index of its circular store, the pushes reserved (R28, R45); what the readback window has written
into entries that hold no dword, by entry (R325). -/
structure CoreQueue where
  data : List Dword := []
  head : BitVec 5 := 0
  reserved : Nat := 0
  spare : List (Nat × Dword) := []
  deriving DecidableEq, Repr

/-- A message in an inbox (R187, R188): header, payload, the sender's launch, the thread that holds it, dwords read. -/
structure InMsg where
  header : Dword := 0
  payload : List Dword := []
  lid : Nat := 0
  holder : Option Ctx := none
  read : Nat := 0
  id : Nat := 0
  /-- The entry of the message store that holds it (R275). -/
  entry : Nat := 0
  deriving DecidableEq, Repr

/-- A slot of the reply inbox: who reserved it, the reply it holds, its arrival order, where replies are forwarded after
a restore elsewhere (R187, R193). -/
structure Slot where
  owner : Option Ctx := none
  msg : Option (Dword × List Dword) := none
  order : Nat := 0
  saved : Option (Nat × BitVec 24) := none
  deriving DecidableEq, Repr

/-- A message in an outbox until its destination acknowledges it, and the entry of the message store that holds it (R190, R275). -/
structure OutMsg where
  dst : Ep := 0
  ctx : Ctx := 0
  seq : BitVec 16 := 0
  header : Dword := 0
  payload : List Dword := []
  entry : Nat := 0
  deriving DecidableEq, Repr

/-- An entry of the combining buffer (R67): the bytes of one thread, stream and aligned 256-byte segment, and the virtual addresses of its stores (R292). -/
structure Combine where
  ctx : Ctx := 0
  strm : BitVec 3 := 0
  seg : Nat := 0
  bytes : List Host.Cell := []
  /-- The dwords that some one store of the entry wrote whole (R173). -/
  whole : List Nat := []
  last : Nat := 0
  vas : List Dword := []
  deriving DecidableEq, Repr

/-- Where a copy or matrix command stands. -/
inductive Phase where
  | queued | running | stopped | held | failed | done
  deriving DecidableEq, Repr

/-- A dword that a copy command has read, for a unit or an index of it: its addresses, its value, its mark (R59, R238). -/
structure Fetch where
  key : Nat := 0
  va : Nat := 0
  pa : Nat := 0
  value : Nat := 0
  marked : Bool := false
  deriving DecidableEq, Repr

/-- A READ that a copy command has sent and that has not returned, under its number (R302). -/
structure ReadOut where
  n : Nat := 0
  key : Nat := 0
  va : Nat := 0
  pa : Nat := 0
  sentAt : Nat := 0
  tries : Nat := 0
  deriving DecidableEq, Repr

/-- Bytes of one dword of the core's own bank or store that a copy command has yet to write, and their virtual address (R59, R292). -/
structure Put where
  pa : Nat := 0
  va : Dword := 0
  n : Nat := 8
  x : Nat := 0
  mark : Bool := false
  /-- Bytes among the `n` that it does not write, a bit for each (R59, R236). -/
  gaps : Nat := 0
  deriving DecidableEq, Repr

/-- A copy command of the core's copy queue (R223 to R227). -/
structure CopyCmd where
  /-- The entry of the copy queue it holds, which its packets carry (R297). -/
  cqe : BitVec 5 := 0
  got : List Fetch := []
  reads : List ReadOut := []
  nextRead : Nat := 0
  puts : List Put := []
  walkWait : Wait := .none
  walkFault : Option WalkFault := none
  /-- Of a CPX that has failed at a block: it may still write dwords of later blocks (R258). -/
  spec : Bool := false
  id : Nat := 0
  eop : BitVec 5 := 0
  word : Word := 0
  pc : BitVec 18 := 0
  ctx : Ctx := 0
  home : Pkg := 0
  lid : Lid := 0
  lti : BitVec 24 := 0
  ended : Bool := false
  asid : Asid := 0
  ops : List Dword := []
  action : BitVec 2 := 0
  w : Dword := 0
  value : Dword := 0
  base : Dword := 0
  key0 : Dword := 0
  key1 : Dword := 0
  did : Dword := 0
  cgb : BitVec 24 := 0
  cgl : BitVec 24 := 0
  record : List Dword := []
  phase : Phase := .queued
  next : Nat := 0
  ahead : List Nat := []
  total : Nat := 0
  bytes : Nat := 0
  ring : Option (BitVec 3) := none
  tile : Nat := 0
  srcPos : Nat := 0
  outLen : Nat := 0
  flags : BitVec 8 := 0
  streams : List (Nat × Stream) := []
  fault : Option FaultReq := none
  /-- Dwords expanded and not yet pushed, each with its place in the command, and the commands it starts after (R232, R241). -/
  buf : List (Nat × Nat) := []
  after : List Nat := []
  /-- Of a CPX to memory: the last bytes of the block before, which lie in one dword of the destination with the next block's first (R59, R245). -/
  tail : List Nat := []
  /-- It goes on after a fault that an eviction of its crew waited for, which waits for its end too (R295). -/
  awaited : Bool := false
  /-- Tile bytes of its ring (R230). -/
  tileLen : Nat := 2048
  deriving DecidableEq, Repr

/-- A matrix command (R248 to R252). -/
structure MxCmd where
  id : Nat := 0
  eop : BitVec 5 := 0
  word : Word := 0
  pc : BitVec 18 := 0
  xd : Bool := false
  ctx : Ctx := 0
  home : Pkg := 0
  lid : Lid := 0
  lti : BitVec 24 := 0
  acc : BitVec 2 := 0
  ringA : BitVec 3 := 0
  ringB : BitVec 3 := 0
  a : Dword := 0
  c : Dword := 0
  fmt : BitVec 16 := 0
  rm : BitVec 3 := 0
  base : Dword := 0
  key : BitVec 128 := 0
  did : Dword := 0
  scale : VReg := 0
  la : BitVec 4 := 0
  phase : Phase := .queued
  /-- Of a running MDR, MLD or MST: the dwords performed, and what an MLD has read so far, element by element (R255, R256). -/
  units : List Nat := []
  got : List (Nat × BitVec 48) := []
  ended : Bool := false
  deriving DecidableEq, Repr

/-- A table slot of the codec (R241): lengths, tag, histogram, references. -/
structure TableSlot where
  lens : List (BitVec 4) := []
  tag : BitVec 8 := 0
  hist : List Word := []
  refs : Nat := 0
  deriving DecidableEq, Repr

/-- A record of an ended thread that awaits the supervisor: the core, the context and the SEQ that name it, and the command of a copy's (R227, R280). -/
structure Hold where
  ep : Ep := 0
  seq : BitVec 16 := 0
  ctx : Ctx := 0
  copy : Option Nat := none
  deriving DecidableEq, Repr

/-- A dword of a frame as a save has written it, or a restore has read it: its address, its bytes, its full/empty bit, its mark (R59, R287). -/
structure FrameDword where
  pa : Nat := 0
  value : Nat := 0
  full : Bool := true
  marked : Bool := false
  deriving DecidableEq, Repr

/-- A crew resident on a core (R31, R32). -/
structure Crew where
  home : Pkg := 0
  lid : Lid := 0
  asid : Asid := 0
  base : BitVec 24 := 0
  limit : BitVec 24 := 0
  eset : Bool := false
  stamp : Nat := 0
  /-- A pre-emption under way: mode 0 park-in-place, 1 full eviction, with the frame it uses. -/
  preempt : Option (BitVec 4 × Nat) := none
  /-- The crew is saved and stays on the core (R47). -/
  parkedIn : Bool := false
  tearing : Bool := false
  /-- Records of ended threads that await the supervisor (R227, R280). -/
  holds : List Hold := []
  /-- Of a save under way: the dwords of the frame written so far (R59, R287). -/
  written : List FrameDword := []
  /-- Of a restore under way: the dwords of the allocation still to be written; till then nothing of the crew goes on (R59, R287). -/
  owed : List FrameDword := []
  deriving DecidableEq, Repr

/-- The sixteen output rows and columns of an accumulator tile, element 16i + j (R101, R289). -/
abbrev Acc := Vector (BitVec 48) 256

/-- A core (R16). -/
structure Core where
  cyc : Dword := 0
  last : Ctx := 15
  threads : Vector Thread 16 := Vector.replicate 16 {}
  /-- The threads parked on a core queue or a full outbox, in the order in which they parked; a thread keeps its place until its instruction ends
  (R28, R44). -/
  parkOrder : List (Ctx × Wait) := []
  crews : List Crew := []
  resident : Vector Dword 4 := Vector.replicate 4 0
  rings : Vector Dword 8 := Vector.replicate 8 0
  /-- Of each ring: the tile index the next push reserves and the one TAIL stands at, both counted without end; and the whole tiles (R232). -/
  ringNext : Vector Nat 8 := Vector.replicate 8 0
  ringTails : Vector Nat 8 := Vector.replicate 8 0
  ringDone : List (Nat × Nat) := []
  acc : Vector Acc 4 := Vector.replicate 4 (Vector.replicate 256 0)
  apc : Vector Dword 4 := Vector.replicate 4 0
  ast : Vector Dword 4 := Vector.replicate 4 0
  cq : Vector CoreQueue 8 := Vector.replicate 8 {}
  mq : List MxCmd := []
  copies : List CopyCmd := []
  nextCmd : Nat := 0
  slots : Vector TableSlot 4 := Vector.replicate 4 {}
  inbox : List InMsg := []
  replies : Vector Slot 64 := Vector.replicate 64 {}
  outbox0 : List OutMsg := []
  outbox1 : List OutMsg := []
  msgSeq : Nat := 0
  combine : List Combine := []
  closes : List Sent := []
  /-- The epoch of the last session under each key at each destination (notes/assumptions/19.md). -/
  epochs : List (Nat × Nat) := []
  stall : Nat := 0
  /-- The rotation boundary, plus one, at which the die's scheduler last took the core's contexts (R264). -/
  swept : Nat := 0
  /-- Of the core's own stores to its instruction store whose IFNC has not come, oldest first: the word's offset, what it held before, the thread
  that wrote (R78); and the bytes of live tiles that something other than a push wrote (R76). -/
  stale : List (Nat × Word × Nat) := []
  tampered : List Nat := []
  image : Vector (BitVec 128) 8 := Vector.replicate 8 0
  /-- Scrubbing, by bank, 64 for the instruction store: the next row and the cycle of the last read (R327). -/
  bankScrub : List (Nat × Nat × Nat) := []
  badRegs : List (Ctx × BitVec 16) := []
  /-- Dwords of v registers in error that the readback window has rewritten, as 8r + their number (R284, R325). -/
  fresh : List (Ctx × Nat) := []
  badWords : List Nat := []
  deriving DecidableEq, Repr

/-! ## Homes, dies and packages -/

/-- An entry of a destination's stream table (R66, R303, R324). -/
structure Entry where
  src : Ep := 0
  ctx : Ctx := 0
  str : BitVec 4 := 0
  cqe : BitVec 5 := 0
  epoch : BitVec 1 := 0
  expected : BitVec 16 := 0
  isOpen : Bool := true
  held : List Packet := []
  since : Nat := 0
  lastRx : Nat := 0
  /-- Dwords already performed of the operation now expected (R59), and whether it awaits the host (R314). -/
  done : List Nat := []
  busy : Bool := false
  deriving DecidableEq, Repr

/-- A full/empty wait held at a home (R58): the dword, the waiting access and how its value goes back. -/
structure Waiter where
  pa : Nat := 0
  req : MemReq := {}
  ep : Ep := 0
  ctx : Ctx := 0
  pend : Nat := 0
  lane : Nat := 0
  /-- The packet that brought the wait from another core, none when the home is the waiting core's own bank. -/
  pkt : Option Packet := none
  deriving DecidableEq, Repr

/-- A cached leaf (R56, R80). -/
structure TlbEntry where
  set : BitVec 12 := 0
  asid : Asid := 0
  level : BitVec 2 := 1
  vpn : Nat := 0
  leaf : Dword := 0
  used : Nat := 0
  deriving DecidableEq, Repr

/-- Who waits for a walk, and the leaf bits the access needs: RD 1, WR 2, AT 4 (R55, R56): a thread, a copy command of a core, or the scheduler of
a launch queue. -/
structure WalkWaiter where
  copy : Option Nat := none
  queue : Option Nat := none
  ep : Ep := 0
  ctx : Ctx := 0
  need : Nat := 0
  deriving DecidableEq, Repr

/-- A walk in progress or queued: the entries read so far, and the table that the next one lies in (R56, R80). -/
structure Walk where
  read : Nat := 0
  table : Nat := 0
  asid : Asid := 0
  page : Nat := 0
  waiters : List WalkWaiter := []
  deriving DecidableEq, Repr

/-- One die's translation unit and clock (R13, R80, R328). -/
structure Die where
  cyc : Nat := 0
  /-- Cycles before the package's last reset, for the lifetime of packets (R302). -/
  base : Nat := 0
  tlb : List TlbEntry := []
  stamp : Nat := 0
  walks : List Walk := []
  walkQueue : List Walk := []
  step : BitVec 4 := 0
  stepAt : Nat := 0
  /-- Scrubbing, by channel of the die: the next burst and the cycle of the last read (R327). -/
  channelScrub : List (Nat × Nat × Nat) := []
  /-- The bursts that a channel has read in its present sweep (R327). -/
  sweptBursts : List (Nat × List Nat) := []
  /-- The cycle until which a forced refresh holds a channel (R270). -/
  refresh : List (Nat × Nat) := []
  deriving DecidableEq, Repr

/-- A flit on a link with its trailer, or a keepalive trailer alone (R296, R300). -/
structure Flit where
  bits : BitVec 256 := 0
  vn : BitVec 3 := 0
  keep : Bool := false
  seq : BitVec 12 := 0
  creditVn : BitVec 3 := 0
  credits : BitVec 9 := 0
  crc : BitVec 16 := 0
  /-- The packet whose last flit this is, with the model's notes. -/
  whole : Option Packet := none
  deriving DecidableEq, Repr

/-- An Ubfort port (R298, R300, R301, R305): its link, its sequence numbers, credits per VN, credits it owes, flits under way to its
peer, the flits it keeps, the replay asked of it, its times, the flits of packets it is receiving, and the VNs on which DRAIN has come. -/
structure Port where
  up : Bool := false
  peer : Option (Pkg × BitVec 4) := none
  cyc : Nat := 0
  txSeq : BitVec 12 := 0
  rxSeq : BitVec 12 := 0
  credit : Vector Nat 5 := Vector.replicate 5 0
  owed : Vector Nat 5 := Vector.replicate 5 0
  wire : List Flit := []
  replay : List Flit := []
  replayFrom : Option (BitVec 12) := none
  replayAt : BitVec 12 := 0
  replays : Nat := 0
  /-- Of the flits kept for replay, how many its peer has not accepted (R301). -/
  unheard : Nat := 0
  lastTx : Nat := 0
  lastRx : Nat := 0
  creditAt : Nat := 0
  retrainFrom : Option Nat := none
  errors : Nat := 0
  drained : BitVec 5 := 0
  /-- The bank that those DRAINs brought in (R305). -/
  drainBank : BitVec 1 := 0
  rx : Vector (List (BitVec 256)) 5 := Vector.replicate 5 []
  /-- By VN, the input it served last (R298). -/
  served : Vector (BitVec 4) 5 := Vector.replicate 5 15
  /-- The cycle at which its link last came up, the boot of the package it trained with, and whether that link was given up (R309). -/
  upAt : Nat := 0
  partner : Nat := 0
  lost : Bool := false
  deriving DecidableEq, Repr

/-- A fault of a queue that awaits the supervisor (R262, R263, R280): its record, its reason 6 or 7, the object of R274, its launch. -/
structure QueueFault where
  seq : BitVec 16 := 0
  reason : Nat := 6
  object : Nat := 1
  lid : Lid := 0
  deriving DecidableEq, Repr

/-- A launch queue's registers (R259) and what the scheduler keeps for its head. STATE and DF are read from the rest. -/
structure Queue where
  cfg : Dword := 0
  base : Dword := 0
  tail : Word := 0
  head : Word := 0
  ovf : Bool := false
  def0 : Int := 0
  def1 : Int := 0
  /-- The dwords read so far of the head record, under 0 to 15, and of the table of its launch, under 16 and up (R59, R262). -/
  got : List (Nat × Dword) := []
  /-- The head record has been read and checked (R262). -/
  checked : Bool := false
  faults : List QueueFault := []
  /-- The walk that its scheduler waits for, and the fault one found (R56). -/
  walkWait : Wait := .none
  walkFault : Option WalkFault := none
  /-- Slots from TAIL up that ENQs have taken, and the records among them that are written (R268). -/
  claimed : Nat := 0
  written : List Word := []
  /-- Boundaries a co-resident head has ranked highest without being placed, and the hold that follows (R265). -/
  waited : Nat := 0
  holding : Bool := false
  /-- Die cycle from which a head has been unplaceable for want of resources, and that a crew has been pre-empted for it since (R266). -/
  lackFrom : Option Nat := none
  striking : Bool := false
  /-- A teardown that was asked for while the device is quiesced: its launches stop when the units go on (R269, R326). -/
  heldTd : Bool := false
  deriving DecidableEq, Repr

/-- The current episode of a group (R43). -/
structure Episode where
  number : Nat := 0
  op : BitVec 2 := 0
  value : Dword := 0
  arrivals : Nat := 0
  deriving DecidableEq, Repr

/-- A SAVED thread (R46, R47, R287 to R291): its record's address, its frame, the core it left, the core that holds its crew
(none while the crew is evicted), and what
its record does not hold: its outstanding records, its spill entries, the BAR or the queued MMT it waits in, its queued matrix commands'
pending results, and its arrival at group 255. -/
structure Saved where
  order : Nat := 0
  pa : Nat := 0
  frame : Nat := 0
  lti : BitVec 24 := 0
  ep : Ep := 0
  ctx : Ctx := 0
  place : Option Ep := none
  outstanding : List Outstanding := []
  spill : List (List Dword) := []
  wait : Wait := .none
  heldDest : Dest := .none
  heldNext : BitVec 18 := 0
  heldLimit : Nat := 0
  pend : List Pending := []
  shadow : Nat := 0
  stepTrap : Bool := false
  arrived255 : Bool := false
  /-- A dword of a command of it was found poisoned when its crew was restored (R283; notes/assumptions/78.md). -/
  spoiled : Bool := false
  deriving DecidableEq, Repr

/-- A crew saved by full eviction (R47, R289): its frame, where it was, and its engines' commands with the ring indices they reserved. -/
structure Evicted where
  frame : Nat := 0
  crew : Crew := {}
  copies : List CopyCmd := []
  mq : List MxCmd := []
  ringNext : Vector Nat 8 := Vector.replicate 8 0
  ringTails : Vector Nat 8 := Vector.replicate 8 0
  reserved : List Nat := []
  tampered : List Nat := []
  deriving DecidableEq, Repr

/-- Where a launch stands (R262 to R264). -/
inductive LaunchPhase where
  | head | running | skipped | aborted | done
  deriving DecidableEq, Repr

/-- A launch (R30, R261): the record's fields and its progress. -/
structure Launch where
  home : Pkg := 0
  lid : Lid := 0
  record : List Dword := []
  phase : LaunchPhase := .head
  satisfied : BitVec 4 := 0
  tainted : BitVec 4 := 0
  counts : List (BitVec 24) := []
  placed : Nat := 0
  nextChild : Nat := 0
  live : Nat := 0
  spawning : Nat := 0
  saved : List Saved := []
  episodes : List (Nat × Episode) := []
  evicted : List Evicted := []
  /-- Dwords of the frames of its SAVED threads and crews that a restore under way has read (R59, R287). -/
  ahead : List FrameDword := []
  /-- The groups all of whose members were in one cluster when the launch was placed or restored (R71, R73). -/
  oneCluster : List Nat := []
  counted : Bool := false
  deriving DecidableEq, Repr

/-- A spawn request on its way to, or waiting at, a cluster unit (R168). -/
structure SpawnReq where
  from_ : Ep := 0
  ctx : Ctx := 0
  cluster : Bool := false
  tgt : Ep := 0
  entry : BitVec 18 := 0
  args : List Dword := []
  key : BitVec 128 := 0
  did : Dword := 0
  home : Pkg := 0
  lid : Lid := 0
  asid : Asid := 0
  lti : BitVec 24 := 0
  stored : Bool := false
  deriving DecidableEq, Repr

/-- A barrier arrival on its way to the root (R196). -/
structure Arrival where
  home : Pkg := 0
  lid : Lid := 0
  group : BitVec 8 := 0
  op : BitVec 2 := 0
  value : Dword := 0
  deriving DecidableEq, Repr

/-- A mesh interrupt message (R46). -/
structure MeshMsg where
  ep : Ep := 0
  home : Pkg := 0
  lid : Lid := 0
  mode : BitVec 4 := 0
  frame : Nat := 0
  deriving DecidableEq, Repr

/-- A fault record (R273). -/
structure FaultRec where
  ep : Ep := 0
  dwords : List Dword := []
  deriving DecidableEq, Repr

/-- A device request to host memory that awaits its completion; of an AtomicOp, what the host port has read for it; of a read, the dwords performed so
far are noted in its packet (R59, R73, R314). -/
structure HostReq where
  old : Option Nat := none
  pkt : Packet := {}
  deriving DecidableEq, Repr

/-- A PCI Express function (R310, R312, R314, R315). -/
structure Function where
  enabled : Bool := false
  busMaster : Bool := false
  atomicEn : Bool := false
  errors : Nat := 0
  segments : List (Nat × Dword) := []
  /-- log2 of the size of BAR2 (R311). -/
  bar2 : Nat := 28
  /-- The function is being reset (R315). -/
  flr : Bool := false
  /-- Of a VF: the MSI-X vectors that are not masked, and its pending-bit array (R315). -/
  vecOpen : List Nat := []
  vecPending : List Nat := []
  deriving DecidableEq, Repr

/-- What the host last received: register and memory read data, Unsupported Request, MSI-X vectors of the PF and of a VF, SPDM responses, answered
probes, writes of a poisoned dword to host memory (R281), AER's reports of a non-fatal error of a function (R313). -/
inductive HostReply where
  | data (value : Nat) (poisoned : Bool)
  | unsupported
  | msix (vector : BitVec 11)
  | spdm (code : Nat) (fields : List Nat)
  | probe (pkg : Pkg)
  | poisonedWrite (addr : Nat)
  | vfMsix (fn : Nat) (vector : Nat)
  | nonFatal (fn : Nat)
  deriving DecidableEq, Repr

/-- An INVAL under way: its scope, ASID, level and address, and the accesses issued before it that it waits for (R292). -/
structure Inval where
  scope : BitVec 2 := 0
  asid : Asid := 0
  level : BitVec 2 := 1
  va : Dword := 0
  sent : List Packet := []
  lanes : List (Nat × Nat × Nat × Nat) := []
  deriving DecidableEq, Repr

/-- A firmware image on the board: the fused digest slot that its key's digest matches, 2 or 3 for none, whether its signature verifies, its security
version and its content (R322; notes/assumptions/65.md). -/
structure Image where
  slot : BitVec 2 := 0
  verifies : Bool := true
  version : Nat := 0
  content : Nat := 0
  deriving DecidableEq, Repr

/-- What a package's board and fuses hold over every reset: the two image copies, the revoked digest slots and the minimum version (R322). -/
structure Board where
  images : Vector Image 2 := Vector.replicate 2 {}
  revoked : BitVec 2 := 0
  minVersion : Nat := 0
  deriving DecidableEq, Repr

/-- A page MOVE under way: its two pages, their bytes, and the dwords copied so far, by their numbers (R59, R293). -/
structure Move where
  src : Nat := 0
  dst : Nat := 0
  size : Nat := 0
  done : List Nat := []
  deriving DecidableEq, Repr

/-- A package: its management registers (R316 to R318) and the units no core owns. -/
structure Package where
  state : BitVec 3 := 0
  reason : BitVec 8 := 0
  qreq : Bool := false
  /-- Dwords that the aperture has written in a quiesce (R325, R326). -/
  touched : List Nat := []
  qack : Bool := false
  pren : Bool := false
  artb : Dword := 0
  ftcfg : Dword := 0x401600#64
  psbase : Dword := 0
  psfsz : Dword := 0
  pwrlim : Dword := 0x6905DC#64
  throttled : Bool := false
  scrub : Dword := 0x8000100000000400#64
  mbxGo : Bool := false
  mailbox : List (Nat × Dword) := []
  rbsel : Dword := 0
  rbstat : BitVec 4 := 0
  syscfg : Dword := 0
  mcmd : Dword := 0
  marg0 : Dword := 0
  marg1 : Dword := 0
  marg2 : Dword := 0
  busy : Bool := false
  res : BitVec 3 := 0
  inval : Option Inval := none
  sfqBase : Dword := 0
  sfqCfg : Dword := 0
  sfqSig : Dword := 0
  sfqTail : Word := 0
  sfqHead : Word := 0
  recSeq : BitVec 16 := 0
  records : List FaultRec := []
  /-- The dwords of the oldest record that have been written to the supervisor's queue (R59, R277). -/
  posted : List Nat := []
  moving : Option Move := none
  rtAct : BitVec 1 := 0
  bankA : List (Nat × BitVec 16) := []
  bankB : List (Nat × BitVec 16) := []
  noRoute : List (BitVec 1 × Pkg × Nat) := []
  qfn : List (Nat × BitVec 8) := []
  fns : List (Nat × Function) := [(0, { enabled := true, bar2 := 30 })]
  /-- MSI-X vectors that are not masked, and masked ones that are pending (R315). -/
  msixOpen : List Nat := []
  msixPending : List Nat := []
  /-- Bring-up has initialised memory: the ports may train (R320). -/
  ready : Bool := false
  /-- The number the package had in this model before SYSCFG gave it another, none for its present one (R318; notes/assumptions/66.md). -/
  was : Option Pkg := none
  /-- Names the boot whose firmware runs, for its measurements and its self-test (R322, R323). -/
  boot : Nat := 0
  board : Board := {}
  /-- The image copy whose firmware runs (R322). -/
  active : BitVec 1 := 0
  /-- MCMD was written while the device was asked to quiesce: it takes effect when the units go on (R326). -/
  heldMcmd : Bool := false
  queues : List (Nat × Queue) := []
  ports : Vector Port 14 := Vector.replicate 14 {}
  dies : Vector Die 2 := Vector.replicate 2 {}
  frames : List Nat := []
  /-- A PREEMPT that waits for frames, and the crews whose save it awaits (R286, R295). -/
  waitPreempt : Option MeshMsg := none
  preempting : List (Nat × Lid) := []
  hostReqs : List HostReq := []
  replies : List HostReply := []
  deriving DecidableEq, Repr

/-- The arguments of a step of the part that no word encodes, given by the agenda: each step reads those its docstring in
Syntax.lean and its meaning name. -/
structure EvArgs where
  pkg : Pkg := 0
  ep : Ep := 0
  ctx : Ctx := 0
  id : Nat := 0
  n : Nat := 0
  parts : List Nat := []
  die : BitVec 1 := 0
  q : Qn := 0
  fn : BitVec 6 := 0
  lid : Lid := 0
  seq : BitVec 16 := 0
  tail : Word := 0
  port : BitVec 4 := 0
  peer : Pkg := 0
  peerPort : BitVec 4 := 0
  noise : BitVec 256 := 0
  ok : Bool := false
  bme : Bool := false
  atomicEn : Bool := false
  off : BitVec 36 := 0
  value : Dword := 0
  be : BitVec 8 := 0
  status : BitVec 2 := 0
  failure : BitVec 3 := 0
  bank : BitVec 6 := 0
  watts : Nat := 0
  temp : Nat := 0
  deriving DecidableEq, Repr

/-- Who moves next: an agent named by the run's schedule, or time passing in one unit. (DEDUCED, notes/assumptions/49.md.) -/
inductive Turn where
  | issue (ep : Ep)
  | event (i : Instr) (a : EvArgs)
  | coreCycles (ep : Ep) (n : Nat)
  | dieCycles (pkg : Pkg) (die : BitVec 1) (n : Nat)
  | portCycles (pkg : Pkg) (port : BitVec 4) (n : Nat)
  | hostStore (pkg : Pkg) (addr : Nat) (value : BitVec 8)
  deriving DecidableEq, Repr

/-- What stops an instruction after, or at, issue (R112): a user trap or a system fault. -/
inductive Stop where
  | trap (cause : BitVec 8) (v0 v1 : Dword)
  | fault (r : FaultReq)
  deriving DecidableEq, Repr

/-- How the instruction last executed left its issue: done; parked with nothing issued; issued but its PC stays at it;
trapped at issue with no effect; stopped after issue (R110 to R112). -/
inductive Fate where
  | issued
  | parked
  | held
  | trapped (r : Stop)
  | stopped (r : Stop)
  deriving DecidableEq, Repr

/-- The issue in progress: core, context, the unit's address, the address after it, the word, and its outcome. -/
structure Issue where
  ep : Ep := 0
  ctx : Ctx := 0
  pc : BitVec 18 := 0
  next : BitVec 18 := 4
  word : Word := 0
  fate : Fate := .issued
  deriving DecidableEq, Repr

/-- The system. -/
structure State where
  mem : Memory := {}
  cores : List (Nat × Core) := []
  pkgs : List (Nat × Package) := []
  tables : List (Nat × List Entry) := []
  waiters : List Waiter := []
  launches : List Launch := []
  net : List Packet := []
  spawns : List SpawnReq := []
  arrivals : List Arrival := []
  mesh : List MeshMsg := []
  stamp : Nat := 0
  agenda : List Turn := []
  focus : Ep := 0
  issue : Issue := {}
  ev : EvArgs := {}
  free : Nat := 0
  /-- The place of the default turn in its rotation (notes/assumptions/4.md). -/
  tick : Nat := 0
  deriving DecidableEq, Repr

/-- Faults: reasons for which the machine itself would stop. No rule of the manual stops this machine: every trap and system
fault is a next state. -/
inductive Fault where
  /-- Raised by nothing (safe). -/
  | none
  deriving DecidableEq, Repr

/-- Refusals: an instruction without a meaning. -/
inductive Refusal where
  /-- Raised by an arm of `exec` whose meaning is not written yet (safe). -/
  | notModelled (mnemonic : String)
  deriving DecidableEq, Repr

/-- The system right after reset (R320): every field at the value its table states, memory with nothing listed, no thread
resident, no packet in flight. (DESIGN CHOICE, notes/assumptions/1.md.) -/
def State.reset : State := {}

end Sys2Proof.Machine
end

