-- ==== Sys2Proof/Machine/Ops.lean ====
section
/-! DEFINITION. The named operations over memory, registers, contexts and units that the meanings share: reading and writing
each part of the state, taking a user trap and returning from one, entering FAULTED with a record, parking, retiring. -/

namespace Sys2Proof.Machine

/-- What a meaning answers. -/
abbrev Out := Host.Outcome State Fault Refusal

/-! ## Indexed files -/

/-- Element `i` of a file of 2^n elements. -/
def vget {n : Nat} {α : Type} (i : BitVec n) (v : Vector α (2 ^ n)) : α := v[i.toNat]'i.isLt

/-- A file with element `i` replaced. -/
def vset {n : Nat} {α : Type} (i : BitVec n) (x : α) (v : Vector α (2 ^ n)) : Vector α (2 ^ n) := v.set i.toNat x i.isLt

/-! ## Memory -/

/-- The byte listed at an address, zero when none is. (DESIGN CHOICE, notes/assumptions/2.md.) -/
def cellGet : List Host.Cell → Nat → BitVec 8
  | [], _ => 0
  | (k, v) :: r, a => if a = k then v else cellGet r a

/-- Places a byte in address order. -/
def cellInsert : List Host.Cell → Nat → BitVec 8 → List Host.Cell
  | [], a, b => [(a, b)]
  | (k, v) :: r, a, b => if a < k then (a, b) :: (k, v) :: r else (k, v) :: cellInsert r a b

/-- Replaces the byte at an address; zero bytes are not listed. -/
def cellSet (l : List Host.Cell) (a : Nat) (b : BitVec 8) : List Host.Cell :=
  let r := l.filter (fun c => c.1 ≠ a)
  if b = 0 then r else cellInsert r a b

/-- Places a number in ascending order. -/
def natInsert : List Nat → Nat → List Nat
  | [], a => [a]
  | k :: r, a => if a < k then a :: k :: r else k :: natInsert r a

/-- Adds a number to, or removes it from, an ascending list. -/
def natSet (l : List Nat) (a : Nat) (present : Bool) : List Nat :=
  let r := l.filter (fun c => c ≠ a)
  if present then natInsert r a else r

/-- The dword that contains an address. -/
def dwordAt (a : Nat) : Nat := a / 8 * 8

/-- The byte at a physical address. -/
def Memory.byte (m : Memory) (a : Nat) : BitVec 8 := cellGet m.cells a

/-- Replaces the byte at a physical address. -/
def Memory.setByte (m : Memory) (a : Nat) (b : BitVec 8) : Memory := { m with cells := cellSet m.cells a b }

/-- `n` bytes from an address, as a little-endian number (R3). -/
def Memory.read (m : Memory) (a : Nat) : Nat → Nat
  | 0 => 0
  | n + 1 => (m.byte a).toNat + 256 * Memory.read m (a + 1) n

/-- Writes the low `n` bytes of a number from an address up (R3). -/
def Memory.write (m : Memory) (a : Nat) : Nat → Nat → Memory
  | 0, _ => m
  | n + 1, x => Memory.write (m.setByte a (BitVec.ofNat 8 x)) (a + 1) n (x / 256)

/-- The full/empty bit of the dword that contains an address (R57). -/
def Memory.isFull (m : Memory) (a : Nat) : Bool := !m.empty.contains (dwordAt a)

/-- Sets or clears the full/empty bit. -/
def Memory.setFull (m : Memory) (a : Nat) (full : Bool) : Memory := { m with empty := natSet m.empty (dwordAt a) (!full) }

/-- The poison mark of the dword that contains an address (R281). -/
def Memory.poisoned (m : Memory) (a : Nat) : Bool := m.poison.contains (dwordAt a)

/-- Sets or clears the poison mark. -/
def Memory.setPoison (m : Memory) (a : Nat) (p : Bool) : Memory := { m with poison := natSet m.poison (dwordAt a) p }

/-- One of `n` dwords from an address up carries the mark. -/
def Memory.anyMarked (m : Memory) (a n : Nat) : Bool := (List.range n).any (fun i => m.poisoned (a + 8 * i))

/-- Marks `n` dwords from an address up (R281). -/
def Memory.markDwords (m : Memory) (a n : Nat) : Memory := (List.range n).foldl (fun (m : Memory) i => m.setPoison (a + 8 * i) true) m

/-- A dword with its full/empty bit and its mark. -/
def Memory.capture (m : Memory) (pa : Nat) : FrameDword := { pa := pa, value := m.read pa 8, full := m.isFull pa, marked := m.poisoned pa }

/-- Puts a dword back with its full/empty bit and its mark. -/
def Memory.put (m : Memory) (x : FrameDword) : Memory := ((m.write x.pa 8 x.value).setFull x.pa x.full).setPoison x.pa x.marked

/-- Puts several dwords back. -/
def Memory.putAll (m : Memory) (l : List FrameDword) : Memory := l.foldl Memory.put m

/-- Numbers in strictly ascending order. -/
def rising : List Nat → Bool
  | [] => true
  | [_] => true
  | a :: b :: r => decide (a < b) && rising (b :: r)

/-- The canonical form: addresses strictly rise, no listed byte is zero, and both dword lists strictly rise. -/
def Memory.wf (m : Memory) : Bool :=
  rising (m.cells.map Prod.fst) && m.cells.all (fun c => c.2 ≠ 0) && rising m.empty && rising m.poison

/-! ## Endpoints and physical addresses (R14, R15, R50 to R52) -/

/-- An endpoint identifier: package ∥ die ∥ unit (R14). -/
def mkEp (pkg : Pkg) (die : BitVec 1) (unit : BitVec 11) : Ep := BitVec.ofNat 22 (pkg.toNat * 2 ^ 12 + die.toNat * 2 ^ 11 + unit.toNat)

/-- The package of an endpoint. -/
def epPkg (ep : Ep) : Pkg := fld ep 12 10

/-- The die of an endpoint. -/
def epDie (ep : Ep) : BitVec 1 := fld ep 11 1

/-- The unit of an endpoint. -/
def epUnit (ep : Ep) : BitVec 11 := fld ep 0 11

/-- The endpoint names a core (R14). -/
def epIsCore (ep : Ep) : Bool := (epUnit ep).toNat < 512

/-- The endpoint names a home slice (R14). -/
def epIsSlice (ep : Ep) : Bool := 1024 ≤ (epUnit ep).toNat && (epUnit ep).toNat < 1040

/-- The cluster of a core on its die (R12). -/
def epCluster (ep : Ep) : Nat := (epUnit ep).toNat / 16

/-- The parts of the local address space (R50). -/
inductive Region where
  | secondTier | granary | istore | host | reserved
  deriving DecidableEq, Repr

/-- Package of a physical address. -/
def paPkg (pa : Nat) : Pkg := BitVec.ofNat 10 (pa / 2 ^ 44)

/-- Local address of a physical address. -/
def paLocal (pa : Nat) : Nat := pa % 2 ^ 44

/-- The part of the map a physical address lies in (R50). -/
def paRegion (pa : Nat) : Region :=
  let a := paLocal pa
  if a < 0x10000000000 then .secondTier
  else if a < 0x10200000000 then .granary
  else if a < 0x18000000000 then .reserved
  else if a < 0x18010000000 then .istore
  else if a < 0x80000000000 then .reserved
  else .host

/-- Physical address of an offset in a core's granary window (R15). -/
def granaryPa (ep : Ep) (off : Nat) : Nat :=
  (epPkg ep).toNat * 2 ^ 44 + 0x10000000000 + (epDie ep).toNat * 2 ^ 32 + (epUnit ep).toNat * 2 ^ 23 + off

/-- Physical address of an offset in a core's instruction store (R50). -/
def istorePa (ep : Ep) (off : Nat) : Nat :=
  (epPkg ep).toNat * 2 ^ 44 + 0x18000000000 + (epDie ep).toNat * 2 ^ 27 + (epUnit ep).toNat * 2 ^ 18 + off

/-- The five bits that choose the home slice of a second-tier address (R52). -/
def sliceOf (a : Nat) : Nat := Nat.xor (Nat.xor (bitsN a 12 8) (bitsN a 17 13)) (bitsN a 22 18)

/-- The endpoint at which an address is performed and to which its streamed operations are bound (R51). -/
def homeEp (pa : Nat) : Ep :=
  let a := paLocal pa
  match paRegion pa with
  | .secondTier => mkEp (paPkg pa) (BitVec.ofNat 1 (sliceOf a / 16)) (BitVec.ofNat 11 (1024 + sliceOf a % 16))
  | .granary => mkEp (paPkg pa) (BitVec.ofNat 1 (a / 2 ^ 32)) (BitVec.ofNat 11 (a / 2 ^ 23 % 512))
  | .istore => mkEp (paPkg pa) (BitVec.ofNat 1 (a / 2 ^ 27)) (BitVec.ofNat 11 (a / 2 ^ 18 % 512))
  | _ => mkEp (paPkg pa) 0 1024

/-- Full/empty bits exist here (R57). -/
def paHasFe (pa : Nat) : Bool := paRegion pa = .secondTier || paRegion pa = .granary

/-! ## Cores, contexts, packages -/

/-- The core at an endpoint. -/
def State.core (s : State) (ep : Ep) : Core := Assoc.get s.cores ep.toNat {}

/-- Replaces a core. -/
def State.setCore (s : State) (ep : Ep) (c : Core) : State := { s with cores := Assoc.set s.cores ep.toNat c }

/-- The thread in a context. -/
def State.thr (s : State) (ep : Ep) (ctx : Ctx) : Thread := vget ctx (s.core ep).threads

/-- Replaces the thread in a context. -/
def Core.setThr (c : Core) (ctx : Ctx) (t : Thread) : Core := { c with threads := vset ctx t c.threads }

/-- Replaces the thread in a context. -/
def State.setThr (s : State) (ep : Ep) (ctx : Ctx) (t : Thread) : State := s.setCore ep ((s.core ep).setThr ctx t)

/-- The core whose word issues. -/
def State.myCore (s : State) : Core := s.core s.issue.ep

/-- The thread whose word issues. -/
def State.me (s : State) : Thread := s.thr s.issue.ep s.issue.ctx

/-- The dword numbers an event performs: those it names, or all. -/
def EvArgs.chosen (a : EvArgs) (n : Nat) : List Nat := if a.parts.isEmpty then List.range n else a.parts

/-- Replaces the core whose word issues. -/
def State.setMyCore (s : State) (c : Core) : State := s.setCore s.issue.ep c

/-- Replaces the thread whose word issues. -/
def State.setMe (s : State) (t : Thread) : State := s.setThr s.issue.ep s.issue.ctx t

/-- A package. (DESIGN CHOICE, notes/assumptions/6.md.) -/
def State.pkg (s : State) (p : Pkg) : Package := Assoc.get s.pkgs p.toNat {}

/-- Replaces a package. -/
def State.setPkg (s : State) (p : Pkg) (x : Package) : State := { s with pkgs := Assoc.set s.pkgs p.toNat x }

/-- A die of a package. -/
def State.die (s : State) (p : Pkg) (d : BitVec 1) : Die := vget d (s.pkg p).dies

/-- Replaces a die. -/
def State.setDie (s : State) (p : Pkg) (d : BitVec 1) (x : Die) : State :=
  s.setPkg p { s.pkg p with dies := vset d x (s.pkg p).dies }

/-- A die's clock. -/
def State.dieCyc (s : State) (ep : Ep) : Nat := (s.die (epPkg ep) (epDie ep)).cyc

/-- Cycles of an endpoint's die since ever, by which packets age (R302). -/
def State.dieTime (s : State) (ep : Ep) : Nat := let d := s.die (epPkg ep) (epDie ep); d.base + d.cyc

/-- A port of a package (R6); a number past 13 names none and reads as a port that is down. -/
def Package.port (k : Package) (n : BitVec 4) : Port := k.ports.toList.getD n.toNat {}

/-- The packets that a port has sent and its peer has not wholly accepted (R301). -/
def Port.unheardPackets (w : Port) : List Packet := (w.replay.drop (w.replay.length - w.unheard)).filterMap Flit.whole

/-- Replaces a port of a package. -/
def Package.setPort (k : Package) (n : BitVec 4) (x : Port) : Package := { k with ports := k.ports.setIfInBounds n.toNat x }

/-- The compute clocks of a package do nothing: it is asked to quiesce, or it is in the maintenance state (R321, R326, R328). -/
def Package.halted (k : Package) : Bool := k.qreq || k.state = 4

/-- Nothing in a package's cores and dies changes: it has acknowledged a quiesce, or it is in the maintenance state (R321, R326, R328). -/
def Package.still (k : Package) : Bool := (k.qreq && k.qack) || k.state = 4

/-- The home of an address lies in another package than `p`, one that is asked to quiesce or in maintenance: what arrives there is held, and the operation
waits (R321, R326, R328; notes/assumptions/68.md). -/
def State.homeShut (s : State) (p : Pkg) (pa : Nat) : Bool := paPkg pa ≠ p && (s.pkg (paPkg pa)).halted

/-- The number by which the other packages address a package (R318). -/
def Package.number (p : Package) : Pkg := fld p.syscfg 0 10

/-- What tells a package apart from every other, whatever number it is given: the number it came with (R318; notes/assumptions/66.md). -/
def Package.physical (k : Package) (p : Pkg) : Nat := (k.was.getD p).toNat

/-- Packages in the system, as a package's SYSCFG names it (R318). -/
def Package.npkg (p : Package) : Nat := (fld p.syscfg 16 10).toNat + 1

/-- The endpoint is one of the system as the package of `by_` knows it (R14). -/
def State.epExists (s : State) (by_ : Pkg) (ep : Ep) : Bool :=
  (epIsCore ep || epIsSlice ep) && decide ((epPkg ep).toNat < (s.pkg by_).npkg)

/-- A free value and the state with its counter advanced (notes/assumptions/3.md). -/
def State.freeDword (s : State) : Dword × State := (Config.freeDword s.free, { s with free := s.free + 1 })

/-- The launch of a thread. -/
def State.launch? (s : State) (home : Pkg) (lid : Lid) : Option Launch := s.launches.find? (fun l => l.home = home && l.lid = lid)

/-- Replaces a launch. -/
def State.setLaunch (s : State) (x : Launch) : State :=
  { s with launches := s.launches.map (fun l => if l.home = x.home && l.lid = x.lid then x else l) }

/-- A launch as one number: the package whose queue holds it and its identity. -/
def launchKey (home : Pkg) (lid : Lid) : Nat := home.toNat * 2 ^ 44 + lid.toNat

/-- A number that names a thread wherever it is: its launch and its LTI. -/
def Thread.nameKey (t : Thread) : Nat := launchKey t.home t.lid * 2 ^ 24 + t.lti.toNat

/-- The crew of a launch on a core (R31). -/
def Core.crew? (c : Core) (home : Pkg) (lid : Lid) : Option Crew := c.crews.find? (fun w => w.home = home && w.lid = lid)

/-- Replaces a crew. -/
def Core.setCrew (c : Core) (x : Crew) : Core :=
  { c with crews := c.crews.map (fun w => if w.home = x.home && w.lid = x.lid then x else w) }

/-! ## General, vector and mask registers (R23, R24, R122) -/

/-- The field names a queue port. -/
def isPort (r : Reg) : Bool := 28 ≤ r.toNat

/-- g[r]: zr reads 0 (R23). -/
def Thread.getG (t : Thread) (r : Reg) : Dword := if r = 0 then 0 else vget r t.g

/-- Writes g[r] and sets its full bit; a write to zr is discarded (R23, R24). -/
def Thread.setG (t : Thread) (r : Reg) (x : Dword) : Thread :=
  if r = 0 || isPort r then t
  else { t with g := vset r x t.g, full := BitVec.ofNat 32 (t.full.toNat ||| 2 ^ r.toNat) }

/-- The full bit of a register field; zr and the ports are always full (R23, R24). -/
def Thread.isFull (t : Thread) (r : Reg) : Bool := r = 0 || isPort r || t.full.getLsbD r.toNat

/-- Clears the full bit of a destination whose result returns later (R24). -/
def Thread.clearFull (t : Thread) (r : Reg) : Thread :=
  if r = 0 || isPort r then t else { t with full := t.full &&& ~~~(BitVec.ofNat 32 (2 ^ r.toNat)) }

/-- v[r]. -/
def Thread.getV (t : Thread) (r : Reg) : VReg := vget r t.v

/-- Writes v[r]. -/
def Thread.setV (t : Thread) (r : Reg) (x : VReg) : Thread := { t with v := vset r x t.v }

/-- k[r]. -/
def Thread.getK (t : Thread) (r : KReg) : Dword := vget r t.k

/-- Writes k[r]. -/
def Thread.setK (t : Thread) (r : KReg) (x : Dword) : Thread := { t with k := vset r x t.k }

/-- A pending result writes v[r] (R148, R176). -/
def Thread.vecPending (t : Thread) (r : Reg) : Bool :=
  t.pend.any (fun p => match p.dest with | .vec n _ => n = r | _ => false)

/-! ## ST (R155) -/

/-- A bit of ST. -/
def Thread.stBit (t : Thread) (i : Nat) : Bool := t.st.getLsbD i

/-- A word with one bit replaced. -/
def putBit {n : Nat} (w : BitVec n) (i : Nat) (b : Bool) : BitVec n := setFld w i 1 (b2n b)

/-- ST with bit `i` replaced. -/
def Thread.setStBit (t : Thread) (i : Nat) (b : Bool) : Thread := { t with st := putBit t.st i b }

/-- ST.PP: bit 0 an FMT is pending, bit 1 an EXT (R114). -/
def Thread.pp (t : Thread) : BitVec 2 := fld t.st 20 2

/-- ST.XD (R112). -/
def Thread.xd (t : Thread) : Bool := t.stBit 22

/-! ## Parking and retiring (R29, R37 to R40, R48) -/

/-- A thread leaves the order of threads parked on queues and outboxes. -/
def Core.leaveOrder (c : Core) (ctx : Ctx) : Core := { c with parkOrder := c.parkOrder.filter (fun x => x.1 ≠ ctx) }

/-- A thread that parks on a core queue or a full outbox keeps its place there or takes the last one; one that parks for a reply slot
holds no place (R28, R44). -/
def Core.takePlace (c : Core) (ctx : Ctx) (w : Wait) : Core :=
  match w with
  | .queue code _ =>
    if 8 < code.toNat || c.parkOrder.contains (ctx, w) then c else { c.leaveOrder ctx with parkOrder := (c.leaveOrder ctx).parkOrder ++ [(ctx, w)] }
  | .outbox _ slotOnly =>
    if slotOnly then c.leaveOrder ctx
    else if c.parkOrder.contains (ctx, w) then c else { c.leaveOrder ctx with parkOrder := (c.leaveOrder ctx).parkOrder ++ [(ctx, w)] }
  | _ => c

/-- The issuing thread leaves the order of threads parked on queues. -/
def State.leaveOrder (s : State) : State := s.setMyCore (s.myCore.leaveOrder s.issue.ctx)

/-- Stops the issuing thread with a reason; nothing issued. A thread that parks on a queue or a full outbox keeps or takes
its place in the order in which threads parked there (R28, R44). (DESIGN CHOICE, notes/assumptions/11.md.) -/
def State.park (s : State) (r : ParkReason) (w : Wait) : State :=
  let s := if r = .queue || r = .message then s.setMyCore (s.myCore.takePlace s.issue.ctx w) else s
  let s := s.setMe { s.me with status := .parked r, wait := w }
  { s with issue := { s.issue with fate := .parked } }

/-- A pending result is of accesses: an instruction's own, or those to the record of a TLD, TST or ENQ. -/
def PendKind.isAccess : PendKind → Bool
  | .access | .record | .enq _ _ _ => true
  | _ => false

/-- The full/empty operations that wait (R180, R181). -/
def MemOp.waits : MemOp → Bool
  | .ldf | .ldff | .waita | .stf => true
  | _ => false

/-- The park reason that pending results show (R29, R39, R40): fill while any but an engine command's is outstanding, a full/empty
wait's among them; code 2 is shown by no rule. -/
def Thread.pendReason (t : Thread) : ParkReason :=
  if t.pend.any (fun p => match p.kind with | .matrix _ _ | .copy _ => false | _ => true) then .fill
  else if t.pend.any (fun p => match p.kind with | .matrix _ _ => true | _ => false) then .matrix
  else .copy

/-- A thread whose shadow count is 0 parks while any result is pending (R39). -/
def Thread.settle (t : Thread) : Thread :=
  if t.status = .ready && !t.pend.isEmpty && t.shadow = 0 then { t with status := .parked t.pendReason, wait := .pendingAll } else t

/-- Ends an instruction: the PC moves on, XD is cleared, and an instruction in a shadow takes one from S (R39, R112). -/
def Thread.retire (t : Thread) (next : BitVec 18) : Thread :=
  Thread.settle { t with
    pc := next, st := putBit t.st 22 false,
    shadow := if t.pend.isEmpty then t.shadow else t.shadow - 1,
    wait := .none, walkFault := none }

/-- Ends the issuing thread's instruction, which leaves the order of parked threads. -/
def State.retire (s : State) : State :=
  let s := s.leaveOrder
  s.setMe (s.me.retire s.issue.next)

/-- Ends an instruction with a next PC of its own (R109). -/
def State.retireTo (s : State) (pc : BitVec 18) : State :=
  State.retire { s with issue := { s.issue with next := pc } }

/-- An instruction that has issued and stays at its PC until what it waits for comes (fences, BAR, WAITQ, MWAIT), with the
destination its result goes to and its limit (R45). Its ports have been served, so it leaves the order of threads parked on queues (R28). -/
def State.holdFor (s : State) (r : ParkReason) (w : Wait) (dest : Dest) (limit : Nat) : State :=
  let s := s.leaveOrder.park r w
  let t := s.me
  let s := s.setMe (if t.waitFrom = 0 then
      { t with waitFrom := s.myCore.cyc.toNat + 1, waitLimit := limit, heldDest := dest, heldNext := s.issue.next }
    else t)
  { s with issue := { s.issue with fate := .held } }

/-- An instruction that waits at its PC with no destination and no limit. -/
def State.hold (s : State) (r : ParkReason) (w : Wait) : State := s.holdFor r w .none 0

/-! ## Faults (R271 to R275) -/

/-- The 64 bytes of a record (R273). -/
def recordDwords (ep : Ep) (ctx : Ctx) (asid : Asid) (lid : Lid) (xd held : Bool) (seq : BitVec 16) (pc : BitVec 18) (r : FaultReq) :
    List Dword :=
  [BitVec.ofNat 64 (r.kind.toNat + r.src.toNat * 2 ^ 8 + ctx.toNat * 2 ^ 12 + b2n xd * 2 ^ 16 + b2n held * 2 ^ 17 +
      asid.toNat * 2 ^ 32 + seq.toNat * 2 ^ 48),
    BitVec.ofNat 64 (ep.toNat + pc.toNat * 2 ^ 24), lid.setWidth 64, r.va, r.aux0, r.aux1, r.aux2, r.aux3]

/-- Puts a record into a package's holding store under the next SEQ; past 256 it waits at its source (R273, R277; notes/assumptions/64.md). -/
def State.addRecord (s : State) (p : Pkg) (mk : BitVec 16 → FaultRec) : State × BitVec 16 :=
  let k := s.pkg p
  (s.setPkg p { k with recSeq := k.recSeq + 1, records := k.records ++ [mk k.recSeq] }, k.recSeq)

/-- The holding store of 256 records has room; records past its 256th wait at their sources, in order (R277; notes/assumptions/64.md). -/
def Package.recordRoom (k : Package) : Bool := decide (k.records.length < 256)

/-- A record of a fault that belongs to no thread (R271). -/
def State.postNoThread (s : State) (ep : Ep) (r : FaultReq) : State :=
  (s.addRecord (epPkg ep) (fun q => { ep := ep, dwords := recordDwords ep 0 0 0 false false q 0 r })).1

/-- The thread is the one of a launch and a thread index that issued a command (R223, R249). -/
def Thread.owns (t : Thread) (home : Pkg) (lid : Lid) (lti : BitVec 24) : Bool :=
  t.home = home && t.lid = lid && t.lti = lti && t.status ≠ .free

/-- MMT or MMTZ, the matrix commands that stop (R252). -/
def MxCmd.multiplies (m : MxCmd) : Bool := m.eop.toNat ≤ 1

/-- The matrix commands of a thread that leave their place when it enters FAULTED (R249, R252): an MMT or MMTZ issued with LA = 0
leaves the queue; every other command not started is held, a running MMT or MMTZ is stopped; MDR, MLD, MST and MCLR run on. -/
def Core.matrixFaulted (c : Core) (ctx : Ctx) : Core :=
  let mine (m : MxCmd) : Bool := (vget ctx c.threads).owns m.home m.lid m.lti && !m.ended
  let leaves (m : MxCmd) : Bool := mine m && m.multiplies && m.la = 0 && (m.phase = .queued || m.phase = .running)
  let t := vget ctx c.threads
  let gone := (c.mq.filter leaves).map MxCmd.id
  let mq := (c.mq.filter (fun m => !leaves m)).map (fun m =>
    if mine m && m.phase = .queued then { m with phase := .held }
    else if mine m && m.phase = .running && m.multiplies then { m with phase := .stopped } else m)
  let t := { t with pend := t.pend.filter (fun p => match p.kind with | .matrix id _ => !gone.contains id | _ => true) }
  { c with mq := mq }.setThr ctx t

/-- The held and stopped commands of a thread re-enter the queue at its tail when the thread is next READY (R249, R252). -/
def Core.matrixResume (c : Core) (ctx : Ctx) : Core :=
  let back (m : MxCmd) : Bool := (vget ctx c.threads).owns m.home m.lid m.lti && !m.ended && (m.phase = .held || m.phase = .stopped)
  { c with mq := c.mq.filter (fun m => !back m) ++ (c.mq.filter back).map (fun m => { m with phase := .queued }) }

/-- The thread in a context enters FAULTED and its record is posted. The PC and XD are those of the thread for SRC 0; a
command's record names the word that issued it, with XD 0 (R271, R273). -/
def State.enterFault (s : State) (ep : Ep) (ctx : Ctx) (r : FaultReq) : State :=
  let t := s.thr ep ctx
  let own := r.src = 0
  let (s, q) := s.addRecord (epPkg ep) (fun q =>
    { ep := ep, dwords := recordDwords ep ctx t.asid t.lid (own && t.xd) true q (if own then t.pc else r.pc) r })
  let s := s.setCore ep (((s.core ep).matrixFaulted ctx).leaveOrder ctx)
  let t := s.thr ep ctx
  s.setThr ep ctx { t with
    status := .faulted, wait := (match t.wait with | .barrier g => .barrier g | _ => .none), walkFault := none, record := none,
    outstanding := t.outstanding ++ [{ ep := ep, ctx := ctx, seq := q, src := r.src, kind := r.kind, id := r.id }] }

/-! ## Register codes and entries in error (R275, R284) -/

/-- A register code (R275). -/
def regCode (file num sub : Nat) : BitVec 16 := BitVec.ofNat 16 (sub * 2 ^ 8 + file * 2 ^ 5 + num)

/-- The register code of a destination; 0 where no register was to be written (R275). -/
def destCode (d : Dest) : Dword :=
  match d with
  | .reg n => n.setWidth 64
  | .vec n _ => BitVec.ofNat 64 (2 ^ 5 + n.toNat)
  | _ => 0

/-- FILE of a register code. -/
def codeFile (code : BitVec 16) : Nat := code.toNat / 32 % 8

/-- SUB of a register code. -/
def codeSub (code : BitVec 16) : Nat := code.toNat / 256

/-- A code that names an entry of the core and not of a context (R275). -/
def codeOfCore (code : BitVec 16) : Bool :=
  codeFile code = 2 || codeFile code = 5 || codeFile code = 6 || (codeFile code = 4 && 64 ≤ codeSub code)

/-- Entries rewritten whole carry no error any more. -/
def Core.mend (c : Core) (wrote : Ctx → BitVec 16 → Bool) : Core := { c with badRegs := c.badRegs.filter (fun b => !wrote b.1 b.2) }

/-- An entry of the core written whole carries no error any more. -/
def Core.mendCode (c : Core) (code : BitVec 16) : Core := c.mend (fun _ y => y = code)

/-- An entry of the core takes a dword that carries the mark: it is in error (R283). -/
def Core.spoil (c : Core) (code : BitVec 16) (marked : Bool) : Core :=
  if marked then { c with badRegs := (0, code) :: c.badRegs } else c

/-- The system fault of kind 7 of an entry (R274). -/
def registerFault (code : BitVec 16) : FaultReq :=
  { kind := 7, va := 0, aux0 := code.setWidth 64, aux1 := (Config.syndrome code.toNat).setWidth 64 }

/-! ## User traps (R158 to R162) -/

/-- The registers that trap entry reads: PC, ST and TVEC (R159). -/
def trapReads : List Nat := [0, 1, 8]

/-- The registers that trap entry writes whole: TEPC, TST, TCAUSE, TVAL0 and TVAL1 (R159). -/
def trapWrites : List Nat := [9, 10, 11, 12, 13]

/-- A register that trap entry would read and that carries an uncorrectable error (R284). -/
def Core.badTrap (c : Core) (ctx : Ctx) : Option (BitVec 16) :=
  (c.badRegs.find? (fun b => b.1 = ctx && trapReads.any (fun n => b.2 = regCode 4 0 n))).map Prod.snd

/-- What a trap entry saves, it writes whole, and so without an error (R284). -/
def Core.mendTrap (c : Core) (ctx : Ctx) : Core := c.mend (fun x code => x = ctx && trapWrites.any (fun n => code = regCode 4 0 n))

/-- Trap entry on a thread whose handler takes it (R159): what is saved, what ST becomes, where the PC goes. -/
def Thread.enterTrap (t : Thread) (cause : BitVec 8) (v0 v1 : Dword) (pc : BitVec 18) : Thread :=
  { t with
    tepc := pc.setWidth 64, tst := t.st, tcause := cause.setWidth 64, tval0 := v0, tval1 := v1,
    st := putBit (putBit (setFld t.st 20 3 0) 25 false) 24 true,
    pc := BitVec.ofNat 18 ((fld t.tvec 2 16).toNat * 4),
    status := .ready, wait := .none, walkFault := none, record := none, waitFrom := 0 }

/-- The thread can take a trap: a handler is installed and it is not in one (R159). -/
def Thread.handles (t : Thread) : Bool := t.tvec.getLsbD 0 && !t.stBit 24

/-- TAKING AN EXCEPTION: the one operation for every user trap (R159). Without a handler, or in one, it is a system fault of
kind unhandled trap, whose record carries the cause, the TVALs and ST and the PC the trap would have saved. Where a register that the entry
reads carries an uncorrectable error, the thread takes a fault of kind 7 in its place, at the same PC (R284; notes/assumptions/51.md). -/
def State.trapThread (s : State) (ep : Ep) (ctx : Ctx) (cause : BitVec 8) (v0 v1 : Dword) (pc : BitVec 18) : State :=
  let t := s.thr ep ctx
  let stop := s.setThr ep ctx { t with pc := pc, waitFrom := 0 }
  match (s.core ep).badTrap ctx with
  | some code => stop.enterFault ep ctx (registerFault code)
  | none =>
  if t.handles then (s.setCore ep ((s.core ep).mendTrap ctx)).setThr ep ctx (t.enterTrap cause v0 v1 pc)
  else
    stop.enterFault ep ctx
      { kind := 6, va := 0, aux0 := cause.setWidth 64, aux1 := v0, aux2 := v1, aux3 := t.st }

/-- RETURN FROM A TRAP: PC := TEPC, ST := TST in one step (R162). -/
def Thread.returnFromTrap (t : Thread) : Thread :=
  { t with pc := BitVec.ofNat 18 ((fld t.tepc 2 16).toNat * 4), st := t.tst }

/-- Applies a stop to the issuing thread, which saves the address of its unit as PC (R110, R112, R161). -/
def State.applyStop (s : State) (r : Stop) : State :=
  let s := s.leaveOrder
  match r with
  | .trap cause v0 v1 => s.trapThread s.issue.ep s.issue.ctx cause v0 v1 s.issue.pc
  | .fault f =>
    (s.setMe { s.me with pc := s.issue.pc, waitFrom := 0 }).enterFault s.issue.ep s.issue.ctx f

/-- A trap, or a fault, at issue: neither word of the unit takes effect. -/
def State.stopAtIssue (s : State) (r : Stop) : State :=
  let s := s.applyStop r
  { s with issue := { s.issue with fate := .trapped r } }

/-- A trap at issue (R124). -/
def State.trap (s : State) (cause : BitVec 8) (v0 v1 : Dword) : State := s.stopAtIssue (.trap cause v0 v1)

/-- A stop after issue: a bundle's X-class word stands and XD is saved (R112). -/
def State.stopAfterIssue (s : State) (r : Stop) : State :=
  let s := s.applyStop r
  { s with issue := { s.issue with fate := .stopped r } }

/-- The major opcode of the word that issues, as a TVAL (R123). -/
def State.majorVal (s : State) : Dword := (fld s.issue.word 26 5).setWidth 64

/-- The word that issues, as a TVAL (R123). -/
def State.wordVal (s : State) : Dword := s.issue.word.setWidth 64

/-- An illegal-instruction trap with the major opcode and the word (R123). -/
def State.illegal (s : State) : State := s.trap 1 s.majorVal s.wordVal

/-- Why an instruction does not go on: it parks before issue, or it traps or faults at issue. -/
inductive Stall where
  | park (r : ParkReason) (w : Wait)
  | stop (r : Stop)
  deriving DecidableEq, Repr

/-- Applies a stall. -/
def State.stall (s : State) : Stall → State
  | .park r w => s.park r w
  | .stop r => s.stopAtIssue r

end Sys2Proof.Machine
end

