-- ==== Sys2Proof/Machine/Streams.lean ====
section
/-! DEFINITION. Packets, the source side of stream sessions, and the combining buffer (R63 to R68, R297 to R303). -/

namespace Sys2Proof.Machine

/-- The entry of a route bank for a destination package (R304). -/
def Package.route (k : Package) (bank : BitVec 1) (dst : Pkg) : BitVec 16 :=
  Assoc.get (if bank = 0 then k.bankA else k.bankB) dst.toNat 0

/-- The virtual network of a packet: replies and acknowledgements on RPY, streamed types on STM, or RNG where the route entry
of the destination has RVN = 1, requests on REQ, management on MGT (R298). -/
def packetVn (k : Package) (p : Packet) : BitVec 3 :=
  match p.type with
  | .read => 0
  | .msg => if p.payload / 2 ^ 33 % 2 = 1 then 1 else 0
  | .rdata | .aval | .ack | .nack => 1
  | .write | .atomic | .signal | .close =>
    let e := k.route k.rtAct (epPkg p.dst)
    if e.getLsbD 15 && e.getLsbD 14 then 3 else 2
  | .drain | .mgmt => 4

/-- Injects a packet at its source: the bank is RTCTL.ACT, and its lifetime begins (R302, R304). -/
def State.inject (s : State) (p : Packet) : State :=
  let k := s.pkg (epPkg p.src)
  { s with net := s.net ++
    [{ p with bank := k.rtAct, hops := 0, at_ := epPkg p.src, via := none, vn := packetVn k p, born := s.dieTime p.dst }] }

/-! ## Where a packet stands (R6, R8, R302, R304, R306, R318) -/

/-- The die that owns a port (R6). -/
def portDie (port : BitVec 4) : BitVec 1 := if port.toNat < 6 || port = 12 then 0 else 1

/-- What a router does with a packet for another package: the port it queues for, or why it has none (R304, R306). -/
def Package.routePort (k : Package) (p : Packet) : Except Nat (BitVec 4) :=
  let e := k.route p.bank (epPkg p.dst)
  let port := (fld e 0 5).toNat
  if p.hops = 31 && p.inPort.toNat < 14 then .error 3
  else if !e.getLsbD 15 || 14 ≤ port then .error 1
  else if !(k.port (BitVec.ofNat 4 port)).up then .error 2
  else .ok (BitVec.ofNat 4 port)

/-- The packet is at the package it is for: the one whose number its destination names (R304, R318; notes/assumptions/66.md). -/
def State.isHome (s : State) (p : Packet) : Bool := epPkg p.dst = p.at_ && (s.pkg p.at_).number = p.at_

/-- The packet's lifetime is over: it is discarded where it stands (R302). -/
def State.expired (s : State) (p : Packet) : Bool := p.type ≠ .drain && decide (p.born + 2 ^ 29 ≤ s.dieTime p.dst)

/-- The die at which a packet has entered its package's mesh. -/
def Packet.dieFrom (p : Packet) : BitVec 1 := if p.inPort.toNat < 14 then portDie p.inPort else epDie p.src

/-- The die of its package that it goes to, where its home, its endpoint or its output port lies; none where no port takes it. -/
def State.dieTo (s : State) (p : Packet) : Option (BitVec 1) :=
  if s.isHome p then some (epDie p.dst)
  else match (s.pkg p.at_).routePort p with
    | .ok port => some (portDie port)
    | .error _ => none

/-- A packet has its package's bridge still to cross, towards a die (R8). -/
def State.toCross (s : State) (p : Packet) (d : BitVec 1) : Bool :=
  p.via.isNone && !p.crossed && p.type ≠ .drain && p.dieFrom ≠ d && s.dieTo p = some d

/-- The bridge keeps the order of packets on each VN in each direction: packet n may cross, or has no bridge to cross (R8). The packets of all agents
reach it in the order in which they came into the network. (DESIGN CHOICE, notes/assumptions/69.md.) -/
def State.mayCross (s : State) (n : Nat) (p : Packet) : Bool :=
  match s.dieTo p with
  | none => true
  | some d => !s.toCross p d || !(s.net.take n).any (fun q => q.at_ = p.at_ && q.vn = p.vn && s.toCross q d)

/-- Sequence numbers modulo 2^16: how far `a` lies ahead of `b`. -/
def seqAhead (a b : BitVec 16) : Nat := (a - b).toNat

/-- What a session's packets are keyed by at their destination, with that destination (R297). -/
def sessionKey (p : Packet) : Nat :=
  ((p.ctx.toNat * 2 ^ 4 + p.str.toNat) * 2 ^ 5 + p.cqe.toNat) * 2 ^ 22 + p.dst.toNat

/-- Opens a session when the stream has none: STRM's epoch toggles, and the epoch its packets carry is the other one than that of the
source's last session under the same key at that destination (R65, R66; notes/assumptions/19.md). -/
def State.openSession (s : State) (st : Stream) (p : Packet) : State × Stream :=
  if st.opened then (s, st)
  else
    let c := s.core p.src
    let wire := (Assoc.get c.epochs (sessionKey p) 0 + 1) % 2
    (s.setCore p.src { c with epochs := Assoc.set c.epochs (sessionKey p) wire },
      { st with opened := true, epoch := st.epoch + 1, wire := BitVec.ofNat 1 wire })

/-- Sends an operation on a stream under the next sequence number and keeps it until it is acknowledged; the first of a session opens
it, and a blocked stream keeps it unsent (R65, R66). -/
def State.sendOn (s : State) (st : Stream) (p : Packet) : State × Stream :=
  let (s, st1) := s.openSession st p
  let p := { p with seq := st1.seq, opn := !st.opened, epoch := st1.wire }
  let st1 := { st1 with seq := st1.seq + 1, unacked := st1.unacked ++ [{ pkt := p, sentAt := s.dieCyc p.src }] }
  (if st1.err then s else s.inject p, st1)

/-- A stream of a thread. -/
def Thread.stream (t : Thread) (n : BitVec 3) : Stream := vget n t.streams

/-- Replaces a stream of a thread. -/
def Thread.setStream (t : Thread) (n : BitVec 3) (x : Stream) : Thread := { t with streams := vset n x t.streams }

/-- The close store has room for a session's CLOSE, or none is needed (R303). -/
def State.closeRoom (s : State) (ep : Ep) (st : Stream) : Bool := !st.opened || (s.core ep).closes.length < 64

/-- The CLOSE of a session: its epoch and its next SEQ (R303). -/
def closePacket (ep : Ep) (ctx : Ctx) (str : BitVec 4) (st : Stream) (abn : Bool) (seq : BitVec 16) : Packet :=
  { type := .close, dst := st.ep, src := ep, ctx := ctx, str := str, seq := seq, cls := true, epoch := st.wire, abn := abn }

/-- Sends the CLOSE of an open session into the close store, and unbinds the stream (R66, R303). -/
def State.closeSession (s : State) (ep : Ep) (ctx : Ctx) (str : BitVec 4) (cqe : BitVec 5) (st : Stream) : State × Stream :=
  if st.opened then
    let p := { closePacket ep ctx str st false st.seq with cqe := cqe }
    let c := s.core ep
    let s := s.setCore ep { c with closes := c.closes ++ [{ pkt := p, sentAt := s.dieCyc ep }] }
    (s.inject p, { st with opened := false, bound := false })
  else (s, { st with bound := false })

/-- Abandons a session: its unacknowledged operations are dropped, and a CLOSE with ABN names the first of them (R303). -/
def State.abandonSession (s : State) (ep : Ep) (ctx : Ctx) (str : BitVec 4) (cqe : BitVec 5) (st : Stream) : State × Stream :=
  match st.unacked with
  | [] => s.closeSession ep ctx str cqe st
  | u :: _ =>
    let p := { closePacket ep ctx str st true u.pkt.seq with cqe := cqe }
    let c := s.core ep
    let s := s.setCore ep { c with closes := c.closes ++ [{ pkt := p, sentAt := s.dieCyc ep }] }
    (s.inject p, { st with opened := false, bound := false, err := false, unacked := [] })

/-! ## The combining buffer (R67) -/

/-- Byte enables of the bytes an entry holds, and those bytes as a payload from the segment's start. -/
def Combine.image (e : Combine) : BitVec 256 × Nat :=
  e.bytes.foldl (fun (be, x) c =>
    let i := c.1 - e.seg
    (be ||| BitVec.ofNat 256 (2 ^ i), x + c.2.toNat * 2 ^ (8 * i))) (0, 0)

/-- The WRITE that carries an entry as one operation; its note marks the dwords that some one store wrote whole (R67, R173). -/
def combinePacket (ep : Ep) (e : Combine) : Packet :=
  let (be, x) := e.image
  { type := .write, dst := homeEp e.seg, src := ep, ctx := e.ctx, str := e.strm.setWidth 4, len := 256,
    pa := BitVec.ofNat 54 e.seg, payload := x, be := be, vas := e.vas,
    note := e.whole.foldl (fun n dw => Nat.lor n (2 ^ ((dw - e.seg) / 8))) 0 }

/-- The dwords an aligned store of some bytes writes whole (R173). -/
def wholeDwords (pa size : Nat) : List Nat := if size % 8 = 0 then (List.range (size / 8)).map (fun i => pa + 8 * i) else []

/-- Sends an entry of a core's combining buffer on its stream. -/
def State.sendCombine (s : State) (ep : Ep) (e : Combine) : State :=
  let c := s.core ep
  let s := s.setCore ep { c with combine := c.combine.filter (fun x => x ≠ e) }
  let t := s.thr ep e.ctx
  let (s, st) := s.sendOn (t.stream e.strm) (combinePacket ep e)
  s.setThr ep e.ctx ((s.thr ep e.ctx).setStream e.strm st)

/-- Sends every entry of a context that satisfies a test, oldest first. -/
def State.flushWhere (s : State) (ep : Ep) (q : Combine → Bool) : State :=
  ((s.core ep).combine.filter q).foldl (fun s e => s.sendCombine ep e) s

/-- Sends the entries of one stream of a thread (R67). -/
def State.flushStream (s : State) (ep : Ep) (ctx : Ctx) (n : BitVec 3) : State :=
  s.flushWhere ep (fun e => e.ctx = ctx && e.strm = n)

/-- Sends every entry of a thread (R67). -/
def State.flushThread (s : State) (ep : Ep) (ctx : Ctx) : State := s.flushWhere ep (fun e => e.ctx = ctx)

/-- The bytes `pa … pa + size − 1` with the values of a little-endian number, as cells. -/
def cellsOf (pa : Nat) : Nat → Nat → List Host.Cell
  | 0, _ => []
  | n + 1, x => (pa, BitVec.ofNat 8 x) :: cellsOf (pa + 1) n (x / 256)

/-- A later byte overwrites an earlier one of the entry (R67). -/
def joinBytes (old new : List Host.Cell) : List Host.Cell :=
  old.filter (fun c => new.all (fun d => d.1 ≠ c.1)) ++ new

/-- A plain streamed store joins its thread's open entry for that stream and segment, or opens one, which sends the oldest
entry of a full buffer (R67). -/
def State.combineStore (s : State) (ep : Ep) (ctx : Ctx) (n : BitVec 3) (va : Dword) (pa size x : Nat) : State :=
  let seg := pa / 256 * 256
  let now := (s.core ep).cyc.toNat
  let s := s.flushWhere ep (fun e => e.ctx = ctx && e.strm = n && e.seg ≠ seg)
  let c := s.core ep
  if c.combine.any (fun e => e.ctx = ctx && e.strm = n) then
    s.setCore ep { c with combine := c.combine.map (fun e =>
      if e.ctx = ctx && e.strm = n then
        { e with bytes := joinBytes e.bytes (cellsOf pa size x), whole := e.whole ++ wholeDwords pa size, last := now, vas := e.vas ++ [va] }
      else e) }
  else
    let s := match c.combine with
      | e :: _ => if 32 ≤ c.combine.length then s.sendCombine ep e else s
      | [] => s
    let c := s.core ep
    s.setCore ep { c with combine := c.combine ++
      [{ ctx := ctx, strm := n, seg := seg, bytes := cellsOf pa size x, whole := wholeDwords pa size, last := now, vas := [va] }] }

/-! ## Own streamed operations (R64, R65, R68, R69) -/

/-- STRMn (R65). -/
def Stream.reg (st : Stream) : Dword :=
  BitVec.ofNat 64 (b2n st.err * 2 ^ 63 + b2n st.bound * 2 ^ 62 + st.epoch.toNat * 2 ^ 61 +
    (st.unacked.length % 256) * 2 ^ 53 + st.seq.toNat * 2 ^ 37 + (if st.bound then st.ep.toNat else 0))

/-- The dwords a packet's operation writes bytes of. -/
def Packet.touches (p : Packet) (dw : Nat) : Bool :=
  match p.type with
  | .write =>
    let a := p.pa.toNat
    decide (a / 8 * 8 ≤ dw ∧ dw < a + p.len.toNat) &&
      ((List.range 8).any (fun i => decide (a ≤ dw + i) && p.be.getLsbD (dw + i - a)))
  | .atomic | .signal => decide (p.pa.toNat / 8 * 8 = dw)
  | _ => false

/-- A combining entry holds a byte of the dword. -/
def Combine.touches (e : Combine) (dw : Nat) : Bool := e.bytes.any (fun c => c.1 / 8 * 8 = dw)

/-- The dwords of an access. -/
def dwordsOf (pa size : Nat) : List Nat := (List.range ((pa % 8 + size + 7) / 8)).map (fun i => dwordAt pa + 8 * i)

/-- An unacknowledged streamed operation of the thread, sent or combining, writes a byte in a dword of the access (R68). -/
def State.ownStores (s : State) (ep : Ep) (ctx : Ctx) (pa size : Nat) : Bool :=
  let t := s.thr ep ctx
  let dws := dwordsOf pa size
  t.streams.toList.any (fun st => st.unacked.any (fun u => dws.any (fun dw => u.pkt.touches dw)))
    || (s.core ep).combine.any (fun e => e.ctx = ctx && dws.any (fun dw => e.touches dw))

/-- Every operation of a thread's streams named by a mask is acknowledged and none is combining (R69). -/
def State.streamsQuiet (s : State) (ep : Ep) (ctx : Ctx) (mask : BitVec 8) : Bool :=
  let t := s.thr ep ctx
  (List.range 8).all (fun i =>
    !mask.getLsbD i || ((t.stream (BitVec.ofNat 3 i)).unacked.isEmpty &&
      !(s.core ep).combine.any (fun e => e.ctx = ctx && e.strm = BitVec.ofNat 3 i)))

end Sys2Proof.Machine
end

