-- ==== Sys2Proof/Machine/Operands.lean ====
section
/-! DEFINITION. Every operand form: registers, queue ports over core queues and message stores, prefixes, masks and vectors,
and how an instruction reads its operands and writes its destination (R24 to R28, R111 to R118, R122, R187 to R192). -/

namespace Sys2Proof.Machine

/-! ## Core queues (R28) -/

/-- The target code a port is bound to (R26). -/
def Thread.portCode (t : Thread) (r : Reg) : BitVec 4 := fld t.qbind (4 * (r.toNat - 28)) 4

/-- The number of a core queue's code 1 to 8. -/
def queueOf (code : BitVec 4) : BitVec 3 := BitVec.ofNat 3 (code.toNat - 1)

/-- A thread holds a place for this wait before the context's own, or before a thread that holds none (R28, R44). -/
def Core.behind (c : Core) (ctx : Ctx) (w : Wait) : Bool := (c.parkOrder.takeWhile (fun x => x.1 ≠ ctx)).any (fun x => x.2 = w)

/-- A thread that parked earlier on the same queue, on the same side, is served first (R28). -/
def State.behind (s : State) (code : BitVec 4) (push : Bool) : Bool := s.myCore.behind s.issue.ctx (.queue code push)

/-- Room for another push: free entries less the pushes already reserved (R28). -/
def CoreQueue.room (q : CoreQueue) : Bool := q.data.length + q.reserved < 32

/-- The queue with its oldest dword taken. -/
def CoreQueue.tail (q : CoreQueue) : CoreQueue := { q with data := q.data.drop 1, head := q.head + 1 }

/-- The queue with a dword pushed. -/
def CoreQueue.push (q : CoreQueue) (x : Dword) : CoreQueue := { q with data := q.data ++ [x] }

/-- The 32 entries of a queue from its head on (R289). -/
def CoreQueue.entries (q : CoreQueue) : List Dword :=
  (q.data ++ (List.range (32 - q.data.length)).map (fun i => Assoc.get q.spare ((q.head.toNat + q.data.length + i) % 32) 0)).take 32

/-- A core queue of a core. -/
def Core.queue (c : Core) (code : BitVec 4) : CoreQueue := vget (queueOf code) c.cq

/-- Replaces a core queue. -/
def Core.setQueue (c : Core) (code : BitVec 4) (q : CoreQueue) : Core := { c with cq := vset (queueOf code) q c.cq }

/-- A matrix command of the issuing thread on an accumulator is not complete (R40). -/
def State.accBusy (s : State) (acc : BitVec 2) : Bool := s.myCore.mq.any (fun q => s.me.owns q.home q.lid q.lti && !q.ended && q.acc = acc)

/-- A command or copy that is queued or running names the ring; a copy that a fault has stopped counts until it leaves, and one that has failed while it
still pushes the blocks before the failing one (R157, R245, R258). (DESIGN CHOICE, notes/assumptions/76.md.) -/
def Core.ringBusy (c : Core) (r : BitVec 3) : Bool :=
  c.mq.any (fun q => (q.ringA = r || q.ringB = r) && q.multiplies && (q.phase = .queued || q.phase = .running))
    || c.copies.any (fun k => k.ring = some r && !(k.phase = .done || (k.phase = .failed && k.buf.isEmpty)))

/-! ## Message stores (R187 to R193) -/

/-- A header (R188). -/
def msgHeader (tag : BitVec 16) (np : Nat) (kind nr : BitVec 1) (slot : Nat) (ctx : Ctx) (ep : Ep) : Dword :=
  BitVec.ofNat 64 (tag.toNat * 2 ^ 48 + np * 2 ^ 34 + kind.toNat * 2 ^ 33 + nr.toNat * 2 ^ 32 + slot * 2 ^ 26 +
    ctx.toNat * 2 ^ 22 + ep.toNat)

/-- A free reply slot, that of the lowest number (R187, R189). (DESIGN CHOICE, notes/assumptions/101.md.) -/
def Core.freeSlot (c : Core) : Option Nat :=
  (List.range 64).find? (fun i => match c.replies.toList[i]? with
    | some w => w.owner.isNone && w.saved.isNone
    | none => false)

/-- An outbox of a core. -/
def Core.outbox (c : Core) (ob : BitVec 1) : List OutMsg := if ob = 0 then c.outbox0 else c.outbox1

/-- Replaces an outbox. -/
def Core.setOutbox (c : Core) (ob : BitVec 1) (l : List OutMsg) : Core :=
  if ob = 0 then { c with outbox0 := l } else { c with outbox1 := l }

/-- The lowest of 64 entries that is not in use (R187). -/
def freeEntry (used : List Nat) : Nat := ((List.range 64).find? (fun i => !used.contains i)).getD 0

/-- The key of a thread's message session: one for each outbox and destination core (R190). -/
def msgKey (ob : BitVec 1) (dst : Ep) : Nat := ob.toNat * 2 ^ 22 + dst.toNat

/-- Places a message in an outbox; the core's sender sends it on its session (R189, R190). The target's slot and context, and
the sender's launch, travel in the packet's note (notes/assumptions/8.md). -/
def State.placeMessage (s : State) (ob : BitVec 1) (dst : Ep) (header target : Dword) (payload : List Dword) : State :=
  let ep := s.issue.ep
  let ctx := s.issue.ctx
  let t := s.me
  let key := msgKey ob dst
  let st := Assoc.get t.msgStreams key { bound := true, ep := dst }
  let n := payload.length + 1
  let p : Packet :=
    { type := .msg, dst := dst, src := ep, ctx := ctx, str := BitVec.ofNat 4 (9 + ob.toNat),
      len := BitVec.ofNat 9 (8 * n), payload := packNats 64 ((header :: payload).map (·.toNat)),
      note := launchKey t.home t.lid * 2 ^ 10 + (target.toNat / 2 ^ 22 % 2 ^ 10) }
  let seq := st.seq
  let (s, st) := s.sendOn st p
  let t := s.me
  let s := s.setMe { t with msgStreams := Assoc.set t.msgStreams key st }
  let c := s.myCore
  let entry := freeEntry ((c.outbox ob).map OutMsg.entry)
  let m : OutMsg := { dst := dst, ctx := ctx, seq := seq, header := header, payload := payload, entry := entry }
  s.setMyCore ((c.setOutbox ob (c.outbox ob ++ [m])).mendCode (regCode 6 (2 + ob.toNat) entry))

/-- A thread that parked earlier on the same full outbox resumes first (R44). -/
def State.behindOutbox (s : State) (ob : BitVec 1) : Bool := s.myCore.behind s.issue.ctx (.outbox ob false)

/-- A message of the request inbox that the thread may take: of its own launch, held by no thread (R191). -/
def InMsg.readable (m : InMsg) (key : Nat) : Bool := m.lid = key && m.holder.isNone

/-- Pops a dword from the request inbox (R191). -/
def State.popRequest (s : State) : Option (Dword × State) :=
  let t := s.me
  let c := s.myCore
  match t.restMsg with
  | x :: r => some (x, s.setMe { t with restMsg := r, restGone := if r.isEmpty then 0 else t.restGone + 1 })
  | [] =>
    match t.heldReq with
    | some id =>
      match c.inbox.find? (fun m => m.id = id) with
      | some m =>
        let x := m.payload.getD m.read 0
        if m.read + 1 < m.payload.length then
          some (x, s.setMyCore { c with inbox := c.inbox.map (fun w => if w.id = id then { w with read := w.read + 1 } else w) })
        else
          let s := s.setMyCore { c with inbox := c.inbox.filter (fun w => w.id ≠ id) }
          some (x, s.setMe { s.me with heldReq := none })
      | none => none
    | none =>
      match c.inbox.find? (fun m => m.readable (launchKey t.home t.lid)) with
      | some m =>
        let s := s.setMyCore { c with inbox := c.inbox.map (fun w => if w.id = m.id then { w with holder := some s.issue.ctx } else w) }
        some (m.header, s.setMe { s.me with heldReq := some m.id, header := some m.header })
      | none => none

/-- The thread's slots that hold a reply it has not begun to read, earliest arrival first. -/
def Core.repliesOf (c : Core) (ctx : Ctx) : List (Nat × Slot) :=
  ((List.range 64).zip c.replies.toList).filter (fun w => w.2.owner = some ctx && w.2.msg.isSome)

/-- The earliest-arrived of some slots. -/
def earliest : List (Nat × Slot) → Option (Nat × Slot)
  | [] => none
  | w :: r => match earliest r with
    | some x => if x.2.order < w.2.order then some x else some w
    | none => some w

/-- Replaces a reply slot. -/
def Core.setSlot (c : Core) (i : Nat) (w : Slot) : Core := { c with replies := c.replies.setIfInBounds i w }

/-- A reply enters a slot of a core, later than every message before it; one that carries a mark leaves the entry in error (R283). -/
def State.fillSlot (s : State) (ep : Ep) (i : Nat) (ctx : Ctx) (m : Dword × List Dword) (marked : Bool) : State :=
  let c := (s.core ep).setSlot i { owner := some ctx, msg := some m, order := (s.core ep).msgSeq }
  s.setCore ep (({ c with msgSeq := c.msgSeq + 1 }.mendCode (regCode 6 1 i)).spoil (regCode 6 1 i) marked)

/-- Pops a dword from the reply inbox; a slot is freed after its last dword (R191). -/
def State.popReply (s : State) : Option (Dword × State) :=
  let t := s.me
  let c := s.myCore
  match t.restReply with
  | x :: r => some (x, s.setMe { t with
      restReply := r, restGone := if !t.restMsg.isEmpty then t.restGone else if r.isEmpty then 0 else t.restGone + 1 })
  | [] =>
    match t.replyPos with
    | some (i, pos) =>
      match (c.replies.toList.getD i {}).msg with
      | some (_, pl) =>
        let x := pl.getD pos 0
        if pos + 1 < pl.length then some (x, s.setMe { t with replyPos := some (i, pos + 1) })
        else
          let s := s.setMyCore (c.setSlot i {})
          some (x, s.setMe { s.me with replyPos := none })
      | none => none
    | none =>
      match earliest (c.repliesOf s.issue.ctx) with
      | some (i, w) =>
        match w.msg with
        | some (h, _) => some (h, s.setMe { t with replyPos := some (i, 0) })
        | none => none
      | none => none

/-! ## Registers and ports as operands -/

/-- A trap of a port named as a source or destination (R27, R31, R192). -/
def State.portStop (s : State) (r : Reg) (write : Bool) : Option Stop :=
  if !isPort r then none
  else
    let t := s.me
    let code := t.portCode r
    let c := code.toNat
    let bad : Stop := .trap 1 (BitVec.ofNat 64 (r.toNat - 28)) (code.setWidth 64)
    if 1 ≤ c && c ≤ 8 then
      if t.eset then none else some (.trap 1 s.majorVal s.wordVal)
    else if write then
      if c = 11 || c = 12 then
        match t.header with
        | some h => if h.getLsbD 32 then some bad else none
        | none => some bad
      else some bad
    else if c = 9 || c = 10 then none else some bad

/-- The first register whose full bit is clear (R24). -/
def Thread.waitsOn (t : Thread) (regs : List Reg) : Option Reg := regs.find? (fun r => !t.isFull r)

/-- Reads one source register field, popping its queue when it is a port (R28, R122). -/
def State.readReg (s : State) (r : Reg) : Except Stall (Dword × State) :=
  if !isPort r then .ok (s.me.getG r, s)
  else
    let code := s.me.portCode r
    if code = 9 then
      match s.popRequest with
      | some x => .ok x
      | none => .error (.park .message (.queue code false))
    else if code = 10 then
      match s.popReply with
      | some x => .ok x
      | none => .error (.park .message (.queue code false))
    else
      let c := s.myCore
      let q := c.queue code
      match q.data with
      | x :: _ => if s.behind code false then .error (.park .queue (.queue code false)) else .ok (x, s.setMyCore (c.setQueue code q.tail))
      | [] => .error (.park .queue (.queue code false))

/-- Reads source register fields in order (R28). -/
def State.readRegs (s : State) : List Reg → Except Stall (List Dword × State)
  | [] => .ok ([], s)
  | r :: rs =>
    match s.readReg r with
    | .error e => .error e
    | .ok (x, s) =>
      match s.readRegs rs with
      | .error e => .error e
      | .ok (xs, s) => .ok (x :: xs, s)

/-- The field names a port bound to a target of two, by its code (R26). -/
def Thread.bindsTo (t : Thread) (r : Reg) (x y : BitVec 4) : Bool := isPort r && (t.portCode r = x || t.portCode r = y)

/-- The first trap among the ports an instruction reads, then those it writes (R124 step 3). One that pops the request inbox replies by the
header remembered after its pops; while they cannot be served, no header is known to trap (R191, R192). -/
def State.portStops (s : State) (srcs dsts : List Reg) : Option Stop :=
  match srcs.findSome? (fun r => s.portStop r false) with
  | some x => some x
  | none =>
    if srcs.any (fun r => s.me.bindsTo r 9 9) then
      match s.readRegs srcs with
      | .ok (_, s1) => dsts.findSome? (fun r => s1.portStop r true)
      | .error _ => dsts.findSome? (fun r => if s.me.bindsTo r 11 12 then none else s.portStop r true)
    else dsts.findSome? (fun r => s.portStop r true)

/-- Entries of an outbox in use or kept for results that return later (R28, R187). -/
def Core.outboxUsed (c : Core) (ob : BitVec 1) : Nat :=
  let replies (d : Dest) : Bool := match d with | .reply o _ => o = ob | _ => false
  (c.outbox ob).length + ((c.threads.toList.map (fun (t : Thread) =>
    (t.pend.filter (fun p => replies p.dest)).length + (if t.waitFrom ≠ 0 && replies t.heldDest then 1 else 0))).sum)

/-- The target that a result with this destination is pushed to: a queue, or the outbox of a reply (R26, R28). -/
def Dest.target (d : Dest) : Option (BitVec 4) :=
  match d with
  | .port _ code => some code
  | .reply ob _ => some (BitVec.ofNat 4 (11 + ob.toNat))
  | _ => Option.none

/-- The held instruction of a thread, a BAR, a BARW or a WAITQ, is to push its result to a target (R28, R45, R195). -/
def Thread.heldPushes (t : Thread) (code : BitVec 4) : Bool := t.waitFrom ≠ 0 && t.heldDest.target = some code

/-- A result of the thread is to be pushed to a target before what it pushes now: a pending one, or that of the held C-class word of its bundle, which is
served before the X-class word (R28). -/
def Thread.owesPush (t : Thread) (code : BitVec 4) : Bool := t.heldPushes code || t.pend.any (fun p => p.dest.target = some code)

/-- A push that follows a pending one of its thread to the same target waits its turn: a result that is already there, and that counts as pending until it
is pushed (R28, R48). (DESIGN CHOICE, notes/assumptions/73.md.) -/
def State.pushLater (s : State) (d : Dest) (x : Dword) : State :=
  let t := s.me
  s.setMe { t with
    pend := t.pend ++ [{ id := t.nextId, pc := t.pc, kind := .later, dest := d, lanes := [{ req := { got := x.toNat }, stage := .performed }] }],
    nextId := t.nextId + 1 }

/-- What an outbox does to a write of the port bound to it: full, it traps with SQT set, TVAL1 the remembered header, and parks the thread
otherwise; with room, a thread that would park still lets those parked there earlier go first (R44, R155, R189, R192). -/
def State.outboxStall (s : State) (ob : BitVec 1) (header : Dword) : Option Stall :=
  if 64 ≤ s.myCore.outboxUsed ob then
    if s.me.stBit 23 then some (.stop (.trap 6 (ob.setWidth 64) header)) else some (.park .message (.outbox ob false))
  else if s.behindOutbox ob && !s.me.stBit 23 then some (.park .message (.outbox ob false))
  else none

/-- The core of the system that the words of a message's target name (R14, R189). -/
def State.coreOf (s : State) (t : Dword) : Option Ep :=
  let ep : Ep := fld t 0 22
  if epIsCore ep && decide ((epPkg ep).toNat < (s.pkg (epPkg s.issue.ep)).npkg) then some ep else none

/-- What holds back a reply to the remembered request: a header that names no core of the system, which faults as SEND's target does, or a full
outbox (R14, R189, R192). (DESIGN CHOICE, notes/assumptions/61.md.) -/
def State.replyStall (s : State) (ob : BitVec 1) (header : Dword) : Option Stall :=
  if (s.coreOf header).isNone then some (.stop (.fault { kind := 1 })) else s.outboxStall ob header

/-- Sends the remembered request's reply of one dword (R192); a full outbox as in SEND. -/
def State.replyPort (s : State) (ob : BitVec 1) (x : Dword) : Except Stall State :=
  let t := s.me
  match t.header with
  | none => .error (.stop (.trap 1 s.majorVal s.wordVal))
  | some h =>
    match s.replyStall ob h with
    | some e => .error e
    | none =>
    if t.owesPush (BitVec.ofNat 4 (11 + ob.toNat)) then .ok (s.pushLater (.reply ob h) x)
    else .ok (s.placeMessage ob (fld h 0 22) (msgHeader (fld h 48 16) 0 1 0 0 s.issue.ctx s.issue.ep) h [x])

/-- Writes a destination register field, pushing when it is a port (R24, R28, R122). -/
def State.writeReg (s : State) (r : Reg) (x : Dword) : Except Stall State :=
  if !isPort r then .ok (s.setMe (s.me.setG r x))
  else
    let code := s.me.portCode r
    if code = 11 then s.replyPort 0 x
    else if code = 12 then s.replyPort 1 x
    else
      let c := s.myCore
      let q := c.queue code
      if q.room && !s.behind code true then
        if s.me.owesPush code then .ok ((s.setMyCore (c.setQueue code { q with reserved := q.reserved + 1 })).pushLater (.port (fld r 0 2) code) x)
        else .ok (s.setMyCore (c.setQueue code (q.push x)))
      else .error (.park .queue (.queue code true))

/-- Room for the push of a result that returns later is reserved at issue (R28). -/
def State.reserve (s : State) (r : Reg) : Except Stall State :=
  if !isPort r then .ok s
  else
    let code := s.me.portCode r
    if code = 11 || code = 12 then
      (match s.replyStall (BitVec.ofNat 1 (code.toNat - 11)) (s.me.header.getD 0) with
       | some e => .error e
       | none => .ok s)
    else
      let c := s.myCore
      let q := c.queue code
      if q.room && !s.behind code true then .ok (s.setMyCore (c.setQueue code { q with reserved := q.reserved + 1 }))
      else .error (.park .queue (.queue code true))

/-- The destination of a result that returns later: a register, a core queue, or the reply a port write sends, each as bound now
(R28, R157, R192). -/
def Thread.destOf (t : Thread) (r : Reg) : Dest :=
  if !isPort r then .reg r
  else
    let code := t.portCode r
    if code = 11 || code = 12 then .reply (BitVec.ofNat 1 (code.toNat - 11)) (t.header.getD 0) else .port (fld r 0 2) code

/-- The register that a code names has been written whole, and carries no error any more (R284). -/
def Core.mendReg (c : Core) (ctx : Ctx) (code : Nat) : Core := { c with badRegs := c.badRegs.filter (fun b => !(b.1 = ctx && b.2.toNat = code)) }

/-- A dword is pushed into a core queue, whose entry takes it whole (R284). -/
def Core.pushTo (c : Core) (code : BitVec 4) (q : CoreQueue) (x : Dword) : Core :=
  (c.setQueue code (q.push x)).mendCode (regCode 5 (queueOf code).toNat ((q.head.toNat + q.data.length) % 32))

/-- A result that returns later is written: to its register, whose full bit is set, into the room reserved in its queue, or as a
reply (R24, R28, R192). -/
def State.writeDest (s : State) (ep : Ep) (ctx : Ctx) (d : Dest) (x : Dword) : State :=
  match d with
  | .none => s
  | .vec _ _ => s
  | .reg n => s.setCore ep (((s.core ep).setThr ctx ((s.thr ep ctx).setG n x)).mendReg ctx n.toNat)
  | .port _ code =>
    let c := s.core ep
    let q := c.queue code
    s.setCore ep (c.pushTo code { q with reserved := q.reserved - 1 } x)
  | .reply ob h =>
    let was := s.issue
    let s1 := { s with issue := { was with ep := ep, ctx := ctx } }
    let s2 := s1.placeMessage ob (fld h 0 22) (msgHeader (fld h 48 16) 0 1 0 0 ctx ep) h [x]
    { s2 with issue := was }

/-- A destination whose result will not come gives its room back (R28, R36, R45, R172). -/
def State.dropDest (s : State) (ep : Ep) (d : Dest) : State :=
  match d with
  | .port _ code =>
    let c := s.core ep
    let q := c.queue code
    s.setCore ep (c.setQueue code { q with reserved := q.reserved - 1 })
  | _ => s

/-- A push of the X-class word of a bundle waits behind that of the C-class word that its thread holds (R28, R111). -/
def Thread.behindHeld (t : Thread) (p : Pending) : Bool := p.kind = .later && (p.dest.target.map t.heldPushes).getD false

/-- The pushes that wait behind the held word, in their order (R28, R111). -/
def Thread.later (t : Thread) : List Pending := t.pend.filter t.behindHeld

/-- The thread without the pushes that wait behind its held word. -/
def Thread.withoutLater (t : Thread) : Thread := { t with pend := t.pend.filter (fun p => !t.behindHeld p) }

/-- Pushes that waited are made, in order (R28). -/
def State.pushAll (s : State) (ep : Ep) (ctx : Ctx) (l : List Pending) : State :=
  l.foldl (fun s p => s.writeDest ep ctx p.dest (BitVec.ofNat 64 (p.lanes.headD {}).req.got)) s

/-- An instruction that waited at its PC completes: its value is written, and then the pushes of the X-class word of its bundle that have waited behind it;
the PC moves on, XD is cleared, the thread is READY unless a fault holds it, and with SS set its step trap follows (R28, R39, R43, R112, R164, R194). -/
def State.completeHeld (s : State) (ep : Ep) (ctx : Ctx) (x : Dword) : State :=
  let t := s.thr ep ctx
  let c := s.core ep
  let u := t.withoutLater
  let s := s.setCore ep ((c.leaveOrder ctx).setThr ctx (Thread.settle { u with
    pc := t.heldNext, st := putBit t.st 22 false, wait := .none, waitFrom := 0, waitLimit := 0, heldDest := .none,
    status := (if t.status = Status.faulted then Status.faulted else Status.ready),
    shadow := if u.pend.isEmpty then t.shadow else t.shadow - 1, stepTrap := t.stBit 25 }))
  (s.writeDest ep ctx t.heldDest x).pushAll ep ctx t.later

/-- A held instruction stops or is withdrawn: its destination gives its room back, and the pushes of the X-class word of its bundle, whose effect stands, are
made (R28, R112). -/
def State.withdrawHeld (s : State) (ep : Ep) (ctx : Ctx) : State :=
  let t := s.thr ep ctx
  if t.waitFrom = 0 then s
  else
    ((s.dropDest ep t.heldDest).setThr ep ctx { t.withoutLater with waitFrom := 0, waitLimit := 0, heldDest := .none }).pushAll ep ctx t.later

/-- The sources of an instruction, once its ports may be used and no register operand is pending (R24, R27, R28, R111). -/
def State.operands (s : State) (srcs dsts : List Reg) : Except Stall (List Dword × State) :=
  match s.portStops srcs dsts with
  | some x => .error (.stop x)
  | none =>
    match s.me.waitsOn (srcs ++ dsts) with
    | some r => .error (.park .fill (.reg r))
    | none => s.readRegs srcs

/-- The first vector register that awaits a vector load or a gather (R148, R176). -/
def Thread.vecWaitsOn (t : Thread) (vs : List Reg) : Option Reg := vs.find? (fun r => t.vecPending r)

/-- As `operands`, for an instruction that also reads or writes the vector registers listed. -/
def State.operandsV (s : State) (srcs dsts vs : List Reg) : Except Stall (List Dword × State) :=
  match s.portStops srcs dsts with
  | some x => .error (.stop x)
  | none =>
    match s.me.waitsOn (srcs ++ dsts) with
    | some r => .error (.park .fill (.reg r))
    | none =>
      match s.me.vecWaitsOn vs with
      | some r => .error (.park .fill (.vec r))
      | none => s.readRegs srcs

/-- An instruction that computes one scalar result from scalar sources (R38, R138). -/
def State.alu (s : State) (srcs : List Reg) (d : Reg) (f : List Dword → Dword) : State :=
  match s.operands srcs [d] with
  | .error e => s.stall e
  | .ok (xs, s1) =>
    match s1.writeReg d (f xs) with
    | .error e => s.stall e
    | .ok s2 => s2.retire

/-- Of one source. -/
def State.alu1 (s : State) (d a : Reg) (f : Dword → Dword) : State :=
  s.alu [a] d (fun xs => match xs with | [x] => f x | _ => 0)

/-- Of two sources. -/
def State.alu2 (s : State) (d a b : Reg) (f : Dword → Dword → Dword) : State :=
  s.alu [a, b] d (fun xs => match xs with | [x, y] => f x y | _ => 0)

/-- Of three sources. -/
def State.alu3 (s : State) (d a b c : Reg) (f : Dword → Dword → Dword → Dword) : State :=
  s.alu [a, b, c] d (fun xs => match xs with | [x, y, z] => f x y z | _ => 0)

/-! ## Accesses in a shadow (R39) -/

/-- An instruction that accesses memory parks while a result of its thread is pending. -/
def State.shadowStall (s : State) : Option Stall :=
  let t := s.me
  if t.pend.isEmpty then none else some (.park t.pendReason .pendingAll)

/-- A relaxed load issues in the shadow of relaxed loads alone, at most four of them outstanding (R39, R62). -/
def State.relaxedStall (s : State) : Option Stall :=
  let t := s.me
  let own := t.pend.filter (fun p => p.kind ≠ .later)
  if own.all (fun p => p.relaxed) && own.length ≤ 4 then none else some (.park t.pendReason .pendingAll)

/-! ## Prefixes (R114 to R117) -/

/-- A pending EXT. -/
def Thread.extPending (t : Thread) : Bool := t.stBit 21

/-- A pending FMT. -/
def Thread.fmtPending (t : Thread) : Bool := t.stBit 20

/-- PFX.EXTV. -/
def Thread.extv (t : Thread) : Nat := (fld t.pfx 40 24).toNat

/-- An immediate of `n` bits, widened by a pending EXT and sign-extended (R116). -/
def Thread.immediate (t : Thread) {n : Nat} (imm : BitVec n) : Int :=
  if t.extPending then sextN (t.extv * 2 ^ n + imm.toNat) (n + 24) else imm.toInt

/-- The instruction consumes a pending EXT when it issues without a trap (R115). -/
def State.consumeExt (s : State) : State := s.setMe (s.me.setStBit 21 false)

/-- The instruction consumes a pending FMT (R115, R117). -/
def State.consumeFmt (s : State) : State := s.setMe (s.me.setStBit 20 false)

/-- The fields a pending FMT gives: FA, FB and RM (R113, R117). -/
structure FmtGiven where
  fa : Option (BitVec 5) := none
  fb : Option (BitVec 5) := none
  rm : Option (BitVec 3) := none
  deriving DecidableEq, Repr

/-- The FMT in force: nothing when none is pending. -/
def Thread.fmt (t : Thread) : FmtGiven :=
  if t.fmtPending then
    { fa := if t.pfx.getLsbD 15 then some (fld t.pfx 8 5) else none,
      fb := if t.pfx.getLsbD 14 then some (fld t.pfx 3 5) else none,
      rm := if t.pfx.getLsbD 13 then some (fld t.pfx 0 3) else none }
  else {}

end Sys2Proof.Machine
end

