-- ==== Sys2Proof/Machine/Flags.lean ====
section
/-! DEFINITION. Every flag of ST and how instructions raise them (R92, R138, R155, R156). -/

namespace Sys2Proof.Machine

/-- The eight sticky flags of ST[7:0] (R155). -/
structure Flags where
  nv : Bool := false
  dz : Bool := false
  of_ : Bool := false
  uf : Bool := false
  nx : Bool := false
  sa : Bool := false
  iv : Bool := false
  dw : Bool := false
  deriving DecidableEq, Repr

/-- No flag. -/
def Flags.none : Flags := {}

/-- Flags raised by either of two operations: flags are sticky and combine by or (R92, R111). -/
def Flags.or (a b : Flags) : Flags :=
  { nv := a.nv || b.nv, dz := a.dz || b.dz, of_ := a.of_ || b.of_, uf := a.uf || b.uf, nx := a.nx || b.nx, sa := a.sa || b.sa,
    iv := a.iv || b.iv, dw := a.dw || b.dw }

/-- The flags as ST[7:0] (R155). -/
def Flags.bits (f : Flags) : BitVec 64 :=
  BitVec.ofNat 64 (b2n f.nv + b2n f.dz * 2 + b2n f.of_ * 4 + b2n f.uf * 8 + b2n f.nx * 16 + b2n f.sa * 32 + b2n f.iv * 64 + b2n f.dw * 128)

/-- ST with flags raised. -/
def Thread.raise (t : Thread) (f : Flags) : Thread := { t with st := t.st ||| f.bits }

/-- Raises flags in the issuing thread's ST. -/
def State.raise (s : State) (f : Flags) : State := s.setMe (s.me.raise f)

/-- An instruction that computes one scalar result and flags from two scalar sources. -/
def State.aluFlags (s : State) (d a b : Reg) (f : Dword → Dword → Dword × Flags) : State :=
  match s.operands [a, b] [d] with
  | .error e => s.stall e
  | .ok (xs, s1) =>
    let (x, fl) := match xs with | [x, y] => f x y | _ => (0, Flags.none)
    match s1.writeReg d x with
    | .error e => s.stall e
    | .ok s2 => (s2.raise fl).retire

/-- A saturating result of 64 bits: the exact value clamped, and SA when clamping changed it (R140). -/
def saturate (exact clamped : Int) : Dword × Flags := (wrap 64 clamped, { sa := decide (exact ≠ clamped) })

end Sys2Proof.Machine
end

