-- ==== Sys2Proof/Machine/Numeric.lean ====
section
/-! DEFINITION. Number formats, exact values and the one rounding of each operation (R81, R87 to R94). An exact value that needs
infinitely many bits is held as its leading bits and a mark that more follow. -/

namespace Sys2Proof.Machine

/-- Rounding modes (R89). -/
inductive RMode where
  | rne | rtz | rdn | rup | rna | sr
  deriving DecidableEq, Repr

/-- The mode of a code other than 6 and 7 (R89). -/
def RMode.ofCode (c : BitVec 3) : RMode :=
  match c.toNat with
  | 1 => .rtz
  | 2 => .rdn
  | 3 => .rup
  | 4 => .rna
  | 5 => .sr
  | _ => .rne

/-- ST.RM, where 6 and 7 act as RNE (R89). -/
def Thread.stMode (t : Thread) : RMode := RMode.ofCode (fld t.st 16 3)

/-- The mode a code selects: 7 selects ST.RM (R89). -/
def Thread.mode (t : Thread) (c : BitVec 3) : RMode := if c = 7 then t.stMode else RMode.ofCode c

/-- A value: a NaN, an infinity, or ±m × 2^e. With `more` the magnitude lies strictly between m × 2^e and (m + 1) × 2^e. -/
inductive Num where
  | nan (signalling : Bool)
  | inf (neg : Bool)
  | fin (neg : Bool) (m : Nat) (e : Int) (more : Bool)
  deriving DecidableEq, Repr

/-- A whole number. -/
def Num.ofInt (x : Int) : Num := .fin (decide (x < 0)) x.natAbs 0 false

/-- The layout of a floating format (R87). -/
structure FFmt where
  ebits : Nat
  fbits : Nat
  bias : Nat
  /-- E4M3: no infinity, all-ones exponent used for numbers. -/
  e4m3 : Bool := false
  deriving DecidableEq, Repr

/-- FP32 (R87). -/
def fp32 : FFmt := { ebits := 8, fbits := 23, bias := 127 }
/-- FP16 (R87). -/
def fp16 : FFmt := { ebits := 5, fbits := 10, bias := 15 }
/-- BF16 (R87). -/
def bf16 : FFmt := { ebits := 8, fbits := 7, bias := 127 }
/-- E5M2 (R87). -/
def e5m2 : FFmt := { ebits := 5, fbits := 2, bias := 15 }
/-- E4M3 (R87). -/
def e4m3 : FFmt := { ebits := 4, fbits := 3, bias := 7, e4m3 := true }

/-- Bits of an element. -/
def FFmt.width (f : FFmt) : Nat := 1 + f.ebits + f.fbits

/-- The canonical NaN (R87). -/
def FFmt.nan (f : FFmt) : Nat := if f.e4m3 then 0x7F else (2 ^ f.ebits - 1) * 2 ^ f.fbits + 2 ^ (f.fbits - 1)

/-- An infinity's bits. -/
def FFmt.inf (f : FFmt) (neg : Bool) : Nat := b2n neg * 2 ^ (f.ebits + f.fbits) + (2 ^ f.ebits - 1) * 2 ^ f.fbits

/-- The largest finite magnitude's bits with a sign (R87). -/
def FFmt.largest (f : FFmt) (neg : Bool) : Nat :=
  b2n neg * 2 ^ (f.ebits + f.fbits) +
    (if f.e4m3 then 0x7E else (2 ^ f.ebits - 2) * 2 ^ f.fbits + (2 ^ f.fbits - 1))

/-- The exponent of the smallest normal. -/
def FFmt.emin (f : FFmt) : Int := 1 - (f.bias : Int)

/-- The largest finite magnitude as a significand and an exponent. -/
def FFmt.maxFinite (f : FFmt) : Nat × Int :=
  if f.e4m3 then (14, 5) else (2 ^ (f.fbits + 1) - 1, (f.bias : Int) - f.fbits)

/-- The value of an element's bits (R87, R91). -/
def FFmt.decode (f : FFmt) (x : Nat) : Num :=
  let neg := x / 2 ^ (f.ebits + f.fbits) % 2 = 1
  let e := x / 2 ^ f.fbits % 2 ^ f.ebits
  let m := x % 2 ^ f.fbits
  if f.e4m3 && e = 15 && m = 7 then .nan false
  else if !f.e4m3 && e = 2 ^ f.ebits - 1 then
    if m = 0 then .inf neg else .nan (decide (m / 2 ^ (f.fbits - 1) = 0))
  else if e = 0 then .fin neg m (f.emin - f.fbits) false
  else .fin neg (2 ^ f.fbits + m) ((e : Int) - f.bias - f.fbits) false

/-! ## Rounding (R90, R91, R93) -/

/-- Number of bits of a number, zero for zero. -/
def bitLen (x : Nat) : Nat := if x = 0 then 0 else Nat.log2 x + 1

/-- The discarded fraction is below, at, or above one half; `more` counts as above within the last place. -/
def roundsUp (mode : RMode) (neg : Bool) (q f d : Nat) (more : Bool) (u : Word) : Bool :=
  let inexact := f ≠ 0 || more
  match mode with
  | .rtz => false
  | .rdn => neg && inexact
  | .rup => !neg && inexact
  | .rne => 2 ^ d < 2 * f || (2 * f = 2 ^ d && 0 < d && (more || q % 2 = 1))
  | .rna => 0 < d && 2 ^ d ≤ 2 * f
  | .sr =>
    if f = 0 then false
    else if d ≤ 32 then 2 ^ 32 ≤ f * 2 ^ (32 - d) + u.toNat
    else 2 ^ 32 ≤ f / 2 ^ (d - 32) + u.toNat

/-- A magnitude m × 2^e rounded to a multiple of 2^g: the quotient and whether it differs from the exact value. -/
def roundTo (mode : RMode) (neg : Bool) (m : Nat) (e g : Int) (more : Bool) (u : Word) : Nat × Bool :=
  if g ≤ e then (m * 2 ^ (e - g).toNat + (if more && (match mode with | .rdn => neg | .rup => !neg | _ => false) then 1 else 0), more)
  else
    let d := (g - e).toNat
    let q := m / 2 ^ d
    let f := m % 2 ^ d
    (q + b2n (roundsUp mode neg q f d more u), f ≠ 0 || more)

/-- The result of an overflow (R90). -/
def FFmt.overflow (f : FFmt) (mode : RMode) (neg : Bool) : Nat :=
  if f.e4m3 then f.largest neg
  else match mode with
    | .rtz => f.largest neg
    | .rdn => if neg then f.inf true else f.largest false
    | .rup => if neg then f.largest true else f.inf false
    | _ => f.inf neg

/-- The exact value rounded once to a floating format, with the flags of R92. -/
def FFmt.round (f : FFmt) (mode : RMode) (u : Word) : Num → Nat × Flags
  | .nan s => (f.nan, { nv := s })
  | .inf neg => if f.e4m3 then (f.nan, { nv := true }) else (f.inf neg, {})
  | .fin neg m e more =>
    let sign := b2n neg * 2 ^ (f.ebits + f.fbits)
    if m = 0 && !more then (sign, {})
    else
      let top := e + (bitLen m : Int) - 1
      let unb := top - f.fbits
      let g := max unb (f.emin - f.fbits)
      let (q, inexact) := roundTo mode neg m e g more u
      let (mq, me) := f.maxFinite
      if (if me ≤ g then mq < q * 2 ^ (g - me).toNat else mq * 2 ^ (me - g).toNat < q) then
        (f.overflow mode neg, { of_ := true, nx := true })
      else
        let tiny := decide (top < f.emin) &&
          (let (qu, _) := roundTo mode neg m e unb more u
           decide (bitLen qu + unb - 1 < f.emin))
        let fl : Flags := { nx := inexact, uf := tiny && inexact }
        if q < 2 ^ f.fbits then (sign + q, fl)
        else if q = 2 ^ (f.fbits + 1) then (sign + (g + 1 + f.fbits + f.bias).toNat * 2 ^ f.fbits, fl)
        else (sign + (g + f.fbits + f.bias).toNat * 2 ^ f.fbits + (q - 2 ^ f.fbits), fl)

/-! ## Exact operations (R91, R205, R206, R208) -/

/-- The sign of a value. -/
def Num.neg : Num → Bool
  | .nan _ => false
  | .inf n => n
  | .fin n _ _ _ => n

/-- The value with its sign inverted. -/
def Num.negate : Num → Num
  | .nan s => .nan s
  | .inf n => .inf (!n)
  | .fin n m e r => .fin (!n) m e r

/-- A signalling NaN among operands raises NV. -/
def Num.snan : Num → Bool
  | .nan s => s
  | _ => false

/-- A NaN. -/
def Num.isNan : Num → Bool
  | .nan _ => true
  | _ => false

/-- Zero. -/
def Num.isZero : Num → Bool
  | .fin _ 0 _ false => true
  | _ => false

/-- The sum of two exact values and the flags of the operation itself. -/
def Num.add (mode : RMode) (x y : Num) : Num × Flags :=
  match x, y with
  | .nan s, z => (.nan false, { nv := s || z.snan })
  | z, .nan s => (.nan false, { nv := s || z.snan })
  | .inf a, .inf b => if a = b then (.inf a, {}) else (.nan false, { nv := true })
  | .inf a, _ => (.inf a, {})
  | _, .inf b => (.inf b, {})
  | .fin na ma ea _, .fin nb mb eb _ =>
    let g := min ea eb
    let a : Int := (ma * 2 ^ (ea - g).toNat : Nat)
    let b : Int := (mb * 2 ^ (eb - g).toNat : Nat)
    let t := (if na then -a else a) + (if nb then -b else b)
    if t = 0 then
      (.fin (if ma = 0 && mb = 0 && na = nb then na else decide (mode = .rdn)) 0 0 false, {})
    else (.fin (decide (t < 0)) t.natAbs g false, {})

/-- The product of two exact values. -/
def Num.mul (x y : Num) : Num × Flags :=
  match x, y with
  | .nan s, z => (.nan false, { nv := s || z.snan })
  | z, .nan s => (.nan false, { nv := s || z.snan })
  | .inf a, z => if z.isZero then (.nan false, { nv := true }) else (.inf (a != z.neg), {})
  | z, .inf b => if z.isZero then (.nan false, { nv := true }) else (.inf (z.neg != b), {})
  | .fin na ma ea _, .fin nb mb eb _ => (.fin (na != nb) (ma * mb) (ea + eb) false, {})

/-- A quotient of naturals to at least 96 significant bits, with the mark that more follow. -/
def quotient (a b : Nat) (e : Int) (neg : Bool) : Num :=
  let s := 96 + bitLen b
  .fin neg (a * 2 ^ s / b) (e - s) (decide (a * 2 ^ s % b ≠ 0))

/-- The quotient of two exact values. -/
def Num.div (x y : Num) : Num × Flags :=
  match x, y with
  | .nan s, z => (.nan false, { nv := s || z.snan })
  | z, .nan s => (.nan false, { nv := s || z.snan })
  | .inf _, .inf _ => (.nan false, { nv := true })
  | .inf a, z => (.inf (a != z.neg), {})
  | z, .inf b => (.fin (z.neg != b) 0 0 false, {})
  | .fin na ma ea _, .fin nb mb eb _ =>
    if mb = 0 then
      if ma = 0 then (.nan false, { nv := true }) else (.inf (na != nb), { dz := true })
    else if ma = 0 then (.fin (na != nb) 0 0 false, {})
    else (quotient ma mb (ea - eb) (na != nb), {})

/-- The whole square root, built from the highest of `n` bits down. -/
def isqrt (x : Nat) : Nat → Nat → Nat
  | 0, r => r
  | n + 1, r => if (r + 2 ^ n) * (r + 2 ^ n) ≤ x then isqrt x n (r + 2 ^ n) else isqrt x n r

/-- √x (R206). -/
def Num.sqrt : Num → Num × Flags
  | .nan s => (.nan false, { nv := s })
  | .inf n => if n then (.nan false, { nv := true }) else (.inf false, {})
  | .fin n m e _ =>
    if m = 0 then (.fin n 0 0 false, {})
    else if n then (.nan false, { nv := true })
    else
      let (m, e) := if e % 2 = 0 then (m, e) else (2 * m, e - 1)
      let m := m * 2 ^ 192
      let r := isqrt m ((bitLen m + 1) / 2) 0
      (.fin false r ((e - 192) / 2) (decide (r * r ≠ m)), {})

/-- 1 / √x (R206). -/
def Num.rsqrt : Num → Num × Flags
  | .nan s => (.nan false, { nv := s })
  | .inf n => if n then (.nan false, { nv := true }) else (.fin false 0 0 false, {})
  | .fin n m e _ =>
    if m = 0 then (.inf n, { dz := true })
    else if n then (.nan false, { nv := true })
    else
      let (m, e) := if e % 2 = 0 then (m, e) else (2 * m, e - 1)
      let k := 256 + (bitLen m) / 2 * 2
      let r := isqrt (2 ^ k / m) ((k + 2) / 2) 0
      (.fin false r (-(e / 2) - ((k / 2 : Nat) : Int)) (decide (r * r * m ≠ 2 ^ k)), {})

/-! ## 2^x and log2 x to 256 bits (R206, notes/assumptions/12.md) -/

/-- ln 2 × 2^256, rounded down. -/
def ln2Fixed : Nat := 0xb17217f7d1cf79abc9e3b39803f2f6af40f343267298b62d8a0d175b8baafa2b

/-- Σ t^k / k! over the terms from `k` up, in units of 2^-256. -/
def expSeries (t : Nat) : Nat → Nat → Nat → Nat
  | 0, _, _ => 0
  | n + 1, k, term => term + expSeries t n (k + 1) (term * t / 2 ^ 256 / (k + 1))

/-- Σ z^(2k+1) / (2k + 1), in units of 2^-256. -/
def atanhSeries (z2 : Nat) : Nat → Nat → Nat → Nat
  | 0, _, _ => 0
  | n + 1, k, pow => pow / (2 * k + 1) + atanhSeries z2 n (k + 1) (pow * z2 / 2 ^ 256)

/-- 2^x (R206): exact for whole x; otherwise the leading 256 fraction bits. -/
def Num.exp2 : Num → Num × Flags
  | .nan s => (.nan false, { nv := s })
  | .inf n => (if n then .fin false 0 0 false else .inf false, {})
  | .fin n m e _ =>
    if m = 0 then (.fin false 1 0 false, {})
    else if 12 < e + bitLen m then
      (if n then .fin false 1 (-4096) true else .fin false 1 4096 true, {})
    else
      let v : Int := if n then -(m : Int) else m
      if 0 ≤ e then (.fin false 1 (v * 2 ^ e.toNat) false, {})
      else
        let d := (-e).toNat
        let w := v / 2 ^ d
        let f := (v % 2 ^ d).toNat
        if f = 0 then (.fin false 1 w false, {})
        else
          let t := f * ln2Fixed / 2 ^ d
          (.fin false (expSeries t 70 0 (2 ^ 256)) (w - 256) true, {})

/-- log2 x (R206): exact for powers of two; otherwise to 2^-250. -/
def Num.log2 : Num → Num × Flags
  | .nan s => (.nan false, { nv := s })
  | .inf n => if n then (.nan false, { nv := true }) else (.inf false, {})
  | .fin n m e _ =>
    if m = 0 then (.inf true, { dz := true })
    else if n then (.nan false, { nv := true })
    else
      let l : Nat := bitLen m - 1
      let w := e + l
      if m = 2 ^ l then (Num.ofInt w, {})
      else
        let z : Nat := (m - 2 ^ l) * 2 ^ 256 / (m + 2 ^ l)
        let s : Nat := 2 * atanhSeries (z * z / 2 ^ 256) 90 0 z
        let frac : Nat := s * 2 ^ 250 / ln2Fixed
        let t : Int := w * 2 ^ 250 + frac
        if t < 0 then (.fin true (t.natAbs - 1) (-250) true, {}) else (.fin false t.toNat (-250) true, {})

/-! ## Comparison (R205, R207) -/

/-- An exact finite value as an integer multiple of 2^g. -/
def scaled (n : Bool) (m : Nat) (e g : Int) : Int := let a : Int := (m * 2 ^ (e - g).toNat : Nat); if n then -a else a

/-- The order of two values that are not NaN, where ±0 are equal. -/
def Num.lt : Num → Num → Bool
  | .inf a, .inf b => a && !b
  | .inf a, _ => a
  | _, .inf b => !b
  | .fin na ma ea _, .fin nb mb eb _ => let g := min ea eb; decide (scaled na ma ea g < scaled nb mb eb g)
  | _, _ => false

/-- Equality of two values that are not NaN, where ±0 are equal. -/
def Num.eqv : Num → Num → Bool
  | .inf a, .inf b => a = b
  | .fin na ma ea _, .fin nb mb eb _ => let g := min ea eb; decide (scaled na ma ea g = scaled nb mb eb g)
  | _, _ => false

/-- minimumNumber on element bits, −0 below +0 (R205, R206). -/
def FFmt.minNum (f : FFmt) (x y : Nat) : Nat × Flags :=
  let a := f.decode x
  let b := f.decode y
  if a.snan || b.snan then (f.nan, { nv := true })
  else if a.isNan && b.isNan then (f.nan, {})
  else if a.isNan then (y, {})
  else if b.isNan then (x, {})
  else if a.lt b || (a.eqv b && a.neg) then (x, {}) else (y, {})

/-- maximumNumber on element bits, +0 above −0 (R205, R206). -/
def FFmt.maxNum (f : FFmt) (x y : Nat) : Nat × Flags :=
  let a := f.decode x
  let b := f.decode y
  if a.snan || b.snan then (f.nan, { nv := true })
  else if a.isNan && b.isNan then (f.nan, {})
  else if a.isNan then (y, {})
  else if b.isNan then (x, {})
  else if b.lt a || (a.eqv b && !a.neg) then (x, {}) else (y, {})

/-- A product and an addend, exact (R208): a product of 0 and ∞ raises NV whatever the addend. -/
def Num.fma (mode : RMode) (a b c : Num) : Num × Flags :=
  let (p, f) := a.mul b
  let (r, g) := p.add mode c
  (r, { nv := f.nv || g.nv })

/-- Rounds an exact operation's result, joining its flags. -/
def FFmt.result (f : FFmt) (mode : RMode) (u : Word) (x : Num × Flags) : Nat × Flags :=
  let (r, fl) := f.round mode u x.1
  (r, fl.or x.2)

end Sys2Proof.Machine
end

