-- ==== Sys2Proof/Machine/Rings.lean ====
section
/-! DEFINITION. Operand rings: the fields of a descriptor, tiles and their slots, and the bytes of tiles that something other than a push
has written (R76, R229 to R232). -/

namespace Sys2Proof.Machine

/-! ## Descriptors and tiles (R229 to R232) -/

/-- SIZE of a ring descriptor. -/
def ringSize (d : Dword) : Nat := (fld d 16 5).toNat

/-- Format code of a ring. -/
def ringFmt (d : Dword) : Nat := (fld d 21 5).toNat

/-- SC of a ring. -/
def ringSc (d : Dword) : Bool := bitOf d 26

/-- STA of a ring. -/
def ringSta (d : Dword) : Bool := bitOf d 27

/-- KOFF of a ring. -/
def ringKoff (d : Dword) : Nat := (fld d 28 10).toNat

/-- HEAD of a ring. -/
def ringHead (d : Dword) : Nat := (fld d 38 13).toNat

/-- TAIL of a ring. -/
def ringTail (d : Dword) : Nat := (fld d 51 13).toNat

/-- BASE of a ring, in bytes. -/
def ringBase (d : Dword) : Nat := (fld d 0 16).toNat * 128

/-- Blocks in a row of a scaled format, 0 for an unscaled one (R82). -/
def rowBlocks (code : Nat) : Nat :=
  match code with
  | 7 => 4
  | 8 => 5
  | 9 => 8
  | 10 => 8
  | 11 => 16
  | 12 => 5
  | 18 => 8
  | 19 => 6
  | _ => 0

/-- Bytes of the scale block of a tile (R86). -/
def scaleBytes (code : Nat) (sc : Bool) : Nat :=
  if sc && rowBlocks code ≠ 0 then (16 * rowBlocks code + 127) / 128 * 128 else 0

/-- Tile bytes T of a ring (R230). -/
def tileBytes (d : Dword) : Nat := 2048 + scaleBytes (ringFmt d) (ringSc d)

/-- Slots of a usable ring. -/
def ringSlots (d : Dword) : Nat := 2 ^ (ringSize d - 1)

/-- A ring is usable within an allocation (R231). -/
def ringUsable (d : Dword) (limit : Nat) : Bool :=
  decide (1 ≤ ringSize d ∧ ringSize d ≤ 13 ∧ ringBase d + ringSlots d * tileBytes d ≤ limit)

/-- Tiles a ring holds (R230). -/
def ringCount (d : Dword) : Nat := (ringTail d + 8192 - ringHead d) % 8192

/-- Tile t fits: its index less HEAD is below the ring's slots; `tail` is TAIL, both counted without end (R232). -/
def ringFits (d : Dword) (tail t : Nat) : Bool := decide (t + ringCount d < ringSlots d + tail)

/-- Crew offset of byte `o` of tile t (R230). -/
def tileOffset (d : Dword) (t o : Nat) : Nat := ringBase d + t % ringSlots d * tileBytes d + o

/-- The designator of a ring (R231). -/
def ringDesignator (r : BitVec 3) : Dword := 0xC000000000000000 + r.setWidth 64

/-- The ring a destination names. -/
def designated (x : Dword) : Option (BitVec 3) := if fld x 3 61 = 0x1800000000000000 then some (fld x 0 3) else none

/-! ## What a K-step reads (R97, R251) -/

/-- Elements of a 128-byte row (R82). -/
def rowElems (code : Nat) : Nat :=
  match code with
  | 2 => 64
  | 3 | 8 => 160
  | 4 | 5 | 9 | 11 | 16 | 18 => 256
  | 6 | 13 => 512
  | 12 => 640
  | 14 => 1024
  | 15 => 336
  | 17 | 19 => 192
  | _ => 128

/-- The rings of a product: dense, then selector (R97). -/
def Core.denseFirst (c : Core) (m : MxCmd) : BitVec 3 × BitVec 3 :=
  if ringFmt (vget m.ringA c.rings) ≤ 11 then (m.ringA, m.ringB) else (m.ringB, m.ringA)

/-- What a step reads: the dense tile as counted from HEAD, and the selector runs as tile from HEAD, first element, count (R251). -/
structure StepPlan where
  dense : Nat := 0
  sel : List (Nat × Nat × Nat) := []
  pos : Nat := 0
  kd : Nat := 0
  deriving DecidableEq, Repr

/-- The pieces of `n` selector elements from position p. -/
def selPieces (ks p : Nat) : Nat → Nat → List (Nat × Nat × Nat)
  | 0, _ => []
  | fuel + 1, n =>
    if n = 0 then []
    else
      let l := min n (ks - p % ks)
      (p / ks, p % ks, l) :: selPieces ks (p + l) fuel (n - l)

/-- Step k of a product (R251). -/
def stepPlan (d sel : Dword) (k : Nat) : StepPlan :=
  let kd := rowElems (ringFmt d)
  let p := if ringSta sel then ringKoff sel + k * kd else ringKoff sel
  { dense := if ringSta d then k else 0, sel := selPieces (rowElems (ringFmt sel)) p (kd + 1) kd, pos := p, kd := kd }

/-- Every tile a step uses lies between HEAD and TAIL (R251). -/
def StepPlan.ready (p : StepPlan) (d sel : Dword) : Bool :=
  decide (p.dense < ringCount d) && p.sel.all (fun w => decide (w.1 < ringCount sel))

/-- DONE of an APC (R250). -/
def apcDone (a : Dword) : Nat := a.toNat % 2 ^ 32

/-- The running product waits in this cycle for a tile of a ring into which a CPX pushes (R246). -/
def Core.expanderStalls (c : Core) : Bool :=
  match c.mq.find? (fun m => m.phase = .running) with
  | none => false
  | some m =>
    let (rd, rs) := c.denseFirst m
    let p := stepPlan (vget rd c.rings) (vget rs c.rings) (apcDone (vget m.acc c.apc))
    let pushed (r : BitVec 3) : Bool := c.copies.any (fun x => x.eop = 9 && x.phase = .running && x.ring = some r)
    m.multiplies && decide (apcDone (vget m.acc c.apc) < m.a.toNat % 2 ^ 32) &&
      ((pushed rd && !decide (p.dense < ringCount (vget rd c.rings))) ||
        (pushed rs && !p.sel.all (fun w => decide (w.1 < ringCount (vget rs c.rings)))))

/-! ## Bytes of tiles between HEAD and TAIL (R76) -/

/-- A crew offset lies in a tile of a ring between HEAD and TAIL. -/
def ringLive (d : Dword) (off : Nat) : Bool :=
  let slot := (off - ringBase d) / tileBytes d
  decide (1 ≤ ringSize d ∧ ringBase d ≤ off ∧ slot < ringSlots d) &&
    decide ((slot + ringSlots d - ringHead d % ringSlots d) % ringSlots d < (ringTail d + 8192 - ringHead d) % 8192)

/-- A granary byte of a core lies in such a tile of one of the rings named. -/
def Core.liveIn (c : Core) (ep : Ep) (a : Nat) (rs : List (BitVec 3)) : Bool :=
  c.crews.any (fun w => w.eset && (let b := granaryPa ep w.base.toNat
    decide (b ≤ a ∧ a < granaryPa ep w.limit.toNat) && rs.any (fun r => ringLive (vget r c.rings) (a - b))))

/-- The eight rings. -/
def allRings : List (BitVec 3) := (List.range 8).map (fun i => BitVec.ofNat 3 i)

/-- A write other than a push makes what the matrix engine reads from a byte of such a tile unpredictable (R76). The bytes lie in one core's
granary or in none. -/
def State.noteBytes (s : State) (l : List Nat) : State :=
  match l with
  | [] => s
  | a :: _ =>
    if paRegion a = .granary then
      let ep := homeEp a
      let c := s.core ep
      match l.filter (fun a => c.liveIn ep a allRings) with
      | [] => s
      | live => s.setCore ep { c with tampered := live.foldl (fun t a => natSet t a true) c.tampered }
    else s

/-- A write of `size` bytes that is no push. -/
def State.noteRing (s : State) (pa size : Nat) : State := s.noteBytes ((List.range size).map (fun i => pa + i))

/-- The bytes of a core's tiles between HEAD and TAIL, of the crew that holds the engine set. -/
def Core.liveBytes (c : Core) (ep : Ep) : List Nat :=
  (c.crews.filter Crew.eset).flatMap (fun w => c.rings.toList.flatMap (fun d =>
    (List.range (min (ringCount d) (ringSlots d))).flatMap (fun t =>
      (List.range (tileBytes d)).map (fun o => granaryPa ep w.base.toNat + tileOffset d (ringHead d + t) o))))

/-- A MOVE writes some bytes: those of live tiles among them are no push's any more (R76, R293). -/
def State.noteMoved (s : State) (written : Nat → Bool) : State :=
  s.cores.foldl (fun (s : State) w =>
    let ep : Ep := BitVec.ofNat 22 w.1
    s.noteBytes ((w.2.liveBytes ep).filter written)) s

/-- A push writes the bytes of a dword anew. -/
def State.unnoteRing (s : State) (ep : Ep) (dw : Nat) : State :=
  let c := s.core ep
  if c.tampered.any (fun a => dwordAt a = dw) then s.setCore ep { c with tampered := c.tampered.filter (fun a => dwordAt a ≠ dw) } else s

/-- Memory as a matrix step reads it: a free value in each byte so written, and the state past those values.
(DESIGN CHOICE, notes/assumptions/40.md.) -/
def State.engineView (s : State) (bytes : List Nat) : Memory × State :=
  bytes.foldl (fun (w : Memory × State) a =>
    let (x, s1) := w.2.freeDword
    (w.1.setByte a (x.setWidth 8), s1)) (s.mem, s)

end Sys2Proof.Machine
end

