-- ==== Sys2Proof/Machine/Homes.lean ====
section
/-! DEFINITION. What a home does: atomic functions, full/empty conditions, performing an access to one dword, the waiter lists and
their service (R57 to R59, R71 to R78, R172, R173, R179 to R186). -/

namespace Sys2Proof.Machine

/-! ## Atomic functions (R183 to R185) -/

/-- The number an operation of IEEE 754-2019 maximumNumber or minimumNumber picks, with +0 above −0 (R184). -/
def numberOf (greater : Bool) (x y : Nat) : Nat :=
  let a := fp32.decode x
  let b := fp32.decode y
  if a.isNan then (if b.isNan then fp32.nan else y)
  else if b.isNan then x
  else if greater then (if b.lt a || (a.eqv b && !a.neg) then x else y)
  else (if a.lt b || (a.eqv b && a.neg) then x else y)

/-- A float sum under RNE, its flags dropped (R184). -/
def floatSum (f : FFmt) (x y : Nat) : Nat := (f.result .rne 0 ((f.decode x).add .rne (f.decode y))).1

/-- The sum of each of two elements of a format (R184). -/
def floatSum2 (f : FFmt) (x y : Nat) : Nat :=
  let w := f.width
  floatSum f (x % 2 ^ w) (y % 2 ^ w) + 2 ^ w * floatSum f (x / 2 ^ w % 2 ^ w) (y / 2 ^ w % 2 ^ w)

/-- f(old, x) of AMI on n bytes (R183). -/
def amiNew (aop : BitVec 3) (n old x : Nat) : Nat :=
  match aop.toNat with
  | 0 => (old + x) % 2 ^ (8 * n)
  | 1 => Nat.land old x
  | 2 => Nat.lor old x
  | 3 => Nat.xor old x
  | 4 => if sextN x (8 * n) < sextN old (8 * n) then x else old
  | 5 => if sextN old (8 * n) < sextN x (8 * n) then x else old
  | 6 => min old x
  | _ => max old x

/-- f(old, x) of AMF on n bytes, with the expected value e of `acas` (R184, R185). -/
def amfNew (aop : BitVec 3) (n old x e : Nat) : Nat :=
  match aop.toNat with
  | 0 => x
  | 1 => if old = e then x else old
  | 2 => floatSum fp32 old x
  | 3 => if n = 4 then floatSum2 bf16 old x else floatSum2 fp32 old x
  | 4 => numberOf true old x
  | 5 => numberOf false old x
  | _ => (old + x) % 2 ^ (8 * n)

/-- `sig` among the atomics: it also sets the dword full (R185). -/
def MemOp.signals : MemOp → Bool
  | .amf aop => aop = 6
  | _ => false

/-- An atomic's function. -/
def MemReq.new (r : MemReq) (old : Nat) : Nat :=
  match r.op with
  | .ami aop => amiNew aop r.size old (r.data % 2 ^ (8 * r.size))
  | .amf aop => amfNew aop r.size old (r.data % 2 ^ (8 * r.size)) (r.cmp.toNat % 2 ^ (8 * r.size))
  | _ => old

/-! ## Performing one operation on one dword (R59, R180) -/

/-- The operation reads the dword's value, and so meets its poison mark (R75, R172). -/
def MemOp.meetsPoison : MemOp → Bool
  | .load | .ldf | .ldff | .waita | .ami _ | .amf _ | .subDone => true
  | _ => false

/-- The condition of a full/empty operation; other operations wait for nothing (R180). A threshold wait on a poisoned full dword
reads it, and so is governed by R172. (DEDUCED, notes/assumptions/27.md.) -/
def Memory.condition (m : Memory) (r : MemReq) : Bool :=
  match r.op with
  | .ldf | .ldff => m.isFull r.pa
  | .waita => m.isFull r.pa && (m.poisoned r.pa || decide (sextN r.data 64 ≤ sextN (m.read r.pa 8) 64))
  | .stf => !m.isFull r.pa
  | _ => true

/-- What performing an operation gives: memory, the value read, and whether it met poison. -/
structure Performed where
  mem : Memory
  got : Nat := 0
  poisoned : Bool := false
  deriving DecidableEq, Repr

/-- Performs an operation on one dword whose condition holds, as one event (R59, R75, R172, R173, R180, R182). -/
def Memory.perform (m : Memory) (r : MemReq) : Performed :=
  if r.op.meetsPoison && m.poisoned r.pa then { mem := m, got := m.read r.pa r.size, poisoned := true }
  else
    match r.op with
    | .load => { mem := m, got := m.read r.pa r.size }
    | .store =>
      let m1 := m.write r.pa r.size r.data
      { mem := if r.size = 8 then m1.setPoison r.pa false else m1 }
    | .ldf => { mem := m.setFull r.pa false, got := m.read r.pa 8 }
    | .ldff | .waita => { mem := m, got := m.read r.pa 8 }
    | .stf | .stff | .setDone => { mem := ((m.write r.pa 8 r.data).setFull r.pa true).setPoison r.pa false }
    | .sete => { mem := m.setFull r.pa false }
    | .qfe => { mem := m, got := b2n (m.isFull r.pa) }
    | .ami _ | .amf _ =>
      let old := m.read r.pa r.size
      let m1 := m.write r.pa r.size (r.new old)
      { mem := if r.op.signals then m1.setFull r.pa true else m1, got := old }
    | .subDone =>
      let new := (m.read r.pa 8 + 2 ^ 64 - r.data % 2 ^ 64) % 2 ^ 64
      let m1 := m.write r.pa 8 new
      { mem := if new = 0 then m1.setFull r.pa true else m1 }

/-! ## Code in an instruction store (R77, R78) -/

/-- The words of an instruction store that a write changes: a write by the owning core's own thread leaves them stale until its
IFNC, any other write makes them fetchable at once; a written word no longer carries an error (R77, R78, R284). -/
def State.noteCode (s : State) (own : Option Ctx) (pa size : Nat) : State :=
  if paRegion pa = .istore then
    let ep := homeEp pa
    let base := istorePa ep 0
    let offs := (List.range ((pa % 4 + size + 3) / 4)).map (fun i => (pa - base) / 4 * 4 + 4 * i)
    let c := s.core ep
    let stale := match own with
      | some ctx => c.stale ++ offs.map (fun o => (o, BitVec.ofNat 32 (s.mem.read (base + o) 4), (s.thr ep ctx).nameKey))
      | none => c.stale.filter (fun x => !offs.contains x.1)
    s.setCore ep { c with stale := stale, badWords := c.badWords.filter (fun o => !offs.contains o) }
  else s

/-- Words of an instruction store that have been written with a poisoned dword: a fetch of them finds the error (R173, R281, R284; notes/assumptions/103.md). -/
def State.spoilCode (s : State) (dw : Nat) (low high : Bool) : State :=
  if paRegion dw = .istore then
    let ep := homeEp dw
    let off := dw - istorePa ep 0
    let c := s.core ep
    let bad := if low then natSet c.badWords off true else c.badWords
    s.setCore ep { c with badWords := if high then natSet bad (off + 4) true else bad }
  else s

/-- A MOVE writes some bytes: the words of instruction stores among them can be fetched at once, and carry the error that their dword came with or
none (R77, R281, R284, R293). -/
def State.noteCodeMoved (s : State) (written : Nat → Bool) : State :=
  let s1 : State := { s with cores := s.cores.map (fun c =>
    let off (o : Nat) : Bool := decide (o < 2 ^ 18) && (List.range 4).any (fun i => written (istorePa (BitVec.ofNat 22 c.1) o + i))
    (c.1, { c.2 with stale := c.2.stale.filter (fun x => !off x.1), badWords := c.2.badWords.filter (fun o => !off o) })) }
  (s.mem.poison.filter written).foldl (fun (s : State) dw => s.spoilCode dw true true) s1

/-! ## Waiters (R58, R180) -/

/-- A pending access of a thread is at another stage, with the value it read. -/
def Thread.setLane (t : Thread) (pend lane : Nat) (f : Lane → Lane) : Thread :=
  { t with pend := t.pend.map (fun (p : Pending) =>
    if p.id = pend then { p with lanes := p.lanes.map (fun (l : Lane) => if l.lane = lane then f l else l) } else p) }

/-- The access of a lane is a READ that has been sent and has not returned (R302). -/
def Lane.reading (l : Lane) : Bool := l.req.op = .load && l.stage = .sent

/-- A READ under way that has timed out or been refused (R302). -/
def Lane.tried (l : Lane) : Bool := l.reading && decide (0 < l.tries)

/-- A READ that has reached its limit: it is not sent again until RESUME (R285, R302). -/
def Lane.spent (l : Lane) : Bool := l.reading && decide (256 ≤ l.tries)

/-- A READ counts a timeout or a refusal under a limit (R302). -/
def Lane.count (l : Lane) (limit : Nat) : Lane := { l with tries := if limit ≤ l.tries + 1 then 256 else l.tries + 1 }

/-- A lane whose access has been performed. -/
def Lane.performedWith (l : Lane) (got : Nat) (poisoned : Bool) : Lane :=
  { l with req := { l.req with got := got }, stage := if poisoned then .poisoned else .performed }

/-- The number by which a packet names the access of a pending result (notes/assumptions/8.md). -/
def laneKey (pend lane : Nat) : Nat := pend * 64 + lane + 1

/-- An acknowledgement of an operation of a session; `note` names an access of the source that is now performed (R66, R302). -/
def ackOf (p : Packet) (note : Nat) (poisoned : Bool) : Packet :=
  { type := .ack, dst := p.src, src := p.dst, ctx := p.ctx, str := p.str, cqe := p.cqe, epoch := p.epoch,
    auxf := p.seq.setWidth 32, pmask := BitVec.ofNat 32 (b2n poisoned), note := note }

/-- The value of an ATOMIC returns (R299). -/
def avalOf (p : Packet) (got : Nat) (poisoned : Bool) : Packet :=
  { type := .aval, dst := p.src, src := p.dst, ctx := p.ctx, str := 15, len := 8, payload := got,
    pmask := BitVec.ofNat 32 (b2n poisoned), note := p.note / 2 ^ 32 }

/-- A served wait's value, or its performance, goes back to the thread that waits: into its pending access, or in a packet. -/
def State.deliver (s : State) (w : Waiter) (got : Nat) (poisoned : Bool) : State :=
  match w.pkt with
  | none => s.setThr w.ep w.ctx ((s.thr w.ep w.ctx).setLane w.pend w.lane (fun l => l.performedWith got poisoned))
  | some p => s.inject (if p.op.getLsbD 0 then avalOf p got poisoned else ackOf p (p.note / 2 ^ 32) poisoned)

/-- Removes the first element that satisfies a test. -/
def removeFirst {α : Type} (q : α → Bool) : List α → List α
  | [] => []
  | x :: r => if q x then r else x :: removeFirst q r

/-- The operation may write its dword's value. -/
def MemOp.writes : MemOp → Bool
  | .store | .stf | .stff | .ami _ | .amf _ | .setDone | .subDone => true
  | _ => false

/-- The home serves the earliest waiter of a dword whose condition holds, until none is left; one that writes is no push of a ring (R76, R180). -/
def State.serveN (s : State) (dw : Nat) : Nat → State
  | 0 => s
  | n + 1 =>
    let ready (w : Waiter) : Bool := dwordAt w.pa = dw && s.mem.condition w.req
    match s.waiters.find? ready with
    | none => s
    | some w =>
      let r := s.mem.perform w.req
      let s1 := if w.req.op.writes then s.noteRing w.req.pa w.req.size else s
      State.serveN (({ s1 with mem := r.mem, waiters := removeFirst ready s.waiters }).deliver w r.got r.poisoned) dw n

/-- Serves the waiters of a dword after an event that may have changed its value or its bit (R180). -/
def State.serve (s : State) (dw : Nat) : State := s.serveN dw s.waiters.length

/-- Waiter entries of the place that holds a dword's list: its granary bank, one of 64 interleaved by dword, or its home slice
(R15, R58). -/
def sameWaitList (a b : Nat) : Bool :=
  homeEp a = homeEp b && (paRegion a ≠ .granary || a / 8 % 64 = b / 8 % 64)

/-- A free waiter entry exists at the home of an address (R58). -/
def State.waiterRoom (s : State) (pa : Nat) : Bool :=
  decide ((s.waiters.filter (fun w => sameWaitList w.pa pa)).length < (if paRegion pa = .granary then 16 else 4096))

/-- What became of an operation at its home: performed, held in the waiter list, or refused for want of an entry (R58, R180). -/
inductive Arrived where
  | performed (got : Nat) (poisoned : Bool)
  | waits
  | refused
  deriving DecidableEq, Repr

/-- An operation on one dword arrives at its home (R58, R180). `w` describes who waits; `own` is the context of the owning core's
own thread when it writes its core's instruction store (R78). -/
def State.arrive (s : State) (own : Option Ctx) (w : Waiter) : State × Arrived :=
  if s.mem.condition w.req then
    let s0 := if w.req.op.writes then s.noteRing w.req.pa w.req.size else s
    let s1 := if w.req.op = .store then s0.noteCode own w.req.pa w.req.size else s0
    let r := s1.mem.perform w.req
    (({ s1 with mem := r.mem }).serve (dwordAt w.req.pa), .performed r.got r.poisoned)
  else if s.waiterRoom w.req.pa then ({ s with waiters := s.waiters ++ [w] }, .waits)
  else (s, .refused)

/-! ## Writes of several bytes (R59, R67, R173, R281) -/

/-- A poisoned dword written to host memory goes there with the poisoned-TLP indication (R281). -/
def State.poisonedWrite (s : State) (dw : Nat) : State :=
  let k := s.pkg (paPkg dw)
  s.setPkg (paPkg dw) { k with replies := k.replies ++ [.poisonedWrite dw] }

/-- Writes bytes of one dword as one event. A whole dword clears its poison mark, copy payload carries the source's mark, a part
leaves the mark, and host memory has none (R173, R281). The words of a poisoned dword are no code (notes/assumptions/103.md). -/
def State.writeDword (s : State) (own : Option Ctx) (dw : Nat) (cells : List Host.Cell) (mark : Option Bool) : State :=
  let s := s.noteBytes (cells.map Prod.fst)
  let low := cells.any (fun c => c.1 < dw + 4)
  let high := cells.any (fun c => dw + 4 ≤ c.1)
  let s0 := if low then s.noteCode own dw 4 else s
  let s1 := if high then s0.noteCode own (dw + 4) 4 else s0
  let m := cells.foldl (fun (m : Memory) (c : Host.Cell) => m.setByte c.1 c.2) s1.mem
  let m1 := match mark with
    | some b => if paRegion dw = .host then m else m.setPoison dw b
    | none => m
  let s2 : State := if mark = some true then ({ s1 with mem := m1 } : State).spoilCode dw low high else { s1 with mem := m1 }
  if mark = some true && paRegion dw = .host then s2.poisonedWrite dw else s2

/-- The bytes of a payload that its enables name, within one dword. -/
def enabledCells (pa len : Nat) (be : BitVec 256) (payload dw : Nat) : List Host.Cell :=
  ((List.range 8).filter (fun i => decide (pa ≤ dw + i ∧ dw + i < pa + len) && be.getLsbD (dw + i - pa))).map
    (fun i => (dw + i, byteOf payload (dw + i - pa)))

end Sys2Proof.Machine
end

