-- ==== Sys2Proof/Machine/Translate.lean ====
section
/-! DEFINITION. Virtual addresses: the local window, the translation cache, page walks and their faults (R32, R49, R53 to R56, R80,
R171). -/

namespace Sys2Proof.Machine

/-- Why memory is accessed, as AUX0 of a translation fault codes it (R55, R274). -/
inductive Access where
  | read | write | atomic
  deriving DecidableEq, Repr

/-- The leaf bits an access needs: RD 1, WR 2, AT 4 (R55). -/
def Access.need : Access → Nat
  | .read => 1
  | .write => 2
  | .atomic => 7

/-- AUX0 (R274). -/
def Access.code : Access → Dword
  | .read => 0
  | .write => 1
  | .atomic => 2

/-- The low bit of the virtual page number at a level (R53). -/
def levelShift (level : BitVec 2) : Nat := if level = 3 then 42 else if level = 2 then 29 else 16

/-- The virtual page number at a level. -/
def vpnOf (level : BitVec 2) (va : Dword) : Nat := bitsN va.toNat 54 (levelShift level)

/-- The package an entry names. -/
def entryPkg (e : Dword) : Pkg := fld e 52 10

/-- The local address an entry names. -/
def entryAddr (e : Dword) : Nat := (fld e 16 28).toNat * 2 ^ 16

/-- No reserved bit of an entry is set (R54). -/
def entryClean (e : Dword) : Bool := fld e 62 2 = 0 && fld e 44 8 = 0 && fld e 6 10 = 0

/-- A valid pointer of a walking package to a table of its second tier (R53, R55). -/
def pointerOk (walker : Pkg) (e : Dword) : Bool :=
  bitOf e 0 && !bitOf e 1 && entryClean e && entryPkg e = walker && decide (entryAddr e < 2 ^ 40)

/-- A valid leaf at a level (R53, R55). (DEDUCED, notes/assumptions/31.md.) -/
def leafOk (level : BitVec 2) (e : Dword) : Bool :=
  bitOf e 0 && bitOf e 1 && entryClean e &&
    (if level = 3 then (entryPkg e).toNat % 4 = 0 && entryAddr e = 0
     else if level = 2 then
       entryAddr e % 2 ^ 29 = 0 &&
         (match paRegion (entryAddr e) with
          | .secondTier | .granary | .host => true
          | _ => false)
     else paRegion (entryAddr e) ≠ .reserved)

/-- The physical address a leaf gives (R53). -/
def leafPa (level : BitVec 2) (e va : Dword) : Nat :=
  if level = 3 then ((entryPkg e).toNat + bitsN va.toNat 41 40) * 2 ^ 44 + va.toNat % 2 ^ 40
  else (entryPkg e).toNat * 2 ^ 44 + entryAddr e + va.toNat % 2 ^ levelShift level

/-- The leaf permits an access that needs some of RD 1, WR 2, AT 4 (R55). -/
def leafPermits (e : Dword) (need : Nat) : Bool := Nat.land need (fld e 2 3).toNat = need

/-! ## The cache (R56, R80) -/

/-- The set of a leaf (R80). -/
def tlbSet (vpn : Nat) (asid : Asid) : BitVec 12 := BitVec.ofNat 12 (Nat.xor vpn asid.toNat)

/-- The cached leaf that maps an address, the three levels probed together (R80). Where leaves of two levels match, the one longest in the list is
used. (DESIGN CHOICE, notes/assumptions/58.md.) -/
def Die.lookup (d : Die) (asid : Asid) (va : Dword) : Option TlbEntry :=
  d.tlb.find? (fun e => e.asid = asid && e.vpn = vpnOf e.level va)

/-- Marks an entry as used last. -/
def Die.touch (d : Die) (e : TlbEntry) : Die :=
  { d with stamp := d.stamp + 1, tlb := d.tlb.map (fun (x : TlbEntry) => if x = e then { x with used := d.stamp + 1 } else x) }

/-- The least recently used of some entries. -/
def oldestEntry : List TlbEntry → Option TlbEntry
  | [] => none
  | e :: r => match oldestEntry r with
    | some x => if x.used < e.used then some x else some e
    | none => some e

/-- Caches a leaf in place of one of its page, or evicting the least recently used of a full set (R80). -/
def Die.cache (d : Die) (asid : Asid) (level : BitVec 2) (va leaf : Dword) : Die :=
  let vpn := vpnOf level va
  let set := tlbSet vpn asid
  let others := d.tlb.filter (fun e => !(e.asid = asid && e.level = level && e.vpn = vpn))
  let mine := others.filter (fun e => e.set = set)
  let gone : Option TlbEntry := if 16 ≤ mine.length then oldestEntry mine else none
  let kept := others.filter (fun e => some e ≠ gone)
  { d with
    stamp := d.stamp + 1,
    tlb := kept ++ [{ set := set, asid := asid, level := level, vpn := vpn, leaf := leaf, used := d.stamp + 1 }] }

/-! ## Walks (R53 to R56) -/

/-- What reading one entry does to a walk: it goes on in a table, ends with a leaf, meets an invalid entry (`table` says that what failed is the
reading of a table), or meets poison. -/
inductive Walked where
  | go (table : Nat)
  | leaf (level : BitVec 2) (e : Dword)
  | invalid (e : Dword) (table : Bool)
  | poison (pa : Nat)
  deriving DecidableEq, Repr

/-- A pointer entry that is valid but for the table it names. -/
def pointerAstray (e : Dword) : Bool := bitOf e 0 && !bitOf e 1 && entryClean e

/-- The entry that a walk reads next, after `read` entries: of the ASID root table, then of the tables of levels 3, 2 and 1 (R53, R317). -/
def State.walkEntry (s : State) (walker : Pkg) (asid : Asid) (va : Dword) (read table : Nat) : Nat :=
  walker.toNat * 2 ^ 44 +
    (if read = 0 then (fld (s.pkg walker).artb 19 21).toNat * 2 ^ 19 + 8 * asid.toNat
     else table + 8 * (vpnOf (BitVec.ofNat 2 (4 - read)) va % 8192))

/-- A walk reads its next entry, as one ordinary load at the entry's home (R53 to R56, R80).
(DEDUCED, notes/assumptions/26.md and 57.md.) -/
def State.walkStep (s : State) (walker : Pkg) (asid : Asid) (va : Dword) (read table : Nat) : Walked :=
  let pa := s.walkEntry walker asid va read table
  if read = 0 && !bitOf (s.pkg walker).artb 0 then .invalid 0 true
  else if s.mem.poisoned pa then .poison pa
  else
    let e : Dword := BitVec.ofNat 64 (s.mem.read pa 8)
    let level : BitVec 2 := BitVec.ofNat 2 (4 - read)
    if read ≠ 0 && bitOf e 1 then (if leafOk level e then .leaf level e else .invalid e false)
    else if 3 ≤ read then .invalid e false
    else if pointerOk walker e then .go (entryAddr e)
    else .invalid e (pointerAstray e)

/-- What a translation gives. -/
inductive Xlat where
  | ok (pa : Nat) (s : State)
  | fault (r : FaultReq)
  | miss
  deriving DecidableEq, Repr

/-- The fault of kind 1 or 2 of an access (R274). -/
def xlatFault (kind : BitVec 8) (va : Dword) (a : Access) (entry : Dword) : FaultReq :=
  { kind := kind, va := va, aux0 := a.code, aux1 := entry }

/-- The function of a package's host port that carries the accesses of a launch queue (R314). -/
def Package.function (k : Package) (q : Nat) : Nat × Function :=
  let f := (Assoc.get k.qfn q 0).toNat
  (f, Assoc.get k.fns f {})

/-- A function takes device accesses: the PF always, a VF once enabled; Bus Master Enable must be set, and AtomicOp Requester
Enable for an atomic (R314). -/
def Function.takes (n : Nat) (f : Function) (a : Access) : Bool := (n = 0 || f.enabled) && f.busMaster && (a ≠ .atomic || f.atomicEn)

/-- An access to host memory that its function does not take (R314; notes/assumptions/18.md). -/
def State.hostBars (s : State) (q pa : Nat) (a : Access) : Bool :=
  paRegion pa = .host && (let w := (s.pkg (paPkg pa)).function q; !w.2.takes w.1 a)

/-- A leaf applied to an access for a launch queue: the package must exist, the leaf must permit, and a function must take an
access to host memory (R14, R55, R314). -/
def State.applyLeaf (s : State) (walker : Pkg) (q : Nat) (a : Access) (va : Dword) (level : BitVec 2) (e : Dword) : Except FaultReq Nat :=
  let pa := leafPa level e va
  if (s.pkg walker).npkg ≤ (paPkg pa).toNat then .error (xlatFault 1 va a e)
  else if !leafPermits e a.need || s.hostBars q pa a then .error (xlatFault 2 va a 0)
  else .ok pa

/-- The launch queue of a LID (R154). -/
def lidQueue (lid : Lid) : Nat := lid.toNat / 2 ^ 32

/-- A global address translated through its die's cache alone; a miss walks (R49, R56). A hit that is refused does not count as a use of its leaf.
(DESIGN CHOICE, notes/assumptions/58.md.) -/
def State.lookupGlobal (s : State) (ep : Ep) (q : Nat) (asid : Asid) (va : Dword) (a : Access) : Xlat :=
  if bitsN va.toNat 62 55 ≠ 0 then .fault (xlatFault 1 va a 0)
  else
    let d := s.die (epPkg ep) (epDie ep)
    match d.lookup asid va with
    | none => .miss
    | some e =>
      match s.applyLeaf (epPkg ep) q a va e.level e.leaf with
      | .error r => .fault r
      | .ok pa => .ok pa (s.setDie (epPkg ep) (epDie ep) (d.touch e))

/-- Joins the walk of a page of 64 KiB, or starts one: 128 walkers, 1,024 queued misses, else the requester retries (R56, R80). A miss that joins a
queued walk takes no place of its own. (DESIGN CHOICE, notes/assumptions/74.md.) -/
def State.requestWalk (s : State) (w : WalkWaiter) (asid : Asid) (va : Dword) : State × Wait :=
  let p := epPkg w.ep
  let d := s.die p (epDie w.ep)
  let page := va.toNat / 2 ^ 16
  let join (l : List Walk) : List Walk := l.map (fun (k : Walk) =>
    if k.asid = asid && k.page = page then { k with waiters := k.waiters ++ [w] } else k)
  let has (l : List Walk) : Bool := l.any (fun k => k.asid = asid && k.page = page)
  if has d.walks then (s.setDie p (epDie w.ep) { d with walks := join d.walks }, .walk)
  else if has d.walkQueue then (s.setDie p (epDie w.ep) { d with walkQueue := join d.walkQueue }, .walk)
  else if d.walks.length < 128 then
    (s.setDie p (epDie w.ep) { d with walks := d.walks ++ [{ asid := asid, page := page, waiters := [w] }] }, .walk)
  else if d.walkQueue.length < 1024 then
    (s.setDie p (epDie w.ep) { d with walkQueue := d.walkQueue ++ [{ asid := asid, page := page, waiters := [w] }] }, .walk)
  else (s, .walkRefused (s.core w.ep).cyc.toNat)

/-- The record of a poisoned table entry names the register that was to be written, as that of a poisoned dword does (R274, R275). -/
def FaultReq.naming (r : FaultReq) (d : Dest) : FaultReq := if r.kind = 3 then { r with aux1 := r.aux1 ||| destCode d } else r

/-- The fault of an access whose walk failed (R56, R274): what the entry was, 3 in AUX0 where a table could not be read, or the poisoned entry. -/
def WalkFault.fault (f : WalkFault) (va : Dword) (a : Access) : FaultReq :=
  if f.kind = 3 then { kind := 3, va := va, aux0 := BitVec.ofNat 64 f.entryPa, aux1 := BitVec.ofNat 64 (2 ^ 63) }
  else { xlatFault f.kind va a f.entry with aux0 := if f.table then 3 else a.code }

/-- A refused walk may be asked for again: 64 cycles of its core have passed (R80). -/
def Wait.retries (w : Wait) (now : Nat) : Bool :=
  match w with
  | .walk => false
  | .walkRefused since => decide (since + 64 ≤ now)
  | _ => true

/-- What an access of the issuing thread does next: goes on at a physical address, traps at issue, faults after issue, or parks
with its walk requested (R170, R171). -/
inductive Reach where
  | ok (pa : Nat) (s : State)
  | trap (r : Stop)
  | fault (r : Stop)
  | park (s : State) (w : Wait)
  deriving DecidableEq, Repr

/-- The offset of a local address in its crew allocation. -/
def localOffset (va : Dword) : Nat := va.toNat % 2 ^ 63

/-- A local address lies in the thread's crew allocation with all its bytes (R32). -/
def Thread.inBound (t : Thread) (va : Dword) (size : Nat) : Bool :=
  decide (localOffset va + size ≤ t.cgl.toNat - t.cgb.toNat)

/-- The granary-bound trap (R32). -/
def Thread.boundStop (t : Thread) (va : Dword) : Stop := .trap 4 va (BitVec.ofNat 64 (t.cgl.toNat - t.cgb.toNat))

/-- Alignment, then the local bound (R170). -/
def Thread.addressStop (t : Thread) (va : Dword) (size align : Nat) : Option Stop :=
  if va.toNat % align ≠ 0 then some (.trap 3 va (BitVec.ofNat 64 align))
  else if bitOf va 63 && !t.inBound va size then some (t.boundStop va)
  else none

/-- The physical address of an access of the issuing thread, for a destination, that has passed `addressStop` (R49, R171). -/
def State.reach (s : State) (va : Dword) (a : Access) (dest : Dest := .none) : Reach :=
  let t := s.me
  if bitOf va 63 then .ok (granaryPa s.issue.ep (t.cgb.toNat + localOffset va)) s
  else
    match s.lookupGlobal s.issue.ep (lidQueue t.lid) t.asid va a with
    | .fault r => .fault (.fault r)
    | .ok pa s1 => .ok pa s1
    | .miss =>
      match t.walkFault.filter (fun f => f.page = va.toNat / 2 ^ 16) with
      | some f => .fault (.fault ((f.fault va a).naming dest))
      | none =>
        let (s1, w) := s.requestWalk { ep := s.issue.ep, ctx := s.issue.ctx, need := a.need } t.asid va
        .park s1 w

end Sys2Proof.Machine
end

