-- ==== Sys2Proof/Machine/Access.lean ====
section
/-! DEFINITION. How an instruction's accesses leave it: pending results and the shadow count, packets of remote accesses, stream
binding, and the checks between translation and issue (R39, R40, R48, R58, R61 to R68, R171). -/

namespace Sys2Proof.Machine

/-! ## Pending results (R39, R40, R48) -/

/-- Ends an instruction that creates a pending result: the shadow count takes its LA, or the smaller of its LA and the count less
one; a g destination's full bit is cleared. -/
def Thread.retireLong (t : Thread) (next : BitVec 18) (p : Pending) : Thread :=
  let t := match p.dest with | .reg n => t.clearFull n | _ => t
  Thread.settle { t with
    pend := t.pend ++ [p], nextId := t.nextId + 1,
    shadow := if t.pend.isEmpty then p.la else min (t.shadow - 1) p.la,
    pc := next, st := putBit t.st 22 false, wait := .none, walkFault := none }

/-- The pending result of the issuing instruction. -/
def State.pendingOf (s : State) (kind : PendKind) (dest : Dest) (la : Nat) (lanes : List Lane) : Pending :=
  { id := s.me.nextId, pc := s.issue.pc, xd := s.issue.next - s.issue.pc = 8, kind := kind, dest := dest, lanes := lanes, la := la,
    since := s.myCore.cyc.toNat }

/-- Ends the issuing instruction with a pending result. -/
def State.retireLong (s : State) (p : Pending) : State :=
  let s := s.leaveOrder
  s.setMe (s.me.retireLong s.issue.next p)

/-! ## Packets of accesses (R297, R299) -/

/-- The operation code of an ATOMIC: major, function, width, and whether a value returns (R297). -/
def atomicOp (op : MemOp) (size : Nat) (value : Bool) : BitVec 7 :=
  let (maj, fn) : Nat × Nat := match op with
    | .ami aop => (0, aop.toNat)
    | .amf aop => (1, aop.toNat)
    | .ldf => (2, 0)
    | .ldff => (2, 1)
    | .stf => (2, 2)
    | .stff => (2, 3)
    | .sete => (2, 4)
    | .qfe => (2, 5)
    | .waita => (2, 6)
    | _ => (3, 7)
  BitVec.ofNat 7 (maj * 2 ^ 5 + fn * 2 ^ 2 + b2n (size = 8) * 2 + b2n value)

/-- The operation an ATOMIC's code names; none for a code no instruction has. -/
def opOfAtomic (op : BitVec 7) : Option MemOp :=
  match (fld op 5 2).toNat with
  | 0 => some (.ami (fld op 2 3))
  | 1 => some (.amf (fld op 2 3))
  | 2 => match (fld op 2 3).toNat with
    | 0 => some .ldf
    | 1 => some .ldff
    | 2 => some .stf
    | 3 => some .stff
    | 4 => some .sete
    | 5 => some .qfe
    | 6 => some .waita
    | _ => none
  | _ => none

/-- `acas` carries the expected value before the new one (R299). -/
def MemOp.isCas : MemOp → Bool
  | .amf aop => aop = 1
  | _ => false

/-- Byte enables of `size` bytes from byte `off` of a payload. -/
def byteMask (off size : Nat) : BitVec 256 := BitVec.ofNat 256 ((2 ^ size - 1) * 2 ^ off)

/-- The packet of a remote store, atomic, signal or full/empty operation: WRITE in whole dwords with enables, ATOMIC or SIGNAL
(R299). `key` names the pending access it belongs to, 0 for a streamed operation. -/
def MemReq.packet (r : MemReq) (value : Bool) (ep : Ep) (ctx : Ctx) (str : BitVec 4) (key : Nat) : Packet :=
  let p : Packet := { dst := homeEp r.pa, src := ep, ctx := ctx, str := str, pa := BitVec.ofNat 54 r.pa, note := key * 2 ^ 32, vas := [r.va] }
  match r.op with
  | .store =>
    let off := r.pa % 8
    { p with
      type := .write, pa := BitVec.ofNat 54 (dwordAt r.pa), len := BitVec.ofNat 9 ((off + r.size + 7) / 8 * 8),
      payload := r.data % 2 ^ (8 * r.size) * 2 ^ (8 * off), be := byteMask off r.size,
      note := key * 2 ^ 32 + (wholeDwords r.pa r.size).foldl (fun n dw => Nat.lor n (2 ^ ((dw - dwordAt r.pa) / 8))) 0 }
  | op =>
    if op.signals then { p with type := .signal, len := 8, payload := r.data % 2 ^ 64 }
    else if op.isCas then
      { p with
        type := .atomic, len := 16, op := atomicOp op r.size value,
        payload := r.cmp.toNat + r.data % 2 ^ 64 * 2 ^ 64 }
    else { p with type := .atomic, len := 8, op := atomicOp op r.size value, payload := r.data % 2 ^ 64 }

/-- The operation a WRITE's, ATOMIC's or SIGNAL's packet carries for one dword. -/
def Packet.req (p : Packet) : Option MemReq :=
  match p.type with
  | .signal => some { op := .amf 6, pa := p.pa.toNat, size := 8, data := p.payload % 2 ^ 64 }
  | .atomic =>
    match opOfAtomic p.op with
    | none => none
    | some op =>
      let size := if p.op.getLsbD 1 then 8 else 4
      if op.isCas then
        some { op := op, pa := p.pa.toNat, size := size, data := p.payload / 2 ^ 64 % 2 ^ 64, cmp := BitVec.ofNat 64 p.payload }
      else some { op := op, pa := p.pa.toNat, size := size, data := p.payload % 2 ^ 64 }
  | _ => none

/-- The READ of a remote load: whole dwords (R299). -/
def MemReq.readPacket (r : MemReq) (ep : Ep) (ctx : Ctx) (key : Nat) : Packet :=
  { type := .read, dst := homeEp r.pa, src := ep, ctx := ctx, pa := BitVec.ofNat 54 (dwordAt r.pa),
    auxf := BitVec.ofNat 32 ((r.pa % 8 + r.size + 7) / 8 * 8), note := key * 2 ^ 32 }

/-- An access returns a value to its destination. -/
def Pending.returns (p : Pending) : Bool := match p.dest with | .none => false | _ => true

/-! ## Sending what a pending result still has to send (R61, R62, R64, R178) -/

/-- Two accesses touch a common byte. -/
def MemReq.overlaps (a b : MemReq) : Bool := decide (a.pa < b.pa + b.size ∧ b.pa < a.pa + a.size)

/-- A load of an earlier pending result touches a byte of the access and has not been performed (R62). -/
def Thread.earlierOverlap (t : Thread) (id : Nat) (r : MemReq) : Bool :=
  (t.pend.takeWhile (fun p => p.id ≠ id)).any (fun p => p.lanes.any (fun l =>
    l.stage ≠ .performed && l.stage ≠ .poisoned && l.req.overlaps r))

/-- The loads of a thread that may be sent now, with their pending results. -/
def Thread.readsToSend (t : Thread) : List (Nat × Lane) :=
  t.pend.flatMap (fun p => (p.lanes.filter (fun l => l.stage = .unsent && l.req.op = .load && !t.earlierOverlap p.id l.req)).map
    (fun l => (p.id, l)))

/-- Sends the READs of a thread's pending loads (R61). -/
def State.sendReads (s : State) (ep : Ep) (ctx : Ctx) : State :=
  let t := s.thr ep ctx
  let todo := t.readsToSend
  let now := s.dieCyc ep
  let t := todo.foldl (fun (t : Thread) w => t.setLane w.1 w.2.lane (fun l => { l with stage := .sent, sentAt := now })) t
  let s := s.setThr ep ctx t
  todo.foldl (fun s w => s.inject (w.2.req.readPacket ep ctx (laneKey w.1 w.2.lane))) s

/-- The first access of a thread that waits to go on stream 0. -/
def Thread.nextToSend (t : Thread) : Option (Pending × Lane) :=
  t.pend.findSome? (fun p => (p.lanes.find? (fun l => l.stage = .unsent && l.req.op ≠ .load)).map (fun l => (p, l)))

/-- Binds a stream to an endpoint when it may: it is bound there, or every operation is acknowledged and the old session's CLOSE
has room (R64, R303). -/
def State.bindStream (s : State) (ep : Ep) (ctx : Ctx) (n : BitVec 3) (dst : Ep) : Option State :=
  let st := (s.thr ep ctx).stream n
  if st.bound && st.ep = dst then some s
  else if !st.unacked.isEmpty || !s.closeRoom ep st then none
  else
    let (s, st) := s.closeSession ep ctx (n.setWidth 4) 0 st
    some (s.setThr ep ctx ((s.thr ep ctx).setStream n { st with bound := true, ep := dst }))

/-- Sends one operation on a bound stream of a thread. -/
def State.sendStream (s : State) (ep : Ep) (ctx : Ctx) (n : BitVec 3) (p : Packet) : State :=
  let (s, st) := s.sendOn ((s.thr ep ctx).stream n) p
  s.setThr ep ctx ((s.thr ep ctx).setStream n st)

/-- Sends a thread's waiting accesses on stream 0, in order, while the stream can be bound (R61, R64). -/
def State.pumpN (s : State) (ep : Ep) (ctx : Ctx) : Nat → State
  | 0 => s
  | n + 1 =>
    match (s.thr ep ctx).nextToSend with
    | none => s
    | some (p, l) =>
      match s.bindStream ep ctx 0 (homeEp l.req.pa) with
      | none => s
      | some s1 =>
        let s2 := s1.setThr ep ctx ((s1.thr ep ctx).setLane p.id l.lane (fun l => { l with stage := .sent }))
        State.pumpN (s2.sendStream ep ctx 0 (l.req.packet p.returns ep ctx 0 (laneKey p.id l.lane))) ep ctx n

/-- Sends what a thread's pending results can send now. -/
def State.pump (s : State) (ep : Ep) (ctx : Ctx) : State :=
  let n := ((s.thr ep ctx).pend.map (fun (p : Pending) => p.lanes.length)).sum
  (s.sendReads ep ctx).pumpN ep ctx n

/-- The stage at which an access starts: at the core's own bank or store, or still to be sent to its home (R51, R61). -/
def startStage (ep : Ep) (pa : Nat) : Stage := if homeEp pa = ep then .here else .unsent

/-- Issues the accesses of an instruction with its pending result. -/
def State.issueAccess (s : State) (p : Pending) : State := (s.retireLong p).pump s.issue.ep s.issue.ctx

/-! ## Between translation and issue -/

/-- The first access of an instruction must bind stream 0 and its CLOSE has no room (R303). -/
def State.closeStall (s : State) (lanes : List Lane) : Bool :=
  let st := s.me.stream 0
  match lanes.find? (fun l => l.stage = .unsent && l.req.op ≠ .load) with
  | some l => st.bound && st.ep ≠ homeEp l.req.pa && !s.closeRoom s.issue.ep st
  | none => false

/-- The thread's own streamed operations to a dword of an access hold it back; a combining entry is sent (R67, R68). -/
def State.ownStall (s : State) (pa size : Nat) : Option State :=
  if s.ownStores s.issue.ep s.issue.ctx pa size then
    let dws := dwordsOf pa size
    some ((s.flushWhere s.issue.ep (fun e => e.ctx = s.issue.ctx && dws.any (fun dw => e.touches dw))).park .fill (.ownStores pa size))
  else none

/-- The first of some accesses that own streamed operations hold back. -/
def State.ownStalls (s : State) (lanes : List Lane) : Option State := lanes.findSome? (fun l => s.ownStall l.req.pa l.req.size)

/-- A translated address of the issuing thread: the address and the state that goes on, or the state in which the thread stops or
parks. `s` is the state before the operands were read, `s1` after. -/
def State.reached (s s1 : State) (va : Dword) (a : Access) (dest : Dest := .none) : Except State (Nat × State) :=
  match s.reach va a dest with
  | .trap r => .error (s.stopAtIssue r)
  | .fault r => .error (s.stopAfterIssue r)
  | .park s2 w => .error (s2.park .fill w)
  | .ok pa _ =>
    match s1.reach va a with
    | .ok _ s2 => .ok (pa, s2)
    | _ => .ok (pa, s1)

/-- A system fault of kind permission at a home that does not take the operation (R57, R72, R175). -/
def State.homeFault (s : State) (va : Dword) (a : Access) : State := s.stopAfterIssue (.fault (xlatFault 2 va a 0))

/-- A streamed operation may join its stream: the stream is bound to its endpoint, or can be, and has room. The thread parks
otherwise, after its combining entries for another endpoint have been sent (R64, R67). -/
def State.streamReady (s : State) (n : BitVec 3) (dst : Ep) (joins : Bool) : Except State Unit :=
  let ep := s.issue.ep
  let ctx := s.issue.ctx
  let st := s.me.stream n
  let own := s.myCore.combine.filter (fun e => e.ctx = ctx && e.strm = n)
  if st.bound && st.ep ≠ dst then
    if !st.unacked.isEmpty || !own.isEmpty then .error ((s.flushStream ep ctx n).park .fill (.streams (BitVec.ofNat 8 (2 ^ n.toNat))))
    else if !s.closeRoom ep st then .error (s.park .fill .closeStore)
    else .ok ()
  else if !joins && 128 ≤ st.unacked.length + own.length then .error (s.park .fill (.streamRoom n))
  else .ok ()

/-- The stream of the issuing thread bound to an endpoint, after `streamReady`. -/
def State.boundTo (s : State) (n : BitVec 3) (dst : Ep) : State := (s.bindStream s.issue.ep s.issue.ctx n dst).getD s

end Sys2Proof.Machine
end

