-- ==== Sys2Proof/Machine/Atomics.lean ====
section
/-! DEFINITION. Atomics and signals: majors AMI and AMF (R71 to R73, R182 to R186). -/

namespace Sys2Proof.Machine

/-- The scope allows the stream field (R71). -/
def scopeStream (sc : BitVec 4) (strm : BitVec 3) : Bool :=
  match sc.toNat with
  | 0 | 3 | 4 | 9 => strm = 0
  | 1 => strm ≠ 0
  | _ => true

/-- GMS slot 0 names a group: its VAL bit is set, and it is neither 255 nor empty (R42). -/
def State.slot0 (s : State) : Bool :=
  let t := s.me
  let g := (fld t.gms 0 8).toNat
  bitOf t.gms 32 && g ≠ 255 &&
    (match s.launch? t.home t.lid with
     | some l => (l.counts.getD g 0) ≠ 0
     | none => false)

/-- An illegal use of a scope (R72). -/
def State.scopeBad (s : State) (sc : BitVec 4) (strm : BitVec 3) (hostable : Bool) : Bool :=
  10 ≤ sc.toNat || !scopeStream sc strm || (sc = 3 && !(s.me.corun && s.slot0)) || (sc = 9 && !hostable)

/-- The package is one of the issuer's ring, as SYSCFG names it (R71, R318). -/
def Package.inRing (k : Package) (p : Pkg) : Bool :=
  let base := (fld k.syscfg 32 10).toNat
  let more := (fld k.syscfg 48 5).toNat
  decide (base ≤ p.toNat ∧ p.toNat ≤ base + more)

/-- The address lies in its scope's column (R71). -/
def State.inScope (s : State) (sc : BitVec 4) (va : Dword) (pa : Nat) : Bool :=
  let me := s.issue.ep
  let home := homeEp pa
  match sc.toNat with
  | 0 => bitOf va 63
  | 2 => paRegion pa = .granary && home = me
  | 5 => paHasFe pa && epPkg home = epPkg me && epDie home = epDie me
  | 6 => paHasFe pa && paPkg pa = epPkg me
  | 7 => paHasFe pa && (s.pkg (epPkg me)).inRing (paPkg pa)
  | 9 => paRegion pa = .host
  | _ => paHasFe pa

/-- The scope executes at a cluster unit: cluster scope, or group scope when the group's members are in one cluster (R71). -/
def State.atUnit (s : State) (sc : BitVec 4) : Bool :=
  let t := s.me
  sc = 4 || (sc = 3 && (match s.launch? t.home t.lid with
    | some l => l.oneCluster.contains (fld t.gms 0 8).toNat
    | none => false))

/-- An atomic with its operands read: `data` its operand, `cmp` the expected value of `acas`. -/
def State.atomicAt (s s1 : State) (op : MemOp) (size : Nat) (va : Dword) (data : Nat) (cmp : Dword) (sc : BitVec 4) (strm : BitVec 3)
    (dest : Dest) (port : Reg) : State :=
  match s.me.addressStop va size size with
  | some r => s.stopAtIssue r
  | none =>
    match s.reached s1 va .atomic dest with
    | .error s2 => s2
    | .ok (pa, s2) =>
      if paRegion pa = .istore || (paRegion pa = .host && sc ≠ 9) then s.homeFault va .atomic
      else if !s.inScope sc va pa then s.stopAfterIssue (.trap 1 va (sc.setWidth 64))
      else
        let req : MemReq := { op := op, va := va, pa := pa, size := size, data := data, cmp := cmp }
        if strm = 0 then
          match s.ownStall pa size with
          | some s3 => s3
          | none =>
            match s2.reserve port with
            | .error e => s.stall e
            | .ok s3 =>
              let stage := if s.atUnit sc then Stage.unitRead else startStage s.issue.ep pa
              let lanes : List Lane := [{ req := req, stage := stage }]
              if s.closeStall lanes then s.park .fill .closeStore
              else s3.issueAccess (s3.pendingOf .access dest 0 lanes)
        else
          match s.streamReady strm (homeEp pa) false with
          | .error s3 => s3
          | .ok _ =>
            let s3 := (s2.boundTo strm (homeEp pa)).flushStream s.issue.ep s.issue.ctx strm
            (s3.sendStream s.issue.ep s.issue.ctx strm (req.packet false s.issue.ep s.issue.ctx (strm.setWidth 4) 0)).retire

/-- The destination of an atomic: none when it is zr (R182). -/
def Thread.atomicDest (t : Thread) (d : Reg) : Dest := if d = 0 then .none else t.destOf d

/-- An atomic on one operand (R182). -/
def State.atomic (s : State) (op : MemOp) (size : Nat) (d b a : Reg) (sc : BitVec 4) (strm : BitVec 3) (hostable : Bool) : State :=
  if strm ≠ 0 && d ≠ 0 then s.illegal
  else
    match s.portStops [a, b] [d] with
    | some r => s.stopAtIssue r
    | none =>
      if s.scopeBad sc strm hostable then s.trap 1 s.majorVal (sc.setWidth 64)
      else
        match s.shadowStall with
        | some e => s.stall e
        | none =>
          match s.operands [a, b] [d] with
          | .error e => s.stall e
          | .ok (xs, s1) => s.atomicAt s1 op size (xs.getD 1 0) (xs.headD 0).toNat 0 sc strm (s1.me.atomicDest d) d

/-- The access size a width field names (R182). -/
def atomicSize (w : BitVec 1) : Nat := if w = 0 then 4 else 8

/-- An integer atomic (R183). -/
def State.ami (s : State) (o : OpAtomic) (aop : BitVec 3) : State :=
  s.atomic (.ami aop) (atomicSize o.w) o.d o.b o.a o.sc o.strm (aop = 0)

/-- `aadd` (R183). -/
def execAadd (o : OpAtomic) (s : State) : Out := .next (s.ami o 0)

/-- `aand` (R183). -/
def execAand (o : OpAtomic) (s : State) : Out := .next (s.ami o 1)

/-- `aor` (R183). -/
def execAor (o : OpAtomic) (s : State) : Out := .next (s.ami o 2)

/-- `axor` (R183). -/
def execAxor (o : OpAtomic) (s : State) : Out := .next (s.ami o 3)

/-- `amin` (R183). -/
def execAmin (o : OpAtomic) (s : State) : Out := .next (s.ami o 4)

/-- `amax` (R183). -/
def execAmax (o : OpAtomic) (s : State) : Out := .next (s.ami o 5)

/-- `aminn` (R183). -/
def execAminn (o : OpAtomic) (s : State) : Out := .next (s.ami o 6)

/-- `amaxn` (R183). -/
def execAmaxn (o : OpAtomic) (s : State) : Out := .next (s.ami o 7)

/-- `aswp` (R184). -/
def execAswp (o : OpAtomic) (s : State) : Out := .next (s.atomic (.amf 0) (atomicSize o.w) o.d o.b o.a o.sc o.strm true)

/-- `acas`: its expected value is g[d], read last; a streamed one writes nothing (R182, R184). -/
def execAcas (o : OpAtomic) (s : State) : Out :=
  let dsts : List Reg := if o.strm = 0 then [o.d] else []
  .next (match s.portStops [o.a, o.b, o.d] dsts with
    | some r => s.stopAtIssue r
    | none =>
      if s.scopeBad o.sc o.strm true then s.trap 1 s.majorVal (o.sc.setWidth 64)
      else
        match s.shadowStall with
        | some e => s.stall e
        | none =>
          match s.operands [o.a, o.b, o.d] dsts with
          | .error e => s.stall e
          | .ok (xs, s1) =>
            s.atomicAt s1 (.amf 1) (atomicSize o.w) (xs.getD 1 0) (xs.headD 0).toNat (xs.getD 2 0) o.sc o.strm
              (s1.me.atomicDest o.d) (if o.strm = 0 then o.d else 0))

/-- `afadd` (R184). -/
def execAfadd (o : OpAtomicF) (s : State) : Out := .next (s.atomic (.amf 2) 4 o.d o.b o.a o.sc o.strm false)

/-- `afadd2` (R184). -/
def execAfadd2 (o : OpAtomic) (s : State) : Out := .next (s.atomic (.amf 3) (atomicSize o.w) o.d o.b o.a o.sc o.strm false)

/-- `afmax` (R184). -/
def execAfmax (o : OpAtomicF) (s : State) : Out := .next (s.atomic (.amf 4) 4 o.d o.b o.a o.sc o.strm false)

/-- `afmin` (R184). -/
def execAfmin (o : OpAtomicF) (s : State) : Out := .next (s.atomic (.amf 5) 4 o.d o.b o.a o.sc o.strm false)

/-- `sig` (R185). -/
def execSig (o : OpSig) (s : State) : Out := .next (s.atomic (.amf 6) 8 0 o.b o.a o.sc o.strm false)

end Sys2Proof.Machine
end

