-- ==== Sys2Proof/Machine/Barriers.lean ====
section
/-! DEFINITION. Barriers and groups: major BAR (R41 to R43, R195). The arrivals combine in Machine/GroupSteps.lean. -/

namespace Sys2Proof.Machine

/-- Launched threads of a launch: N of its record (R30, R261). -/
def Launch.threads (l : Launch) : Nat := (fld (l.record.getD 0 0) 0 24).toNat + 1

/-- Members of a group of a launch: its table entry, or all N threads for group 255 (R41). -/
def Launch.members (l : Launch) (g : BitVec 8) : Nat := if g = 255 then l.threads else (l.counts.getD g.toNat 0).toNat

/-- GMS slot `i` names a group: its VAL bit is set, and it is neither 255 nor empty (R42). -/
def Thread.slotNames (t : Thread) (l : Launch) (i : Nat) (g : BitVec 8) : Bool :=
  bitOf t.gms (32 + i) && fld t.gms (8 * i) 8 = g && g ≠ 255 && l.members g ≠ 0

/-- The GMS slot by which a thread is a member of a group 0 to 254. -/
def Thread.slotOf (t : Thread) (l : Launch) (g : BitVec 8) : Option Nat := (List.range 4).find? (fun i => t.slotNames l i g)

/-- The thread is a member of a group (R41, R43). -/
def Thread.memberOf (t : Thread) (l : Launch) (g : BitVec 8) : Bool :=
  if g = 255 then t.corun && decide (t.lti.toNat < l.threads) else (t.slotOf l g).isSome

/-- The issuing thread's launch, when the thread is a member of the group. -/
def State.groupOf (s : State) (g : BitVec 8) : Option Launch :=
  let t := s.me
  match s.launch? t.home t.lid with
  | some l => if t.memberOf l g then some l else none
  | none => none

/-- The thread has arrived in an episode of the group that has not released (R43). -/
def Thread.hasArrived (t : Thread) (l : Launch) (g : BitVec 8) : Bool :=
  if g = 255 then t.arrived255
  else match t.slotOf l g with
    | some i => t.arrived.getLsbD i
    | none => false

/-- The current episode of a group. -/
def Launch.episode (l : Launch) (g : BitVec 8) : Episode := Assoc.get l.episodes g.toNat {}

/-- Arrivals in the current episode of a group: those that have reached its root and those on their way there, which are made when their instructions issue
(R38, R43, R195). (DEDUCED, notes/assumptions/89.md.) -/
def State.arrivalsIn (s : State) (l : Launch) (g : BitVec 8) : Nat :=
  (l.episode g).arrivals + (s.arrivals.filter (fun a => a.home = l.home && a.lid = l.lid && a.group = g)).length

/-- Replaces the episode of a group. -/
def Launch.setEpisode (l : Launch) (g : BitVec 8) (e : Episode) : Launch := { l with episodes := Assoc.set l.episodes g.toNat e }

/-- Notes an arrival of a thread in the current episode (R43). -/
def Thread.arrive (t : Thread) (l : Launch) (g : BitVec 8) : Thread :=
  if g = 255 then { t with arrived255 := true }
  else match t.slotOf l g with
    | some i => { t with
        arrived := putBit t.arrived i true,
        episode := t.episode.setIfInBounds i (BitVec.ofNat 7 (l.episode g).number) }
    | none => t

/-- The thread arrives, unless it has arrived in this episode already (R43, R195). -/
def State.arriveAt (s : State) (l : Launch) (g : BitVec 8) (op : BitVec 2) (value : Dword) : State :=
  let t := s.me
  if t.hasArrived l g then s
  else
    let s := s.setMe (t.arrive l g)
    { s with arrivals := s.arrivals ++ [{ home := t.home, lid := t.lid, group := g, op := op, value := value }] }

/-- The trap of a barrier that names a group the thread does not belong to (R43). -/
def State.groupTrap (s : State) (g : BitVec 8) : State := s.trap 1 (g.setWidth 64) s.wordVal

/-- `bar` and `barw`: arrive, then wait for the release, whose value goes to the destination (R195). -/
def State.barrier (s : State) (o : OpBar) (limit : Nat) : State :=
  match s.portStops [o.a] [o.d] with
  | some r => s.stopAtIssue r
  | none =>
  match s.groupOf o.group with
  | none => s.groupTrap o.group
  | some l =>
    match s.shadowStall with
    | some e => s.stall e
    | none =>
      match s.operands [o.a] [o.d] with
      | .error e => s.stall e
      | .ok (xs, s1) =>
        match (if s.me.waitFrom = 0 then s1.reserve o.d else .ok s1) with
        | .error e => s.stall e
        | .ok s2 => (s2.arriveAt l o.group o.op (xs.headD 0)).holdFor .barrier (.barrier o.group) (s2.me.destOf o.d) limit

/-- `bar` (R195). (DEDUCED, notes/assumptions/28.md.) -/
def execBar (o : OpBar) (s : State) : Out := .next (s.barrier o 0)

/-- `barw`, bounded by WLIM (R45, R195). -/
def execBarw (o : OpBar) (s : State) : Out := .next (s.barrier o (s.me.wlim.toNat % 2 ^ 32))

/-- `bara`: arrive and continue (R195). -/
def execBara (o : OpBara) (s : State) : Out :=
  .next (match s.portStops [o.a] [] with
    | some r => s.stopAtIssue r
    | none =>
    match s.groupOf o.group with
    | none => s.groupTrap o.group
    | some l =>
      match s.shadowStall with
      | some e => s.stall e
      | none =>
        match s.operands [o.a] [] with
        | .error e => s.stall e
        | .ok (xs, s1) => (s1.arriveAt l o.group o.op (xs.headD 0)).retire)

/-- The value of `barq`: arrived ∥ member count ∥ arrivals (R195). -/
def State.groupState (s : State) (l : Launch) (g : BitVec 8) : Dword :=
  BitVec.ofNat 64 (b2n (s.me.hasArrived l g) * 2 ^ 63 + (l.members g) % 2 ^ 24 * 2 ^ 24 + s.arrivalsIn l g % 2 ^ 24)

/-- `barq` (R195). -/
def execBarq (o : OpBarq) (s : State) : Out :=
  .next (match s.portStops [] [o.d] with
    | some r => s.stopAtIssue r
    | none =>
    match s.groupOf o.group with
    | none => s.groupTrap o.group
    | some l =>
      match s.shadowStall with
      | some e => s.stall e
      | none =>
        match s.operands [] [o.d] with
        | .error e => s.stall e
        | .ok (_, s1) =>
          match s1.writeReg o.d (s.groupState l o.group) with
          | .error e => s.stall e
          | .ok s2 => s2.retire)

end Sys2Proof.Machine
end

