-- ==== Sys2Proof/Machine/Branch.lean ====
section
/-! DEFINITION. Branches and jumps: majors BR and JMP, and `jalr` (R109, R149 to R151). -/

namespace Sys2Proof.Machine

/-- The target of a branch or jump: the branching word's address plus four times the offset, modulo 2^18 (R109). -/
def targetOf (pc : BitVec 18) {n : Nat} (off : BitVec n) : BitVec 18 := BitVec.ofInt 18 (pc.toNat + 4 * off.toInt)

/-- A branch on two registers (R149). -/
def State.branch (s : State) (o : OpBranch) (cond : Dword → Dword → Bool) : State :=
  match s.operands [o.a, o.b] [] with
  | .error e => s.stall e
  | .ok (xs, s1) =>
    if (match xs with | [x, y] => cond x y | _ => false) then s1.retireTo (targetOf s.issue.pc o.off) else s1.retire

/-- `beq` (R149). -/
def execBeq (o : OpBranch) (s : State) : Out := .next (s.branch o (fun x y => x = y))

/-- `bne` (R149). -/
def execBne (o : OpBranch) (s : State) : Out := .next (s.branch o (fun x y => x ≠ y))

/-- `blt` (R149). -/
def execBlt (o : OpBranch) (s : State) : Out := .next (s.branch o (fun x y => x.toInt < y.toInt))

/-- `bge` (R149). -/
def execBge (o : OpBranch) (s : State) : Out := .next (s.branch o (fun x y => y.toInt ≤ x.toInt))

/-- `bltu` (R149). -/
def execBltu (o : OpBranch) (s : State) : Out := .next (s.branch o (fun x y => x.toNat < y.toNat))

/-- `bgeu` (R149). -/
def execBgeu (o : OpBranch) (s : State) : Out := .next (s.branch o (fun x y => y.toNat ≤ x.toNat))

/-- `bbs` (R149). -/
def execBbs (o : OpBranch) (s : State) : Out := .next (s.branch o (fun x y => x.getLsbD (y.toNat % 64)))

/-- `bbc` (R149). -/
def execBbc (o : OpBranch) (s : State) : Out := .next (s.branch o (fun x y => !x.getLsbD (y.toNat % 64)))

/-- The link value: the address of the next issue unit (R150). -/
def State.link (s : State) : Dword := s.issue.next.setWidth 64

/-- `jal` (R150). -/
def execJal (o : OpJump) (s : State) : Out :=
  .next (match s.operands [] [o.d] with
    | .error e => s.stall e
    | .ok (_, s1) =>
      match s1.writeReg o.d s.link with
      | .error e => s.stall e
      | .ok s2 => s2.retireTo (targetOf s.issue.pc o.off))

/-- The target of `jalr` before its low bits are checked (R151). -/
def jalrTarget (x : Dword) (imm : BitVec 10) : Dword := x + BitVec.ofInt 64 (4 * imm.toInt)

/-- `jalr` (R151). -/
def execJalr (o : OpJalr) (s : State) : Out :=
  .next (match s.operands [o.a] [o.d] with
    | .error e => s.stall e
    | .ok (xs, s1) =>
      let t := jalrTarget (xs.headD 0) o.imm
      if t.toNat % 4 ≠ 0 then s.trap 3 t 4
      else
        match s1.writeReg o.d s.link with
        | .error e => s.stall e
        | .ok s2 => s2.retireTo (fld t 0 18))

end Sys2Proof.Machine
end

