-- ==== Sys2Proof/Machine/Formats.lean ====
section
/-! DEFINITION. Format codes, conversions between them, selector elements, register images and block quantisation (R81 to R88, R94 to
R96, R216 to R221). -/

namespace Sys2Proof.Machine

/-- The formats that R94 converts lane by lane. -/
inductive FClass where
  | float (f : FFmt)
  | int (signed : Bool) (bits : Nat)
  | a48
  | e8m0
  deriving DecidableEq, Repr

/-- The class of a format code (R81). -/
def fclass (code : Nat) : Option FClass :=
  match code with
  | 0 => some (.int true 8)
  | 1 => some (.int false 8)
  | 2 => some (.int true 16)
  | 3 => some (.int true 6)
  | 4 => some (.int true 4)
  | 5 => some (.int false 4)
  | 6 => some (.int true 2)
  | 20 => some (.float bf16)
  | 21 => some (.float fp16)
  | 22 => some (.float fp32)
  | 23 => some (.float e4m3)
  | 24 => some (.float e5m2)
  | 25 => some .e8m0
  | 26 => some (.int true 32)
  | 27 => some (.int true 64)
  | 28 => some .a48
  | _ => none

/-- The lane width of a format that `vcvt` converts (R216). -/
def laneFmtWidth (code : Nat) : Option Nat :=
  match code with
  | 0 | 1 | 23 | 24 | 25 => some 8
  | 2 | 20 | 21 => some 16
  | 22 | 26 => some 32
  | 27 | 28 => some 64
  | _ => none

/-- The value of an element (R81, R88). -/
def FClass.decode (c : FClass) (x : Nat) : Num :=
  match c with
  | .float f => f.decode x
  | .int sg n => Num.ofInt (if sg then sextN x n else (x % 2 ^ n : Nat))
  | .a48 => match Num.ofInt (sextN x 48) with
    | .fin n m _ r => .fin n m (-16) r
    | v => v
  | .e8m0 => if x % 256 = 255 then .nan false else .fin false 1 ((x % 256 : Nat) - 127) false

/-- The pairs R94 lists. -/
def convertible : FClass → FClass → Bool
  | .e8m0, .float _ => true
  | .e8m0, _ => false
  | _, _ => true

/-- A rounded whole multiple of a grid, saturated to a range: the value, and the flags NX, and SA or NV (R92, R94). -/
def toRange (fromFloat : Bool) (lo hi : Int) (neg : Bool) (q : Nat) (inexact : Bool) : Int × Flags :=
  let v : Int := if neg then -(q : Int) else q
  let c := max lo (min hi v)
  if c = v then (v, { nx := inexact })
  else if fromFloat then (c, { nv := true }) else (c, { sa := true, nx := inexact })

/-- Conversion to an integer of given range on the grid 2^g (R94). -/
def convertInt (fromFloat : Bool) (mode : RMode) (u : Word) (g : Int) (lo hi : Int) : Num → Int × Flags
  | .nan _ => (0, { nv := true })
  | .inf neg => (if neg then lo else hi, { nv := true })
  | .fin neg m e more =>
    let (q, inexact) := roundTo mode neg m e g more u
    toRange fromFloat lo hi neg q inexact

/-- Conversion to E8M0 (R94). -/
def toE8M0 (mode : RMode) (u : Word) : Num → Nat × Flags
  | .nan _ => (0xFF, { nv := true })
  | .inf _ => (0xFF, { nv := true })
  | .fin _ m e more =>
    if m = 0 then (0, { uf := true, nx := true })
    else
      let d := bitLen m - 1
      let top := e + d
      if top < -127 then (0, { uf := true, nx := true })
      else if 128 ≤ top then (0xFE, { of_ := true, nx := true })
      else
        let f := m - 2 ^ d
        let inexact := f ≠ 0 || more
        let up := match mode with
          | .rtz | .rdn => false
          | .rup => inexact
          | .rne | .rna => decide (0 < d ∧ 2 ^ d ≤ 2 * f)
          | .sr => roundsUp .sr false 0 f d more u
        let n := top + (b2n up : Int)
        if 128 ≤ n then (0xFE, { of_ := true, nx := true }) else ((n + 127).toNat, { nx := inexact })

/-- The format is floating. -/
def FClass.isFloat : FClass → Bool
  | .float _ => true
  | _ => false

/-- Conversion of one element's bits under R94. -/
def convertElem (src dst : FClass) (mode : RMode) (u : Word) (x : Nat) : Nat × Flags :=
  let v := src.decode x
  match dst with
  | .float f => f.round mode u v
  | .int sg n =>
    let (r, fl) := convertInt src.isFloat mode u 0 (if sg then -(2 ^ (n - 1)) else 0) (if sg then 2 ^ (n - 1) - 1 else 2 ^ n - 1) v
    ((wrap n r).toNat, fl)
  | .a48 =>
    let (r, fl) := convertInt src.isFloat mode u (-16) (-(2 ^ 47)) (2 ^ 47 - 1) v
    ((wrap 64 r).toNat, fl)
  | .e8m0 => toE8M0 mode u v

/-! ## Selector elements (R84, R85, R94) -/

/-- The largest magnitude exponent of an L format. -/
def lMax (code : Nat) : Nat := if code = 15 then 3 else if code = 16 || code = 18 then 7 else 15

/-- The bits of an L element below its sign. -/
def lBits (code : Nat) : Nat := if code = 15 then 2 else if code = 16 || code = 18 then 3 else 4

/-- An I8 value as an element of a packed format, a trit as 0, 1 or 2 (R94, R218). -/
def packElem (code : Nat) (x : Int) : Nat × Flags :=
  match code with
  | 12 | 13 =>
    let t := max (-1) (min 1 x)
    (if code = 12 then (t + 1).toNat else (if t = 0 then 0 else if t = 1 then 1 else 3), { sa := decide (t ≠ x) })
  | 14 => (b2n (decide (x < 0)), { nx := decide (x.natAbs ≠ 1) })
  | 15 | 16 | 17 =>
    if x = 0 then (0, Flags.none)
    else
      let p := bitLen x.natAbs
      let m := min p (lMax code)
      (b2n (decide (x < 0)) * 2 ^ lBits code + m, { nx := decide (2 ^ (p - 1) ≠ x.natAbs), sa := decide (lMax code < p) })
  | _ =>
    let n := if code = 3 then 6 else if code = 6 then 2 else 4
    let c := if code = 5 then max 0 (min 15 x) else satS x n
    ((wrap n c).toNat, { sa := decide (c ≠ x) })

/-- The value of an element of a packed format read as a whole number, a trit as 0, 1 or 2 (R84, R85). -/
def elemInt (code x : Nat) : Int :=
  match code with
  | 12 => (x : Int) - 1
  | 13 => match x % 4 with
    | 1 => 1
    | 3 => -1
    | _ => 0
  | 14 => if x % 2 = 0 then 1 else -1
  | 15 | 16 | 17 | 18 | 19 =>
    let m := x % 2 ^ lBits code
    if m = 0 then 0 else if x / 2 ^ lBits code % 2 = 1 then -(2 ^ (m - 1)) else 2 ^ (m - 1)
  | 3 | 8 => sextN x 6
  | 4 | 9 | 11 => sextN x 4
  | 5 => (x % 16 : Nat)
  | 6 => sextN x 2
  | 1 => (x % 256 : Nat)
  | 2 => sextN x 16
  | _ => sextN x 8

/-- A T2 code without a value (R84). -/
def badT2 (code x : Nat) : Bool := code = 13 && x % 4 = 2

/-! ## Register images and rows (R82, R217) -/

/-- Bits of an element in an image; T5 has its own layout. -/
def elemBits (code : Nat) : Nat :=
  match code with
  | 2 => 16
  | 3 | 8 => 6
  | 4 | 5 | 9 | 11 | 16 | 18 => 4
  | 6 | 13 => 2
  | 14 => 1
  | 15 => 3
  | 17 | 19 => 5
  | _ => 8

/-- Bit position of an element: L3 and L5 elements fill the low bits of each dword (R82). -/
def elemPos (code n : Nat) : Nat :=
  match code with
  | 15 => n / 21 * 64 + 3 * (n % 21)
  | 17 | 19 => n / 12 * 64 + 5 * (n % 12)
  | _ => elemBits code * n

/-- Elements of a register image (R217). -/
def imageCap (code : Nat) : Nat :=
  match code with
  | 3 | 8 => 80
  | 4 | 5 | 9 | 11 | 16 | 18 => 128
  | 6 | 13 => 256
  | 14 => 512
  | 15 => 168
  | 17 | 19 => 96
  | 12 => 320
  | _ => 64

/-- Trit `i` of a T5 byte as 0, 1 or 2; a byte of 243 or more reads as zero trits (R85). -/
def t5Digit (byte i : Nat) : Nat := if byte < 243 then byte / 3 ^ i % 3 else 1

/-- An element of an image or row held as one number. -/
def elemGet (code x n : Nat) : Nat :=
  if code = 12 then t5Digit (x / 2 ^ (8 * (n / 5)) % 256) (n % 5)
  else x / 2 ^ elemPos code n % 2 ^ elemBits code

/-- The image with an element replaced, T5 apart. -/
def imageSet (code : Nat) (v : VReg) (n x : Nat) : VReg := setFld v (elemPos code n) (elemBits code) x

/-- A T5 byte with the trits a test names replaced, and IV when an invalid byte keeps others (R218). -/
def t5Byte (old : Nat) (new : Nat → Option Nat) : Nat × Bool :=
  let d (i : Nat) : Nat := (new i).getD (t5Digit old i)
  if (List.range 5).any (fun i => (new i).isSome) then
    (d 0 + 3 * d 1 + 9 * d 2 + 27 * d 3 + 81 * d 4, decide (243 ≤ old) && (List.range 5).any (fun i => (new i).isNone))
  else (old, false)

/-! ## Block quantisation (R96, R219 to R221) -/

/-- A scaled destination of the quantisation instructions. -/
def isScaledDest (code : Nat) : Bool := (7 ≤ code && code ≤ 11) || code = 18 || code = 19

/-- A power-of-two-less element format (ML4, ML5). -/
def isMl (code : Nat) : Bool := code = 18 || code = 19

/-- The fraction shift F of R96. -/
def fracShift (code : Nat) : Int := if code = 7 then 6 else if code = 8 then 4 else if code = 9 then 2 else 0

/-- The exponent of the leading bit of a value that is not zero. -/
def Num.top : Num → Option Int
  | .fin _ m e _ => if m = 0 then none else some (e + (bitLen m : Int) - 1)
  | _ => none

/-- The largest magnitude of a block of finite values. -/
def maxMag : List Num → Num
  | [] => .fin false 0 0 false
  | .fin _ m e r :: l => let x := maxMag l; if x.lt (.fin false m e r) then .fin false m e r else x
  | _ :: l => maxMag l

/-- A NaN or an infinity stands in a block. -/
def unquantisable (l : List Num) : Bool := l.any (fun v => match v with | .fin _ _ _ _ => false | _ => true)

/-- The scale byte computed for a block, and OF when its exponent is clamped from above (R96, R220). -/
def blockScale (code : Nat) (l : List Num) : Nat × Flags :=
  let a := maxMag l
  match a.top with
  | none => (0x7F, Flags.none)
  | some t =>
    let n := elemBits code
    let k : Int :=
      if isMl code then t - ((if code = 18 then 7 else 15) - 1)
      else if code = 10 || code = 11 then
        let k := t - (n - 2 : Nat)
        if (Num.fin false (2 ^ (n - 1) - 1) k false).lt a then k + 1 else k
      else t
    let c := max (-127) (min 127 k)
    ((c + 127).toNat, { of_ := decide (127 < k) })

/-- One element under a scale 2^xe: its code and flags (R96). -/
def quantElem (code : Nat) (mode : RMode) (u : Word) (xe : Int) : Num → Nat × Flags
  | .fin neg m e more =>
    let n := elemBits code
    let (q, inexact) := roundTo mode neg m (e + fracShift code - xe) 0 more u
    let v : Int := if neg then -(q : Int) else q
    let c := max (-(2 ^ (n - 1) - 1)) (min (2 ^ (n - 1) - 1) v)
    ((wrap n c).toNat, { nx := inexact, sa := decide (c ≠ v) })
  | _ => (0, Flags.none)

/-- One ML element under a scale 2^xe (R220): the magnitude exponent is chosen in the unbounded set, then limited. NX is raised whenever the element's
value differs from x, a clamp of an exact power included (R92, R220). (DEDUCED, notes/assumptions/75.md.) -/
def quantMl (code : Nat) (mode : RMode) (u : Word) (xe : Int) : Num → Nat × Flags
  | .fin neg m e _ =>
    if m = 0 then (0, Flags.none)
    else
      let g := e - xe
      let top : Int := g + bitLen m - 1
      -- the neighbours below and above as magnitude exponents, and the discarded fraction f / 2^d between them
      let lo : Nat := if top < 0 then 0 else top.toNat + 1
      let d : Nat := if top < 0 then (-g).toNat else bitLen m - 1
      let f : Nat := if top < 0 then m else m - 2 ^ (bitLen m - 1)
      let up : Bool := match mode with
        | .rtz => false
        | .rdn => neg && f ≠ 0
        | .rup => !neg && f ≠ 0
        | .rne | .rna => decide (f ≠ 0 ∧ 2 ^ d ≤ 2 * f)
        | .sr => roundsUp .sr false 0 f d false u
      let p := lo + b2n up
      let mx := lMax code
      let r := min p mx
      let bits := if r = 0 then 0 else b2n neg * 2 ^ lBits code + r
      let value : Num := if r = 0 then .fin neg 0 0 false else .fin neg 1 (xe + r - 1) false
      (bits, { sa := decide (mx < p), nx := !value.eqv (.fin neg m e false) })
  | _ => (0, Flags.none)

/-- Quantises a block: the scale byte in use, the element codes, and the flags (R96, R220). A supplied scale is used as it stands. -/
def quantBlock (code : Nat) (mode : RMode) (word : Nat → Word) (supplied : Option Nat) (l : List Num) : Nat × List Nat × Flags :=
  if unquantisable l || supplied = some 0xFF then (0xFF, l.map (fun _ => 0), { nv := true })
  else
    let (sc, fl) := match supplied with
      | some x => (x, Flags.none)
      | none => blockScale code l
    let xe : Int := (sc : Int) - 127
    let r := ((List.range l.length).zip l).map (fun (i, v) =>
      if isMl code then quantMl code mode (word i) xe v else quantElem code mode (word i) xe v)
    (sc, r.map Prod.fst, (r.map Prod.snd).foldl Flags.or fl)

/-- The exact value of a scaled element (R81, R221). -/
def scaledValue (code x : Nat) (scale : Nat) : Num :=
  if scale = 0xFF then .nan true
  else match Num.ofInt (elemInt code x) with
    | .fin n m _ r => .fin n m (-(fracShift code) + ((scale : Int) - 127)) r
    | v => v

/-- The part of a `vcvt` is beyond the range of a legal pair (R123, R216); an illegal pair takes R95's trap whatever the part.
(DESIGN CHOICE, notes/assumptions/91.md.) -/
def partBad (a b part : Nat) : Bool :=
  match laneFmtWidth a, laneFmtWidth b, fclass a, fclass b with
  | some ws, some wd, some ca, some cb => convertible ca cb && decide (max ws wd / min ws wd ≤ part)
  | _, _, _, _ => false

/-- The formats packing reaches (R218). -/
def packable (code : Nat) : Bool := (3 ≤ code && code ≤ 6) || (12 ≤ code && code ≤ 17)

/-- Part `part` of an image of a packed format lies beyond its capacity (R123, R218). -/
def packBeyond (code part : Nat) : Bool := packable code && decide (imageCap code ≤ 64 * part)

/-- A floating format of quantisation (R219). -/
def quantFloat (code : Nat) : Option FFmt :=
  match code with
  | 20 => some bf16
  | 21 => some fp16
  | 22 => some fp32
  | _ => none

/-- A floating and a block format that quantisation pairs (R219). -/
def quantPair (fl sc : Nat) : Bool := (quantFloat fl).isSome && isScaledDest sc

/-- Slot `p` lies beyond the image of a legal pair, or its floating registers are no pair of registers (R123, R219, R221); an
illegal pair takes R95's trap whatever the slot. (DESIGN CHOICE, notes/assumptions/91.md.) -/
def quantBeyond (fl sc : Nat) (wide : Reg) (p : Nat) : Bool :=
  quantPair fl sc && (decide (imageCap sc ≤ 32 * p + 31) || (fl = 22 && wide = 31))

end Sys2Proof.Machine
end

