-- ==== Sys2Proof/Machine/Draw.lean ====
section
/-! DEFINITION. The draw function and draw consumption (R103 to R107). -/

namespace Sys2Proof.Machine

/-- 32-bit rotate left (R4). -/
def rotl32 (x : Word) (n : Nat) : Word := x.rotateLeft n

/-- Word j of a key. -/
def keyWord (k : BitVec 128) (j : Nat) : Word := fld k (32 * (j % 4)) 32

/-- The four words of the draw state. -/
abbrev Quad := Word × Word × Word × Word

/-- inject(s) (R103). -/
def inject (k : BitVec 128) (s : Nat) (x : Quad) : Quad :=
  (x.1 + keyWord k s, x.2.1 + keyWord k (1 + s), x.2.2.1 + keyWord k (2 + s), x.2.2.2 + keyWord k (3 + s) + BitVec.ofNat 32 s)

/-- One round with its two rotations (R103). -/
def drawRound (a b : Nat) (x : Quad) : Quad :=
  let x0 := x.1 + x.2.1
  let x3 := rotl32 (x.2.2.2 ^^^ x0) a
  let x2 := x.2.2.1 + x3
  let x1 := rotl32 (x.2.1 ^^^ x2) b
  (x0, x3, x2, x1)

/-- Four rounds (R103). -/
def fourRounds (x : Quad) : Quad := drawRound 7 5 (drawRound 8 24 (drawRound 12 19 (drawRound 16 11 x)))

/-- draw(K, I, C) (R103). -/
def draw (k : BitVec 128) (i c : Dword) : BitVec 128 :=
  let x : Quad := (fld c 0 32, fld c 32 32, fld i 0 32, fld i 32 32)
  let x := inject k 1 (fourRounds (inject k 0 x))
  let x := inject k 3 (fourRounds (inject k 2 (fourRounds x)))
  BitVec.ofNat 128 (x.1.toNat + x.2.1.toNat * 2 ^ 32 + x.2.2.1.toNat * 2 ^ 64 + x.2.2.2.toNat * 2 ^ 96)

/-- K = DKEY1 ∥ DKEY0 (R103). -/
def Thread.key (t : Thread) : BitVec 128 := BitVec.ofNat 128 (t.dkey1.toNat * 2 ^ 64 + t.dkey0.toNat)

/-- The random word of element `e` from a base counter: word e mod 4 of draw e div 4 (R107). -/
def randomWord (k : BitVec 128) (i c : Dword) (e : Nat) : Word :=
  fld (draw k i (c + BitVec.ofNat 64 (e / 4))) (32 * (e % 4)) 32

/-- A thread's word for element `e` of the instruction at hand. -/
def Thread.word (t : Thread) (e : Nat) : Word := randomWord t.key t.did t.dctr e

/-- Consumes `n` draws; DW when the counter wraps (R92, R105). -/
def Thread.consume (t : Thread) (n : Nat) : Thread :=
  ({ t with dctr := t.dctr + BitVec.ofNat 64 n }).raise { dw := decide (2 ^ 64 ≤ t.dctr.toNat + n) }

end Sys2Proof.Machine
end

