-- ==== Sys2Proof/Machine/Scalar.lean ====
section
/-! DEFINITION. The scalar majors IR, II, IM, IB, CMP and LI (R138 to R146). -/

namespace Sys2Proof.Machine

/-- The word form writes its result's low 32 bits, sign-extended (R139). -/
def sized (w : BitVec 1) (x : Dword) : Dword := if w = 1 then (x.setWidth 32).signExtend 64 else x

/-- One when the condition holds (R146). -/
def truth (c : Bool) : Dword := if c then 1 else 0

/-- Signed quotient rounded toward zero; all ones for a divisor of 0 (R143). -/
def divSigned {n : Nat} (a b : BitVec n) : BitVec n := if b = 0 then BitVec.allOnes n else wrap n (Int.tdiv a.toInt b.toInt)

/-- Unsigned quotient; all ones for a divisor of 0 (R143). -/
def divUnsigned {n : Nat} (a b : BitVec n) : BitVec n := if b = 0 then BitVec.allOnes n else BitVec.ofNat n (a.toNat / b.toNat)

/-- Remainder with the sign of a; a for a divisor of 0 (R143). -/
def remSigned {n : Nat} (a b : BitVec n) : BitVec n := if b = 0 then a else wrap n (Int.tmod a.toInt b.toInt)

/-- Unsigned remainder; a for a divisor of 0 (R143). -/
def remUnsigned {n : Nat} (a b : BitVec n) : BitVec n := if b = 0 then a else BitVec.ofNat n (a.toNat % b.toNat)

/-- Set bits among the low `n`. -/
def popCount : Nat → Nat → Nat
  | 0, _ => 0
  | n + 1, x => x % 2 + popCount n (x / 2)

/-- Zero bits below the lowest set bit among the low `n`. -/
def trailingZeros : Nat → Nat → Nat
  | 0, _ => 0
  | n + 1, x => if x % 2 = 1 then 0 else 1 + trailingZeros n (x / 2)

/-- Zero bits above the highest set bit of an n-bit number. -/
def leadingZeros : Nat → Nat → Nat
  | 0, _ => 0
  | n + 1, x => if x / 2 ^ n % 2 = 1 then 0 else 1 + leadingZeros n x

/-- Position of a field (R145). -/
def fieldPos (b : Dword) : Nat := b.toNat % 64

/-- Width of a field, cut at bit 63 (R145). -/
def fieldWidth (b : Dword) : Nat := min (min (b.toNat / 2 ^ 8 % 128) 64) (64 - fieldPos b)

/-- An instruction of format XI or LI, which consumes a pending EXT (R115, R116). -/
def State.aluExt (s : State) (srcs : List Reg) (d : Reg) (f : List Dword → Dword) : State :=
  match s.operands srcs [d] with
  | .error e => s.stall e
  | .ok (xs, s1) =>
    match s1.writeReg d (f xs) with
    | .error e => s.stall e
    | .ok s2 => s2.consumeExt.retire

/-- `add` (R140). -/
def execAdd (o : OpRrW) (s : State) : Out := .next (s.alu2 o.d o.a o.b (fun a b => sized o.w (a + b)))

/-- `sub` (R140). -/
def execSub (o : OpRrW) (s : State) : Out := .next (s.alu2 o.d o.a o.b (fun a b => sized o.w (a - b)))

/-- `and` (R140). -/
def execAndR (o : OpRr) (s : State) : Out := .next (s.alu2 o.d o.a o.b (fun a b => a &&& b))

/-- `or` (R140). -/
def execOrR (o : OpRr) (s : State) : Out := .next (s.alu2 o.d o.a o.b (fun a b => a ||| b))

/-- `xor` (R140). -/
def execXorR (o : OpRr) (s : State) : Out := .next (s.alu2 o.d o.a o.b (fun a b => a ^^^ b))

/-- `andn` (R140). -/
def execAndn (o : OpRr) (s : State) : Out := .next (s.alu2 o.d o.a o.b (fun a b => a &&& ~~~b))

/-- `orn` (R140). -/
def execOrn (o : OpRr) (s : State) : Out := .next (s.alu2 o.d o.a o.b (fun a b => a ||| ~~~b))

/-- `min` (R140). -/
def execMinR (o : OpRr) (s : State) : Out := .next (s.alu2 o.d o.a o.b (fun a b => if b.toInt < a.toInt then b else a))

/-- `max` (R140). -/
def execMaxR (o : OpRr) (s : State) : Out := .next (s.alu2 o.d o.a o.b (fun a b => if a.toInt < b.toInt then b else a))

/-- `minu` (R140). -/
def execMinu (o : OpRr) (s : State) : Out := .next (s.alu2 o.d o.a o.b (fun a b => if b.toNat < a.toNat then b else a))

/-- `maxu` (R140). -/
def execMaxu (o : OpRr) (s : State) : Out := .next (s.alu2 o.d o.a o.b (fun a b => if a.toNat < b.toNat then b else a))

/-- `adds`: clamped, SA when clamped (R140). -/
def execAdds (o : OpRr) (s : State) : Out := .next (s.aluFlags o.d o.a o.b (fun a b => saturate ((a.toInt : Int) + (b.toInt : Int)) (satS ((a.toInt : Int) + (b.toInt : Int)) 64)))

/-- `subs`: clamped, SA when clamped (R140). -/
def execSubs (o : OpRr) (s : State) : Out := .next (s.aluFlags o.d o.a o.b (fun a b => saturate ((a.toInt : Int) - (b.toInt : Int)) (satS ((a.toInt : Int) - (b.toInt : Int)) 64)))

/-- `addus`: clamped, SA when clamped (R140). -/
def execAddus (o : OpRr) (s : State) : Out := .next (s.aluFlags o.d o.a o.b (fun a b => saturate ((a.toNat : Int) + (b.toNat : Int)) (satU ((a.toNat : Int) + (b.toNat : Int)) 64)))

/-- `subus`: clamped, SA when clamped (R140). -/
def execSubus (o : OpRr) (s : State) : Out := .next (s.aluFlags o.d o.a o.b (fun a b => saturate ((a.toNat : Int) - (b.toNat : Int)) (satU ((a.toNat : Int) - (b.toNat : Int)) 64)))

/-- `sll` (R140). -/
def execSll (o : OpRrW) (s : State) : Out := .next (s.alu2 o.d o.a o.b (fun a b => if o.w = 1 then sized 1 (a <<< (b.toNat % 32)) else a <<< (b.toNat % 64)))

/-- `srl` (R140). -/
def execSrl (o : OpRrW) (s : State) : Out := .next (s.alu2 o.d o.a o.b (fun a b => if o.w = 1 then sized 1 (((a.setWidth 32) >>> (b.toNat % 32)).setWidth 64) else a >>> (b.toNat % 64)))

/-- `sra` (R140). -/
def execSra (o : OpRrW) (s : State) : Out := .next (s.alu2 o.d o.a o.b (fun a b => if o.w = 1 then sized 1 (((a.setWidth 32).sshiftRight (b.toNat % 32)).signExtend 64) else a.sshiftRight (b.toNat % 64)))

/-- `rol` (R140). -/
def execRol (o : OpRr) (s : State) : Out := .next (s.alu2 o.d o.a o.b (fun a b => a.rotateLeft (b.toNat % 64)))

/-- `ror` (R140). -/
def execRor (o : OpRr) (s : State) : Out := .next (s.alu2 o.d o.a o.b (fun a b => a.rotateRight (b.toNat % 64)))

/-- `slli` (R140). -/
def execSlli (o : OpShiftI) (s : State) : Out := .next (s.alu1 o.d o.a (fun a => a <<< o.n.toNat))

/-- `srli` (R140). -/
def execSrli (o : OpShiftI) (s : State) : Out := .next (s.alu1 o.d o.a (fun a => a >>> o.n.toNat))

/-- `srai` (R140). -/
def execSrai (o : OpShiftI) (s : State) : Out := .next (s.alu1 o.d o.a (fun a => a.sshiftRight o.n.toNat))

/-- `rori` (R140). -/
def execRori (o : OpShiftI) (s : State) : Out := .next (s.alu1 o.d o.a (fun a => a.rotateRight o.n.toNat))

/-- `addi`: the 16-bit immediate, widened by a pending EXT, which the instruction consumes (R116, R141). -/
def execAddi (o : OpAddI) (s : State) : Out :=
  .next (s.aluExt [o.a] o.d (fun xs => match xs with | [a] => a + wrap 64 (s.me.immediate o.imm) | _ => 0))

/-- `li` (R116, R142). -/
def execLi (o : OpLiI) (s : State) : Out :=
  .next (s.aluExt [] o.d (fun _ => wrap 64 (s.me.immediate o.imm)))

/-- `mul` (R143). -/
def execMul (o : OpRrW) (s : State) : Out := .next (s.alu2 o.d o.a o.b (fun a b => sized o.w (a * b)))

/-- `mulh` (R143). -/
def execMulh (o : OpRr) (s : State) : Out := .next (s.alu2 o.d o.a o.b (fun a b => wrap 64 (Int.fdiv (a.toInt * b.toInt) (2 ^ 64))))

/-- `mulhu` (R143). -/
def execMulhu (o : OpRr) (s : State) : Out := .next (s.alu2 o.d o.a o.b (fun a b => BitVec.ofNat 64 (a.toNat * b.toNat / 2 ^ 64)))

/-- `mulhsu` (R143). -/
def execMulhsu (o : OpRr) (s : State) : Out := .next (s.alu2 o.d o.a o.b (fun a b => wrap 64 (Int.fdiv (a.toInt * (b.toNat : Int)) (2 ^ 64))))

/-- `div`, with the borderline cases fixed (R143). -/
def execDiv (o : OpRrW) (s : State) : Out := .next (s.alu2 o.d o.a o.b (fun a b => if o.w = 1 then sized 1 ((divSigned (a.setWidth 32) (b.setWidth 32)).setWidth 64) else divSigned a b))

/-- `divu`, with the borderline cases fixed (R143). -/
def execDivu (o : OpRrW) (s : State) : Out := .next (s.alu2 o.d o.a o.b (fun a b => if o.w = 1 then sized 1 ((divUnsigned (a.setWidth 32) (b.setWidth 32)).setWidth 64) else divUnsigned a b))

/-- `rem`, with the borderline cases fixed (R143). -/
def execRem (o : OpRrW) (s : State) : Out := .next (s.alu2 o.d o.a o.b (fun a b => if o.w = 1 then sized 1 ((remSigned (a.setWidth 32) (b.setWidth 32)).setWidth 64) else remSigned a b))

/-- `remu`, with the borderline cases fixed (R143). -/
def execRemu (o : OpRrW) (s : State) : Out := .next (s.alu2 o.d o.a o.b (fun a b => if o.w = 1 then sized 1 ((remUnsigned (a.setWidth 32) (b.setWidth 32)).setWidth 64) else remUnsigned a b))

/-- `clz` (R144). -/
def execClz (o : OpDA) (s : State) : Out := .next (s.alu1 o.d o.a (fun a => BitVec.ofNat 64 (leadingZeros 64 a.toNat)))

/-- `ctz` (R144). -/
def execCtz (o : OpDA) (s : State) : Out := .next (s.alu1 o.d o.a (fun a => BitVec.ofNat 64 (trailingZeros 64 a.toNat)))

/-- `popc` (R144). -/
def execPopc (o : OpDA) (s : State) : Out := .next (s.alu1 o.d o.a (fun a => BitVec.ofNat 64 (popCount 64 a.toNat)))

/-- `brev` (R144). -/
def execBrev (o : OpDA) (s : State) : Out := .next (s.alu1 o.d o.a (fun a => a.reverse))

/-- `bswap` (R144). -/
def execBswap (o : OpDA) (s : State) : Out := .next (s.alu1 o.d o.a (fun a => BitVec.ofNat 64 (packNats 8 (unpackNats 8 8 a.toNat).reverse)))

/-- `sxb` (R144). -/
def execSxb (o : OpDA) (s : State) : Out := .next (s.alu1 o.d o.a (fun a => (a.setWidth 8).signExtend 64))

/-- `sxh` (R144). -/
def execSxh (o : OpDA) (s : State) : Out := .next (s.alu1 o.d o.a (fun a => (a.setWidth 16).signExtend 64))

/-- `sxw` (R144). -/
def execSxw (o : OpDA) (s : State) : Out := .next (s.alu1 o.d o.a (fun a => (a.setWidth 32).signExtend 64))

/-- `zxb` (R144). -/
def execZxb (o : OpDA) (s : State) : Out := .next (s.alu1 o.d o.a (fun a => (a.setWidth 8).setWidth 64))

/-- `zxh` (R144). -/
def execZxh (o : OpDA) (s : State) : Out := .next (s.alu1 o.d o.a (fun a => (a.setWidth 16).setWidth 64))

/-- `zxw` (R144). -/
def execZxw (o : OpDA) (s : State) : Out := .next (s.alu1 o.d o.a (fun a => (a.setWidth 32).setWidth 64))

/-- `bfx`: signed field extract (R145). -/
def execBfx (o : OpRr) (s : State) : Out := .next (s.alu2 o.d o.a o.b (fun a b => let w := fieldWidth b; if w = 0 then 0 else wrap 64 (sextN (a.toNat / 2 ^ fieldPos b) w)))

/-- `bfxu`: unsigned field extract (R145). -/
def execBfxu (o : OpRr) (s : State) : Out := .next (s.alu2 o.d o.a o.b (fun a b => BitVec.ofNat 64 (a.toNat / 2 ^ fieldPos b % 2 ^ fieldWidth b)))

/-- `bfi`: field insert; d is read as a third source, after a and b (R145). -/
def execBfi (o : OpRr) (s : State) : Out := .next (s.alu3 o.d o.a o.b o.d (fun a b d => setFld d (fieldPos b) (fieldWidth b) a.toNat))

/-- `lea` (R144). -/
def execLea (o : OpLea) (s : State) : Out := .next (s.alu2 o.d o.a o.b (fun a b => a + b * BitVec.ofNat 64 (2 ^ o.sh.toNat)))

/-- `leal`: an address of the local window (R144). -/
def execLeal (o : OpLea) (s : State) : Out := .next (s.alu2 o.d o.a o.b (fun a b => BitVec.ofNat 64 (2 ^ 63 + (a + b * BitVec.ofNat 64 (2 ^ o.sh.toNat)).toNat % 2 ^ 63)))

/-- `seq` (R146). -/
def execSeq (o : OpRr) (s : State) : Out := .next (s.alu2 o.d o.a o.b (fun a b => truth (decide (a = b))))

/-- `sne` (R146). -/
def execSne (o : OpRr) (s : State) : Out := .next (s.alu2 o.d o.a o.b (fun a b => truth (decide (a ≠ b))))

/-- `slt` (R146). -/
def execSlt (o : OpRr) (s : State) : Out := .next (s.alu2 o.d o.a o.b (fun a b => truth (decide (a.toInt < b.toInt))))

/-- `sltu` (R146). -/
def execSltu (o : OpRr) (s : State) : Out := .next (s.alu2 o.d o.a o.b (fun a b => truth (decide (a.toNat < b.toNat))))

/-- `sle` (R146). -/
def execSle (o : OpRr) (s : State) : Out := .next (s.alu2 o.d o.a o.b (fun a b => truth (decide (a.toInt ≤ b.toInt))))

/-- `sleu` (R146). -/
def execSleu (o : OpRr) (s : State) : Out := .next (s.alu2 o.d o.a o.b (fun a b => truth (decide (a.toNat ≤ b.toNat))))

/-- `seqi`: the immediate is ty, sign-extended (R146). -/
def execSeqi (o : OpCmpI) (s : State) : Out := .next (let i : Dword := o.imm.signExtend 64; s.alu1 o.d o.a (fun a => truth (decide (a = i))))

/-- `snei`: the immediate is ty, sign-extended (R146). -/
def execSnei (o : OpCmpI) (s : State) : Out := .next (let i : Dword := o.imm.signExtend 64; s.alu1 o.d o.a (fun a => truth (decide (a ≠ i))))

/-- `slti`: the immediate is ty, sign-extended (R146). -/
def execSlti (o : OpCmpI) (s : State) : Out := .next (let i : Dword := o.imm.signExtend 64; s.alu1 o.d o.a (fun a => truth (decide (a.toInt < i.toInt))))

/-- `sltui`: the immediate is ty, sign-extended (R146). -/
def execSltui (o : OpCmpI) (s : State) : Out := .next (let i : Dword := o.imm.signExtend 64; s.alu1 o.d o.a (fun a => truth (decide (a.toNat < i.toNat))))

/-- `slei`: the immediate is ty, sign-extended (R146). -/
def execSlei (o : OpCmpI) (s : State) : Out := .next (let i : Dword := o.imm.signExtend 64; s.alu1 o.d o.a (fun a => truth (decide (a.toInt ≤ i.toInt))))

/-- `sleui`: the immediate is ty, sign-extended (R146). -/
def execSleui (o : OpCmpI) (s : State) : Out := .next (let i : Dword := o.imm.signExtend 64; s.alu1 o.d o.a (fun a => truth (decide (a.toNat ≤ i.toNat))))

/-- `sgti`: the immediate is ty, sign-extended (R146). -/
def execSgti (o : OpCmpI) (s : State) : Out := .next (let i : Dword := o.imm.signExtend 64; s.alu1 o.d o.a (fun a => truth (decide (i.toInt < a.toInt))))

/-- `sgtui`: the immediate is ty, sign-extended (R146). -/
def execSgtui (o : OpCmpI) (s : State) : Out := .next (let i : Dword := o.imm.signExtend 64; s.alu1 o.d o.a (fun a => truth (decide (i.toNat < a.toNat))))

/-- `sel`: all three operands are read (R146). -/
def execSel (o : OpR4) (s : State) : Out := .next (s.alu3 o.d o.a o.b o.c (fun a b c => if c ≠ 0 then a else b))

end Sys2Proof.Machine
end

