-- ==== Sys2Proof/Machine/Moves.lean ====
section
/-! DEFINITION. Major XMV: moves between register files and mask operations (R147, R148). -/

namespace Sys2Proof.Machine

/-- A scalar result from a lane of a vector register. -/
def State.fromVec (s : State) (d a : Reg) (f : VReg → Dword) : State :=
  match s.operandsV [] [d] [a] with
  | .error e => s.stall e
  | .ok (_, s1) =>
    match s1.writeReg d (f (s1.me.getV a)) with
    | .error e => s.stall e
    | .ok s2 => s2.retire

/-- A vector result from a scalar source and the vector register it replaces. -/
def State.toVec (s : State) (d a : Reg) (f : Dword → VReg → VReg) : State :=
  match s.operandsV [a] [] [d] with
  | .error e => s.stall e
  | .ok (xs, s1) => (s1.setMe (s1.me.setV d (f (xs.getD 0 0) (s1.me.getV d)))).retire

/-- A scalar result from a mask register. -/
def State.fromMask (s : State) (d a : Reg) (f : Dword → Dword) : State :=
  match s.operands [] [d] with
  | .error e => s.stall e
  | .ok (_, s1) =>
    match s1.writeReg d (f (s1.me.getK (a.setWidth 3))) with
    | .error e => s.stall e
    | .ok s2 => s2.retire

/-- A mask result from two mask registers. -/
def State.maskOp (s : State) (d a b : Reg) (f : Dword → Dword → Dword) : State :=
  (s.setMe (s.me.setK (d.setWidth 3) (f (s.me.getK (a.setWidth 3)) (s.me.getK (b.setWidth 3))))).retire

/-- Lane `i` of width `w` bits (R148). -/
def lane (w : Nat) (x : VReg) (i : Nat) : BitVec w := fld x (w * i) w

/-- Every lane of width `w` set to the low bits of a dword. -/
def broadcast (w n : Nat) (a : Dword) : VReg := BitVec.ofNat 512 (packNats w (List.replicate n a.toNat))

/-- `movvs.d` (R148). -/
def execMovvsD (o : OpLane) (s : State) : Out := .next (s.fromVec o.d o.a (fun v => lane 64 v o.lane.toNat))

/-- `movvs.w` (R148). -/
def execMovvsW (o : OpLane) (s : State) : Out := .next (s.fromVec o.d o.a (fun v => (lane 32 v o.lane.toNat).setWidth 64))

/-- `movsv.d`: the other lanes are unchanged (R148). -/
def execMovsvD (o : OpLane) (s : State) : Out := .next (s.toVec o.d o.a (fun a v => setFld v (64 * o.lane.toNat) 64 a.toNat))

/-- `movsv.w`: the other lanes are unchanged (R148). -/
def execMovsvW (o : OpLane) (s : State) : Out := .next (s.toVec o.d o.a (fun a v => setFld v (32 * o.lane.toNat) 32 a.toNat))

/-- `vbcast.d` (R148). -/
def execVbcastD (o : OpDA) (s : State) : Out := .next (s.toVec o.d o.a (fun a _ => broadcast 64 8 a))

/-- `vbcast.w` (R148). -/
def execVbcastW (o : OpDA) (s : State) : Out := .next (s.toVec o.d o.a (fun a _ => broadcast 32 16 a))

/-- `vbcast.h` (R148). -/
def execVbcastH (o : OpDA) (s : State) : Out := .next (s.toVec o.d o.a (fun a _ => broadcast 16 32 a))

/-- `vbcast.b` (R148). -/
def execVbcastB (o : OpDA) (s : State) : Out := .next (s.toVec o.d o.a (fun a _ => broadcast 8 64 a))

/-- `mvgk` (R148). -/
def execMvgk (o : OpDA) (s : State) : Out :=
  .next (match s.operands [o.a] [] with
    | .error e => s.stall e
    | .ok (xs, s1) => (s1.setMe (s1.me.setK (o.d.setWidth 3) (xs.getD 0 0))).retire)

/-- `mvkg` (R148). -/
def execMvkg (o : OpDA) (s : State) : Out := .next (s.fromMask o.d o.a (fun k => k))

/-- `kand` (R148). -/
def execKand (o : OpRr) (s : State) : Out := .next (s.maskOp o.d o.a o.b (fun a b => a &&& b))

/-- `kor` (R148). -/
def execKor (o : OpRr) (s : State) : Out := .next (s.maskOp o.d o.a o.b (fun a b => a ||| b))

/-- `kxor` (R148). -/
def execKxor (o : OpRr) (s : State) : Out := .next (s.maskOp o.d o.a o.b (fun a b => a ^^^ b))

/-- `kandn` (R148). -/
def execKandn (o : OpRr) (s : State) : Out := .next (s.maskOp o.d o.a o.b (fun a b => a &&& ~~~b))

/-- `knot` (R148). -/
def execKnot (o : OpDA) (s : State) : Out := .next (s.maskOp o.d o.a o.a (fun a _ => ~~~a))

/-- `kpop` (R148). -/
def execKpop (o : OpDA) (s : State) : Out := .next (s.fromMask o.d o.a (fun k => BitVec.ofNat 64 (popCount 64 k.toNat)))

/-- `kfirst`: 64 when no bit is set (R148). -/
def execKfirst (o : OpDA) (s : State) : Out := .next (s.fromMask o.d o.a (fun k => BitVec.ofNat 64 (trailingZeros 64 k.toNat)))

end Sys2Proof.Machine
end

