-- ==== Sys2Proof/Machine/Vector.lean ====
section
/-! DEFINITION. Lanes, masks, formats and modes of the vector majors (R199, R200, R202). -/

namespace Sys2Proof.Machine

/-- Lane `i` of width `w` bits, as a number. -/
def laneN (w : Nat) (x : VReg) (i : Nat) : Nat := x.toNat / 2 ^ (w * i) % 2 ^ w

/-- Lane width in bits (R200). -/
def laneBits (w : BitVec 2) : Nat := 8 * 2 ^ w.toNat

/-- Lanes of a register (R200). -/
def laneCount (w : BitVec 2) : Nat := 512 / laneBits w

/-- A lane is active: no mask, or its bit of the named mask is set (R200). -/
def Thread.active (t : Thread) (k : KReg) (i : Nat) : Bool := k = 0 || (t.getK k).getLsbD i

/-- Computes each active lane; an inactive lane keeps its value and raises no flag (R200). -/
def mapLanes (w n : Nat) (active : Nat → Bool) (old : VReg) (f : Nat → Nat × Flags) : VReg × Flags :=
  let r := (List.range n).map (fun i => if active i then f i else (laneN w old i, Flags.none))
  (BitVec.ofNat 512 (packNats w (r.map Prod.fst)), (r.map Prod.snd).foldl Flags.or Flags.none)

/-- The instruction on vector registers that are not pending: it consumes a pending FMT and completes (R117, R199). -/
def State.vector (s : State) (vs : List Reg) (f : Thread → Thread) : State :=
  match s.operandsV [] [] vs with
  | .error e => s.stall e
  | .ok (_, s1) => ((s1.setMe (f s1.me)).consumeFmt).retire

/-- As `vector`, for an entry whose encoding checks may trap first (R124). -/
def State.vectorChecked (s : State) (stop : Option Stop) (vs : List Reg) (f : Thread → Thread) : State :=
  match stop with
  | some r => s.stopAtIssue r
  | none => s.vector vs f

/-- The illegal-instruction trap of the word (R123). -/
def State.illegalStop (s : State) : Stop := .trap 1 s.majorVal s.wordVal

/-- The illegal-instruction trap of a format code or rounding code (R81, R89). -/
def State.codeStop (s : State) (code : Nat) : Stop := .trap 1 s.majorVal (BitVec.ofNat 64 code)

/-- A reserved format code (R81). (DEDUCED, notes/assumptions/42.md.) -/
def State.fmtCodeStop (s : State) (c : Option (BitVec 5)) : Option Stop :=
  match c with
  | some x => if 29 ≤ x.toNat then some (s.codeStop x.toNat) else none
  | none => none

/-- A reserved rounding code (R89). -/
def State.rmStop (s : State) (c : Option (BitVec 3)) : Option Stop :=
  if c = some 6 then some (s.codeStop 6) else none

/-- The mode in force: the FMT's when given, otherwise ST.RM (R117, R202). -/
def Thread.vmode (t : Thread) : RMode :=
  match t.fmt.rm with
  | some c => t.mode c
  | none => t.stMode

/-- The element format of a floating entry (R202). -/
def Thread.ffmt (t : Thread) (w : BitVec 2) : Option FFmt :=
  match w.toNat, t.fmt.fa.map (·.toNat) with
  | 2, none => some fp32
  | 2, some 22 => some fp32
  | 1, none => some bf16
  | 1, some 20 => some bf16
  | 1, some 21 => some fp16
  | _, _ => none

/-- The checks of a floating entry: its width, the codes, and then the format that R202 allows its width (R81, R89, R124, R202).
(DEDUCED, notes/assumptions/42.md.) -/
def State.floatStop (s : State) (w : BitVec 2) : Option Stop :=
  if w ≠ 1 && w ≠ 2 then some s.illegalStop
  else (s.fmtCodeStop s.me.fmt.fa).orElse fun _ =>
    (s.rmStop s.me.fmt.rm).orElse fun _ => if (s.me.ffmt w).isNone then some s.illegalStop else none

/-- Draws of `n` rounded results under a mode (R106). -/
def drawsOf (mode : RMode) (n : Nat) : Nat := if mode = .sr then (n + 3) / 4 else 0

end Sys2Proof.Machine
end

