-- ==== Sys2Proof/Machine/VectorInt.lean ====
section
/-! DEFINITION. Major VI: integer lanes (R203, R204). -/

namespace Sys2Proof.Machine

/-- A lane-wise integer instruction: result and saturation of each active lane from the two lanes as numbers (R203). -/
def State.viLanes (s : State) (o : OpVv) (f : Nat → Nat → Nat → Int × Bool) : State :=
  let w := laneBits o.w
  s.vector [o.a, o.b, o.d] (fun t =>
    let (x, fl) := mapLanes w (laneCount o.w) (t.active o.k) (t.getV o.d) (fun i =>
      let (r, sat) := f w (laneN w (t.getV o.a) i) (laneN w (t.getV o.b) i)
      ((wrap w r).toNat, { sa := sat }))
    (t.setV o.d x).raise fl)

/-- The mask of the active lanes for which a condition holds (R204). -/
def maskOf (n : Nat) (p : Nat → Bool) : Dword := BitVec.ofNat 64 (packNats 1 ((List.range n).map (fun i => b2n (p i))))

/-- A lane compare into a mask (R204). -/
def State.viCompare (s : State) (o : OpVv) (p : Nat → Nat → Nat → Bool) : State :=
  let w := laneBits o.w
  s.vector [o.a, o.b] (fun t =>
    t.setK (o.d.setWidth 3) (maskOf (laneCount o.w) (fun i =>
      t.active o.k i && p w (laneN w (t.getV o.a) i) (laneN w (t.getV o.b) i))))

/-- A clamped result and whether clamping changed it. -/
def clamped (exact bound : Int) : Int × Bool := (bound, decide (exact ≠ bound))

/-- `vadd` (R203). -/
def execVadd (o : OpVv) (s : State) : Out := .next (s.viLanes o (fun _ x y => (x + y, false)))

/-- `vsub` (R203). -/
def execVsub (o : OpVv) (s : State) : Out := .next (s.viLanes o (fun _ x y => ((x : Int) - y, false)))

/-- `vadds`: SA when a lane saturates (R203). -/
def execVadds (o : OpVv) (s : State) : Out := .next (s.viLanes o (fun w x y => let e : Int := sextN x w + sextN y w; clamped e (satS e w)))

/-- `vsubs`: SA when a lane saturates (R203). -/
def execVsubs (o : OpVv) (s : State) : Out := .next (s.viLanes o (fun w x y => let e : Int := sextN x w - sextN y w; clamped e (satS e w)))

/-- `vaddus`: SA when a lane saturates (R203). -/
def execVaddus (o : OpVv) (s : State) : Out := .next (s.viLanes o (fun w x y => let e : Int := (x : Int) + y; clamped e (satU e w)))

/-- `vsubus`: SA when a lane saturates (R203). -/
def execVsubus (o : OpVv) (s : State) : Out := .next (s.viLanes o (fun w x y => let e : Int := (x : Int) - y; clamped e (satU e w)))

/-- `vmul` (R203). -/
def execVmul (o : OpVv) (s : State) : Out := .next (s.viLanes o (fun _ x y => (x * y, false)))

/-- `vmulh` (R203). -/
def execVmulh (o : OpVv) (s : State) : Out := .next (s.viLanes o (fun w x y => (Int.fdiv (sextN x w * sextN y w) (2 ^ w), false)))

/-- `vmulhu` (R203). -/
def execVmulhu (o : OpVv) (s : State) : Out := .next (s.viLanes o (fun w x y => (x * y / 2 ^ w, false)))

/-- `vmin` (R203). -/
def execVmin (o : OpVv) (s : State) : Out := .next (s.viLanes o (fun w x y => (min (sextN x w) (sextN y w), false)))

/-- `vmax` (R203). -/
def execVmax (o : OpVv) (s : State) : Out := .next (s.viLanes o (fun w x y => (max (sextN x w) (sextN y w), false)))

/-- `vminu` (R203). -/
def execVminu (o : OpVv) (s : State) : Out := .next (s.viLanes o (fun _ x y => ((min x y : Nat), false)))

/-- `vmaxu` (R203). -/
def execVmaxu (o : OpVv) (s : State) : Out := .next (s.viLanes o (fun _ x y => ((max x y : Nat), false)))

/-- `vand` (R203). -/
def execVand (o : OpVv) (s : State) : Out := .next (s.viLanes o (fun _ x y => (Nat.land x y, false)))

/-- `vor` (R203). -/
def execVor (o : OpVv) (s : State) : Out := .next (s.viLanes o (fun _ x y => (Nat.lor x y, false)))

/-- `vxor` (R203). -/
def execVxor (o : OpVv) (s : State) : Out := .next (s.viLanes o (fun _ x y => (Nat.xor x y, false)))

/-- `vandn` (R203). -/
def execVandn (o : OpVv) (s : State) : Out := .next (s.viLanes o (fun w x y => (Nat.land x (2 ^ w - 1 - y), false)))

/-- `vsll` (R203). -/
def execVsll (o : OpVv) (s : State) : Out := .next (s.viLanes o (fun w x y => (x * 2 ^ (y % w), false)))

/-- `vsrl` (R203). -/
def execVsrl (o : OpVv) (s : State) : Out := .next (s.viLanes o (fun w x y => (x / 2 ^ (y % w), false)))

/-- `vsra` (R203). -/
def execVsra (o : OpVv) (s : State) : Out := .next (s.viLanes o (fun w x y => (Int.fdiv (sextN x w) (2 ^ (y % w)), false)))

/-- `vcmpeq` (R204). -/
def execVcmpeq (o : OpVv) (s : State) : Out := .next (s.viCompare o (fun _ x y => decide (x = y)))

/-- `vcmplt` (R204). -/
def execVcmplt (o : OpVv) (s : State) : Out := .next (s.viCompare o (fun w x y => decide (sextN x w < sextN y w)))

/-- `vcmpltu` (R204). -/
def execVcmpltu (o : OpVv) (s : State) : Out := .next (s.viCompare o (fun _ x y => decide (x < y)))

/-- `vcmple` (R204). -/
def execVcmple (o : OpVv) (s : State) : Out := .next (s.viCompare o (fun w x y => decide (sextN x w ≤ sextN y w)))

/-- `vcmpleu` (R204). -/
def execVcmpleu (o : OpVv) (s : State) : Out := .next (s.viCompare o (fun _ x y => decide (x ≤ y)))

/-- `vsel`: the k field is a selector, read for every lane (R204). -/
def execVsel (o : OpVv) (s : State) : Out :=
  let w := laneBits o.w
  .next (s.vector [o.a, o.b, o.d] (fun t =>
    t.setV o.d (mapLanes w (laneCount o.w) (fun _ => true) 0 (fun i =>
      (if (t.getK o.k).getLsbD i then laneN w (t.getV o.a) i else laneN w (t.getV o.b) i, Flags.none))).1))

end Sys2Proof.Machine
end

