-- ==== Sys2Proof/Machine/VectorFloat.lean ====
section
/-! DEFINITION. Majors VF and VFMA: floating lanes, fused products and dot products (R205 to R209). -/

namespace Sys2Proof.Machine

/-- A floating lane instruction with one rounded result for each lane: the exact value of lane `i` under a format and mode (R202, R205).
`draws` says whether the entry produces rounded results, which consume draws under SR (R106). -/
def State.vfLanes (s : State) (vs : List Reg) (d : Reg) (k : KReg) (w : BitVec 2) (draws : Bool)
    (f : FFmt → RMode → Word → Thread → Nat → Nat × Flags) : State :=
  s.vectorChecked (s.floatStop w) vs (fun t =>
    let fmt := (t.ffmt w).getD fp32
    let mode := t.vmode
    let n := laneCount w
    let (x, fl) := mapLanes (laneBits w) n (t.active k) (t.getV d) (fun i =>
      f fmt mode (if draws && mode = .sr then t.word i else 0) t i)
    ((t.setV d x).raise fl).consume (if draws then drawsOf mode n else 0))

/-- Lane `i` of a register as a value. -/
def Thread.num (t : Thread) (f : FFmt) (r : Reg) (i : Nat) : Num := f.decode (laneN f.width (t.getV r) i)

/-- A binary floating operation (R205). -/
def State.vf2 (s : State) (o : OpVv) (f : RMode → Num → Num → Num × Flags) : State :=
  s.vfLanes [o.a, o.b, o.d] o.d o.k o.w true (fun fmt mode u t i => fmt.result mode u (f mode (t.num fmt o.a i) (t.num fmt o.b i)))

/-- A unary floating operation (R205, R206). -/
def State.vf1 (s : State) (o : OpVu) (f : Num → Num × Flags) : State :=
  s.vfLanes [o.a, o.d] o.d o.k o.w true (fun fmt mode u t i => fmt.result mode u (f (t.num fmt o.a i)))

/-- The sign operations: a NaN gives the canonical NaN (R206). -/
def signOp (neg : Bool → Bool) (f : FFmt) (x : Nat) : Nat × Flags :=
  match f.decode x with
  | .nan sg => (f.nan, { nv := sg })
  | v => (x % 2 ^ (f.ebits + f.fbits) + b2n (neg v.neg) * 2 ^ (f.ebits + f.fbits), {})

/-- A floating compare into a mask: the condition when no lane is NaN, and whether a quiet NaN raises NV (R207). -/
def State.vfCompare (s : State) (o : OpVv) (quietNv : Bool) (p : Num → Num → Bool) : State :=
  s.vectorChecked (s.floatStop o.w) [o.a, o.b] (fun t =>
    let fmt := (t.ffmt o.w).getD fp32
    let n := laneCount o.w
    let one (i : Nat) : Bool × Bool :=
      let x := t.num fmt o.a i
      let y := t.num fmt o.b i
      (p x y, x.snan || y.snan || (quietNv && (x.isNan || y.isNan)))
    let act (i : Nat) : Bool := t.active o.k i
    (t.setK (o.d.setWidth 3) (maskOf n (fun i => act i && (one i).1))).raise
      { nv := (List.range n).any (fun i => act i && (one i).2) })

/-- A fused product: the signs of the product and of the addend (R208). -/
def State.vfma (s : State) (o : OpR4) (w : BitVec 2) (np nc : Bool) : State :=
  s.vfLanes [o.a, o.b, o.c, o.d] o.d 0 w true (fun fmt mode u t i =>
    let a := t.num fmt o.a i
    let c := t.num fmt o.c i
    fmt.result mode u (Num.fma mode (if np then a.negate else a) (t.num fmt o.b i) (if nc then c.negate else c)))

/-- The 16-bit format of the halves of `vdp2` (R208). -/
def Thread.halfFmt (t : Thread) : Option FFmt :=
  match t.fmt.fa.map (·.toNat) with
  | none => some bf16
  | some 20 => some bf16
  | some 21 => some fp16
  | _ => none

/-- The checks of `vdp2`: the codes, and then its format (R81, R89, R124, R208). (DEDUCED, notes/assumptions/42.md.) -/
def State.dp2Stop (s : State) : Option Stop :=
  (s.fmtCodeStop s.me.fmt.fa).orElse fun _ =>
    (s.rmStop s.me.fmt.rm).orElse fun _ => if s.me.halfFmt.isNone then some s.illegalStop else none

/-- Two products and an addend, exact; a zero sum keeps the sign all its addends share (R208). Which sums of infinities and
NaNs raise NV is that of the additions from left to right. (DESIGN CHOICE, notes/assumptions/106.md.) -/
def dot2 (mode : RMode) (a0 b0 a1 b1 c : Num) : Num × Flags :=
  let (p, f) := a0.mul b0
  let (q, g) := a1.mul b1
  let signs := p.neg = q.neg && q.neg = c.neg
  let zeros := p.isZero && q.isZero && c.isZero
  let (x, h) := p.add mode q
  let (y, i) := x.add mode c
  let r : Num := if zeros then .fin (if signs then c.neg else decide (mode = .rdn)) 0 0 false
    else if y.isZero then .fin (decide (mode = .rdn)) 0 0 false else y
  (r, { nv := f.nv || g.nv || h.nv || i.nv })

/-- The byte dot product of lane L (R209). -/
def byteDot (signed : Bool) (t : Thread) (o : OpR4) (i : Nat) : Int :=
  let rd (r : Reg) (j : Nat) : Int := let x := laneN 8 (t.getV r) (4 * i + j); if signed then sextN x 8 else x
  let c := laneN 32 (t.getV o.c) i
  (if signed then sextN c 32 else (c : Int)) + rd o.a 0 * rd o.b 0 + rd o.a 1 * rd o.b 1 + rd o.a 2 * rd o.b 2 + rd o.a 3 * rd o.b 3

/-- An integer dot product (R209). -/
def State.vdp4 (s : State) (o : OpR4) (signed : Bool) (sat : Bool) : State :=
  s.vector [o.a, o.b, o.c, o.d] (fun t =>
    let (x, fl) := mapLanes 32 16 (fun _ => true) 0 (fun i =>
      let r := byteDot signed t o i
      if sat then ((wrap 32 (satS r 32)).toNat, { sa := decide (satS r 32 ≠ r) }) else ((wrap 32 r).toNat, Flags.none))
    (t.setV o.d x).raise fl)

/-- `vfadd` (R205). -/
def execVfadd (o : OpVv) (s : State) : Out := .next (s.vf2 o (fun m x y => x.add m y))

/-- `vfsub` (R205). -/
def execVfsub (o : OpVv) (s : State) : Out := .next (s.vf2 o (fun m x y => x.add m y.negate))

/-- `vfmul` (R205). -/
def execVfmul (o : OpVv) (s : State) : Out := .next (s.vf2 o (fun _ x y => x.mul y))

/-- `vfdiv` (R205). -/
def execVfdiv (o : OpVv) (s : State) : Out := .next (s.vf2 o (fun _ x y => x.div y))

/-- `vfmin`: no rounding (R205, R206). -/
def execVfmin (o : OpVv) (s : State) : Out := .next (s.vfLanes [o.a, o.b, o.d] o.d o.k o.w false (fun f _ _ t i =>
    f.minNum (laneN f.width (t.getV o.a) i) (laneN f.width (t.getV o.b) i)))

/-- `vfmax`: no rounding (R205, R206). -/
def execVfmax (o : OpVv) (s : State) : Out := .next (s.vfLanes [o.a, o.b, o.d] o.d o.k o.w false (fun f _ _ t i =>
    f.maxNum (laneN f.width (t.getV o.a) i) (laneN f.width (t.getV o.b) i)))

/-- `vfsqrt` (R205, R206). -/
def execVfsqrt (o : OpVu) (s : State) : Out := .next (s.vf1 o Num.sqrt)

/-- `vrcp` (R205, R206). -/
def execVrcp (o : OpVu) (s : State) : Out := .next (s.vf1 o (fun x => (Num.fin false 1 0 false).div x))

/-- `vrsq` (R205, R206). -/
def execVrsq (o : OpVu) (s : State) : Out := .next (s.vf1 o Num.rsqrt)

/-- `vexp2` (R205, R206). -/
def execVexp2 (o : OpVu) (s : State) : Out := .next (s.vf1 o Num.exp2)

/-- `vlog2` (R205, R206). -/
def execVlog2 (o : OpVu) (s : State) : Out := .next (s.vf1 o Num.log2)

/-- `vfabs` (R205, R206). -/
def execVfabs (o : OpVu) (s : State) : Out := .next (s.vfLanes [o.a, o.d] o.d o.k o.w false (fun f _ _ t i =>
    signOp (fun _ => false) f (laneN f.width (t.getV o.a) i)))

/-- `vfneg` (R205, R206). -/
def execVfneg (o : OpVu) (s : State) : Out := .next (s.vfLanes [o.a, o.d] o.d o.k o.w false (fun f _ _ t i =>
    signOp (fun n => !n) f (laneN f.width (t.getV o.a) i)))

/-- `vfcmpeq` (R207). -/
def execVfcmpeq (o : OpVv) (s : State) : Out := .next (s.vfCompare o false (fun x y => !x.isNan && !y.isNan && x.eqv y))

/-- `vfcmplt` (R207). -/
def execVfcmplt (o : OpVv) (s : State) : Out := .next (s.vfCompare o true (fun x y => !x.isNan && !y.isNan && x.lt y))

/-- `vfcmple` (R207). -/
def execVfcmple (o : OpVv) (s : State) : Out := .next (s.vfCompare o true (fun x y => !x.isNan && !y.isNan && (x.lt y || x.eqv y)))

/-- `vfcmpun` (R207). -/
def execVfcmpun (o : OpVv) (s : State) : Out := .next (s.vfCompare o false (fun x y => x.isNan || y.isNan))

/-- `vfma.w` (R208). -/
def execVfmaW (o : OpR4) (s : State) : Out := .next (s.vfma o 2 false false)

/-- `vfma.h` (R208). -/
def execVfmaH (o : OpR4) (s : State) : Out := .next (s.vfma o 1 false false)

/-- `vfms.w` (R208). -/
def execVfmsW (o : OpR4) (s : State) : Out := .next (s.vfma o 2 false true)

/-- `vfms.h` (R208). -/
def execVfmsH (o : OpR4) (s : State) : Out := .next (s.vfma o 1 false true)

/-- `vfnma.w` (R208). -/
def execVfnmaW (o : OpR4) (s : State) : Out := .next (s.vfma o 2 true false)

/-- `vfnma.h` (R208). -/
def execVfnmaH (o : OpR4) (s : State) : Out := .next (s.vfma o 1 true false)

/-- `vfnms.w` (R208). -/
def execVfnmsW (o : OpR4) (s : State) : Out := .next (s.vfma o 2 true true)

/-- `vfnms.h` (R208). -/
def execVfnmsH (o : OpR4) (s : State) : Out := .next (s.vfma o 1 true true)

/-- `vdp2`: sixteen FP32 lanes from pairs of 16-bit halves (R208). -/
def execVdp2 (o : OpR4) (s : State) : Out :=
  .next (s.vectorChecked s.dp2Stop [o.a, o.b, o.c, o.d] (fun t =>
    let h := t.halfFmt.getD bf16
    let mode := t.vmode
    let (x, fl) := mapLanes 32 16 (fun _ => true) 0 (fun i =>
      fp32.result mode (if mode = .sr then t.word i else 0)
        (dot2 mode (t.num h o.a (2 * i)) (t.num h o.b (2 * i)) (t.num h o.a (2 * i + 1)) (t.num h o.b (2 * i + 1)) (t.num fp32 o.c i)))
    ((t.setV o.d x).raise fl).consume (drawsOf mode 16)))

/-- `vdp4` (R209). -/
def execVdp4 (o : OpR4) (s : State) : Out := .next (s.vdp4 o true false)

/-- `vdp4s` (R209). -/
def execVdp4s (o : OpR4) (s : State) : Out := .next (s.vdp4 o true true)

/-- `vdp4u` (R209). -/
def execVdp4u (o : OpR4) (s : State) : Out := .next (s.vdp4 o false false)

end Sys2Proof.Machine
end

