-- ==== Sys2Proof/Machine/Permute.lean ====
section
/-! DEFINITION. Major VPM: permutes, reductions and scans (R210 to R214). -/

namespace Sys2Proof.Machine

/-- The active lanes' indexes in ascending order. -/
def Thread.activeLanes (t : Thread) (k : KReg) (n : Nat) : List Nat := (List.range n).filter (fun i => t.active k i)

/-- A lane-wise permute: active lanes take a value, the others keep theirs (R211). -/
def State.permute (s : State) (vs : List Reg) (d : Reg) (k : KReg) (w : BitVec 2) (f : Thread → Nat → Nat) : State :=
  s.vector vs (fun t =>
    t.setV d (mapLanes (laneBits w) (laneCount w) (t.active k) (t.getV d) (fun i => (f t i, Flags.none))).1)

/-- A reduction writes lane 0 and clears every other lane (R212, R213). -/
def lane0 (w x : Nat) : VReg := BitVec.ofNat 512 (x % 2 ^ w)

/-- An integer reduction of the active lanes from an identity (R212). -/
def State.reduceInt (s : State) (o : OpVu) (identity : Nat → Int) (f : Nat → Int → Nat → Int) : State :=
  let w := laneBits o.w
  s.vector [o.a, o.d] (fun t =>
    let r := (t.activeLanes o.k (laneCount o.w)).foldl (fun acc i => f w acc (laneN w (t.getV o.a) i)) (identity w)
    t.setV o.d (lane0 w (wrap w r).toNat))

/-- One level of the pairwise tree: sums of adjacent nodes, numbered from `e`, and the flags raised (R213). -/
def treeLevel (add : Nat → Nat → Nat → Nat × Flags) : Nat → List (Option Nat) → List (Option Nat) × Flags
  | e, x :: y :: r =>
    let (rest, fl) := treeLevel add (e + 1) r
    match x, y with
    | some a, some b => let (v, g) := add e a b; (some v :: rest, fl.or g)
    | some a, none => (some a :: rest, fl)
    | none, some b => (some b :: rest, fl)
    | none, none => (none :: rest, fl)
  | _, l => (l, Flags.none)

/-- The tree of `levels` levels over 2^levels nodes (R213). -/
def tree (add : Nat → Nat → Nat → Nat × Flags) : Nat → Nat → List (Option Nat) → Option Nat × Flags
  | 0, _, l => (l.getD 0 none, Flags.none)
  | n + 1, e, l =>
    let (l', fl) := treeLevel add e l
    let (r, g) := tree add n (e + l'.length) l'
    (r, fl.or g)

/-- A float reduction that rounds nothing (R213). -/
def State.reduceFloat (s : State) (o : OpVu) (f : FFmt → Nat → Nat → Nat × Flags) (empty : FFmt → Nat) : State :=
  s.vectorChecked (s.floatStop o.w) [o.a, o.d] (fun t =>
    let fmt := (t.ffmt o.w).getD fp32
    let xs := (t.activeLanes o.k (laneCount o.w)).map (fun i => laneN fmt.width (t.getV o.a) i)
    if xs.any (fun x => (fmt.decode x).snan) then (t.setV o.d (lane0 fmt.width fmt.nan)).raise { nv := true }
    else
      match xs.filter (fun x => !(fmt.decode x).isNan) with
      | [] => t.setV o.d (lane0 fmt.width (if xs.isEmpty then empty fmt else fmt.nan))
      | y :: ys => t.setV o.d (lane0 fmt.width (ys.foldl (fun a b => (f fmt a b).1) y)))

/-- The running integer sum of active lanes up to `i` (R212). -/
def scanInt (w : Nat) (v : VReg) (lanes : List Nat) (i : Nat) : Nat :=
  ((lanes.filter (fun j => j ≤ i)).map (fun j => laneN w v j)).sum % 2 ^ w

/-- The running sums of `vfscan`: lane, value so far, flags (R214). -/
def scanFloat (fmt : FFmt) (mode : RMode) (t : Thread) (a : Reg) : List Nat → Option Nat → List (Nat × Nat) × Flags
  | [], _ => ([], Flags.none)
  | i :: r, acc =>
    let x := laneN fmt.width (t.getV a) i
    let (v, fl) : Nat × Flags := match acc with
      | none => (match fmt.decode x with | .nan sg => (fmt.nan, { nv := sg }) | _ => (x, Flags.none))
      | some y => fmt.result mode (if mode = .sr then t.word (i - 1) else 0) ((fmt.decode y).add mode (fmt.decode x))
    let (rest, g) := scanFloat fmt mode t a r (some v)
    ((i, v) :: rest, fl.or g)

/-- `vperm` (R211). -/
def execVperm (o : OpVv) (s : State) : Out :=
  .next (s.permute [o.a, o.b, o.d] o.d o.k o.w (fun t i =>
    laneN (laneBits o.w) (t.getV o.a) (laneN (laneBits o.w) (t.getV o.b) i % laneCount o.w)))

/-- `vsldu`: the b field holds the distance (R211). -/
def execVsldu (o : OpVv) (s : State) : Out :=
  .next (s.permute [o.a, o.d] o.d o.k o.w (fun t i =>
    if o.b.toNat ≤ i then laneN (laneBits o.w) (t.getV o.a) (i - o.b.toNat) else 0))

/-- `vsldd`: the b field holds the distance (R211). -/
def execVsldd (o : OpVv) (s : State) : Out :=
  .next (s.permute [o.a, o.d] o.d o.k o.w (fun t i =>
    if i + o.b.toNat < laneCount o.w then laneN (laneBits o.w) (t.getV o.a) (i + o.b.toNat) else 0))

/-- `vcmpr`: the active lanes close up, the rest become 0 (R211). -/
def execVcmpr (o : OpVu) (s : State) : Out :=
  .next (s.vector [o.a, o.d] (fun t =>
    let w := laneBits o.w
    t.setV o.d (BitVec.ofNat 512 (packNats w ((t.activeLanes o.k (laneCount o.w)).map (fun i => laneN w (t.getV o.a) i))))))

/-- `vexpd`: active lanes take successive lanes of the source (R211). -/
def execVexpd (o : OpVu) (s : State) : Out :=
  .next (s.permute [o.a, o.d] o.d o.k o.w (fun t i =>
    laneN (laneBits o.w) (t.getV o.a) (t.activeLanes o.k i).length))

/-- `vredi` (R212). -/
def execVredi (o : OpVu) (s : State) : Out :=
  .next (s.reduceInt o (fun _ => 0) (fun _ a x => a + x))

/-- `vredmax` (R212). -/
def execVredmax (o : OpVu) (s : State) : Out :=
  .next (s.reduceInt o (fun w => -(2 ^ (w - 1))) (fun w a x => max a (sextN x w)))

/-- `vredmin` (R212). -/
def execVredmin (o : OpVu) (s : State) : Out :=
  .next (s.reduceInt o (fun w => 2 ^ (w - 1) - 1) (fun w a x => min a (sextN x w)))

/-- `vredmaxu` (R212). -/
def execVredmaxu (o : OpVu) (s : State) : Out :=
  .next (s.reduceInt o (fun _ => 0) (fun _ a x => max a (x : Int)))

/-- `vredminu` (R212). -/
def execVredminu (o : OpVu) (s : State) : Out :=
  .next (s.reduceInt o (fun w => 2 ^ w - 1) (fun _ a x => min a (x : Int)))

/-- `vredor` (R212). -/
def execVredor (o : OpVu) (s : State) : Out :=
  .next (s.reduceInt o (fun _ => 0) (fun _ a x => (Nat.lor a.toNat x : Nat)))

/-- `vred`: the fixed pairwise tree (R213). -/
def execVred (o : OpVu) (s : State) : Out :=
  .next (s.vectorChecked (s.floatStop o.w) [o.a, o.d] (fun t =>
    let fmt := (t.ffmt o.w).getD fp32
    let mode := t.vmode
    let n := laneCount o.w
    let nodes := (List.range n).map (fun i => if t.active o.k i then some (laneN fmt.width (t.getV o.a) i) else none)
    let add (e a b : Nat) : Nat × Flags :=
      fmt.result mode (if mode = .sr then t.word e else 0) ((fmt.decode a).add mode (fmt.decode b))
    let (r, fl) := tree add (if n = 16 then 4 else 5) 0 nodes
    let nv := nodes.any (fun x => match x with | some a => (fmt.decode a).snan | none => false)
    let v := match r with
      | some a => if (fmt.decode a).isNan then fmt.nan else a
      | none => 0
    ((t.setV o.d (lane0 fmt.width v)).raise (fl.or { nv := nv })).consume (drawsOf mode (n - 1))))

/-- `vfredmax` (R213). -/
def execVfredmax (o : OpVu) (s : State) : Out :=
  .next (s.reduceFloat o FFmt.maxNum (fun f => f.inf true))

/-- `vfredmin` (R213). -/
def execVfredmin (o : OpVu) (s : State) : Out :=
  .next (s.reduceFloat o FFmt.minNum (fun f => f.inf false))

/-- `vscani` (R212). -/
def execVscani (o : OpVu) (s : State) : Out :=
  .next (s.permute [o.a, o.d] o.d o.k o.w (fun t i =>
    scanInt (laneBits o.w) (t.getV o.a) (t.activeLanes o.k (laneCount o.w)) i))

/-- `vfscan` (R214). -/
def execVfscan (o : OpVu) (s : State) : Out :=
  .next (s.vectorChecked (s.floatStop o.w) [o.a, o.d] (fun t =>
    let fmt := (t.ffmt o.w).getD fp32
    let mode := t.vmode
    let n := laneCount o.w
    let (l, fl) := scanFloat fmt mode t o.a (t.activeLanes o.k n) none
    let x := (mapLanes fmt.width n (t.active o.k) (t.getV o.d) (fun i => (Assoc.get l i 0, Flags.none))).1
    ((t.setV o.d x).raise fl).consume (drawsOf mode (n - 1))))

end Sys2Proof.Machine
end

