-- ==== Sys2Proof/Machine/Convert.lean ====
section
/-! DEFINITION. Majors VCV and VRN: conversion, packing, quantisation and draws (R215 to R222). -/

namespace Sys2Proof.Machine

/-- The illegal-pair trap of R95. -/
def State.pairStop (s : State) (src dst : Nat) : Stop := .trap 1 s.majorVal (BitVec.ofNat 64 (src * 256 + dst))

/-- The mode of a conversion: the FMT's when given, otherwise the entry's own code (R215). -/
def Thread.cvMode (t : Thread) (own : Option (BitVec 3)) : RMode :=
  match t.fmt.rm, own with
  | some c, _ => t.mode c
  | none, some c => t.mode c
  | none, none => t.stMode

/-- R94 lists the pair. -/
def pairOk (a b : Nat) : Bool :=
  match laneFmtWidth a, laneFmtWidth b, fclass a, fclass b with
  | some _, some _, some ca, some cb => convertible ca cb
  | _, _, _, _ => false

/-- The codes a conversion is checked for: the FMT's formats and mode, and the rounding field of `vcvt` (R81, R89). -/
def State.codeStops (s : State) (own : Option (BitVec 3)) : Option Stop :=
  (s.fmtCodeStop s.me.fmt.fa).orElse fun _ => (s.fmtCodeStop s.me.fmt.fb).orElse fun _ => (s.rmStop s.me.fmt.rm).orElse fun _ => s.rmStop own

/-- The checks of `vcvt`, in the order of R124: the part's range, the codes, the pair, and, of the entry's own, that both formats are given
(R81, R89, R95, R123, R215, R216). -/
def State.vcvtStop (s : State) (o : OpVcvt) : Option Stop :=
  match s.me.fmt.fa, s.me.fmt.fb with
  | some a, some b =>
    if partBad a.toNat b.toNat o.part.toNat then some s.illegalStop
    else (s.codeStops (some o.rm)).orElse fun _ => if pairOk a.toNat b.toNat then none else some (s.pairStop a.toNat b.toNat)
  | _, _ => (s.codeStops (some o.rm)).orElse fun _ => some s.illegalStop

/-- `vcvt` (R216). -/
def execVcvt (o : OpVcvt) (s : State) : Out :=
  .next (s.vectorChecked (s.vcvtStop o) [o.a, o.d] (fun t =>
    let a := (t.fmt.fa.getD 0).toNat
    let b := (t.fmt.fb.getD 0).toNat
    let ws := (laneFmtWidth a).getD 8
    let wd := (laneFmtWidth b).getD 8
    let n := 512 / max ws wd
    let mode := t.cvMode (some o.rm)
    let base := o.part.toNat * n
    let one (i : Nat) : Nat × Flags :=
      convertElem ((fclass a).getD .e8m0) ((fclass b).getD .e8m0) mode (if mode = .sr then t.word i else 0)
        (laneN ws (t.getV o.a) (if ws < wd then base + i else i))
    let p := if wd < ws then base else 0
    let (x, fl) := mapLanes wd (512 / wd) (fun j => p ≤ j && j < p + n && t.active o.k (j - p)) (t.getV o.d) (fun j => one (j - p))
    ((t.setV o.d x).raise fl).consume (drawsOf mode n)))

/-! ## Packing (R218) -/

/-- The checks of a packing instruction on a format code: given, legal, and a part within the image. -/
def State.packStop (s : State) (code : Option (BitVec 5)) (unpack : Bool) (part : BitVec 5) : Option Stop :=
  match code with
  | none => some s.illegalStop
  | some c =>
    (s.fmtCodeStop code).orElse fun _ =>
    if !packable c.toNat then some (if unpack then s.pairStop c.toNat 0 else s.pairStop 0 c.toNat)
    else if packBeyond c.toNat part.toNat then some s.illegalStop
    else none

/-- Packs the byte lanes of a register into part `p` of an image (R218). -/
def packInto (code p : Nat) (active : Nat → Bool) (old src : VReg) : VReg × Flags :=
  let writes (pos : Nat) : Bool := 64 * p ≤ pos && pos < 64 * p + 64 && pos < imageCap code && active (pos - 64 * p)
  let elem (pos : Nat) : Nat × Flags := packElem code (sextN (laneN 8 src (pos - 64 * p)) 8)
  let flags := ((List.range 64).filter (fun i => writes (64 * p + i))).foldl (fun fl i => fl.or (elem (64 * p + i)).2) Flags.none
  if code = 12 then
    let r := (List.range 64).map (fun b => t5Byte (laneN 8 old b) (fun i =>
      if writes (5 * b + i) then some (elem (5 * b + i)).1 else none))
    (BitVec.ofNat 512 (packNats 8 (r.map Prod.fst)), flags.or { iv := r.any Prod.snd })
  else
    (((List.range 64).filter (fun i => writes (64 * p + i))).foldl (fun v i =>
      imageSet code v (64 * p + i) (elem (64 * p + i)).1) old, flags)

/-- Unpacks part `p` of an image into byte lanes (R218). A value beyond I8 saturates (notes/assumptions/16.md). -/
def unpackFrom (code p : Nat) (active : Nat → Bool) (old src : VReg) : VReg × Flags :=
  mapLanes 8 64 (fun i => 64 * p + i < imageCap code && active i) old (fun i =>
    let pos := 64 * p + i
    let x := elemGet code src.toNat pos
    let v := elemInt code x
    ((wrap 8 (satS v 8)).toNat,
      { iv := badT2 code x || (code = 12 && 243 ≤ laneN 8 src (pos / 5)), sa := decide (satS v 8 ≠ v) }))

/-- A packing instruction in a format. -/
def State.packVec (s : State) (o : OpVp) (code : Nat) (stop : Option Stop) (unpack : Bool) : State :=
  s.vectorChecked stop [o.a, o.d] (fun t =>
    let (x, fl) := (if unpack then unpackFrom else packInto) code o.part.toNat (t.active o.k) (t.getV o.d) (t.getV o.a)
    (t.setV o.d x).raise fl)

/-- `vpk` (R218). -/
def execVpk (o : OpVp) (s : State) : Out :=
  .next (s.packVec o (s.me.fmt.fb.getD 0).toNat (s.packStop s.me.fmt.fb false o.part) false)

/-- `vunp` (R218). -/
def execVunp (o : OpVp) (s : State) : Out :=
  .next (s.packVec o (s.me.fmt.fa.getD 0).toNat (s.packStop s.me.fmt.fa true o.part) true)

/-- `vtpk`: format T5 (R218). -/
def execVtpk (o : OpVp) (s : State) : Out := .next (s.packVec o 12 (s.packStop (some 12) false o.part) false)

/-- `vtun`: format T5 (R218). -/
def execVtun (o : OpVp) (s : State) : Out := .next (s.packVec o 12 (s.packStop (some 12) true o.part) true)

/-! ## Quantisation (R219 to R221) -/

/-- The checks of a quantisation instruction: both formats given and legal, the slot and the register pair in range. -/
def State.quantStop (s : State) (dequant : Bool) (wide : Reg) (p : Nat) : Option Stop :=
  let g := s.me.fmt
  match g.fa, g.fb with
  | some a, some b =>
    let fl := if dequant then b else a
    let sc := if dequant then a else b
    if quantBeyond fl.toNat sc.toNat wide p then some s.illegalStop
    else (s.codeStops none).orElse fun _ => if quantPair fl.toNat sc.toNat then none else some (s.pairStop a.toNat b.toNat)
  | _, _ => (s.codeStops none).orElse fun _ => some s.illegalStop

/-- The registers of 32 elements: a pair for FP32 (R219). -/
def quantRegs (fl : Nat) (r : Reg) : List Reg := if fl = 22 then [r, r + 1] else [r]

/-- Element `e` of the 32 floating elements at a register. -/
def Thread.quantSrc (t : Thread) (fl : Nat) (r : Reg) (e : Nat) : Num :=
  if fl = 22 then fp32.decode (laneN 32 (t.getV (if e < 16 then r else r + 1)) (e % 16))
  else ((quantFloat fl).getD bf16).decode (laneN 16 (t.getV r) e)

/-- Block `j` of a slot: its elements' length and its scale byte (R219). -/
def slotBlocks (sc p : Nat) : List (Nat × Nat × Nat) :=
  if sc = 10 || sc = 11 then [(0, 16, 2 * p), (16, 16, 2 * p + 1)] else [(0, 32, p)]

/-- Quantises 32 elements into slot P (R219). The scale register is written after the image (notes/assumptions/17.md). -/
def State.quantise (s : State) (o : OpVq) (supplied : Bool) : State :=
  let fl := (s.me.fmt.fa.getD 0).toNat
  s.vectorChecked (s.quantStop false o.a o.part.toNat) (quantRegs fl o.a ++ [o.x, o.d]) (fun t =>
    let sc := (t.fmt.fb.getD 0).toNat
    let p := o.part.toNat
    let mode : RMode := t.cvMode none
    let scales := t.getV o.x
    let blocks := (slotBlocks sc p).map (fun (off, n, byte) =>
      (off, byte, quantBlock sc mode (fun i => if mode = RMode.sr then t.word (off + i) else 0)
        (if supplied then some (laneN 8 scales byte) else none) ((List.range n).map (fun i => t.quantSrc fl o.a (off + i)))))
    let img := blocks.foldl (fun v (off, _, b) =>
      ((List.range b.2.1.length).zip b.2.1).foldl (fun v (i, x) => imageSet sc v (32 * p + off + i) x) v) (t.getV o.d)
    let flags := blocks.foldl (fun f (_, _, b) => f.or b.2.2) Flags.none
    let t1 := t.setV o.d img
    let t1 := if supplied then t1 else
      t1.setV o.x (blocks.foldl (fun v (_, byte, b) => setFld v (8 * byte) 8 b.1) (t1.getV o.x))
    (t1.raise flags).consume (drawsOf mode 32))

/-- `vqnt`: computes the scales (R219). -/
def execVqnt (o : OpVq) (s : State) : Out := .next (s.quantise o false)

/-- `vqnts`: reads the scales (R219). -/
def execVqnts (o : OpVq) (s : State) : Out := .next (s.quantise o true)

/-- `vdqt` (R221). -/
def execVdqt (o : OpVq) (s : State) : Out :=
  let fl := (s.me.fmt.fb.getD 0).toNat
  .next (s.vectorChecked (s.quantStop true o.d o.part.toNat) (quantRegs fl o.d ++ [o.a, o.x]) (fun t =>
    let sc := (t.fmt.fa.getD 0).toNat
    let p := o.part.toNat
    let mode : RMode := t.cvMode none
    let f : FFmt := (quantFloat fl).getD bf16
    let one (e : Nat) : Nat × Flags :=
      let byte := if sc = 10 || sc = 11 then 2 * p + e / 16 else p
      f.round mode (if mode = .sr then t.word e else 0)
        (scaledValue sc (elemGet sc (t.getV o.a).toNat (32 * p + e)) (laneN 8 (t.getV o.x) byte))
    let r := (List.range 32).map one
    let t1 := if fl = 22 then
        (t.setV o.d (BitVec.ofNat 512 (packNats 32 ((r.take 16).map Prod.fst)))).setV (o.d + 1)
          (BitVec.ofNat 512 (packNats 32 ((r.drop 16).map Prod.fst)))
      else t.setV o.d (BitVec.ofNat 512 (packNats 16 (r.map Prod.fst)))
    (t1.raise ((r.map Prod.snd).foldl Flags.or Flags.none)).consume (drawsOf mode 32)))

/-! ## Draws (R222) -/

/-- `draw`: word 1 ∥ word 0 of one draw; FMT is consumed and not used (R117, R222). -/
def execDraw (o : OpD) (s : State) : Out :=
  .next (match s.operands [] [o.d] with
    | .error e => s.stall e
    | .ok (_, s1) =>
      match s1.writeReg o.d (fld (draw s1.me.key s1.me.did s1.me.dctr) 0 64) with
      | .error e => s.stall e
      | .ok s2 => ((s2.setMe (s2.me.consume 1)).consumeFmt).retire)

/-- `vdraw`: four draws fill the register; active lanes receive their bits (R222). -/
def execVdraw (o : OpVdraw) (s : State) : Out :=
  .next (s.vector [o.d] (fun t =>
    let x : VReg := BitVec.ofNat 512 (packNats 128 ((List.range 4).map (fun m => (draw t.key t.did (t.dctr + BitVec.ofNat 64 m)).toNat)))
    let w := laneBits o.w
    (t.setV o.d (mapLanes w (laneCount o.w) (t.active o.k) (t.getV o.d) (fun i => (laneN w x i, Flags.none))).1).consume 4))

end Sys2Proof.Machine
end

