-- ==== Sys2Proof/Machine/Codec.lean ====
section
/-! DEFINITION. The codec of the copy engine: CRC-32C, canonical codes, coded blocks and the building of a table (R239 to R245). -/

namespace Sys2Proof.Machine

/-- Eight steps of CRC-32C, bits reflected (R239). -/
def crcBits : Nat → Nat → Nat
  | 0, c => c
  | n + 1, c => crcBits n (if c % 2 = 1 then Nat.xor (c / 2) 0x82F63B78 else c / 2)

/-- CRC-32C of some bytes: initial value and final XOR of ones (R239). -/
def crc32c (bytes : List Nat) : Nat := Nat.xor (bytes.foldl (fun c b => crcBits 8 (Nat.xor c b)) 0xFFFFFFFF) 0xFFFFFFFF

/-- A code of `len` bits for a byte value (R240). -/
structure Code where
  sym : Nat
  len : Nat
  code : Nat
  deriving DecidableEq, Repr

/-- Codes of one length, in ascending symbols from a first code. -/
def codesOfLen (lens : List (BitVec 4)) (len : Nat) : List Nat → Nat → List Code × Nat
  | [], c => ([], c)
  | s :: r, c =>
    if (lens.getD s 0).toNat = len then
      let (l, e) := codesOfLen lens len r (c + 1)
      ({ sym := s, len := len, code := c } :: l, e)
    else codesOfLen lens len r c

/-- The canonical assignment over the lengths from `len` up (R240). -/
def canonicalFrom (lens : List (BitVec 4)) : Nat → Nat → Nat → List Code
  | 0, _, _ => []
  | n + 1, len, c =>
    let (l, e) := codesOfLen lens len (List.range 256) c
    l ++ canonicalFrom lens n (len + 1) (e * 2)

/-- The canonical codes of a table (R240). -/
def canonical (lens : List (BitVec 4)) : List Code := canonicalFrom lens 12 1 0

/-- Kraft sum of lengths, in units of 2^-12 (R243). -/
def kraft (lens : List Nat) : Nat := (lens.map (fun l => if l = 0 then 0 else 2 ^ (12 - l))).sum

/-- A table that TBLD accepts (R243). -/
def tableOk (lens : List Nat) : Bool := lens.all (fun l => decide (l ≤ 12)) && decide (kraft lens ≤ 4096)

/-! ## Coding a block (R240, R244) -/

/-- A code's bits, most significant first, laid from bit `pos` of a stream. -/
def putCode (c : Code) (pos : Nat) : Nat → Nat
  | 0 => 0
  | n + 1 => (c.code / 2 ^ (c.len - 1 - n) % 2) * 2 ^ (pos + n) + putCode c pos n

/-- The stream of the codes of some bytes: its bits and its length, none when a byte has no code. -/
def codeStream (codes : List Code) : List Nat → Option (Nat × Nat)
  | [] => some (0, 0)
  | b :: r =>
    match codes.find? (fun c => c.sym = b), codeStream codes r with
    | some c, some (x, n) => some (putCode c 0 c.len + x * 2 ^ c.len, c.len + n)
    | _, _ => none

/-- Bytes of a coded or raw payload, padded to a multiple of 16. -/
def paddedLen (clen : Nat) : Nat := (clen + 15) / 16 * 16

/-- The coded block of 4,096 raw bytes, as bytes (R239, R244). -/
def encodeBlock (lens : List (BitVec 4)) (tag : BitVec 8) (slot : BitVec 2) (raw : List Nat) : List Nat :=
  let crc := unpackNats 8 4 (crc32c raw)
  match codeStream (canonical lens) raw with
  | some (x, n) =>
    let clen := (n + 7) / 8
    if clen ≤ 4095 then
      [1 + 4 * slot.toNat, tag.toNat, 0, 0] ++ unpackNats 8 4 clen ++ crc ++ [0, 0, 0, 0] ++ unpackNats 8 (paddedLen clen) x
    else [0, 0, 0, 0] ++ unpackNats 8 4 4096 ++ crc ++ [0, 0, 0, 0] ++ raw
  | none => [0, 0, 0, 0] ++ unpackNats 8 4 4096 ++ crc ++ [0, 0, 0, 0] ++ raw

/-! ## Expanding a block (R245) -/

/-- The fields of a block header (R239). -/
structure BlockHeader where
  mode : Nat
  slot : BitVec 2
  tag : BitVec 8
  clen : Nat
  crc : Nat
  /-- A reserved bit is set. -/
  stray : Bool
  deriving DecidableEq, Repr

/-- Reads a header held as a little-endian number. -/
def readHeader (h : Nat) : BlockHeader :=
  { mode := h % 4, slot := BitVec.ofNat 2 (h / 4), tag := BitVec.ofNat 8 (h / 2 ^ 8), clen := h / 2 ^ 32 % 2 ^ 32, crc := h / 2 ^ 64 % 2 ^ 32,
    stray := h / 2 ^ 4 % 16 ≠ 0 || h / 2 ^ 16 % 2 ^ 16 ≠ 0 || h / 2 ^ 96 % 2 ^ 32 ≠ 0 }

/-- CLEN lies in its mode's range (R239). -/
def BlockHeader.clenOk (h : BlockHeader) : Bool := if h.mode = 1 then decide (1 ≤ h.clen ∧ h.clen ≤ 4095) else h.clen = 4096

/-- What the header alone shows wrong: reasons 1 to 3 (R245, R274). -/
def BlockHeader.wrong (h : BlockHeader) (mask : BitVec 4) (tagOf : BitVec 2 → BitVec 8) : Option Nat :=
  if h.stray || 2 ≤ h.mode || (h.mode = 0 && (h.slot ≠ 0 || h.tag ≠ 0)) then some 1
  else if h.mode = 1 && (!mask.getLsbD h.slot.toNat || h.tag ≠ tagOf h.slot) then some 2
  else if !h.clenOk then some 3
  else none

/-- The code that a stream begins with, read most significant bit first. -/
def nextCode (codes : List Code) (x : Nat) : Nat → Nat → Nat → Option Code
  | 0, _, _ => none
  | n + 1, len, c =>
    let c1 := c * 2 + x % 2
    match codes.find? (fun k => k.len = len + 1 && k.code = c1) with
    | some k => some k
    | none => nextCode codes (x / 2) n (len + 1) c1

/-- `n` bytes of a stream of `bits` bits: none when a sequence is no code, the stream ends early, or a bit after it is set. -/
def decodeStream (codes : List Code) : Nat → Nat → Nat → Option (List Nat)
  | 0, x, _ => if x = 0 then some [] else none
  | n + 1, x, bits =>
    match nextCode codes x 12 0 0 with
    | none => none
    | some k =>
      if bits < k.len then none
      else match decodeStream codes n (x / 2 ^ k.len) (bits - k.len) with
        | some l => some (k.sym :: l)
        | none => none

/-- The 4,096 raw bytes of a payload whose header is sound, or reason 4 or 5 (R245). -/
def decodePayload (lens : List (BitVec 4)) (h : BlockHeader) (payload : Nat) : Except Nat (List Nat) :=
  let x := payload % 2 ^ (8 * h.clen)
  match (if h.mode = 0 then some (unpackNats 8 4096 x) else decodeStream (canonical lens) 4096 x (8 * h.clen)) with
  | none => .error 4
  | some raw => if crc32c raw = h.crc then .ok raw else .error 5

/-! ## Building a table (R243) -/

/-- The length a count asks for: ceil(log2(T / count)) within 1 to 12. -/
def lengthOf (total count : Nat) : Nat :=
  if count = 0 then 0
  else ((List.range 12).find? (fun l => total ≤ count * 2 ^ l)).elim 12 (fun l => max 1 l)

/-- The symbol to lengthen: a length of 1 to 11 and the smallest count, lowest symbol on ties. -/
def shortest (counts lens : List Nat) : Option Nat :=
  (List.range 256).foldl (fun best s =>
    let l := lens.getD s 0
    if 1 ≤ l && l ≤ 11 then
      match best with
      | some b => if counts.getD s 0 < counts.getD b 0 then some s else best
      | none => some s
    else best) none

/-- Lengthens codes until the Kraft sum fits. -/
def fitLengths (counts : List Nat) : Nat → List Nat → List Nat
  | 0, lens => lens
  | n + 1, lens =>
    if 4096 < kraft lens then
      match shortest counts lens with
      | some s => fitLengths counts n (lens.set s (lens.getD s 0 + 1))
      | none => lens
    else lens

/-- The table of a histogram (R243 mode 0). -/
def buildLengths (hist : List Word) : List Nat :=
  let counts := (List.range 256).map (fun s => (hist.getD s 0).toNat)
  let total := counts.sum
  fitLengths counts 3072 (counts.map (lengthOf total))

end Sys2Proof.Machine
end

