-- ==== Sys2Proof/Machine/CopyUnits.lean ====
section
/-! DEFINITION. The units of work of a copy command: which dwords each reads, and from those what it writes, codes, ternarises or fails on
(R74, R223 to R247, R258). Everything here is a function of the command, the dwords it has read and the table slots; Machine/CopySteps.lean performs it. -/

namespace Sys2Proof.Machine

/-! ## Shape records (R233) -/

/-- NB of a shape record. -/
def shapeNb (r : List Dword) : Nat := (fld (r.getD 3 0) 16 8).toNat

/-- Tile bytes of TLD and TST (R235). -/
def shapeBytes (r : List Dword) : Nat := 2048 + (16 * shapeNb r + 127) / 128 * 128

/-- A reserved bit is set, or NB is above 16 (R234). A BASE or RSTRIDE that is no multiple of 8 takes no trap. (DESIGN CHOICE, notes/assumptions/87.md.) -/
def shapeBad (r : List Dword) : Bool :=
  fld (r.getD 2 0) 40 24 ≠ 0 || fld (r.getD 3 0) 24 40 ≠ 0 || fld (r.getD 5 0) 40 24 ≠ 0 || r.getD 6 0 ≠ 0 || r.getD 7 0 ≠ 0 ||
    16 < shapeNb r

/-! ## Commands -/

/-- Operand `i` of the block. -/
def CopyCmd.op (k : CopyCmd) (i : Nat) : Nat := (k.ops.getD i 0).toNat

/-- A fault of a command at a unit (R274). -/
def CopyCmd.faultAt (k : CopyCmd) (r : FaultReq) (unit : Nat) : FaultReq :=
  { r with src := 1, id := k.id, pc := k.pc, aux2 := BitVec.ofNat 64 unit, aux3 := k.base }

/-- Poisoned data met at a unit (R227, R274). -/
def CopyCmd.poisonAt (k : CopyCmd) (pa : Nat) (va : Dword) (unit : Nat) : FaultReq :=
  k.faultAt { kind := 3, va := va, aux0 := BitVec.ofNat 64 pa } unit

/-- A codec check failure (R274). -/
def CopyCmd.codecAt (k : CopyCmd) (block reason slot : Nat) : FaultReq :=
  { kind := 5, src := 1, id := k.id, pc := k.pc, aux0 := BitVec.ofNat 64 block, aux1 := BitVec.ofNat 64 reason,
    aux2 := BitVec.ofNat 64 slot, aux3 := k.base }

/-- Element bytes SZ of a gather or scatter (R237). -/
def CopyCmd.sz (k : CopyCmd) : Nat := k.op 3 % 512

/-- Element count N (R237). -/
def CopyCmd.count (k : CopyCmd) : Nat := k.op 3 / 2 ^ 16 % 2 ^ 24

/-- OP of SCTA (R237). -/
def CopyCmd.sop (k : CopyCmd) : Nat := k.op 3 / 2 ^ 9 % 8

/-- Operand bytes of SCTA (R238). -/
def CopyCmd.sopBytes (k : CopyCmd) : Nat := if k.sop = 1 then 8 else 4

/-! ## Dwords read (R59, R74, R227) -/

/-- The dword pieces of a range: address and length. -/
def piecesOf (grain va n : Nat) : List (Nat × Nat) :=
  if n = 0 then []
  else (List.range ((va % grain + n + grain - 1) / grain)).map (fun i =>
    let a := max va (va / grain * grain + grain * i)
    (a, min (va + n) (va / grain * grain + grain * (i + 1)) - a))

/-- A dword that a unit still wants: the key it is read under, its address, the address reported when it cannot be reached, and the unit then
named. -/
structure Want where
  key : Nat := 0
  va : Nat := 0
  at_ : Nat := 0
  unit : Nat := 0
  deriving DecidableEq, Repr

/-- Bytes of a source: the dwords still wanted, the value with the first dword that carries the mark, or why the command fails. -/
inductive Source where
  | want (l : List Want)
  | got (x : Nat) (bad : Option Fetch)
  | fail (r : FaultReq)
  deriving DecidableEq, Repr

/-- The dword at an address that a command has read under a key. -/
def CopyCmd.fetched (k : CopyCmd) (key va : Nat) : Option Fetch := k.got.find? (fun f => f.key = key && f.va = va)

/-- `n` bytes at an address, of dwords read under a key; `unit` names the unit of a byte by its distance from the first. A key from `total` up is one
under which several units share each dword (R74; notes/assumptions/79.md). -/
def CopyCmd.take (k : CopyCmd) (key va n : Nat) (unit : Nat → Nat) : Source :=
  let base := va / 8 * 8
  let js := List.range ((va % 8 + n + 7) / 8)
  let dw (j : Nat) : Nat := (base + 8 * j) % 2 ^ 64
  match js.filter (fun j => (k.fetched key (dw j)).isNone) with
  | [] =>
    let fs := js.filterMap (fun j => k.fetched key (dw j))
    .got (packNats 64 (fs.map Fetch.value) / 2 ^ (8 * (va % 8)) % 2 ^ (8 * n)) (fs.find? Fetch.marked)
  | l => .want (l.map (fun j =>
      let a := max va (base + 8 * j)
      { key := key, va := dw j, at_ := a % 2 ^ 64, unit := unit (a - va) }))

/-- A byte, then further bytes above it. -/
def Source.below (lo hi : Source) : Source :=
  match lo, hi with
  | .fail r, _ => .fail r
  | _, .fail r => .fail r
  | .want l, .want l2 => .want (l ++ l2)
  | .want l, _ => .want l
  | _, .want l => .want l
  | .got x a, .got y b => .got (x + 256 * y) (a.orElse (fun _ => b))

/-! ## Payload writes (R74, R77, R173, R281) -/

/-- The session of a command to an endpoint. -/
def CopyCmd.session (k : CopyCmd) (dst : Ep) : Stream := Assoc.get k.streams dst.toNat { bound := true, ep := dst }

/-- Bytes of one dword written at the core's own bank or store, as one event, but for those in its gaps. -/
def State.writeOwn (s : State) (pa n x : Nat) (mark : Bool) (gaps : Nat := 0) : State :=
  let cells := if gaps = 0 then cellsOf pa n x else (cellsOf pa n x).filter (fun c => !gaps.testBit (c.1 - pa))
  (s.writeDword none (dwordAt pa) cells (if n = 8 && gaps = 0 then some mark else if mark then some true else none)).serve (dwordAt pa)

/-- A run of bytes that a copy writes: virtual and physical address, length, data, mark, and the bytes among them that it does not write. -/
structure CopyRun where
  va : Dword
  pa : Nat
  n : Nat
  x : Nat
  mark : Bool := false
  gaps : Nat := 0
  deriving DecidableEq, Repr

/-- The dwords of a run of bytes at the core's own bank or store, each to be written as an event of its own (R59). -/
def CopyRun.puts (r : CopyRun) : List Put :=
  (piecesOf 8 r.pa r.n).map (fun w =>
    { pa := w.1, va := r.va, n := w.2, x := r.x / 2 ^ (8 * (w.1 - r.pa)) % 2 ^ (8 * w.2), mark := r.mark, gaps := r.gaps / 2 ^ (w.1 - r.pa) % 2 ^ w.2 })

/-- The WRITE that carries a run of bytes: poison mask, and in its note the dwords written whole (R297, R299). -/
def CopyCmd.payloadPacket (k : CopyCmd) (ep : Ep) (r : CopyRun) : Packet :=
  let ⟨va, pa, n, x, mark, gaps⟩ := r
  let base := dwordAt pa
  let dws := List.range ((pa % 8 + n + 7) / 8)
  let whole := dws.filter (fun i => decide (pa ≤ base + 8 * i ∧ base + 8 * i + 8 ≤ pa + n) && gaps / 2 ^ (base + 8 * i - pa) % 2 ^ 8 = 0)
  { type := .write, dst := homeEp pa, src := ep, ctx := k.ctx, str := 8, cqe := k.cqe, pa := BitVec.ofNat 54 base,
    len := BitVec.ofNat 9 (8 * dws.length), payload := x % 2 ^ (8 * n) * 2 ^ (8 * (pa % 8)), be := BitVec.ofNat 256 ((2 ^ n - 1 - gaps) * 2 ^ (pa % 8)),
    pmask := if mark then BitVec.ofNat 32 (2 ^ dws.length - 1) else 0,
    note := whole.foldl (fun w i => w + 2 ^ i) 0, vas := [va] }

/-! ## What a unit does -/

/-- Bytes that a unit writes, but for its gaps, with the unit named for the byte at offset o: `unit` + o × `num` / `den`. -/
structure CopyWrite where
  va : Nat := 0
  n : Nat := 8
  x : Nat := 0
  mark : Bool := false
  gaps : Nat := 0
  unit : Nat := 0
  num : Nat := 1
  den : Nat := 1
  deriving DecidableEq, Repr

/-- What a unit does next: it wants dwords, or writes, with the command and the table slot after it, or is an atomic of SCTA, or fails the command,
which is then as given (R227). -/
inductive UnitStep where
  | want (l : List Want)
  | work (l : List CopyWrite) (k : CopyCmd) (slot : Option (BitVec 2 × TableSlot))
  | add (va : Dword) (size x unit : Nat)
  | fail (r : FaultReq) (k : CopyCmd)
  deriving DecidableEq, Repr

/-- A source whose mark travels with its bytes, written to an address, but for its gaps (R227, R281). -/
def Source.store (r : Source) (k : CopyCmd) (va n unit : Nat) (gaps : Nat := 0) : UnitStep :=
  match r with
  | .want l => .want l
  | .fail r => .fail r k
  | .got x bad => .work [{ va := va, n := n, x := x, mark := bad.isSome, gaps := gaps, unit := unit }] k none

/-- A source whose mark fails the command, named with a unit; its value goes on (R227). -/
def Source.clean (r : Source) (k : CopyCmd) (unit : Fetch → Nat) (f : Nat → UnitStep) : UnitStep :=
  match r with
  | .want l => .want l
  | .fail r => .fail r k
  | .got _ (some b) => .fail (k.poisonAt b.pa (BitVec.ofNat 64 b.va) (unit b)) k
  | .got x none => f x

/-- Eight copies of a byte. -/
def fill8 (b : Nat) : Nat := b % 256 * 0x0101010101010101

/-- The byte offset by which AUX2 counts byte `o` of a tile: each row's 128 bytes, then its scale bytes (R236, R274). -/
def tileUnit (nb o : Nat) : Nat :=
  if o < 2048 then o / 128 * (128 + nb) + o % 128
  else
    let q := o - 2048
    if q < 16 * nb then q / nb * (128 + nb) + 128 + q % nb else 16 * (128 + nb) + (q - 16 * nb)

/-- Tile row `i` lies inside the tensor (R236). -/
def CopyCmd.inside (k : CopyCmd) (i : Nat) : Bool :=
  let d1 := (k.record.getD 1 0).toNat
  decide (k.op 2 % 2 ^ 32 + i < d1 / 2 ^ 32 ∧ k.op 2 / 2 ^ 32 < d1 % 2 ^ 32)

/-- Address of a byte of a tensor row (R236). -/
def CopyCmd.rowVa (k : CopyCmd) (i o : Nat) : Nat :=
  ((k.record.getD 0 0).toNat + (k.op 2 % 2 ^ 32 + i) * ((k.record.getD 2 0).toNat % 2 ^ 40) + 128 * (k.op 2 / 2 ^ 32) + o) % 2 ^ 64

/-- Address of scale byte `b` of a row (R233). -/
def CopyCmd.scaleVa (k : CopyCmd) (i b : Nat) : Nat :=
  ((k.record.getD 4 0).toNat + (k.op 2 % 2 ^ 32 + i) * ((k.record.getD 5 0).toNat % 2 ^ 40) +
    k.op 2 / 2 ^ 32 * shapeNb k.record + b) % 2 ^ 64

/-- The unit named for byte `o` that a command moves: its byte offset, which a TLD counts row by row (R236, R274), into a ring too.
(DEDUCED, notes/assumptions/56.md.) -/
def CopyCmd.unitOf (k : CopyCmd) (o : Nat) : Nat := if k.eop = 3 then tileUnit (shapeNb k.record) o else o

/-- Byte `o` of a TLD's tile: of a row, of its scale block, or fill (R236). -/
def CopyCmd.tileByte (k : CopyCmd) (o : Nat) : Source :=
  let nb := shapeNb k.record
  let q := o - 2048
  if o < 2048 then
    if k.inside (o / 128) then k.take (k.total + 1) (k.rowVa (o / 128) (o % 128)) 1 (fun _ => k.unitOf o)
    else .got (fld (k.record.getD 3 0) 0 8).toNat none
  else if q < 16 * nb && k.inside (q / nb) then k.take k.total (k.scaleVa (q / nb) (q % nb)) 1 (fun _ => k.unitOf o)
  else .got (fld (k.record.getD 3 0) 8 8).toNat none

/-- Some bytes of a TLD's tile, in their order (R236). -/
def CopyCmd.tileSource (k : CopyCmd) : List Nat → Source
  | [] => .got 0 none
  | o :: r => (k.tileByte o).below (k.tileSource r)

/-- The index of an element, of a dword read once (R74, R237, R238); a poisoned one fails the command. (DEDUCED, notes/assumptions/30.md.) -/
def CopyCmd.index (k : CopyCmd) (e : Nat) : Source :=
  match k.take k.total ((k.op 2 + 4 * e) % 2 ^ 64) 4 (fun _ => e * k.sz) with
  | .got _ (some b) => .fail (k.poisonAt b.pa (BitVec.ofNat 64 b.va) (e * k.sz))
  | x => x

/-- The address of a byte of an indexed element (R238). -/
def CopyCmd.elemVa (k : CopyCmd) (base x off : Nat) : Nat := (k.op base + x * k.sz + off) % 2 ^ 64

/-- Source dword `i` of CPY, CPYS, CPF, TLD, GTH and SCT (R228, R236, R238). -/
def CopyCmd.source (k : CopyCmd) (i : Nat) : Source :=
  let o := 8 * i
  match k.eop.toNat with
  | 1 => k.take i ((k.op 1 + o / k.op 2 * k.op 5 + o % k.op 2) % 2 ^ 64) 8 (fun _ => k.unitOf o)
  | 2 => .got (k.op 1) none
  | 3 =>
    if o < 2048 then
      if k.inside (o / 128) then k.take (k.total + 1) (k.rowVa (o / 128) (o % 128)) 8 (fun j => k.unitOf (o + j))
      else .got (fill8 (fld (k.record.getD 3 0) 0 8).toNat) none
    else k.tileSource ((List.range 8).map (fun j => o + j))
  | 5 =>
    match k.index (o / k.sz) with
    | .got x _ => if x = 0xFFFFFFFF then .got 0 none else k.take i (k.elemVa 1 x (o % k.sz)) 8 (fun _ => o)
    | x => x
  | _ => k.take i ((k.op 1 + o) % 2 ^ 64) 8 (fun _ => k.unitOf o)

/-- The destination address of dword `i` of CPY, CPYS, CPF, TLD and GTH. -/
def CopyCmd.destVa (k : CopyCmd) (i : Nat) : Nat :=
  if k.eop = 1 then (k.op 0 + 8 * i / k.op 2 * k.op 4 + 8 * i % k.op 2) % 2 ^ 64 else (k.op 0 + 8 * i) % 2 ^ 64

/-- Dword `i` that a command of these moves. -/
def CopyCmd.moveUnit (k : CopyCmd) (i : Nat) : UnitStep := (k.source i).store k (k.destVa i) 8 (k.unitOf (8 * i))

/-- The dwords of memory that a TLD to an address of no alignment writes, each with the bytes of the tile that it takes: one event of one unit (R59, R235,
R236). -/
def CopyCmd.tileDwords (k : CopyCmd) : List (Nat × Nat) := piecesOf 8 (k.op 0) k.bytes

/-- A TLD writes a tile in another place than a ring, at no multiple of 8 (R235). -/
def CopyCmd.unaligned (k : CopyCmd) : Bool := k.eop = 3 && k.ring.isNone && k.op 0 % 8 ≠ 0

/-- A unit of a TLD to memory (R236). -/
def CopyCmd.tileUnitAt (k : CopyCmd) (i : Nat) : UnitStep :=
  if k.unaligned then
    let w := k.tileDwords.getD i (0, 0)
    let o := w.1 - k.op 0
    (k.tileSource ((List.range w.2).map (fun j => o + j))).store k (w.1 % 2 ^ 64) w.2 (k.unitOf o)
  else k.moveUnit i

/-- A dword of SCT (R238). -/
def CopyCmd.scatterUnit (k : CopyCmd) (i : Nat) : UnitStep :=
  match k.index (8 * i / k.sz) with
  | .want l => .want l
  | .fail r => .fail r k
  | .got x _ =>
    if x = 0xFFFFFFFF then .work [] k none else (k.source i).store k (k.elemVa 0 x (8 * i % k.sz)) 8 (8 * i)

/-- The operation of an SCTA operand (R238). -/
def CopyCmd.sopOp (k : CopyCmd) : MemOp :=
  match k.sop with
  | 2 => .amf 2
  | 3 => .amf 3
  | _ => .ami 0

/-- An operand of SCTA (R238). -/
def CopyCmd.addUnit (k : CopyCmd) (i : Nat) : UnitStep :=
  let w := k.sopBytes
  let o := w * i
  match k.index (o / k.sz) with
  | .want l => .want l
  | .fail r => .fail r k
  | .got x _ =>
    if x = 0xFFFFFFFF then .work [] k none
    else (k.take (k.total + 1) ((k.op 1 + o) % 2 ^ 64) w (fun _ => o)).clean k (fun _ => o) (fun v =>
      .add (BitVec.ofNat 64 (k.elemVa 0 x (o % k.sz))) w v o)

/-- Where scale byte `q` of a tile lies in the tensor, when TST writes it (R233, R236). -/
def CopyCmd.scaleAt (k : CopyCmd) (q : Nat) : Option Nat :=
  let nb := shapeNb k.record
  if q < 16 * nb && k.inside (q / nb) then some (k.scaleVa (q / nb) (q % nb)) else none

/-- The scale bytes that TST writes to one dword of the tensor, as one event, each with its address, lowest scale byte first (R59). -/
def CopyCmd.scalesIn (k : CopyCmd) (dw : Nat) : List (Nat × Nat) :=
  (List.range (16 * shapeNb k.record)).filterMap (fun q => (k.scaleAt q).bind (fun a => if a / 8 = dw then some (q, a) else none))

/-- Byte `o` of the tile that TST stores. -/
def CopyCmd.storedByte (k : CopyCmd) (o : Nat) : Source := k.take k.total ((k.op 0 + o) % 2 ^ 64) 1 (fun _ => tileUnit (shapeNb k.record) o)

/-- The bytes of some addresses one after the other, each the last scale byte that goes there, and those that none goes to as gaps. -/
def CopyCmd.scaleBytes (k : CopyCmd) (l : List (Nat × Nat)) : List Nat → Source × Nat
  | [] => (.got 0 none, 0)
  | a :: r =>
    let (rest, gaps) := k.scaleBytes l r
    match (l.filter (fun w => w.2 = a)).getLast? with
    | some w => ((k.storedByte (2048 + w.1)).below rest, 2 * gaps)
    | none => (Source.below (.got 0 none) rest, 2 * gaps + 1)

/-- The scale bytes of one dword of the tensor, from the lowest address to the highest of them. -/
def CopyCmd.scaleUnit (k : CopyCmd) (l : List (Nat × Nat)) (first : Nat × Nat) : UnitStep :=
  let n := l.foldl (fun n w => max n (w.2 - first.2 + 1)) 1
  let (bytes, gaps) := k.scaleBytes l ((List.range n).map (fun j => first.2 + j))
  bytes.store k first.2 n (tileUnit (shapeNb k.record) (2048 + first.1)) gaps

/-- A unit of TST: a dword of a row, or the scale bytes that one dword of the tensor takes, done with the first of them (R59, R236;
notes/assumptions/79.md). -/
def CopyCmd.tensorUnit (k : CopyCmd) (i : Nat) : UnitStep :=
  let nb := shapeNb k.record
  if i < 256 then
    let o := 8 * i
    if k.inside (o / 128) then
      (k.take k.total ((k.op 0 + o) % 2 ^ 64) 8 (fun _ => tileUnit nb o)).store k (k.rowVa (o / 128) (o % 128)) 8 (tileUnit nb o)
    else .work [] k none
  else
    match k.scaleAt (i - 256) with
    | none => .work [] k none
    | some va =>
      let l := k.scalesIn (va / 8)
      match l.head? with
      | some first => if first.1 = i - 256 then k.scaleUnit l first else .work [] k none
      | none => .work [] k none

/-! ## The codec's commands -/

/-- The slot a command names in bits [1:0] of its control word. -/
def CopyCmd.slot (k : CopyCmd) : BitVec 2 :=
  BitVec.ofNat 2 (match k.eop.toNat with | 8 => k.op 3 | 10 => k.op 2 | _ => k.op 0)

/-- Replaces a table slot. -/
def State.setSlot (s : State) (ep : Ep) (n : BitVec 2) (x : TableSlot) : State :=
  let c := s.core ep
  s.setCore ep { c with slots := vset n x c.slots }

/-- A table slot. -/
def State.slot (s : State) (ep : Ep) (n : BitVec 2) : TableSlot := vget n (s.core ep).slots

/-- HIST of up to eight bytes (R242). -/
def CopyCmd.histUnit (k : CopyCmd) (slots : Vector TableSlot 4) (i : Nat) : UnitStep :=
  let n := min 8 (k.bytes - 8 * i)
  (k.take k.total ((k.op 0 + 8 * i) % 2 ^ 64) n (fun o => 8 * i + o)).clean k (fun b => max b.va (k.op 0 + 8 * i) - k.op 0) (fun x =>
    let w := vget k.slot slots
    let full : List Word := (List.range 256).map (fun b => w.hist.getD b 0)
    let h := (unpackNats 8 n x).foldl (fun (h : List Word) b =>
      h.set b (if h.getD b 0 = 0xFFFFFFFF then 0xFFFFFFFF else h.getD b 0 + 1)) full
    .work [] k (some (k.slot, { w with hist := h })))

/-- TBLD (R243). -/
def CopyCmd.tableUnit (k : CopyCmd) (slots : Vector TableSlot 4) : UnitStep :=
  let w := vget k.slot slots
  let tag : BitVec 8 := BitVec.ofNat 8 (k.op 0 / 2 ^ 8)
  let lens4 (l : List Nat) : List (BitVec 4) := l.map (BitVec.ofNat 4)
  match k.op 0 / 2 ^ 16 % 4 with
  | 0 => .work [] k (some (k.slot, { w with lens := lens4 (buildLengths w.hist), tag := tag }))
  | 1 =>
    (k.take 0 (k.op 1) 256 (fun o => o)).clean k (fun b => b.va - k.op 1) (fun x =>
      let l := unpackNats 8 256 x
      if tableOk l then .work [] k (some (k.slot, { w with lens := lens4 l, tag := tag })) else .fail (k.codecAt 0 6 k.slot.toNat) k)
  | _ => .work [{ va := k.op 1, n := 256, x := packNats 8 ((List.range 256).map (fun i => (w.lens.getD i 0).toNat)) }] k none

/-- A block of CPZ, or after the last the output length at lenw (R244). A dword of the source in which two blocks meet is read once (R74).
The length may be performed before bytes of the blocks are. (DESIGN CHOICE, notes/assumptions/94.md.) -/
def CopyCmd.codeUnit (k : CopyCmd) (slots : Vector TableSlot 4) (i : Nat) : UnitStep :=
  if k.bytes ≤ 4096 * i then .work [{ va := k.op 4, x := k.outLen, unit := i, num := 0 }] k none
  else
    (k.take k.total ((k.op 1 + 4096 * i) % 2 ^ 64) (min 4096 (k.bytes - 4096 * i)) (fun _ => i)).clean k (fun _ => i) (fun x =>
      let w := vget k.slot slots
      let b := encodeBlock w.lens w.tag k.slot (unpackNats 8 4096 x)
      .work [{ va := (k.op 0 + k.outLen) % 2 ^ 64, n := b.length, x := packNats 8 b, unit := i, num := 0 }]
        { k with outLen := k.outLen + b.length } none)

/-- A block of a coded stream: its raw bytes and the bytes it takes, or why not (R245). -/
inductive BlockEnd where
  | want (l : List Want)
  | raw (bytes : List Nat) (size : Nat)
  | wrong (r : FaultReq) (size : Option Nat)

/-- Checks block `i` of CPX at the command's place in its source (R245). -/
def CopyCmd.expandBlock (k : CopyCmd) (slots : Vector TableSlot 4) (i : Nat) : BlockEnd :=
  let src := (k.op 1 + k.srcPos) % 2 ^ 64
  match k.take i src 16 (fun _ => i) with
  | .want l => .want l
  | .fail r => .wrong r none
  | .got _ (some b) => .wrong (k.poisonAt b.pa (BitVec.ofNat 64 b.va) i) none
  | .got hd none =>
    let h := readHeader hd
    let size := 16 + paddedLen h.clen
    match h.wrong (BitVec.ofNat 4 (k.op 3)) (fun n => (vget n slots).tag) with
    | some r => .wrong (k.codecAt i r h.slot.toNat) (if 2 ≤ h.mode || !h.clenOk then none else some size)
    | none =>
      match k.take i ((src + 16) % 2 ^ 64) (paddedLen h.clen) (fun _ => i) with
      | .want l => .want l
      | .fail r => .wrong r none
      | .got _ (some b) => .wrong (k.poisonAt b.pa (BitVec.ofNat 64 b.va) i) (some size)
      | .got x none =>
        match decodePayload (vget h.slot slots).lens h x with
        | .ok raw => .raw raw size
        | .error r => .wrong (k.codecAt i r h.slot.toNat) (some size)

/-- The raw bytes of block `i` that a CPX uses (R245). -/
def CopyCmd.blockUse (k : CopyCmd) (i : Nat) : Nat := min 4096 (k.bytes - 4096 * i)

/-- Block `i` of CPX: to memory, or for a ring into the buffer from which its dwords are pushed (R245). One that is wrong ends the command; where its
length is known, later blocks to memory may have been expanded with it, and none to a ring (R258; DESIGN CHOICE, notes/assumptions/88.md). A dword of the
destination in which two blocks meet is written with the second of them, as one event (R59). -/
def CopyCmd.expandUnit (k : CopyCmd) (slots : Vector TableSlot 4) (i : Nat) : UnitStep :=
  match k.expandBlock slots i with
  | .want l => .want l
  | .wrong r size =>
    match k.ring, size with
    | none, some n => .fail r { k with spec := true, srcPos := k.srcPos + n, next := i + 1 }
    | _, _ => .fail r { k with spec := false }
  | .raw bytes size =>
    let used := bytes.take (k.blockUse i)
    let k1 := { k with srcPos := k.srcPos + size }
    match k.ring with
    | some _ =>
      .work [] { k1 with
        outLen := i + 1,
        buf := k.buf ++ (List.range (used.length / 8)).map (fun j => (512 * i + j, packNats 8 ((used.drop (8 * j)).take 8))) } none
    | none =>
      let at_ := k.op 0 + 4096 * i
      let rest := if i + 1 = k.total then 0 else (at_ + used.length) % 8
      let joint := if k.tail.isEmpty then 0 else 8 - k.tail.length
      let here : List CopyWrite := [{ va := (at_ + joint) % 2 ^ 64, n := used.length - joint - rest,
                                      x := packNats 8 ((used.drop joint).take (used.length - joint - rest)), unit := i, num := 0 }]
      let met : List CopyWrite := if k.tail.isEmpty then [] else
        [{ va := (at_ - k.tail.length) % 2 ^ 64, x := packNats 8 (k.tail ++ used.take joint), unit := i - 1, num := 0 }]
      .work (met ++ here) { k1 with tail := used.drop (used.length - rest) } none

/-! ## TERN (R247) -/

/-- One group: its trits as 0, 1 or 2, its scale byte and its flags. `g` is the group's index.
(DEDUCED, notes/assumptions/34.md.) -/
def CopyCmd.ternGroup (k : CopyCmd) (g : Nat) (ws : List Nat) : List Nat × Nat × Flags :=
  let vs := ws.map bf16.decode
  if unquantisable vs then (ws.map (fun _ => 1), 0xFF, { nv := true })
  else
    let mags := vs.map (fun v => match v with | .fin _ m e _ => Num.fin false m e false | x => x)
    let sum := mags.foldl (fun (a m : Num) => (a.add .rne m).1) (.fin false 0 0 false)
    let (x, sf) : Nat × Flags := match sum with
      | .fin _ 0 _ _ => (0x7F, {})
      | .fin _ m e r => toE8M0 .rne 0 (.fin false m (e - 7) r)
      | _ => (0x7F, {})
    let theta := if k.op 4 % 2 ^ 16 = 0 then Num.fin false 1 (-1) false else bf16.decode (k.op 4 % 2 ^ 16)
    let bound := (theta.mul (.fin false 1 ((x : Int) - 127) false)).1
    let one (e : Nat) (v : Num) : Nat × Bool :=
      match v with
      | .fin neg m ex _ =>
        if m = 0 then (1, false)
        else
          let (q, nx) : Nat × Bool :=
            if k.op 4 / 2 ^ 16 % 2 = 0 then (b2n (!(Num.fin false m ex false).lt bound), false)
            else
              let scaledE := ex - ((x : Int) - 127)
              if !(Num.fin false m scaledE false).lt (.fin false 1 0 false) then (1, false)
              else roundTo .sr false m scaledE 0 false
                (randomWord (BitVec.ofNat 128 (k.key1.toNat * 2 ^ 64 + k.key0.toNat)) k.did (k.base + BitVec.ofNat 64 (32 * g)) e)
          (if q = 0 then 1 else if neg then 0 else 2, nx)
      | _ => (1, false)
    let r := ((List.range ws.length).zip vs).map (fun w => one w.1 w.2)
    (r.map Prod.fst, x, { of_ := sf.of_, uf := sf.uf, nx := r.any Prod.snd })

/-- Five trits as a byte (R85). -/
def t5Pack : List Nat → List Nat
  | a :: b :: c :: d :: e :: r => (a + 3 * b + 9 * c + 27 * d + 81 * e) :: t5Pack r
  | _ => []

/-- `n` groups from group `g` on, of dwords read once for all units: their trits, scale bytes and flags, handed on (R74, R247). -/
def CopyCmd.ternGroups (k : CopyCmd) (g n : Nat) (f : List (List Nat × Nat × Flags) → UnitStep) : UnitStep :=
  let src := (k.op 1 + 256 * g) % 2 ^ 64
  (k.take k.total src (256 * n) (fun o => g + o / 256)).clean k (fun b => g + (b.va - src) / 256) (fun x =>
    let ws := unpackNats 16 (128 * n) x
    f ((List.range n).map (fun i => k.ternGroup (g + i) ((ws.drop (128 * i)).take 128))))

/-- A unit of TERN: the 128 bytes of trits of five groups, or after all of these the scale bytes that lie in one dword (R59, R247). -/
def CopyCmd.ternUnit (k : CopyCmd) (j : Nat) : UnitStep :=
  let trits := k.bytes / 1280
  if j < trits then
    k.ternGroups (5 * j) 5 (fun gs =>
      let fl := gs.foldl (fun a w => Flags.or a w.2.2) Flags.none
      .work [{ va := (k.op 0 + 128 * j) % 2 ^ 64, n := 128, x := packNats 8 (t5Pack (gs.flatMap (fun w => w.1))), unit := 5 * j, num := 5, den := 128 }]
        { k with flags := k.flags ||| BitVec.ofNat 8 fl.bits.toNat } none)
  else
    let (va, n) := (piecesOf 8 (k.op 3) (k.op 2)).getD (j - trits) (0, 0)
    let g := va - k.op 3
    k.ternGroups g n (fun gs => .work [{ va := va % 2 ^ 64, n := n, x := packNats 8 (gs.map (fun w => w.2.1)), unit := g }] k none)

/-- Units of work of a command, known at issue (R225). -/
def CopyCmd.units (k : CopyCmd) : Nat :=
  match k.eop.toNat with
  | 3 => if k.unaligned then k.tileDwords.length else k.bytes / 8
  | 4 => 256 + 16 * shapeNb k.record
  | 7 => k.bytes / k.sopBytes
  | 8 => (k.bytes + 4095) / 4096 + 1
  | 9 => if k.ring.isSome then k.bytes / 8 else (k.bytes + 4095) / 4096
  | 10 => (k.bytes + 7) / 8
  | 11 => 1
  | 12 => k.bytes / 1280 + (piecesOf 8 (k.op 3) (k.op 2)).length
  | _ => k.bytes / 8

/-- Unit `i` of a command, from the dwords it has read and the table slots. -/
def CopyCmd.unitStep (k : CopyCmd) (slots : Vector TableSlot 4) (i : Nat) : UnitStep :=
  match k.eop.toNat with
  | 3 => k.tileUnitAt i
  | 4 => k.tensorUnit i
  | 6 => k.scatterUnit i
  | 7 => k.addUnit i
  | 8 => k.codeUnit slots i
  | 9 => k.expandUnit slots i
  | 10 => k.histUnit slots i
  | 11 => k.tableUnit slots
  | 12 => k.ternUnit i
  | _ => k.moveUnit i

end Sys2Proof.Machine
end

