-- ==== Sys2Proof/WellFormed.lean ====
section
/-! DEFINITION. The ranges of field values that the entries accept (R123, R147 and each entry): a word whose fields break them
takes an illegal-instruction trap before any effect. -/

namespace Sys2Proof

/-- A register field that names g1 to g27. -/
def isG (r : Reg) : Bool := 1 ≤ r.toNat && r.toNat ≤ 27

/-- A field of five bits that names a mask register (R147). -/
def isMask (r : Reg) : Bool := r.toNat ≤ 7

/-- The system registers of R154. -/
def sregAssigned (n : BitVec 10) : Bool :=
  let x := n.toNat
  x ≤ 2 || (8 ≤ x && x ≤ 13) || (16 ≤ x && x ≤ 22) || (24 ≤ x && x ≤ 26) || (32 ≤ x && x ≤ 39) || (64 ≤ x && x ≤ 81)
    || x = 96 || x = 97

/-- The system registers MTS may not name (R153, R154). -/
def sregReadOnly (n : BitVec 10) : Bool :=
  let x := n.toNat
  x = 0 || (16 ≤ x && x ≤ 19) || x = 25 || (32 ≤ x && x ≤ 39) || (72 ≤ x && x ≤ 75) || x = 80 || x = 81 || x = 96 || x = 97

/-- Field ranges of a copy command whose operand block has `k` registers (R223). -/
def OpCopy.ok (o : OpCopy) (k : Nat) : Bool :=
  1 ≤ o.o1.toNat && o.o1.toNat + k ≤ 28 &&
    (match o.m.toNat with
     | 0 => o.o2 = 0 && o.o3 = 0
     | 1 => isG o.o2 && o.o3.toNat ≤ 27
     | 2 => isG o.o2 && o.o3 = 0
     | _ => false)

/-- A streamed atomic returns nothing, so its d field is 0 (R182). -/
def OpAtomic.dOk (o : OpAtomic) : Bool := o.strm = 0 || o.d = 0

/-- As `OpAtomic.dOk` for the atomics of one width. -/
def OpAtomicF.dOk (o : OpAtomicF) : Bool := o.strm = 0 || o.d = 0

/-- Target codes and counts of `waitq` (R194). -/
def OpWaitq.ok (o : OpWaitq) : Bool :=
  let c := o.code.toNat
  1 ≤ c && c ≤ 12 && 1 ≤ o.n.toNat && o.n.toNat ≤ (if c ≤ 8 then 32 else 63)

/-- A prefix field that is not given must be zero (R115). -/
def OpFmt.ok (o : OpFmt) : Bool := (o.va = 1 || o.fa = 0) && (o.vb = 1 || o.fb = 0) && (o.vr = 1 || o.rm = 0)

/-- The field ranges of every instruction; a step that no word encodes has none. -/
def Instr.wellFormed : Instr → Bool
  | .aadd o | .aand o | .aor o | .axor o | .amin o | .amax o | .aminn o | .amaxn o | .aswp o | .afadd2 o => o.dOk
  | .afadd o | .afmax o | .afmin o => o.dOk
  | .send o => !(o.kind = 1 && o.nr = 1) && o.a.toNat < 28 && (o.a = 0 || o.a.toNat + o.np.toNat ≤ 27)
  | .waitq o => o.ok
  | .qlen o => 1 ≤ o.code.toNat && o.code.toNat ≤ 12
  | .mfs o => sregAssigned o.sreg
  | .mts o => sregAssigned o.imm && !sregReadOnly o.imm
  | .spawn o => 1 ≤ o.a.toNat && o.a.toNat ≤ 23
  | .enq o => 1 ≤ o.a.toNat && o.a.toNat ≤ 26
  | .cpy o | .cpf o | .tld o | .tst o | .hist o => o.ok 3
  | .cpys o => o.ok 6
  | .gth o | .sct o | .scta o | .cpx o => o.ok 4
  | .cpz o | .tern o => o.ok 5
  | .tbld o => o.ok 2
  | .mmt o | .mmtz o => o.o2.toNat ≤ 7 && o.o3.toNat ≤ 7
  | .mwait _ => true
  | .bfi o => isG o.d
  | .sel o => o.c.toNat ≤ 27
  | .movvsD o | .movsvD o => o.lane.toNat ≤ 7
  | .movvsW o | .movsvW o => o.lane.toNat ≤ 15
  | .mvgk o => isMask o.d
  | .mvkg o | .kpop o | .kfirst o => isMask o.a
  | .kand o | .kor o | .kxor o | .kandn o => isMask o.d && isMask o.a && isMask o.b
  | .knot o => isMask o.d && isMask o.a
  | .fmt o => o.ok
  | .vcmpeq o | .vcmplt o | .vcmpltu o | .vcmple o | .vcmpleu o => isMask o.d
  | .vfcmpeq o | .vfcmplt o | .vfcmple o | .vfcmpun o => isMask o.d
  | .vsel o => o.k ≠ 0
  | _ => true

/-- The rows of the opcode table that a word encodes. -/
def Instr.isC (i : Instr) : Bool :=
  match i with
  | .ld _ | .ldX _ | .st _ | .vld _ | .vldX _ | .vst _ | .ldf _ | .ldff _ | .stf _ | .stff _ | .sete _ | .qfe _ | .waita _ => true
  | .aadd _ | .aand _ | .aor _ | .axor _ | .amin _ | .amax _ | .aminn _ | .amaxn _ | .aswp _ | .acas _ | .afadd _ | .afadd2 _ => true
  | .afmax _ | .afmin _ | .sig _ | .send _ | .waitq _ | .qlen _ | .beq _ | .bne _ | .blt _ | .bge _ | .bltu _ | .bgeu _ => true
  | .bbs _ | .bbc _ | .jal _ | .mfs _ | .mts _ | .jalr _ | .trap _ | .rett | .bkpt _ | .yield | .quit | .spawn _ | .fns _ => true
  | .fnc | .ifnc | .enq _ | .bar _ | .bara _ | .barw _ | .barq _ | .cpy _ | .cpys _ | .cpf _ | .tld _ | .tst _ | .gth _ => true
  | .sct _ | .scta _ | .cpz _ | .cpx _ | .hist _ | .tbld _ | .tern _ | .mmt _ | .mmtz _ | .mdr _ | .mld _ | .mst _ => true
  | .mclr _ | .mwait _ | .vgldW _ | .vgldD _ | .vgstW _ | .vgstD _ => true
  | _ => false

end Sys2Proof
end

