-- ==== Sys2Proof/Machine/Regs.lean ====
section
/-! DEFINITION. The registers each instruction names: destinations for the check of R110 reason 5, sources for the checks of R284
and for a bundle's pending operands (R111). -/

namespace Sys2Proof

/-- `n` registers from `a` up. -/
def regBlock (a : Reg) (n : Nat) : List Reg := (List.range n).map (fun i => a + BitVec.ofNat 5 i)

/-- The payload registers of SEND: none when a = 0 (R189). -/
def sendRegs (a : Reg) (np : BitVec 2) : List Reg := if a = 0 then [] else regBlock a (np.toNat + 1)

/-- How many registers a copy command's operand block has (R225). -/
def Instr.copyBlock : Instr → Nat
  | .cpy _ => 3
  | .cpf _ => 3
  | .tld _ => 3
  | .tst _ => 3
  | .hist _ => 3
  | .cpys _ => 6
  | .gth _ => 4
  | .sct _ => 4
  | .scta _ => 4
  | .cpx _ => 4
  | .cpz _ => 5
  | .tern _ => 5
  | .tbld _ => 2
  | _ => 0

/-- The registers a copy command reads: its operand block, the completion word's address and the value (R223). -/
def copyRegs (o : OpCopy) (k : Nat) : List Reg :=
  regBlock o.o1 k ++ (if o.m = 0 then [] else if o.m = 1 then [o.o2, o.o3] else [o.o2])

/-- The scalar register field an instruction writes. -/
def Instr.gDest : Instr → Option Reg
  | .ld o => some o.d
  | .ldX o => some o.d
  | .ldf o => some o.d
  | .ldff o => some o.d
  | .qfe o => some o.d
  | .waita o => some o.d
  | .aadd o => some o.d
  | .aand o => some o.d
  | .aor o => some o.d
  | .axor o => some o.d
  | .amin o => some o.d
  | .amax o => some o.d
  | .aminn o => some o.d
  | .amaxn o => some o.d
  | .aswp o => some o.d
  | .acas o => some (if o.strm = 0 then o.d else 0)
  | .afadd o => some o.d
  | .afadd2 o => some o.d
  | .afmax o => some o.d
  | .afmin o => some o.d
  | .waitq o => some o.d
  | .qlen o => some o.d
  | .jal o => some o.d
  | .mfs o => some o.d
  | .jalr o => some o.d
  | .spawn o => some o.d
  | .enq o => some o.d
  | .bar o => some o.d
  | .barw o => some o.d
  | .barq o => some o.d
  | .add o => some o.d
  | .sub o => some o.d
  | .andR o => some o.d
  | .orR o => some o.d
  | .xorR o => some o.d
  | .andn o => some o.d
  | .orn o => some o.d
  | .minR o => some o.d
  | .maxR o => some o.d
  | .minu o => some o.d
  | .maxu o => some o.d
  | .adds o => some o.d
  | .subs o => some o.d
  | .addus o => some o.d
  | .subus o => some o.d
  | .sll o => some o.d
  | .srl o => some o.d
  | .sra o => some o.d
  | .rol o => some o.d
  | .ror o => some o.d
  | .slli o => some o.d
  | .srli o => some o.d
  | .srai o => some o.d
  | .rori o => some o.d
  | .addi o => some o.d
  | .mul o => some o.d
  | .mulh o => some o.d
  | .mulhu o => some o.d
  | .mulhsu o => some o.d
  | .div o => some o.d
  | .divu o => some o.d
  | .rem o => some o.d
  | .remu o => some o.d
  | .clz o => some o.d
  | .ctz o => some o.d
  | .popc o => some o.d
  | .brev o => some o.d
  | .bswap o => some o.d
  | .sxb o => some o.d
  | .sxh o => some o.d
  | .sxw o => some o.d
  | .zxb o => some o.d
  | .zxh o => some o.d
  | .zxw o => some o.d
  | .bfx o => some o.d
  | .bfxu o => some o.d
  | .bfi o => some o.d
  | .lea o => some o.d
  | .leal o => some o.d
  | .seq o => some o.d
  | .sne o => some o.d
  | .slt o => some o.d
  | .sltu o => some o.d
  | .sle o => some o.d
  | .sleu o => some o.d
  | .seqi o => some o.d
  | .snei o => some o.d
  | .slti o => some o.d
  | .sltui o => some o.d
  | .slei o => some o.d
  | .sleui o => some o.d
  | .sgti o => some o.d
  | .sgtui o => some o.d
  | .sel o => some o.d
  | .movvsD o => some o.d
  | .movvsW o => some o.d
  | .mvkg o => some o.d
  | .kpop o => some o.d
  | .kfirst o => some o.d
  | .li o => some o.d
  | .draw o => some o.d
  | _ => none

/-- The vector register an instruction writes. -/
def Instr.vDest : Instr → Option Reg
  | .vld o => some o.d
  | .vldX o => some o.d
  | .vgldW o => some o.v
  | .vgldD o => some o.v
  | .movsvD o => some o.d
  | .movsvW o => some o.d
  | .vbcastD o => some o.d
  | .vbcastW o => some o.d
  | .vbcastH o => some o.d
  | .vbcastB o => some o.d
  | .vadd o => some o.d
  | .vsub o => some o.d
  | .vadds o => some o.d
  | .vsubs o => some o.d
  | .vaddus o => some o.d
  | .vsubus o => some o.d
  | .vmul o => some o.d
  | .vmulh o => some o.d
  | .vmulhu o => some o.d
  | .vmin o => some o.d
  | .vmax o => some o.d
  | .vminu o => some o.d
  | .vmaxu o => some o.d
  | .vand o => some o.d
  | .vor o => some o.d
  | .vxor o => some o.d
  | .vandn o => some o.d
  | .vsll o => some o.d
  | .vsrl o => some o.d
  | .vsra o => some o.d
  | .vsel o => some o.d
  | .vfadd o => some o.d
  | .vfsub o => some o.d
  | .vfmul o => some o.d
  | .vfdiv o => some o.d
  | .vfmin o => some o.d
  | .vfmax o => some o.d
  | .vfsqrt o => some o.d
  | .vrcp o => some o.d
  | .vrsq o => some o.d
  | .vexp2 o => some o.d
  | .vlog2 o => some o.d
  | .vfabs o => some o.d
  | .vfneg o => some o.d
  | .vfmaW o => some o.d
  | .vfmsW o => some o.d
  | .vfnmaW o => some o.d
  | .vfnmsW o => some o.d
  | .vfmaH o => some o.d
  | .vfmsH o => some o.d
  | .vfnmaH o => some o.d
  | .vfnmsH o => some o.d
  | .vdp2 o => some o.d
  | .vdp4 o => some o.d
  | .vdp4s o => some o.d
  | .vdp4u o => some o.d
  | .vcvt o => some o.d
  | .vqnt o => some o.d
  | .vqnts o => some o.d
  | .vdqt o => some o.d
  | .vpk o => some o.d
  | .vunp o => some o.d
  | .vtpk o => some o.d
  | .vtun o => some o.d
  | .vperm o => some o.d
  | .vsldu o => some o.d
  | .vsldd o => some o.d
  | .vcmpr o => some o.d
  | .vexpd o => some o.d
  | .vredi o => some o.d
  | .vredmax o => some o.d
  | .vredmin o => some o.d
  | .vredmaxu o => some o.d
  | .vredminu o => some o.d
  | .vredor o => some o.d
  | .vred o => some o.d
  | .vfredmax o => some o.d
  | .vfredmin o => some o.d
  | .vscani o => some o.d
  | .vfscan o => some o.d
  | .vdraw o => some o.d
  | _ => none

/-- The second vector register an instruction writes: the scales of `vqnt`, the upper lanes of a `vdqt` to FP32 (R219, R221). -/
def Instr.vDest2 (toFp32 : Bool) : Instr → Option Reg
  | .vqnt o => some o.x
  | .vdqt o => if toFp32 && o.d ≠ 31 then some (o.d + 1) else none
  | _ => none

/-- The vector registers an instruction writes; `toFp32` says that the pending FMT gives FB as FP32. -/
def Instr.vDests (toFp32 : Bool) (i : Instr) : List Reg := i.vDest.toList ++ (i.vDest2 toFp32).toList

/-- The scalar register fields an instruction reads, in the order in which ports are served (R28). -/
def Instr.gSrcs : Instr → List Reg
  | .ld o => [o.b]
  | .ldX o => [o.b]
  | .st o => [o.b, o.d]
  | .vld o => [o.b]
  | .vldX o => [o.b]
  | .vst o => [o.b]
  | .ldf o => [o.b, o.c]
  | .ldff o => [o.b, o.c]
  | .stf o => [o.d, o.b]
  | .stff o => [o.d, o.b]
  | .sete o => [o.b]
  | .qfe o => [o.b]
  | .waita o => [o.b, o.c]
  | .aadd o => [o.a, o.b]
  | .aand o => [o.a, o.b]
  | .aor o => [o.a, o.b]
  | .axor o => [o.a, o.b]
  | .amin o => [o.a, o.b]
  | .amax o => [o.a, o.b]
  | .aminn o => [o.a, o.b]
  | .amaxn o => [o.a, o.b]
  | .aswp o => [o.a, o.b]
  | .acas o => [o.a, o.b, o.d]
  | .afadd o => [o.a, o.b]
  | .afadd2 o => [o.a, o.b]
  | .afmax o => [o.a, o.b]
  | .afmin o => [o.a, o.b]
  | .sig o => [o.a, o.b]
  | .send o => o.t :: sendRegs o.a o.np
  | .waitq o => [o.a]
  | .beq o => [o.a, o.b]
  | .bne o => [o.a, o.b]
  | .blt o => [o.a, o.b]
  | .bge o => [o.a, o.b]
  | .bltu o => [o.a, o.b]
  | .bgeu o => [o.a, o.b]
  | .bbs o => [o.a, o.b]
  | .bbc o => [o.a, o.b]
  | .mts o => [o.a]
  | .jalr o => [o.a]
  | .trap o => [o.a]
  | .spawn o => regBlock o.a 5
  | .enq o => regBlock o.a 2
  | .bar o => [o.a]
  | .bara o => [o.a]
  | .barw o => [o.a]
  | .cpy o => copyRegs o 3
  | .cpys o => copyRegs o 6
  | .cpf o => copyRegs o 3
  | .tld o => copyRegs o 3
  | .tst o => copyRegs o 3
  | .gth o => copyRegs o 4
  | .sct o => copyRegs o 4
  | .scta o => copyRegs o 4
  | .cpz o => copyRegs o 5
  | .cpx o => copyRegs o 4
  | .hist o => copyRegs o 3
  | .tbld o => copyRegs o 2
  | .tern o => copyRegs o 5
  | .mmt o => [o.o1]
  | .mmtz o => [o.o1]
  | .mdr o => [o.o1, o.o3]
  | .mld o => [o.b]
  | .mst o => [o.b]
  | .vgldW o => [o.b]
  | .vgldD o => [o.b]
  | .vgstW o => [o.b]
  | .vgstD o => [o.b]
  | .add o => [o.a, o.b]
  | .sub o => [o.a, o.b]
  | .andR o => [o.a, o.b]
  | .orR o => [o.a, o.b]
  | .xorR o => [o.a, o.b]
  | .andn o => [o.a, o.b]
  | .orn o => [o.a, o.b]
  | .minR o => [o.a, o.b]
  | .maxR o => [o.a, o.b]
  | .minu o => [o.a, o.b]
  | .maxu o => [o.a, o.b]
  | .adds o => [o.a, o.b]
  | .subs o => [o.a, o.b]
  | .addus o => [o.a, o.b]
  | .subus o => [o.a, o.b]
  | .sll o => [o.a, o.b]
  | .srl o => [o.a, o.b]
  | .sra o => [o.a, o.b]
  | .rol o => [o.a, o.b]
  | .ror o => [o.a, o.b]
  | .slli o => [o.a]
  | .srli o => [o.a]
  | .srai o => [o.a]
  | .rori o => [o.a]
  | .addi o => [o.a]
  | .mul o => [o.a, o.b]
  | .mulh o => [o.a, o.b]
  | .mulhu o => [o.a, o.b]
  | .mulhsu o => [o.a, o.b]
  | .div o => [o.a, o.b]
  | .divu o => [o.a, o.b]
  | .rem o => [o.a, o.b]
  | .remu o => [o.a, o.b]
  | .clz o => [o.a]
  | .ctz o => [o.a]
  | .popc o => [o.a]
  | .brev o => [o.a]
  | .bswap o => [o.a]
  | .sxb o => [o.a]
  | .sxh o => [o.a]
  | .sxw o => [o.a]
  | .zxb o => [o.a]
  | .zxh o => [o.a]
  | .zxw o => [o.a]
  | .bfx o => [o.a, o.b]
  | .bfxu o => [o.a, o.b]
  | .bfi o => [o.a, o.b, o.d]
  | .lea o => [o.a, o.b]
  | .leal o => [o.a, o.b]
  | .seq o => [o.a, o.b]
  | .sne o => [o.a, o.b]
  | .slt o => [o.a, o.b]
  | .sltu o => [o.a, o.b]
  | .sle o => [o.a, o.b]
  | .sleu o => [o.a, o.b]
  | .seqi o => [o.a]
  | .snei o => [o.a]
  | .slti o => [o.a]
  | .sltui o => [o.a]
  | .slei o => [o.a]
  | .sleui o => [o.a]
  | .sgti o => [o.a]
  | .sgtui o => [o.a]
  | .sel o => [o.a, o.b, o.c]
  | .movsvD o => [o.a]
  | .movsvW o => [o.a]
  | .vbcastD o => [o.a]
  | .vbcastW o => [o.a]
  | .vbcastH o => [o.a]
  | .vbcastB o => [o.a]
  | .mvgk o => [o.a]
  | _ => []

/-- The vector registers an instruction reads beside its destination. -/
def Instr.vSrcs : Instr → List Reg
  | .vst o => [o.d]
  | .mdr o => [o.o2]
  | .vgldW o => [o.i]
  | .vgldD o => [o.i]
  | .vgstW o => [o.i, o.v]
  | .vgstD o => [o.i, o.v]
  | .movvsD o => [o.a]
  | .movvsW o => [o.a]
  | .vadd o => [o.a, o.b]
  | .vsub o => [o.a, o.b]
  | .vadds o => [o.a, o.b]
  | .vsubs o => [o.a, o.b]
  | .vaddus o => [o.a, o.b]
  | .vsubus o => [o.a, o.b]
  | .vmul o => [o.a, o.b]
  | .vmulh o => [o.a, o.b]
  | .vmulhu o => [o.a, o.b]
  | .vmin o => [o.a, o.b]
  | .vmax o => [o.a, o.b]
  | .vminu o => [o.a, o.b]
  | .vmaxu o => [o.a, o.b]
  | .vand o => [o.a, o.b]
  | .vor o => [o.a, o.b]
  | .vxor o => [o.a, o.b]
  | .vandn o => [o.a, o.b]
  | .vsll o => [o.a, o.b]
  | .vsrl o => [o.a, o.b]
  | .vsra o => [o.a, o.b]
  | .vcmpeq o => [o.a, o.b]
  | .vcmplt o => [o.a, o.b]
  | .vcmpltu o => [o.a, o.b]
  | .vcmple o => [o.a, o.b]
  | .vcmpleu o => [o.a, o.b]
  | .vsel o => [o.a, o.b]
  | .vfadd o => [o.a, o.b]
  | .vfsub o => [o.a, o.b]
  | .vfmul o => [o.a, o.b]
  | .vfdiv o => [o.a, o.b]
  | .vfmin o => [o.a, o.b]
  | .vfmax o => [o.a, o.b]
  | .vfsqrt o => [o.a]
  | .vrcp o => [o.a]
  | .vrsq o => [o.a]
  | .vexp2 o => [o.a]
  | .vlog2 o => [o.a]
  | .vfabs o => [o.a]
  | .vfneg o => [o.a]
  | .vfcmpeq o => [o.a, o.b]
  | .vfcmplt o => [o.a, o.b]
  | .vfcmple o => [o.a, o.b]
  | .vfcmpun o => [o.a, o.b]
  | .vfmaW o => [o.a, o.b, o.c]
  | .vfmsW o => [o.a, o.b, o.c]
  | .vfnmaW o => [o.a, o.b, o.c]
  | .vfnmsW o => [o.a, o.b, o.c]
  | .vfmaH o => [o.a, o.b, o.c]
  | .vfmsH o => [o.a, o.b, o.c]
  | .vfnmaH o => [o.a, o.b, o.c]
  | .vfnmsH o => [o.a, o.b, o.c]
  | .vdp2 o => [o.a, o.b, o.c]
  | .vdp4 o => [o.a, o.b, o.c]
  | .vdp4s o => [o.a, o.b, o.c]
  | .vdp4u o => [o.a, o.b, o.c]
  | .vcvt o => [o.a]
  | .vqnt o => [o.a, o.x]
  | .vqnts o => [o.a, o.x]
  | .vdqt o => [o.a, o.x]
  | .vpk o => [o.a]
  | .vunp o => [o.a]
  | .vtpk o => [o.a]
  | .vtun o => [o.a]
  | .vperm o => [o.a, o.b]
  | .vsldu o => [o.a]
  | .vsldd o => [o.a]
  | .vcmpr o => [o.a]
  | .vexpd o => [o.a]
  | .vredi o => [o.a]
  | .vredmax o => [o.a]
  | .vredmin o => [o.a]
  | .vredmaxu o => [o.a]
  | .vredminu o => [o.a]
  | .vredor o => [o.a]
  | .vred o => [o.a]
  | .vfredmax o => [o.a]
  | .vfredmin o => [o.a]
  | .vscani o => [o.a]
  | .vfscan o => [o.a]
  | _ => []

/-- The mask registers an instruction reads. -/
def Instr.kSrcs : Instr → List KReg
  | .vgldW o => [o.m.setWidth 3]
  | .vgldD o => [o.m.setWidth 3]
  | .vgstW o => [o.m.setWidth 3]
  | .vgstD o => [o.m.setWidth 3]
  | .mvkg o => [o.a.setWidth 3]
  | .kand o => [o.a.setWidth 3, o.b.setWidth 3]
  | .kor o => [o.a.setWidth 3, o.b.setWidth 3]
  | .kxor o => [o.a.setWidth 3, o.b.setWidth 3]
  | .kandn o => [o.a.setWidth 3, o.b.setWidth 3]
  | .knot o => [o.a.setWidth 3]
  | .kpop o => [o.a.setWidth 3]
  | .kfirst o => [o.a.setWidth 3]
  | .vadd o => [o.k]
  | .vsub o => [o.k]
  | .vadds o => [o.k]
  | .vsubs o => [o.k]
  | .vaddus o => [o.k]
  | .vsubus o => [o.k]
  | .vmul o => [o.k]
  | .vmulh o => [o.k]
  | .vmulhu o => [o.k]
  | .vmin o => [o.k]
  | .vmax o => [o.k]
  | .vminu o => [o.k]
  | .vmaxu o => [o.k]
  | .vand o => [o.k]
  | .vor o => [o.k]
  | .vxor o => [o.k]
  | .vandn o => [o.k]
  | .vsll o => [o.k]
  | .vsrl o => [o.k]
  | .vsra o => [o.k]
  | .vcmpeq o => [o.k]
  | .vcmplt o => [o.k]
  | .vcmpltu o => [o.k]
  | .vcmple o => [o.k]
  | .vcmpleu o => [o.k]
  | .vsel o => [o.k]
  | .vfadd o => [o.k]
  | .vfsub o => [o.k]
  | .vfmul o => [o.k]
  | .vfdiv o => [o.k]
  | .vfmin o => [o.k]
  | .vfmax o => [o.k]
  | .vfsqrt o => [o.k]
  | .vrcp o => [o.k]
  | .vrsq o => [o.k]
  | .vexp2 o => [o.k]
  | .vlog2 o => [o.k]
  | .vfabs o => [o.k]
  | .vfneg o => [o.k]
  | .vfcmpeq o => [o.k]
  | .vfcmplt o => [o.k]
  | .vfcmple o => [o.k]
  | .vfcmpun o => [o.k]
  | .vcvt o => [o.k]
  | .vpk o => [o.k]
  | .vunp o => [o.k]
  | .vtpk o => [o.k]
  | .vtun o => [o.k]
  | .vperm o => [o.k]
  | .vsldu o => [o.k]
  | .vsldd o => [o.k]
  | .vcmpr o => [o.k]
  | .vexpd o => [o.k]
  | .vredi o => [o.k]
  | .vredmax o => [o.k]
  | .vredmin o => [o.k]
  | .vredmaxu o => [o.k]
  | .vredminu o => [o.k]
  | .vredor o => [o.k]
  | .vred o => [o.k]
  | .vfredmax o => [o.k]
  | .vfredmin o => [o.k]
  | .vscani o => [o.k]
  | .vfscan o => [o.k]
  | .vdraw o => [o.k]
  | _ => []

/-- Both words of a bundle write the same register among g1 to g27, or the same vector register (R110 reason 5). -/
def sameDest (c x : Instr) (toFp32 : Bool) : Bool :=
  (match c.gDest, x.gDest with
   | some a, some b => a = b && isG a
   | _, _ => false) ||
  (c.vDests toFp32).any (fun a => (x.vDests toFp32).contains a)

end Sys2Proof
end

