-- ==== Sys2Proof/Machine/Spawn.lean ====
section
/-! DEFINITION. SPAWN and ENQ (R35, R167, R168, R268), and the registers of a launch queue (R259, R260). -/

namespace Sys2Proof.Machine

/-! ## SPAWN -/

/-- Reserved bits of a control word, or of a cluster target (R168). -/
def spawnBad (c : Dword) : Bool := fld c 40 23 ≠ 0 || (bitOf c 63 && fld c 23 6 ≠ 0)

/-- The target names a core, or a cluster, of the system (R14, R167). -/
def State.spawnTargetOk (s : State) (c : Dword) : Bool :=
  let tgt : Ep := fld c 18 22
  (bitOf c 63 || epIsCore tgt) && decide ((epPkg tgt).toNat < (s.pkg (epPkg s.issue.ep)).npkg)

/-- The cluster unit a target belongs to: package, die and cluster, as the endpoint of its first core (R167). -/
def spawnUnit (cluster : Bool) (tgt : Ep) : Ep :=
  if cluster then mkEp (epPkg tgt) (epDie tgt) (BitVec.ofNat 11 (tgt.toNat % 32 * 16))
  else mkEp (epPkg tgt) (epDie tgt) (BitVec.ofNat 11 ((epUnit tgt).toNat / 16 * 16))

/-- `spawn`: the checks of R168, one draw, and the request (R35, R168). A target outside the system faults with AUX0 = 0.
(DESIGN CHOICE, notes/assumptions/61.md.) -/
def execSpawn (o : OpDA) (s : State) : Out :=
  .next (if o.a = 0 || 23 < o.a.toNat then s.illegal
    else
      match s.shadowStall with
      | some e => s.stall e
      | none =>
        match s.operands (regBlock o.a 5) [o.d] with
        | .error e => s.stall e
        | .ok (xs, s1) =>
          let c := xs.headD 0
          if spawnBad c then s.trap 1 9 c
          else if c.toNat % 4 ≠ 0 then s.trap 3 ((fld c 0 18).setWidth 64) 4
          else if !s.spawnTargetOk c then s.stopAfterIssue (.fault { kind := 1 })
          else
            match s1.reserve o.d with
            | .error e => s.stall e
            | .ok s2 =>
              let t := s2.me
              let s3 := s2.setMe (t.consume 1)
              let req : SpawnReq :=
                { from_ := s.issue.ep, ctx := s.issue.ctx, cluster := bitOf c 63, tgt := fld c 18 22, entry := fld c 0 18,
                  args := xs.drop 1, key := draw t.key t.did t.dctr, did := t.did, home := t.home, lid := t.lid, asid := t.asid }
              ({ s3 with spawns := s3.spawns ++ [req] }).retireLong (s3.pendingOf .spawn (t.destOf o.d) 0 []))

/-! ## Launch queues (R259, R260) -/

/-- A launch queue of a package. -/
def Package.queue (k : Package) (q : Nat) : Queue := Assoc.get k.queues q {}

/-- Replaces a launch queue. -/
def Package.setQueue (k : Package) (q : Nat) (x : Queue) : Package := { k with queues := Assoc.set k.queues q x }

/-- Slots of a queue's ring. -/
def Queue.slots (q : Queue) : Nat := 2 ^ (fld q.cfg 48 4).toNat

/-- Owning ASID. -/
def Queue.asid (q : Queue) : Asid := fld q.cfg 0 16

/-- Priority. -/
def Queue.pri (q : Queue) : Nat := (fld q.cfg 60 2).toNat

/-- Placement weight; 0 acts as 1. -/
def Queue.weight (q : Queue) : Nat := max 1 (fld q.cfg 32 16).toNat

/-- EN. -/
def Queue.enabled (q : Queue) : Bool := bitOf q.cfg 63

/-- TD. -/
def Queue.tearing (q : Queue) : Bool := bitOf q.cfg 59

/-- DEV: fed by ENQ. -/
def Queue.device (q : Queue) : Bool := bitOf q.cfg 58

/-- Records between HEAD and TAIL. -/
def Queue.filled (q : Queue) : Nat := (q.tail - q.head).toNat

/-- The VA of the slot of record n (R259). -/
def Queue.slotVa (q : Queue) (n : Word) : Dword :=
  BitVec.ofNat 64 ((fld q.base 7 48).toNat * 128 + n.toNat % q.slots * 128)

/-- The LID of record n of queue q: q ∥ n (R154, R259). -/
def lidOf (q : Nat) (n : Word) : Lid := BitVec.ofNat 44 (q * 2 ^ 32 + n.toNat)

/-- Stores dwords from an address, each as one event. -/
def State.storeDwords (s : State) (own : Option Ctx) (pa : Nat) : List Dword → State
  | [] => s
  | x :: r =>
    let s1 := s.writeDword own pa (cellsOf pa 8 x.toNat) (some false)
    (s1.serve pa).storeDwords own (pa + 8) r

/-! ## ENQ (R268) -/

/-- Accesses of 64 bytes to a record of `n` of them. -/
def recordLanes (ep : Ep) (op : MemOp) (va : Dword) (pa : Nat) (data : List Nat) : List Lane :=
  ((List.range data.length).zip data).map (fun w =>
    { lane := w.1, stage := startStage ep (pa + 64 * w.1),
      req := { op := op, va := va + BitVec.ofNat 64 (64 * w.1), pa := pa + 64 * w.1, size := 64, data := w.2 } })

/-- The record that a TLD, TST or ENQ has read at an address, once it has returned (R234, R268). -/
def State.recordAt (s : State) (va : Dword) : Option RecordRead :=
  s.me.record.filter (fun r => r.pc = s.issue.pc && r.va = va)

/-- A record is read as one ordinary access, and the thread parks until it returns (R59, R234, R268). -/
def State.readRecord (s : State) (va : Dword) (pa n : Nat) : State :=
  let p := { s.pendingOf .record .none 0 (recordLanes s.issue.ep .load va pa (List.replicate n 0)) with pc := s.issue.pc }
  let t := s.me
  ((s.setMe { t with pend := t.pend ++ [p], nextId := t.nextId + 1 }).pump s.issue.ep s.issue.ctx).park .fill .pendingAll

/-- A poisoned dword of a record: a fault at the instruction, in which no register was to be written (R234; notes/assumptions/10.md). -/
def State.recordPoison (s : State) (va : Dword) (pa : Nat) : State := s.stopAfterIssue (.fault { kind := 3, va := va, aux0 := BitVec.ofNat 64 pa })

/-- An ENQ answers with a value. -/
def State.enqAnswer (s s1 : State) (d : Reg) (x : Dword) : State :=
  match s1.writeReg d x with
  | .error e => s.stall e
  | .ok s2 => s2.retire

/-- The record of an ENQ goes to the slot it takes, as one ordinary access, and the answer follows when it is there (R28, R39, R268). -/
def State.enqWrite (s s1 : State) (d : Reg) (qn : Nat) (record : List Dword) : State :=
  let p := epPkg s.issue.ep
  let q := (s1.pkg p).queue qn
  let n := q.tail + BitVec.ofNat 32 q.claimed
  let va := q.slotVa n
  match s.reached s1 va .write with
  | .error s2 => s2
  | .ok (pa, s2) =>
    match s.ownStall pa 128 with
    | some s3 => s3
    | none =>
      let words := (setFld (record.headD 0) 48 16 s.me.asid.toNat :: record.drop 1).map (fun x => x.toNat)
      let lanes := recordLanes s.issue.ep .store va pa [packNats 64 (words.take 8), packNats 64 (words.drop 8)]
      if s.closeStall lanes then s.park .fill .closeStore
      else match s2.reserve d with
      | .error e => s.stall e
      | .ok s3 =>
        let s4 := s3.setPkg p ((s3.pkg p).setQueue qn { q with claimed := q.claimed + 1 })
        s4.issueAccess (s4.pendingOf (.enq p qn n) (s4.me.destOf d) 0 lanes)

/-- ENQ once the record is read (R268). -/
def State.enqRecord (s s1 : State) (d : Reg) (qn : Nat) (record : List Dword) : State :=
  let p := epPkg s.issue.ep
  let q := (s1.pkg p).queue qn
  if 4095 < qn || !q.enabled || !q.device || q.tearing || q.asid ≠ s.me.asid then s.enqAnswer s1 d 0x8000000000000002
  else if q.filled + q.claimed = q.slots then
    s.enqAnswer (s1.setPkg p ((s1.pkg p).setQueue qn { q with ovf := true })) d 0x8000000000000001
  else s.enqWrite s1 d qn record

/-- `enq` (R268). A poisoned dword of the record faults as a poisoned shape record does (R234; notes/assumptions/10.md). -/
def execEnq (o : OpDA) (s : State) : Out :=
  .next (if o.a = 0 || 26 < o.a.toNat then s.illegal
    else
      match s.shadowStall with
      | some e => s.stall e
      | none =>
        match s.operands [o.a, o.a + 1] [o.d] with
        | .error e => s.stall e
        | .ok (xs, s1) =>
          let va := xs.headD 0
          match s.me.addressStop va 128 128 with
          | some r => s.stopAtIssue r
          | none =>
            match s.recordAt va with
            | some r =>
              (match r.bad with
               | some pa => (s.setMe { s.me with record := none }).recordPoison va pa
               | none => s.enqRecord (s1.setMe { s1.me with record := none }) o.d (xs.getD 1 0).toNat r.dwords)
            | none =>
              match s.reached s va .read with
              | .error s2 => s2
              | .ok (pa, s2) =>
                match s.ownStall pa 128 with
                | some s3 => s3
                | none => s2.readRecord va pa 2)

end Sys2Proof.Machine
end

