-- ==== Sys2Proof/Machine/Copies.lean ====
section
/-! DEFINITION. Issuing the copy commands: major CPE (R223 to R247). Their work is done by the steps of Machine/CopySteps.lean. -/

namespace Sys2Proof.Machine

/-- What R226 checks of a command before it is queued: whether the destination may be a ring, the operand ranges with the block
register each concerns, the alignments, the local ranges, and the byte count of R225. -/
structure CopyPlan where
  ranges : List (Bool × Nat) := []
  aligns : List (Nat × Nat) := []
  bounds : List (Nat × Nat) := []
  bytes : Nat := 0

/-- The eops whose destination may be a ring (R228, R231). A designator as the destination of another is a local address beyond the allocation.
(DEDUCED, notes/assumptions/84.md.) -/
def ringEop (eop : Nat) : Bool := eop ≤ 3 || eop = 9

/-- A multiple of `n` unless the operand is a ring's designator. -/
def unlessRing (ring : Option (BitVec 3)) (x : List (Nat × Nat)) : List (Nat × Nat) := if ring.isSome then [] else x

/-- An address whose local range issue does not know, of a command that moves `n` bytes: a ring's designator there is beyond every allocation (R231). -/
def ringless (x n : Nat) : Nat × Nat := (x, if (designated (BitVec.ofNat 64 x)).isSome then n else 0)

/-- The checks of each eop, from its operands, its ring and the ring's tile bytes (R225, R228, R233 to R247). A reserved bit set in a ctl operand is out
of its range. (DESIGN CHOICE, notes/assumptions/83.md.) The span of a CPYS with strides is that of its last row, taken without wrapping.
(DESIGN CHOICE, notes/assumptions/102.md.) -/
def copyPlan (eop : Nat) (b : List Nat) (ring : Option (BitVec 3)) (tile : Nat) : CopyPlan :=
  let x (i : Nat) : Nat := b.getD i 0
  let parts (n : Nat) : Bool := ring.isSome && n % tile ≠ 0
  let elems : Nat := x 3 / 2 ^ 16 % 2 ^ 24 * (x 3 % 512)
  let badCtl (ops : Nat) : Bool :=
    decide (x 3 / 2 ^ 40 ≠ 0 ∨ x 3 / 2 ^ 12 % 16 ≠ 0 ∨ ops < x 3 / 2 ^ 9 % 8 ∨ x 3 % 512 < 8 ∨ 256 < x 3 % 512 ∨ x 3 % 8 ≠ 0)
  match eop with
  | 0 =>
    { ranges := [(decide (2 ^ 36 < x 2), 2), (parts (x 2), 2)],
      aligns := unlessRing ring [(x 0, 8)] ++ [(x 1, 8), (x 2, 8)],
      bounds := unlessRing ring [(x 0, x 2)] ++ [(x 1, x 2)], bytes := x 2 }
  | 1 =>
    let n := x 2 * x 3
    let span (stride : Nat) : Nat := if n = 0 then 0 else (x 3 - 1) * stride + x 2
    { ranges := [(decide (2 ^ 24 < x 2), 2), (decide (2 ^ 24 < x 3), 3), (parts n, 2)],
      aligns := unlessRing ring [(x 0, 8)] ++ [(x 1, 8), (x 2, 8), (x 4, 8), (x 5, 8)],
      bounds := unlessRing ring [(x 0, span (x 4))] ++ [(x 1, span (x 5))], bytes := n }
  | 2 =>
    { ranges := [(decide (2 ^ 36 < x 2), 2), (parts (x 2), 2)],
      aligns := unlessRing ring [(x 0, 8)] ++ [(x 2, 8)], bounds := unlessRing ring [(x 0, x 2)], bytes := x 2 }
  | 3 => { aligns := (if ring.isNone && x 0 / 2 ^ 63 = 1 then [(x 0, 128)] else []) ++ [(x 1, 64)], bounds := [(x 1, 64)] }
  | 4 => { aligns := (if x 0 / 2 ^ 63 = 1 then [(x 0, 128)] else []) ++ [(x 1, 64)], bounds := [(x 1, 64)] }
  | 5 =>
    { ranges := [(badCtl 0, 3)], aligns := [(x 0, 8), (x 1, 8), (x 2, 4)], bounds := [(x 0, elems), ringless (x 1) elems, (x 2, 4 * (x 3 / 2 ^ 16 % 2 ^ 24))],
      bytes := elems }
  | 6 =>
    { ranges := [(badCtl 0, 3)], aligns := [(x 0, 8), (x 1, 8), (x 2, 4)], bounds := [ringless (x 0) elems, (x 1, elems), (x 2, 4 * (x 3 / 2 ^ 16 % 2 ^ 24))],
      bytes := elems }
  | 7 =>
    { ranges := [(badCtl 3, 3)], aligns := [(x 0, 8), (x 1, 8), (x 2, 4)], bounds := [ringless (x 0) elems, (x 1, elems), (x 2, 4 * (x 3 / 2 ^ 16 % 2 ^ 24))],
      bytes := elems }
  | 8 =>
    { ranges := [(decide (4 ≤ x 3), 3)], aligns := [(x 0, 16), (x 2, 8), (x 4, 8)], bounds := [ringless (x 0) (x 2), (x 1, x 2), (x 4, 8)], bytes := x 2 }
  | 9 =>
    { ranges := [(parts (x 2), 2), (decide (16 ≤ x 3), 3)], aligns := [(x 1, 16), (x 2, 8)], bounds := unlessRing ring [(x 0, x 2)],
      bytes := x 2 }
  | 10 =>
    { ranges := [(decide (2 ^ 36 < x 1), 1), (decide (x 2 / 4 % 64 ≠ 0 ∨ 512 ≤ x 2), 2)], bounds := [(x 0, x 1)], bytes := x 1 }
  | 11 =>
    let mode := x 0 / 2 ^ 16 % 4
    { ranges := [(decide (2 ^ 18 ≤ x 0 ∨ x 0 / 4 % 64 ≠ 0 ∨ mode = 3), 0)],
      aligns := if mode = 0 then [] else [(x 1, 8)], bounds := if mode = 0 then [] else [(x 1, 256)],
      bytes := if mode = 0 then 0 else 256 }
  | _ =>
    { ranges := [(decide (x 2 % 5 ≠ 0 ∨ 2 ^ 24 < x 2), 2), (decide (2 ^ 17 ≤ x 4) || (bf16.decode (x 4 % 2 ^ 16)).isNan, 4)],
      aligns := [(x 0, 8), (x 1, 8)], bounds := [(x 0, 128 * x 2 / 5), (x 1, 256 * x 2), (x 3, x 2)], bytes := 256 * x 2 }

/-- The first failing check of steps 3 to 6 of R226. -/
def State.copyStop (s : State) (p : CopyPlan) (w : Option Nat) (ring : Option (BitVec 3)) : Option Stop :=
  let t := s.me
  let aligns := p.aligns ++ (match w with | some x => [(x, 8)] | none => [])
  let bounds := p.bounds ++ (match w with | some x => [(x, 8)] | none => [])
  match p.ranges.find? (fun r => r.1) with
  | some (_, i) => some (.trap 1 11 (BitVec.ofNat 64 i))
  | none =>
    match aligns.find? (fun a => a.1 % a.2 ≠ 0) with
    | some (x, n) => some (.trap 3 (BitVec.ofNat 64 x) (BitVec.ofNat 64 n))
    | none =>
      match bounds.find? (fun b => b.1 / 2 ^ 63 = 1 && 0 < b.2 && !t.inBound (BitVec.ofNat 64 b.1) b.2) with
      | some (x, _) => some (t.boundStop (BitVec.ofNat 64 x))
      | none =>
        match ring with
        | some r =>
          if ringUsable (vget r s.myCore.rings) (t.cgl.toNat - t.cgb.toNat) then none else some (t.boundStop (ringDesignator r))
        | none => none

/-- The shape record of TLD and TST, for which the thread has parked until it returned, and the checks that need it (R226 step 7, R234, R235). -/
def State.shapeRecord (s : State) (b : List Nat) (ring : Option (BitVec 3)) (tile : Nat) : Except State (List Dword) :=
  let va : Dword := BitVec.ofNat 64 (b.getD 1 0)
  let s0 := s.setMe { s.me with record := none }
  match s.recordAt va with
  | some r =>
    let dst : Dword := BitVec.ofNat 64 (b.getD 0 0)
    (match r.bad with
     | some pa => .error (s0.recordPoison (va + BitVec.ofNat 64 (pa % 64)) pa)
     | none =>
       if shapeBad r.dwords then .error (s0.trap 1 11 1)
       else if ring.isSome && shapeBytes r.dwords ≠ tile then .error (s0.trap 1 11 0)
       else if ring.isNone && bitOf dst 63 && !s.me.inBound dst (shapeBytes r.dwords) then .error (s0.stopAtIssue (s.me.boundStop dst))
       else .ok r.dwords)
  | none =>
    match s.reached s va .read with
    | .error s2 => .error s2
    | .ok (pa, s2) =>
      match s.ownStall pa 64 with
      | some s3 => .error s3
      | none => .error (s2.readRecord va pa 1)

/-- The table slots a command names (R241). -/
def CopyCmd.named (k : CopyCmd) : List (BitVec 2) :=
  match k.eop.toNat with
  | 8 | 10 | 11 => [k.slot]
  | 9 => ((List.range 4).filter (fun i => (k.op 3).testBit i)).map (BitVec.ofNat 2)
  | _ => []

/-- A TBLD that writes its slot (R241, R243). -/
def CopyCmd.writesSlot (k : CopyCmd) : Bool := k.eop = 11 && k.op 0 / 2 ^ 16 % 4 ≤ 1

/-- The slots whose reference counts a command raises (R241). -/
def CopyCmd.refs (k : CopyCmd) : List (BitVec 2) := if k.writesSlot then [] else k.named

/-- Adds to, or takes from, the reference counts of some slots. -/
def Core.countRefs (c : Core) (l : List (BitVec 2)) (up : Bool) : Core :=
  l.foldl (fun (c : Core) n =>
    let w := vget n c.slots
    { c with slots := vset n { w with refs := if up then w.refs + 1 else w.refs - 1 } c.slots }) c

/-- The draws a command consumes at issue (R106, R247). -/
def CopyCmd.draws (k : CopyCmd) : Nat := if k.eop = 12 && k.op 4 / 2 ^ 16 % 2 = 1 then 32 * k.op 2 else 0

/-- The lowest entry of the copy queue that no command holds (R224, R297). -/
def Core.freeCqe (c : Core) : BitVec 5 :=
  BitVec.ofNat 5 (((List.range 32).find? (fun i => c.copies.all (fun k => k.cqe.toNat ≠ i))).getD 0)

/-- Queues a command: its tile indices are reserved, its slots counted, its pending result made (R40, R224, R232, R241). -/
def State.queueCopy (s1 : State) (k : CopyCmd) (la : BitVec 4) : State :=
    let c := s1.myCore
    let k1 : CopyCmd := { k with
      id := c.nextCmd, cqe := c.freeCqe, total := k.units, tileLen := (match k.ring with | some r => tileBytes (vget r c.rings) | none => 2048),
      after := ((c.copies.filter (fun (x : CopyCmd) => x.writesSlot && k.named.contains x.slot)).map CopyCmd.id),
      tile := (match k.ring with | some r => vget r c.ringNext | none => 0) }
    let c1 : Core := { c with copies := c.copies ++ [k1], nextCmd := c.nextCmd + 1 }
    let c2 := c1.countRefs k.refs true
    let c3 := match k.ring with
      | some r => { c2 with ringNext := vset r (vget r c.ringNext + k.bytes / tileBytes (vget r c.rings)) c2.ringNext }
      | none => c2
    let s2 := s1.setMyCore c3
    let s3 := (s2.setMe { s2.me.consume k.draws with record := none }).consumeFmt
    if la = 15 then s3.retire else s3.retireLong (s3.pendingOf (.copy k1.id) .none la.toNat [])

/-- What holds a copy back before it issues: other results pending, or a full copy queue (R37, R39, R224). -/
def State.copyStall (s : State) : Option Stall :=
  s.shadowStall.orElse (fun _ => if 32 ≤ s.myCore.copies.length then some (.park .copy .copyRoom) else none)

/-- A TBLD that would write a slot still referred to parks before it issues (R241). -/
def State.slotStall (s : State) (eop : Nat) (ops : List Dword) : Option Stall :=
  let k : CopyCmd := { eop := BitVec.ofNat 5 eop, ops := ops }
  if k.writesSlot && (vget k.slot s.myCore.slots).refs ≠ 0 then some (.park .copy (.tableSlot k.slot)) else none

/-- A copy command at issue; what parks it comes before the traps of its operands (R223, R226). -/
def State.copy (s : State) (o : OpCopy) (eop n : Nat) : State :=
  if !o.ok n then s.illegal
  else
    match s.copyStall with
    | some e => s.stall e
    | none =>
      match s.operands (copyRegs o n) [] with
      | .error e => s.stall e
      | .ok (xs, s1) =>
        let t := s.me
        let ops := xs.take n
        let b := ops.map (fun (x : Dword) => x.toNat)
        let ring := if ringEop eop then designated (ops.headD 0) else none
        let tile := match ring with | some r => tileBytes (vget r s.myCore.rings) | none => 1
        let p := copyPlan eop b ring tile
        let w := if o.m = 0 then none else some (xs.getD n 0).toNat
        if ring.isSome && !t.eset then s.illegal
        else match s.slotStall eop ops with
        | some e => s.stall e
        | none =>
        match s.copyStop p w ring with
        | some e => s.stopAtIssue e
        | none =>
          match (if eop = 3 || eop = 4 then s.shapeRecord b ring tile else .ok []) with
          | .error s2 => s2
          | .ok record =>
            s1.queueCopy
              { eop := BitVec.ofNat 5 eop, word := s.issue.word, pc := s.issue.pc, ctx := s.issue.ctx, home := t.home, lid := t.lid, lti := t.lti,
                asid := t.asid, ops := ops, action := o.m, w := xs.getD n 0, value := xs.getD (n + 1) 0, base := t.dctr, key0 := t.dkey0,
                key1 := t.dkey1, did := t.did, cgb := t.cgb, cgl := t.cgl, record := record,
                bytes := if eop = 3 || eop = 4 then shapeBytes record else p.bytes, ring := ring } o.la

/-- `cpy` (R228). -/
def execCpy (o : OpCopy) (s : State) : Out := .next (s.copy o 0 3)
/-- `cpys` (R228). -/
def execCpys (o : OpCopy) (s : State) : Out := .next (s.copy o 1 6)
/-- `cpf` (R228). -/
def execCpf (o : OpCopy) (s : State) : Out := .next (s.copy o 2 3)
/-- `tld` (R233 to R236). -/
def execTld (o : OpCopy) (s : State) : Out := .next (s.copy o 3 3)
/-- `tst` (R233 to R236). -/
def execTst (o : OpCopy) (s : State) : Out := .next (s.copy o 4 3)
/-- `gth` (R237, R238). -/
def execGth (o : OpCopy) (s : State) : Out := .next (s.copy o 5 4)
/-- `sct` (R237, R238). -/
def execSct (o : OpCopy) (s : State) : Out := .next (s.copy o 6 4)
/-- `scta` (R237, R238). -/
def execScta (o : OpCopy) (s : State) : Out := .next (s.copy o 7 4)
/-- `cpz` (R244). -/
def execCpz (o : OpCopy) (s : State) : Out := .next (s.copy o 8 5)
/-- `cpx` (R245). -/
def execCpx (o : OpCopy) (s : State) : Out := .next (s.copy o 9 4)
/-- `hist` (R242). -/
def execHist (o : OpCopy) (s : State) : Out := .next (s.copy o 10 3)
/-- `tbld` (R243). -/
def execTbld (o : OpCopy) (s : State) : Out := .next (s.copy o 11 2)
/-- `tern` (R247). -/
def execTern (o : OpCopy) (s : State) : Out := .next (s.copy o 12 5)

end Sys2Proof.Machine
end

