-- ==== Sys2Proof/Machine/Errors.lean ====
section
/-! DEFINITION. Uncorrectable errors in entries of a thread's and a core's state: which entries an instruction reads, which ones it writes
whole, and the entries of the records of a save (R275, R283, R284). (DEDUCED, notes/assumptions/51.md.) -/

namespace Sys2Proof

/-- The mask registers whose bits an instruction reads: field 0 names k0 in moves and logic of masks and in `vsel`, no mask elsewhere
(R200). -/
def Instr.kReads (i : Instr) : List KReg :=
  match i with
  | .mvkg _ | .kand _ | .kor _ | .kxor _ | .kandn _ | .knot _ | .kpop _ | .kfirst _ | .vsel _ => i.kSrcs
  | _ => i.kSrcs.filter (fun k => k ≠ 0)

/-- The mask register an instruction writes whole. -/
def Instr.kDest : Instr → Option KReg
  | .mvgk o => some (o.d.setWidth 3)
  | .kand o => some (o.d.setWidth 3)
  | .kor o => some (o.d.setWidth 3)
  | .kxor o => some (o.d.setWidth 3)
  | .kandn o => some (o.d.setWidth 3)
  | .knot o => some (o.d.setWidth 3)
  | .vcmpeq o => some (o.d.setWidth 3)
  | .vcmplt o => some (o.d.setWidth 3)
  | .vcmpltu o => some (o.d.setWidth 3)
  | .vcmple o => some (o.d.setWidth 3)
  | .vcmpleu o => some (o.d.setWidth 3)
  | .vfcmpeq o => some (o.d.setWidth 3)
  | .vfcmplt o => some (o.d.setWidth 3)
  | .vfcmple o => some (o.d.setWidth 3)
  | .vfcmpun o => some (o.d.setWidth 3)
  | _ => none

/-- The stream field of a store or an atomic. -/
def Instr.stream : Instr → Option (BitVec 3)
  | .st o => some o.strm
  | .vst o => some o.strm
  | .aadd o => some o.strm
  | .aand o => some o.strm
  | .aor o => some o.strm
  | .axor o => some o.strm
  | .amin o => some o.strm
  | .amax o => some o.strm
  | .aminn o => some o.strm
  | .amaxn o => some o.strm
  | .aswp o => some o.strm
  | .acas o => some o.strm
  | .afadd o => some o.strm
  | .afadd2 o => some o.strm
  | .afmax o => some o.strm
  | .afmin o => some o.strm
  | .sig o => some o.strm
  | _ => none

/-- The instruction accesses memory at issue: it checks its address against the crew allocation, or translates it (R32, R49). -/
def Instr.addresses : Instr → Bool
  | .ld _ | .ldX _ | .vld _ | .vldX _ | .ldf _ | .ldff _ | .stf _ | .stff _ | .sete _ | .qfe _ | .waita _ => true
  | .vgldW _ | .vgldD _ | .vgstW _ | .vgstD _ | .enq _ | .tld _ | .tst _ => true
  | i => i.stream.isSome

/-- A copy or matrix command that keeps its thread and its base counter (R105, R223, R249). -/
def Instr.commands : Instr → Bool
  | .mmt _ | .mmtz _ | .mdr _ | .mld _ | .mst _ => true
  | i => i.copyBlock ≠ 0

/-- The results of the instruction are rounded in the mode in force, with the instruction's own code where it has one (R106, R117). -/
def Instr.rounds : Instr → Option (Option (BitVec 3))
  | .vfadd _ | .vfsub _ | .vfmul _ | .vfdiv _ | .vfsqrt _ | .vrcp _ | .vrsq _ | .vexp2 _ | .vlog2 _ | .vred _ | .vfscan _ => some none
  | .vfmaW _ | .vfmsW _ | .vfnmaW _ | .vfnmsW _ | .vfmaH _ | .vfmsH _ | .vfnmaH _ | .vfnmsH _ => some none
  | .vqnt _ | .vqnts _ | .vdqt _ | .mdr _ | .vdp2 _ => some none
  | .vcvt o => some (some o.rm)
  | _ => none

/-- The accumulator an instruction reads whole, and the ring registers (R251, R254, R255). -/
def Instr.accSrc : Instr → Option (BitVec 2)
  | .mmt o => some o.m
  | .mdr o => some o.m
  | .mst o => some o.m
  | _ => none

/-- The core registers of R154 that a product reads at issue: its rings, and the status and the progress of its accumulator. -/
def Instr.productRegs : Instr → List Nat
  | .mmt o => [64 + o.o2.toNat % 8, 64 + o.o3.toNat % 8, 72 + o.m.toNat, 76 + o.m.toNat]
  | .mmtz o => [64 + o.o2.toNat % 8, 64 + o.o3.toNat % 8, 72 + o.m.toNat]
  | _ => []

/-- The register that names the destination of a copy command that may push into a ring (R228, R231). -/
def Instr.ringDest : Instr → Option Reg
  | .cpy o | .cpys o | .cpf o | .tld o | .cpx o => some o.o1
  | _ => none

/-- The port fields an instruction names. -/
def Instr.ports (i : Instr) : List Reg := (i.gSrcs ++ i.gDest.toList).filter (fun r => 28 ≤ r.toNat)

end Sys2Proof

namespace Sys2Proof.Machine

/-! ## What an instruction reads (R284) -/

/-- The instruction leaves lanes of its vector destination as they were: one masked, one that writes a single lane, a part of an image or, narrowing, a part
of a register. What it writes of an image or of a conversion, the formats in force as it issues say (R216 to R219). -/
def Thread.keepsLanes (t : Thread) (i : Instr) : Bool :=
  match i with
  | .vsel _ | .vcmpr _ | .vredi _ | .vredmax _ | .vredmin _ | .vredmaxu _ | .vredminu _ | .vredor _ | .vred _ | .vfredmax _
  | .vfredmin _ => false
  | .movsvD _ | .movsvW _ | .vqnt _ | .vqnts _ | .vpk _ | .vtpk _ => true
  | .vcvt o =>
    o.k ≠ 0 || (match t.fmt.fa, t.fmt.fb with
      | some a, some b => decide ((laneFmtWidth b.toNat).getD 0 < (laneFmtWidth a.toNat).getD 0)
      | _, _ => true)
  | .vunp o => o.k ≠ 0 || t.fmt.fa.all (fun c => decide (imageCap c.toNat < 64 * (o.part.toNat + 1)))
  | .vtun o => o.k ≠ 0 || decide (imageCap 12 < 64 * (o.part.toNat + 1))
  | i => !i.kReads.isEmpty

/-- The vector registers an instruction writes: the second of the pair into which a dequantisation to FP32 goes is one (R219). -/
def Thread.vWrites (t : Thread) (i : Instr) : List Reg :=
  i.vDest.toList ++ (match i with | .vdqt o => if t.fmt.fb = some 22 then [o.d + 1] else [] | _ => [])

/-- The mode in force is SR (R89, R117). -/
def Thread.underSr (t : Thread) (own : Option (BitVec 3)) : Bool :=
  let c : BitVec 3 := (t.fmt.rm.orElse (fun _ => own)).getD 7
  (if c = 7 then (fld t.st 16 3 : BitVec 3) else c) = 5

/-- The instruction draws random words (R106, R222). -/
def Thread.draws (t : Thread) (i : Instr) : Bool :=
  match i with
  | .draw _ | .vdraw _ => true
  | i => match i.rounds with | some own => t.underSr own | none => false

/-- The bounded waits, whose limit WLIM gives when they name none (R45). -/
def Thread.usesWlim (t : Thread) (i : Instr) : Bool :=
  match i with
  | .barw _ => true
  | .ldf o => (fld (t.getG o.c) 0 32 : Word) = 0
  | .ldff o => (fld (t.getG o.c) 0 32 : Word) = 0
  | .waitq o => (fld (t.getG o.a) 0 32 : Word) = 0
  | _ => false

/-- A system register of the thread that an instruction reads: PC and ST for every one (R112), the others as their rules say. -/
def Thread.sregRead (t : Thread) (i : Instr) (n : Nat) : Bool :=
  n ≤ 1 || (n = 2 && (t.extPending || t.fmtPending)) || (n = 24 && !i.ports.isEmpty) || (n = 26 && t.usesWlim i) ||
    ((n = 18 || n = 80 || n = 81) && i.addresses) || (19 ≤ n && n ≤ 22 && t.draws i) ||
    (16 ≤ n && n ≤ 22 && i.commands) || i.productRegs.contains n ||
    (64 ≤ n && n < 72 && i.ringDest.any (fun r => designated (t.getG r) = some (BitVec.ofNat 3 (n - 64)))) ||
    (32 ≤ n && n < 40 && i.stream.any (fun x => 32 + x.toNat = n)) ||
    (match i with
     | .mfs o => o.sreg.toNat = n
     | .mts o => 76 ≤ n && n < 80 && o.imm.toNat = n
     | .rett => n = 9 || n = 10
     | .spawn _ => 16 ≤ n && n ≤ 22
     | .trap _ | .bkpt _ | .illegalInstruction => n = 8
     | .enq _ => n = 18
     | .send _ => n = 17
     | .fns o => 33 ≤ n && n < 40 && o.streams.getLsbD (n - 33)
     | .fnc => 32 ≤ n && n < 40
     | .bar _ | .bara _ | .barw _ | .barq _ => n = 25
     | _ => false)

/-- The entries of a core queue that an instruction's port operands pop, from its head on (R28). -/
def Core.popsEntry (c : Core) (t : Thread) (i : Instr) (queue entry : Nat) : Bool :=
  let n := (i.gSrcs.filter (fun r => isPort r && (t.portCode r).toNat = queue + 1)).length
  decide ((entry + 32 - (vget (BitVec.ofNat 3 queue) c.cq).head.toNat) % 32 < n)

/-- The entry of the request inbox, or of the reply inbox, that a context's next port read takes its dword from (R191, R275). -/
def Core.messageAt (c : Core) (ctx : Ctx) (t : Thread) (store : Nat) : Option Nat :=
  if store = 0 then
    (if !t.restMsg.isEmpty then none
     else match t.heldReq with
      | some id => (c.inbox.find? (fun m => m.id = id)).map InMsg.entry
      | none => (c.inbox.find? (fun m => m.readable (launchKey t.home t.lid))).map InMsg.entry)
  else if !t.restReply.isEmpty then none
  else match t.replyPos with
    | some (i, _) => some i
    | none => (earliest (c.repliesOf ctx)).map Prod.fst

/-- An instruction reads the entry that a code names. -/
def Core.readsEntry (c : Core) (ctx : Ctx) (i : Instr) (code : BitVec 16) : Bool :=
  let t := vget ctx c.threads
  let num := fld code 0 5
  let sub := codeSub code
  match codeFile code with
  | 0 => i.gSrcs.contains num
  | 1 =>
    i.vSrcs.contains num || (t.keepsLanes i && i.vDest = some num) || (match i with
      | .vqnt o | .vqnts o => t.fmt.fa = some 22 && o.a + 1 = num
      | _ => false)
  | 2 => i.accSrc.any (fun m => m.toNat = num.toNat)
  | 3 => i.kReads.contains (fld code 0 3)
  | 4 => t.sregRead i sub
  | 5 => c.popsEntry t i num.toNat sub
  | 6 => num.toNat < 2 && i.gSrcs.any (fun r => isPort r && (t.portCode r).toNat = 9 + num.toNat) && c.messageAt ctx t num.toNat = some sub
  | _ => false

/-- The register code of an entry an instruction reads that carries an uncorrectable error. -/
def Core.badEntry (c : Core) (ctx : Ctx) (i : Instr) : Option (BitVec 16) :=
  (c.badRegs.find? (fun b => (b.1 = ctx || codeOfCore b.2) && c.readsEntry ctx i b.2)).map Prod.snd

/-- The system fault of kind 7 of an instruction that reads a damaged entry. -/
def State.registerError (s : State) (i : Instr) : Option FaultReq :=
  ((s.core s.issue.ep).badEntry s.issue.ctx i).map registerFault

/-- The system fault of kind 8 of a damaged instruction word. -/
def State.fetchError (s : State) (pc : BitVec 18) : Option FaultReq :=
  if (s.core s.issue.ep).badWords.contains pc.toNat then
    some { kind := 8, va := 0, aux0 := pc.setWidth 64, aux1 := (Config.syndrome (istorePa s.issue.ep pc.toNat)).setWidth 64 }
  else none

/-- A damaged entry of the core that an engine would read, among the codes named (R284). -/
def Core.badAmong (c : Core) (read : BitVec 16 → Bool) : Option (BitVec 16) :=
  (c.badRegs.find? (fun b => codeOfCore b.2 && read b.2)).map Prod.snd

/-- The code names an element of an accumulator. -/
def codeIsAcc (m : BitVec 2) (code : BitVec 16) : Bool := codeFile code = 2 && code.toNat % 32 = m.toNat

/-- The code names a register of R154. -/
def codeIsSreg (n : Nat) (code : BitVec 16) : Bool := codeFile code = 4 && codeSub code = n

/-! ## What is written whole (R284) -/

/-- The system registers that an `mts` writes whole: all it may write but ST, whose XD it keeps, and the W1C status of an accumulator. -/
def mtsWhole (n : Nat) : Bool := n ≠ 1 && n < 76

/-- The instruction has just pushed its result into the last entry of a core queue. -/
def Core.pushedEntry (c : Core) (t : Thread) (i : Instr) (queue entry : Nat) : Bool :=
  let q := vget (BitVec.ofNat 3 queue) c.cq
  let code : BitVec 4 := BitVec.ofNat 4 (queue + 1)
  i.gDest.any (fun r => isPort r && t.portCode r = code) && !t.owesPush code && decide ((entry + 33 - q.head.toNat) % 32 = q.data.length % 32)

/-- An instruction that has completed wrote the whole entry; `pre` is its thread as it issued, with the formats in force. -/
def Thread.wroteWhole (pre t : Thread) (c : Core) (i : Instr) (code : BitVec 16) : Bool :=
  let num := fld code 0 5
  match codeFile code with
  | 0 => i.gDest = some num && t.isFull num
  | 1 => (pre.vWrites i).contains num && !pre.keepsLanes i && !t.vecPending num
  | 3 => i.kDest = some (fld code 0 3)
  | 4 => match i with
    | .mts o => o.imm.toNat = codeSub code && mtsWhole (codeSub code)
    | _ => false
  | 5 => c.pushedEntry t i num.toNat (codeSub code)
  | _ => false

/-- A register that an instruction has written whole no longer carries its error (R284). -/
def State.mended (s : State) (pre : Thread) (i : Instr) : State :=
  let c := s.myCore
  if c.badRegs.isEmpty || s.issue.fate ≠ .issued then s
  else s.setMyCore (c.mend (fun x code => (x = s.issue.ctx || codeOfCore code) && pre.wroteWhole s.me c i code))

/-! ## Entries in the records of a save (R283, R288, R289) -/

/-- The system registers of a thread record, in its order (R288). -/
def recordSregs : List Nat := [0, 1, 2, 8, 9, 10, 11, 12, 13, 16, 17, 18, 19, 20, 21, 22, 24, 25, 26]

/-- The entries of a thread record with the offset and the number of their dwords. -/
def threadEntries : List (BitVec 16 × Nat × Nat) :=
  (List.range 32).map (fun n => (regCode 1 n 0, 64 * n, 8)) ++ (List.range 8).map (fun n => (regCode 3 n 0, 0x800 + 8 * n, 1)) ++
    (List.range 27).map (fun n => (regCode 0 (n + 1) 0, 0x840 + 8 * n, 1)) ++
    ((List.range 19).zip recordSregs).map (fun n => (regCode 4 0 n.2, 0x920 + 8 * n.1, 1)) ++
    (List.range 8).map (fun n => (regCode 4 0 (32 + n), 0x9B8 + 8 * n, 1))

/-- The entries of a core record; those of the queues lie from their heads on. -/
def engineEntries (heads : List Nat) : List (BitVec 16 × Nat × Nat) :=
  (List.range 4).flatMap (fun m => (List.range 256).map (fun e => (regCode 2 m e, 0x800 * m + 8 * e, 1))) ++
    (List.range 4).map (fun m => (regCode 4 0 (76 + m), 0x2000 + 8 * m, 1)) ++ (List.range 4).map (fun m => (regCode 4 0 (72 + m), 0x2020 + 8 * m, 1)) ++
    (List.range 8).map (fun r => (regCode 4 0 (64 + r), 0x2040 + 8 * r, 1)) ++
    (List.range 8).flatMap (fun q => (List.range 32).map (fun n =>
      (regCode 5 q ((heads.getD q 0 + n) % 32), 0x20C0 + 0x100 * q + 8 * n, 1)))

/-- The counts of a core record's queues: a mark on one is an error of every entry of its queue. (DESIGN CHOICE, notes/assumptions/78.md.) -/
def countEntries : List (BitVec 16 × Nat × Nat) :=
  (List.range 8).flatMap (fun q => (List.range 32).map (fun n => (regCode 5 q n, 0x2080 + 8 * q, 1)))

/-- The dwords of a thread record that hold no entry of R275: FULL, the remembered header, MSGST, the slots and their core, BARST and CSTATE. A mark on
one is an error of PC, which every instruction reads. (DESIGN CHOICE, notes/assumptions/78.md.) -/
def otherEntries : List (BitVec 16 × Nat × Nat) := [(regCode 4 0 0, 0x918, 1), (regCode 4 0 0, 0x9F8, 6)]

/-- Marks the dwords of the damaged entries of a record poisoned (R283). -/
def Memory.markEntries (m : Memory) (at_ : Nat) (bad : List (BitVec 16)) (entries : List (BitVec 16 × Nat × Nat)) : Memory :=
  (entries.filter (fun e => bad.contains e.1)).foldl (fun (m : Memory) e => m.markDwords (at_ + e.2.1) e.2.2) m

/-- The entries of a record that a restore finds poisoned. -/
def Memory.markedEntries (m : Memory) (at_ : Nat) (entries : List (BitVec 16 × Nat × Nat)) : List (BitVec 16) :=
  if m.poison.isEmpty then []
  else (entries.filter (fun e => m.anyMarked (at_ + e.2.1) e.2.2)).map Prod.fst

end Sys2Proof.Machine
end

