-- ==== Sys2Proof/Machine/Posting.lean ====
section
/-! DEFINITION. Faults of commands and streams: the thread they belong to, wherever it is, and the record posted for it (R227, R271 to
R273, R280, R291). -/

namespace Sys2Proof.Machine

/-- The context of a core that holds a thread. -/
def Core.ctxOf (c : Core) (home : Pkg) (lid : Lid) (lti : BitVec 24) : Option Ctx :=
  (List.range 16).findSome? (fun i =>
    let x : Ctx := BitVec.ofNat 4 i
    if (vget x c.threads).owns home lid lti && !(vget x c.threads).quitting then some x else none)

/-- A dword of memory that the machine itself keeps there (frames, records). -/
def State.pokeDword (s : State) (pa : Nat) (x : Dword) : State :=
  { s with mem := ((s.mem.write pa 8 x.toNat).setPoison pa false) }

/-- The dword of memory. -/
def State.peekDword (s : State) (pa : Nat) : Dword := BitVec.ofNat 64 (s.mem.read pa 8)

/-- Changes a dword of a record in place from what it holds, under the mark it has (R173). -/
def State.amendDword (s : State) (pa : Nat) (f : Dword → Dword) : State :=
  { s with mem := s.mem.write pa 8 (f (s.peekDword pa)).toNat }

/-- CSTATE of a SAVED thread's record: state code 8 and the SEQ of its oldest outstanding record (R288, R291). -/
def cstateFaulted (old : Dword) (seq : BitVec 16) : Dword := setFld (setFld old 60 4 8) 32 16 seq.toNat

/-- A fault of a command or stream of a thread (R227, R271): a parked or FAULTED thread takes it at once, a READY one at its next issue
boundary, a SAVED one in its record; for an ended thread the record is posted and its crew is held. -/
def State.postFault (s : State) (ep : Ep) (home : Pkg) (lid : Lid) (lti : BitVec 24) (ctx : Ctx) (asid : Asid) (ended : Bool)
    (r : FaultReq) : State :=
  let record (s : State) : State × BitVec 16 :=
    s.addRecord (epPkg ep) (fun q => { ep := ep, dwords := recordDwords ep ctx asid lid false true q r.pc r })
  if ended then
    let (s1, q) := record s
    match (s1.core ep).crew? home lid with
    | some w => s1.setCore ep ((s1.core ep).setCrew { w with holds := w.holds ++ [{ ep := ep, seq := q, ctx := ctx, copy := if r.src = 1 then some r.id else none }] })
    | none => s1
  else
    match (s.core ep).ctxOf home lid lti with
    | some x =>
      let t := s.thr ep x
      (match t.status with
       | .ready => s.setThr ep x { t with faultQ := t.faultQ ++ [r] }
       | _ => s.enterFault ep x r)
    | none =>
      let (s1, q) := record s
      match s1.launch? home lid with
      | none => s1
      | some l =>
        match l.saved.find? (fun w => w.lti = lti) with
        | none => s1
        | some w =>
          let seq := match w.outstanding with | o :: _ => o.seq | [] => q
          let s2 := s1.amendDword (w.pa + 0xA20) (fun x => cstateFaulted x seq)
          s2.setLaunch { l with saved := l.saved.map (fun (x : Saved) =>
            if x.lti = lti then { x with outstanding := x.outstanding ++ [{ ep := ep, ctx := ctx, seq := q, src := r.src, kind := r.kind, id := r.id }] } else x) }

/-- Flags that a command raises when it completes: ORed into its thread's ST, in its context or its saved record (R156). -/
def State.raiseFor (s : State) (ep : Ep) (home : Pkg) (lid : Lid) (lti : BitVec 24) (flags : Dword) : State :=
  if flags = 0 then s
  else match (s.core ep).ctxOf home lid lti with
  | some x => let t := s.thr ep x; s.setThr ep x { t with st := t.st ||| flags }
  | none =>
    match (s.launch? home lid).bind (fun l => l.saved.find? (fun w => w.lti = lti)) with
    | some w => s.amendDword (w.pa + 0x928) (fun x => x ||| flags)
    | none => s

end Sys2Proof.Machine
end

