-- ==== Sys2Proof/Machine/CopySteps.lean ====
section
/-! DEFINITION. The copy engine at work: starting a command and doing its units, pushing into a ring, completing, failing (R74 to R76,
R224, R227, R232, R241, R258). The events read `ev.ep`, `ev.id`, `ev.parts` and `ev.n`. -/

namespace Sys2Proof.Machine

/-- A command of a core's copy queue. -/
def Core.copy? (c : Core) (id : Nat) : Option CopyCmd := c.copies.find? (fun k => k.id = id)

/-- Replaces a command. -/
def State.setCopy (s : State) (ep : Ep) (k : CopyCmd) : State :=
  let c := s.core ep
  s.setCore ep { c with copies := c.copies.map (fun (x : CopyCmd) => if x.id = k.id then k else x) }

/-- The fault of a command goes to its thread. -/
def State.postCopy (s : State) (ep : Ep) (k : CopyCmd) (r : FaultReq) : State :=
  s.postFault ep k.home k.lid k.lti k.ctx k.asid k.ended r

/-- The command stops before a unit, and its thread is faulted (R227). -/
def State.stopCopy (s : State) (ep : Ep) (k : CopyCmd) (r : FaultReq) : State :=
  (s.setCopy ep { k with phase := .stopped, fault := some r }).postCopy ep k r

/-- The command has failed; COPY_FAIL ends it (R227). -/
def State.failCopy (s : State) (ep : Ep) (k : CopyCmd) (r : FaultReq) : State :=
  s.setCopy ep { k with phase := .failed, fault := some r }

/-- Units from the lowest still open that are done out of order are absorbed. -/
def CopyCmd.absorb (k : CopyCmd) : Nat → CopyCmd
  | 0 => k
  | n + 1 => if k.ahead.contains k.next then CopyCmd.absorb { k with next := k.next + 1, ahead := k.ahead.filter (fun x => x ≠ k.next) } n else k

/-- Marks a unit done. -/
def CopyCmd.mark (k : CopyCmd) (i : Nat) : CopyCmd :=
  if i = k.next then CopyCmd.absorb { k with next := k.next + 1 } k.ahead.length else { k with ahead := natSet k.ahead i true }

/-- A unit may be done now: it is open, coded units go in order, and every session has room (R64, R74). A CPX that has failed goes on with later
blocks until COPY_FAIL ends it (R258). -/
def CopyCmd.mayDo (k : CopyCmd) (i : Nat) : Bool :=
  (k.phase = .running || (k.phase = .failed && k.spec)) &&
    decide (k.next ≤ i ∧ i < k.total) && !k.ahead.contains i && (i = k.next || !(k.eop = 8 || k.eop = 9)) &&
    k.streams.all (fun w => w.2.unacked.length ≤ 64)

/-! ## Reads (R56, R59, R61, R238) -/

/-- Where an engine's access goes: a physical address, a fault, or a walk that has been asked for. -/
inductive EngineReach where
  | ok (pa : Nat) (s : State)
  | fault (r : FaultReq)
  | wait (s : State)
  deriving DecidableEq, Repr

/-- The physical address of an engine's access: the local window of its crew, or a translation, whose miss has a walk served (R56, R226, R245). An address
beyond the allocation that issue could not check is unmapped. (DEDUCED, notes/assumptions/30.md.) -/
def State.engineReach (s : State) (ep : Ep) (k : CopyCmd) (va : Dword) (size : Nat) (a : Access) : EngineReach :=
  if bitOf va 63 then
    if localOffset va + size ≤ k.cgl.toNat - k.cgb.toNat then .ok (granaryPa ep (k.cgb.toNat + localOffset va)) s
    else .fault (xlatFault 1 va a 0)
  else match s.lookupGlobal ep (lidQueue k.lid) k.asid va a with
    | .ok pa s1 => .ok pa s1
    | .fault r => .fault r
    | .miss =>
      match k.walkFault.filter (fun f => f.page = va.toNat / 2 ^ 16) with
      | some f => .fault (f.fault va a)
      | none =>
        if k.walkWait.retries (s.core ep).cyc.toNat then
          let (s1, w) := s.requestWalk { ep := ep, copy := some k.id, need := a.need } k.asid va
          .wait (s1.setCopy ep { k with walkWait := w })
        else .wait s

/-- A command that stops for a fault found at a unit: before it in order, or, when it has failed already, without more work. -/
def State.stopAt (s : State) (ep : Ep) (k : CopyCmd) (r : FaultReq) (unit : Nat) : State :=
  if k.phase = .failed then s.setCopy ep { k with spec := false, tail := [] } else s.stopCopy ep { k with walkFault := none } (k.faultAt r unit)

/-- Gather reads in flight of a core: the READs that its GTH commands have under way, those of indices among them (R16, R238).
(DESIGN CHOICE, notes/assumptions/71.md.) -/
def Core.gatherReads (c : Core) : Nat := ((c.copies.filter (fun k => k.eop = 5)).map (fun (k : CopyCmd) => k.reads.length)).sum

/-- The number by which a READ of a command is known, apart from every key of a thread's access (notes/assumptions/8.md). -/
def copyKey (id n : Nat) : Nat := 2 ^ 64 * (id + 1) + n

/-- The READ of one dword of a command (R297, R302). -/
def CopyCmd.readPacket (k : CopyCmd) (ep : Ep) (r : ReadOut) : Packet :=
  MemReq.readPacket { pa := r.pa } ep k.ctx (copyKey k.id r.n)

/-- Reads one wanted dword: at the core's own bank or store at once, as one event, anywhere else by a READ to its home (R51, R59, R61). -/
def State.fetchOne (s : State) (ep : Ep) (k : CopyCmd) (w : Want) : State :=
  match s.engineReach ep k (BitVec.ofNat 64 w.at_) 1 .read with
  | .fault r => s.stopAt ep k r w.unit
  | .wait s1 => s1
  | .ok pa s1 =>
    let dw := dwordAt pa
    if homeEp dw = ep then
      s1.setCopy ep { k with got := k.got ++ [{ key := w.key, va := w.va, pa := dw, value := s1.mem.read dw 8, marked := s1.mem.poisoned dw }] }
    else if k.eop = 5 && 256 ≤ (s1.core ep).gatherReads then s1
    else
      let r : ReadOut := { n := k.nextRead, key := w.key, va := w.va, pa := dw, sentAt := s1.dieCyc ep }
      (s1.setCopy ep { k with reads := k.reads ++ [r], nextRead := k.nextRead + 1 }).inject (k.readPacket ep r)

/-- Reads a dword of those a unit wants, of the ones not yet asked for. -/
def State.fetchOf (s : State) (ep : Ep) (k : CopyCmd) (l : List Want) (choice : Nat) : State :=
  match (l.filter (fun w => !k.reads.any (fun r => r.key = w.key && r.va = w.va)))[choice]? with
  | some w => s.fetchOne ep k w
  | none => s

/-- The data of a command's READ comes back (R61, R281). -/
def State.copyData (s : State) (ep : Ep) (key value : Nat) (marked : Bool) : State :=
  match (s.core ep).copy? (key / 2 ^ 64 - 1) with
  | none => s
  | some k =>
    match k.reads.find? (fun r => r.n = key % 2 ^ 64) with
    | none => s
    | some r => s.setCopy ep { k with
        reads := k.reads.filter (fun x => x.n ≠ r.n),
        got := k.got ++ [{ key := r.key, va := r.va, pa := r.pa, value := value % 2 ^ 64, marked := marked }] }

/-! ## Writes (R59, R74) -/

/-- The runs of a unit's writes, translated; or a fault and the unit it names; or a walk. -/
inductive Runs where
  | ok (l : List CopyRun) (s : State)
  | fault (r : FaultReq) (unit : Nat)
  | wait (s : State)
  deriving DecidableEq, Repr

/-- The pieces of one write, each within 256 bytes. (DEDUCED, notes/assumptions/32.md.) -/
def State.runsOf (s : State) (ep : Ep) (k : CopyCmd) (w : CopyWrite) : List (Nat × Nat) → Runs
  | [] => .ok [] s
  | (a, n) :: r =>
    match s.engineReach ep k (BitVec.ofNat 64 a) n .write with
    | .fault e => .fault e (w.unit + (a - w.va) * w.num / w.den)
    | .wait s1 => .wait s1
    | .ok pa s1 =>
      let gaps := w.gaps / 2 ^ (a - w.va) % 2 ^ n
      if paRegion pa = .istore && (pa % 4 ≠ 0 || n % 4 ≠ 0 || gaps ≠ 0) then
        .fault (xlatFault 2 (BitVec.ofNat 64 a) .write 0) (w.unit + (a - w.va) * w.num / w.den)
      else match s1.runsOf ep k w r with
        | .ok l s2 => .ok ({ va := BitVec.ofNat 64 a, pa := pa, n := n, x := w.x / 2 ^ (8 * (a - w.va)), mark := w.mark, gaps := gaps } :: l) s2
        | x => x

/-- The runs of all writes of a unit. -/
def State.allRuns (s : State) (ep : Ep) (k : CopyCmd) : List CopyWrite → Runs
  | [] => .ok [] s
  | w :: r =>
    match s.runsOf ep k w (piecesOf 256 w.va w.n) with
    | .ok l s1 =>
      (match s1.allRuns ep k r with
       | .ok l2 s2 => .ok (l ++ l2) s2
       | x => x)
    | x => x

/-- Of a failed CPX, which dwords of a packet are written: a free bit for each (R258; notes/assumptions/3.md). -/
def keepDwords (free : Nat) (p : Packet) : Packet :=
  let kept := (List.range (p.len.toNat / 8)).filter (fun i => Config.freeBit (free + i))
  { p with
    be := p.be &&& kept.foldl (fun m i => m ||| byteMask (8 * i) 8) 0,
    note := kept.foldl (fun m i => if p.note.testBit i then m + 2 ^ i else m) 0 }

/-- Hands a run of bytes on: dwords of the core's own bank or store become writes to be performed, any other run goes on the command's hidden session
(R59, R74). -/
def State.handRun (w : State × CopyCmd) (ep : Ep) (r : CopyRun) : State × CopyCmd :=
  let (s, k) := w
  let spec := k.phase = .failed
  if homeEp r.pa = ep then
    let l := r.puts
    if spec then
      ({ s with free := s.free + l.length },
        { k with puts := k.puts ++ (((List.range l.length).zip l).filter (fun p => Config.freeBit (s.free + p.1))).map Prod.snd })
    else (s, { k with puts := k.puts ++ l })
  else
    let p := k.payloadPacket ep r
    let (s1, st) := if spec then ({ s with free := s.free + 32 } : State).sendOn (k.session (homeEp r.pa)) (keepDwords s.free p)
      else s.sendOn (k.session (homeEp r.pa)) p
    (s1, { k with streams := Assoc.set k.streams (homeEp r.pa).toNat st })

/-- The runs of a unit's writes are handed on. -/
def State.handAll (s : State) (ep : Ep) (k : CopyCmd) (l : List CopyRun) : State × CopyCmd :=
  l.foldl (fun w r => State.handRun w ep r) (s, k)

/-- The bytes of the block before that a CPX has not written, as a write of that block (R245). -/
def CopyCmd.tailWrite (k : CopyCmd) : CopyWrite :=
  { va := (k.op 0 + 4096 * k.next - k.tail.length) % 2 ^ 64, n := k.tail.length, x := packNats 8 k.tail, unit := k.next - 1, num := 0 }

/-- A CPX that fails at a block first writes what it holds of the block before, which stands; a fault of that write comes first (R227, R245). -/
def State.tailThen (s : State) (ep : Ep) (k : CopyCmd) (f : State → CopyCmd → State) : State :=
  if k.tail.isEmpty then f s k
  else
    match s.allRuns ep k [k.tailWrite] with
    | .fault r unit => s.stopCopy ep { k with walkFault := none } (k.faultAt r unit)
    | .wait s1 => s1
    | .ok runs s1 => let w := s1.handAll ep { k with tail := [] } runs; f w.1 w.2

/-- An aborted CPX writes what it holds of the block before the one at which it stopped, if its translation lets it (R227, R245, R280). -/
def State.tailLast (s : State) (ep : Ep) (k : CopyCmd) : State :=
  match s.allRuns ep k [k.tailWrite] with
  | .fault _ _ => s.setCopy ep { k with tail := [], walkFault := none }
  | .wait s1 => s1
  | .ok runs s1 => let w := s1.handAll ep { k with tail := [], phase := .running } runs; w.1.setCopy ep { w.2 with phase := .failed }

/-- The command has done a unit: its dwords read are dropped. -/
def CopyCmd.finish (k : CopyCmd) (i : Nat) : CopyCmd := (CopyCmd.mark { k with got := k.got.filter (fun f => f.key ≠ i) } i)

/-- The addition of an SCTA operand, at its home: one event at the core's own bank, an ATOMIC on the hidden session elsewhere, whose note names the
unit and the address (R71, R238). -/
def State.addAt (s : State) (ep : Ep) (k : CopyCmd) (i : Nat) (va : Dword) (size x unit : Nat) : State :=
  match s.engineReach ep k va size .atomic with
  | .fault r => s.stopAt ep k r unit
  | .wait s1 => s1
  | .ok pa s1 =>
    if !paHasFe pa then s.stopAt ep k (xlatFault 2 va .atomic 0) unit
    else
      let req : MemReq := { op := k.sopOp, va := va, pa := pa, size := size, data := x }
      if homeEp pa = ep then
        match s1.arrive none { req := req, pa := pa } with
        | (_, .performed _ true) => s.failCopy ep k (k.poisonAt (dwordAt pa) va unit)
        | (s2, _) => s2.setCopy ep (k.finish i)
      else
        let p := { req.packet false ep k.ctx 8 (copyKey unit va.toNat) with cqe := k.cqe }
        let (s2, st) := s1.sendOn (k.session (homeEp pa)) p
        s2.setCopy ep ({ k with streams := Assoc.set k.streams (homeEp pa).toNat st }.finish i)

/-- What a unit does: it reads a dword it wants, or hands its writes on, or fails its command. -/
def State.runUnit (s : State) (ep : Ep) (k : CopyCmd) (i choice : Nat) (u : UnitStep) (done : CopyCmd → CopyCmd) : State :=
  match u with
  | .want l => s.fetchOf ep k l choice
  | .fail r k1 =>
    if k.phase = .failed then s.setCopy ep { k1 with tail := [] }
    else s.tailThen ep k (fun s k2 => s.failCopy ep { k1 with tail := [], puts := k2.puts, streams := k2.streams } r)
  | .add va size x unit => s.addAt ep k i va size x unit
  | .work l k1 slot =>
    match s.allRuns ep k l with
    | .fault r unit => s.stopAt ep k r unit
    | .wait s1 => s1
    | .ok runs s1 =>
      let s2 := match slot with | some (n, x) => s1.setSlot ep n x | none => s1
      let w := s2.handAll ep k1 runs
      w.1.setCopy ep (done w.2)

/-- The key under which a TLD or TST reads a shape record that was named anew while it was queued (R325; notes/assumptions/50.md). -/
def recordKey : Nat := 2 ^ 40

/-- A TLD or TST without its shape record reads it, a dword at a time. -/
def State.takeRecord (s : State) (ep : Ep) (k : CopyCmd) (choice : Nat) : State :=
  match k.take recordKey (k.op 1) 64 (fun _ => 0) with
  | .want l => s.fetchOf ep k l choice
  | .fail r => s.failCopy ep k r
  | .got _ (some b) => s.failCopy ep k (k.poisonAt b.pa (BitVec.ofNat 64 b.va) 0)
  | .got x none =>
    let k1 : CopyCmd := { k with record := (unpackNats 64 8 x).map (fun y => BitVec.ofNat 64 y) }
    let k2 := { k1 with bytes := shapeBytes k1.record }
    s.setCopy ep { k2 with total := k2.units }

/-- A command has no shape record and needs one. -/
def CopyCmd.lacksRecord (k : CopyCmd) : Bool := (k.eop = 3 || k.eop = 4) && k.record.isEmpty && k.phase = .running

/-- A unit of a command does what it does next. -/
def State.doUnit (s : State) (ep : Ep) (id i choice : Nat) : State :=
  match (s.core ep).copy? id with
  | none => s
  | some k => if k.lacksRecord then s.takeRecord ep k choice else if k.mayDo i then s.runUnit ep k i choice (k.unitStep (s.core ep).slots i) (fun k => k.finish i) else s

/-- Performs write `j` of those a command has yet to make at its core's own bank or store (R59, R74). -/
def State.putAt (s : State) (ep : Ep) (id j : Nat) : State :=
  match (s.core ep).copy? id with
  | none => s
  | some k =>
    match k.puts[j]? with
    | none => s
    | some p => (s.setCopy ep { k with puts := k.puts.eraseIdx j }).writeOwn p.pa p.n p.x p.mark p.gaps

/-- What a command does when nothing is named: the first write it has yet to make, else its lowest open unit. -/
def State.copyNext (s : State) (ep : Ep) (id : Nat) : State :=
  match (s.core ep).copy? id with
  | none => s
  | some k => if k.puts.isEmpty then s.doUnit ep id k.next 0 else s.putAt ep id 0

/-- One named action of a command: write j as 2^60 + j, else a unit in the low 40 bits with its choice of a dword to read above them. -/
def State.copyAct (s : State) (ep : Ep) (id w : Nat) : State :=
  if 2 ^ 60 ≤ w then s.putAt ep id (w - 2 ^ 60) else s.doUnit ep id (w % 2 ^ 40) (w / 2 ^ 40)

/-- Repeats the default action. -/
def State.copyDefault (s : State) (ep : Ep) (id : Nat) : Nat → State
  | 0 => s
  | n + 1 => (s.copyNext ep id).copyDefault ep id n

/-- A queued command may start: it is the first queued one, the table loads before it are over, and no eviction holds it, which lets start what
some thread's pending result waits for (R46, R47, R224, R241). -/
def Core.copyMayStart (c : Core) (k : CopyCmd) : Bool :=
  ((c.copies.find? (fun x => x.phase = .queued)).map CopyCmd.id) = some k.id && k.after.all (fun i => (c.copy? i).isNone) &&
    (match c.crew? k.home k.lid with
     | some w => w.owed.isEmpty && (!(w.preempt.map Prod.fst = some 1) || (c.copies.dropWhile (fun x => x.id ≠ k.id)).any (fun x =>
         c.threads.toList.any (fun t => t.pend.any (fun p => p.kind = .copy x.id))))
     | none => true)

/-- A command starts; HIST with CLR zeroes its histogram first (R242). -/
def State.startCopy (s : State) (ep : Ep) (k : CopyCmd) : State :=
  let s1 := s.setCopy ep { k with phase := .running }
  if k.eop = 10 && (k.op 2).testBit 8 then s1.setSlot ep k.slot { s1.slot ep k.slot with hist := [] } else s1

/-- COPY_START: the named command starts, or works: it does the actions listed, or `n` + 1 by default. Each is one event: a dword read or asked for,
a dword written, a packet's payload sent, a coded block formed (R59, R74, R224, R228). -/
def execCopyStart (s : State) : Out :=
  let a := s.ev
  let c := s.core a.ep
  .next (match c.copy? a.id with
    | none => s
    | some k =>
      if (s.pkg (epPkg a.ep)).halted then s
      else if k.phase = .queued then (if c.copyMayStart k then s.startCopy a.ep k else s)
      else if k.ring.isSome then s
      else if a.parts.isEmpty then s.copyDefault a.ep k.id (a.n + 1)
      else a.parts.foldl (fun (s : State) w => s.copyAct a.ep k.id w) s)

/-! ## Ring pushes (R76, R230, R232) -/

/-- TAIL passes over every tile of a ring that is whole (R76, R232). -/
def Core.passTail (c : Core) (r : BitVec 3) : Nat → Core
  | 0 => c
  | n + 1 =>
    let t := vget r c.ringTails
    if c.ringDone.contains (r.toNat, t) then
      Core.passTail { c with
        rings := vset r (setFld (vget r c.rings) 51 13 (ringTail (vget r c.rings) + 1)) c.rings,
        ringTails := vset r (t + 1) c.ringTails, ringDone := c.ringDone.filter (fun w => w ≠ (r.toNat, t)) } r n
    else c

/-- A tile of a ring is whole. -/
def State.tileWhole (s : State) (ep : Ep) (r : BitVec 3) (t : Nat) : State :=
  let c := s.core ep
  s.setCore ep (Core.passTail { c with ringDone := c.ringDone ++ [(r.toNat, t)] } r (c.ringDone.length + 1))

/-- Every dword of the tile that holds dword `i` of a command is done. -/
def CopyCmd.tileDone (k : CopyCmd) (i : Nat) : Bool :=
  let n := k.tileLen / 8
  (List.range n).all (fun j => decide (i / n * n + j < k.next) || k.ahead.contains (i / n * n + j))

/-- Writes dword `i` of a command into its tile, as one event; a tile that is whole may pass TAIL (R76, R232). -/
def State.pushDword (s : State) (ep : Ep) (k : CopyCmd) (r : BitVec 3) (i x : Nat) (mark : Bool) : State :=
  let o := 8 * i
  let t := k.tile + o / k.tileLen
  let at_ := granaryPa ep (k.cgb.toNat + tileOffset (vget r (s.core ep).rings) t (o % k.tileLen))
  let k1 := { k with buf := k.buf.filter (fun b => b.1 ≠ i) }.finish i
  let s1 := ((s.setCopy ep k1).writeOwn at_ 8 x mark).unnoteRing ep at_
  if k1.tileDone i then s1.tileWhole ep r t else s1

/-- An open dword of a running command whose tile fits may be pushed, and of a failed CPX those of the blocks before the failing one (R232, R245). -/
def Core.mayPush (c : Core) (k : CopyCmd) (r : BitVec 3) (i : Nat) : Bool :=
  (k.phase = .running || (k.phase = .failed && k.buf.any (fun b => b.1 = i))) && decide (k.next ≤ i ∧ i < k.total) && !k.ahead.contains i &&
    ringFits (vget r c.rings) (vget r c.ringTails) (k.tile + 8 * i / k.tileLen)

/-- A push of dword `i`: a dword of its source is read, or it is written; of a CPX the next block is expanded until the dword is there. A command whose ring
descriptor is in error stops, with a fault of kind 7 (R232, R245, R284). -/
def State.pushOne (s : State) (ep : Ep) (id : Nat) (r : BitVec 3) (i choice : Nat) : State :=
  let c := s.core ep
  match c.copy? id with
  | none => s
  | some k =>
    match (c.badAmong (codeIsSreg (64 + r.toNat))).filter (fun _ => k.phase = .running && decide (k.next < k.total)) with
    | some code => s.stopCopy ep k (k.faultAt (registerFault code) 0)
    | none =>
    if k.lacksRecord then s.takeRecord ep k choice
    else if !c.mayPush k r i then s
    else if k.eop = 9 then
      match k.buf.find? (fun b => b.1 = i) with
      | some b => s.pushDword ep k r i b.2 false
      | none =>
        s.runUnit ep k k.outLen choice (k.unitStep c.slots k.outLen) (fun x => { x with got := x.got.filter (fun f => f.key ≠ k.outLen) })
    else
      match k.source i with
      | .want l => s.fetchOf ep k l choice
      | .fail e => s.failCopy ep k e
      | .got x bad => s.pushDword ep k r i x bad.isSome

/-- Repeats the default push, of the lowest open dword. -/
def State.pushDefault (s : State) (ep : Ep) (id : Nat) (r : BitVec 3) : Nat → State
  | 0 => s
  | n + 1 =>
    match (s.core ep).copy? id with
    | none => s
    | some k => (s.pushOne ep id r k.next 0).pushDefault ep id r n

/-- RING_PUSH: a running command works towards its ring while its tiles fit: on the dwords listed, each with its choice above the low 40 bits, or
`n` + 1 times on the lowest open one (R228, R232). -/
def execRingPush (s : State) : Out :=
  let a := s.ev
  .next (match (s.core a.ep).copy? a.id with
    | some k =>
      match k.ring with
      | some r =>
        if (s.pkg (epPkg a.ep)).halted then s
        else if a.parts.isEmpty then s.pushDefault a.ep a.id r (a.n + 1)
        else a.parts.foldl (fun (s : State) w => s.pushOne a.ep a.id r (w % 2 ^ 40) (w / 2 ^ 40)) s
      | none => s
    | none => s)

/-! ## Completing and failing (R75, R224, R227) -/

/-- The sessions of a command are closed, as many as the close store has room for, an abandoned one with ABN (R66, R303). -/
def State.closeHidden (s : State) (ep : Ep) (k : CopyCmd) : State :=
  k.streams.foldl (fun (s : State) w =>
    if 64 ≤ (s.core ep).closes.length then s
    else
      let s1 := (s.abandonSession ep k.ctx 8 k.cqe w.2).1
      match (s1.core ep).copy? k.id with
      | some x => s1.setCopy ep { x with streams := x.streams.filter (fun y => y.1 ≠ w.1) }
      | none => s1) s

/-- A command with nothing left to send goes on to its end once every session of it is closed (R66, R303). -/
def State.closedThen (s : State) (ep : Ep) (k : CopyCmd) (f : State → CopyCmd → State) : State :=
  let s1 := s.closeHidden ep k
  match (s1.core ep).copy? k.id with
  | some k1 => if k1.streams.isEmpty then f s1 k1 else s1
  | none => s1

/-- A command leaves the queue: its slots' counts fall, its pending result returns (R40, R224, R241). -/
def State.leaveCopy (s : State) (ep : Ep) (k : CopyCmd) : State :=
  let c := s.core ep
  let c1 : Core := { c with
    copies := c.copies.filter (fun x => x.id ≠ k.id),
    threads := c.threads.map (fun (t : Thread) => { t with pend := t.pend.filter (fun p => p.kind ≠ .copy k.id) }) }
  s.setCore ep (c1.countRefs k.refs false)

/-- A command ends: its completion action is performed at the completion word's home, once that package takes it, and it leaves with its flags (R75, R156,
R224, R326).
(DESIGN CHOICE, notes/assumptions/9.md.) -/
def State.endCopy (s : State) (ep : Ep) (k : CopyCmd) : State :=
  let over_ (s : State) : State := (s.leaveCopy ep k).raiseFor ep k.home k.lid k.lti (k.flags.setWidth 64)
  if k.action = 0 then over_ s
  else
    match s.engineReach ep k k.w 8 .atomic with
    | .fault e => s.stopCopy ep { k with walkFault := none } (k.faultAt e k.bytes)
    | .wait s1 => s1
    | .ok pa s1 =>
      if !paHasFe pa then s.stopCopy ep k (k.faultAt (xlatFault 2 k.w .atomic 0) k.bytes)
      else if s1.homeShut (epPkg ep) pa then s1
      else
        let req : MemReq :=
          { op := if k.action = 1 then .setDone else .subDone, va := k.w, pa := pa, data := if k.action = 1 then k.value.toNat else k.bytes }
        match s1.arrive none { req := req } with
        | (_, .performed _ true) => s.failCopy ep k (k.poisonAt pa k.w k.bytes)
        | (s2, _) => over_ s2

/-- COPY_COMPLETE: all work done and acknowledged, the completion action is performed and the command leaves (R75, R156, R224). -/
def execCopyComplete (s : State) : Out :=
  let a := s.ev
  let c := s.core a.ep
  .next (match c.copy? a.id with
    | none => s
    | some k =>
      if k.phase ≠ .running || k.next < k.total || !k.buf.isEmpty || !k.puts.isEmpty || k.streams.any (fun w => !w.2.unacked.isEmpty) ||
          (s.pkg (epPkg a.ep)).halted then s
      else s.closedThen a.ep k (fun s k => s.endCopy a.ep k))

/-- COPY_FAIL: a failed command leaves once its writes and the pushes of blocks before the failing one are made and its payload is acknowledged or
abandoned, and its record is posted; one that an ABORT or END has failed posts no further record (R227, R280). -/
def execCopyFail (s : State) : Out :=
  let a := s.ev
  let c := s.core a.ep
  .next (match c.copy? a.id with
    | none => s
    | some k =>
      if k.phase = .failed && !k.spec && !k.tail.isEmpty then s.tailLast a.ep k
      else if k.phase ≠ .failed || !k.puts.isEmpty || !k.buf.isEmpty || k.streams.any (fun w => !w.2.unacked.isEmpty && !w.2.err) then s
      else s.closedThen a.ep k (fun s k =>
        let s1 := s.leaveCopy a.ep k
        match k.fault with
        | some r => s1.postCopy a.ep k r
        | none => s1))

end Sys2Proof.Machine
end

