-- ==== Sys2Proof/Decode.lean ====
section
/-! DEFINITION. Decoding instruction words (R108 to R123), total on any bits and refusing by name, and the encoder written from
the same tables. A word of this decoder may be one that its entry forbids (a field value out of range): `decodeWord` refuses
those too, under `WellFormed`. -/

namespace Sys2Proof

/-- Why a word is no instruction (R123). -/
inductive DecodeError where
  | reservedMajor
  | unassigned
  | reservedField
  | outOfRange
  | truncated
  deriving DecidableEq, Repr

open Sys2Proof.Machine (fld)

/-- Major 0 (LD, format CM). -/
def decodeLd (w : Word) : Except DecodeError Instr :=
  match w.toNat / 2 ^ 4 % 8 with
  | 0 => .ok (.ld ⟨fld w 21 5, fld w 16 5, fld w 9 7, fld w 7 2, fld w 0 4⟩)
  | 1 => .ok (.ldX ⟨fld w 21 5, fld w 16 5, fld w 9 7, fld w 7 2, fld w 0 4⟩)
  | _ => .error .unassigned

/-- Major 1 (ST, format CM). -/
def decodeSt (w : Word) : Except DecodeError Instr :=
  .ok (.st ⟨fld w 21 5, fld w 16 5, fld w 9 7, fld w 7 2, fld w 4 3, fld w 0 4⟩)

/-- Major 2 (VM, format CM). -/
def decodeVm (w : Word) : Except DecodeError Instr :=
  match w.toNat / 2 ^ 7 % 4 with
  | 0 => match w.toNat / 2 ^ 4 % 8 with
    | 0 => .ok (.vld ⟨fld w 21 5, fld w 16 5, fld w 9 7, fld w 0 4⟩)
    | 1 => .ok (.vldX ⟨fld w 21 5, fld w 16 5, fld w 9 7, fld w 0 4⟩)
    | _ => .error .unassigned
  | 1 => .ok (.vst ⟨fld w 21 5, fld w 16 5, fld w 9 7, fld w 4 3, fld w 0 4⟩)
  | _ => .error .unassigned

/-- Major 3 (FE, format CE). -/
def decodeFe (w : Word) : Except DecodeError Instr :=
  match w.toNat / 2 ^ 21 % 32 with
  | 0 => if w.toNat / 2 ^ 4 % 4 = 0 then .ok (.ldf ⟨fld w 16 5, fld w 11 5, fld w 6 5, fld w 0 4⟩) else .error .reservedField
  | 1 => if w.toNat / 2 ^ 4 % 4 = 0 then .ok (.ldff ⟨fld w 16 5, fld w 11 5, fld w 6 5, fld w 0 4⟩) else .error .reservedField
  | 2 => if w.toNat / 2 ^ 4 % 128 = 0 then .ok (.stf ⟨fld w 16 5, fld w 11 5, fld w 0 4⟩) else .error .reservedField
  | 3 => if w.toNat / 2 ^ 4 % 128 = 0 then .ok (.stff ⟨fld w 16 5, fld w 11 5, fld w 0 4⟩) else .error .reservedField
  | 4 => if w.toNat / 2 ^ 4 % 128 = 0 ∧ w.toNat / 2 ^ 16 % 32 = 0 then .ok (.sete ⟨fld w 11 5, fld w 0 4⟩) else .error .reservedField
  | 5 => if w.toNat / 2 ^ 4 % 128 = 0 then .ok (.qfe ⟨fld w 16 5, fld w 11 5, fld w 0 4⟩) else .error .reservedField
  | 6 => if w.toNat / 2 ^ 4 % 4 = 0 then .ok (.waita ⟨fld w 16 5, fld w 11 5, fld w 6 5, fld w 0 4⟩) else .error .reservedField
  | _ => .error .unassigned

/-- Major 4 (AMI, format CA). -/
def decodeAmi (w : Word) : Except DecodeError Instr :=
  match w.toNat / 2 ^ 8 % 8 with
  | 0 => .ok (.aadd ⟨fld w 21 5, fld w 16 5, fld w 11 5, fld w 4 4, fld w 1 3, fld w 0 1⟩)
  | 1 => .ok (.aand ⟨fld w 21 5, fld w 16 5, fld w 11 5, fld w 4 4, fld w 1 3, fld w 0 1⟩)
  | 2 => .ok (.aor ⟨fld w 21 5, fld w 16 5, fld w 11 5, fld w 4 4, fld w 1 3, fld w 0 1⟩)
  | 3 => .ok (.axor ⟨fld w 21 5, fld w 16 5, fld w 11 5, fld w 4 4, fld w 1 3, fld w 0 1⟩)
  | 4 => .ok (.amin ⟨fld w 21 5, fld w 16 5, fld w 11 5, fld w 4 4, fld w 1 3, fld w 0 1⟩)
  | 5 => .ok (.amax ⟨fld w 21 5, fld w 16 5, fld w 11 5, fld w 4 4, fld w 1 3, fld w 0 1⟩)
  | 6 => .ok (.aminn ⟨fld w 21 5, fld w 16 5, fld w 11 5, fld w 4 4, fld w 1 3, fld w 0 1⟩)
  | 7 => .ok (.amaxn ⟨fld w 21 5, fld w 16 5, fld w 11 5, fld w 4 4, fld w 1 3, fld w 0 1⟩)
  | _ => .error .unassigned

/-- Major 5 (AMF, format CA). -/
def decodeAmf (w : Word) : Except DecodeError Instr :=
  match w.toNat / 2 ^ 8 % 8 with
  | 0 => .ok (.aswp ⟨fld w 21 5, fld w 16 5, fld w 11 5, fld w 4 4, fld w 1 3, fld w 0 1⟩)
  | 1 => .ok (.acas ⟨fld w 21 5, fld w 16 5, fld w 11 5, fld w 4 4, fld w 1 3, fld w 0 1⟩)
  | 2 => if w.toNat % 2 = 0 then .ok (.afadd ⟨fld w 21 5, fld w 16 5, fld w 11 5, fld w 4 4, fld w 1 3⟩) else .error .reservedField
  | 3 => .ok (.afadd2 ⟨fld w 21 5, fld w 16 5, fld w 11 5, fld w 4 4, fld w 1 3, fld w 0 1⟩)
  | 4 => if w.toNat % 2 = 0 then .ok (.afmax ⟨fld w 21 5, fld w 16 5, fld w 11 5, fld w 4 4, fld w 1 3⟩) else .error .reservedField
  | 5 => if w.toNat % 2 = 0 then .ok (.afmin ⟨fld w 21 5, fld w 16 5, fld w 11 5, fld w 4 4, fld w 1 3⟩) else .error .reservedField
  | 6 => if w.toNat % 2 = 1 ∧ w.toNat / 2 ^ 21 % 32 = 0 then .ok (.sig ⟨fld w 16 5, fld w 11 5, fld w 4 4, fld w 1 3⟩) else .error .reservedField
  | _ => .error .unassigned

/-- Major 6 (MSG, format CS). -/
def decodeMsg (w : Word) : Except DecodeError Instr :=
  match w.toNat / 2 ^ 20 % 64 with
  | 0 => if w.toNat / 2 ^ 5 % 32 = 0 then .ok (.send ⟨fld w 15 5, fld w 10 5, fld w 4 1, fld w 3 1, fld w 2 1, fld w 0 2⟩) else .error .reservedField
  | 1 => .ok (.waitq ⟨fld w 15 5, fld w 10 5, fld w 4 6, fld w 0 4⟩)
  | 2 => if w.toNat / 2 ^ 4 % 2048 = 0 then .ok (.qlen ⟨fld w 15 5, fld w 0 4⟩) else .error .reservedField
  | _ => .error .unassigned

/-- Major 7 (BR, format CB). -/
def decodeBr (w : Word) : Except DecodeError Instr :=
  match w.toNat / 2 ^ 22 % 16 with
  | 0 => .ok (.beq ⟨fld w 17 5, fld w 12 5, fld w 0 12⟩)
  | 1 => .ok (.bne ⟨fld w 17 5, fld w 12 5, fld w 0 12⟩)
  | 2 => .ok (.blt ⟨fld w 17 5, fld w 12 5, fld w 0 12⟩)
  | 3 => .ok (.bge ⟨fld w 17 5, fld w 12 5, fld w 0 12⟩)
  | 4 => .ok (.bltu ⟨fld w 17 5, fld w 12 5, fld w 0 12⟩)
  | 5 => .ok (.bgeu ⟨fld w 17 5, fld w 12 5, fld w 0 12⟩)
  | 6 => .ok (.bbs ⟨fld w 17 5, fld w 12 5, fld w 0 12⟩)
  | 7 => .ok (.bbc ⟨fld w 17 5, fld w 12 5, fld w 0 12⟩)
  | _ => .error .unassigned

/-- Major 8 (JMP, format J). -/
def decodeJmp (w : Word) : Except DecodeError Instr :=
  .ok (.jal ⟨fld w 21 5, fld w 0 21⟩)

/-- Major 9 (SYS, format CS). -/
def decodeSys (w : Word) : Except DecodeError Instr :=
  match w.toNat / 2 ^ 20 % 64 with
  | 0 => if w.toNat / 2 ^ 10 % 32 = 0 then .ok (.mfs ⟨fld w 15 5, fld w 0 10⟩) else .error .reservedField
  | 1 => if w.toNat / 2 ^ 31 = 0 ∧ w.toNat / 2 ^ 15 % 32 = 0 then .ok (.mts ⟨fld w 10 5, fld w 0 10⟩) else .error .reservedField
  | 4 => .ok (.jalr ⟨fld w 15 5, fld w 10 5, fld w 0 10⟩)
  | 8 => if w.toNat / 2 ^ 31 = 0 ∧ w.toNat / 2 ^ 15 % 32 = 0 then .ok (.trap ⟨fld w 10 5, fld w 0 10⟩) else .error .reservedField
  | 10 => if w.toNat / 2 ^ 31 = 0 ∧ w.toNat / 2 ^ 10 % 1024 = 0 then .ok (.bkpt ⟨fld w 0 10⟩) else .error .reservedField
  | 14 => if w.toNat % 1024 = 0 then .ok (.spawn ⟨fld w 15 5, fld w 10 5⟩) else .error .reservedField
  | 16 => if w.toNat % 2 = 0 ∧ w.toNat / 2 ^ 8 % 4096 = 0 then .ok (.fns ⟨fld w 1 7⟩) else .error .reservedField
  | 20 => if w.toNat % 1024 = 0 then .ok (.enq ⟨fld w 15 5, fld w 10 5⟩) else .error .reservedField
  | 9 => if w.toNat / 2 ^ 31 = 0 ∧ w.toNat % 1048576 = 0 then .ok .rett else .error .reservedField
  | 12 => if w.toNat % 1048576 = 0 then .ok .yield else .error .reservedField
  | 13 => if w.toNat / 2 ^ 31 = 0 ∧ w.toNat % 1048576 = 0 then .ok .quit else .error .reservedField
  | 17 => if w.toNat % 1048576 = 0 then .ok .fnc else .error .reservedField
  | 18 => if w.toNat % 1048576 = 0 then .ok .ifnc else .error .reservedField
  | _ => .error .unassigned

/-- Major 10 (BAR, format CS). -/
def decodeBar (w : Word) : Except DecodeError Instr :=
  match w.toNat / 2 ^ 20 % 64 with
  | 0 => .ok (.bar ⟨fld w 15 5, fld w 10 5, fld w 8 2, fld w 0 8⟩)
  | 1 => if w.toNat / 2 ^ 15 % 32 = 0 then .ok (.bara ⟨fld w 10 5, fld w 8 2, fld w 0 8⟩) else .error .reservedField
  | 2 => .ok (.barw ⟨fld w 15 5, fld w 10 5, fld w 8 2, fld w 0 8⟩)
  | 3 => if w.toNat / 2 ^ 8 % 128 = 0 then .ok (.barq ⟨fld w 15 5, fld w 0 8⟩) else .error .reservedField
  | _ => .error .unassigned

/-- Major 11 (CPE, format CE). -/
def decodeCpe (w : Word) : Except DecodeError Instr :=
  match w.toNat / 2 ^ 21 % 32 with
  | 0 => .ok (.cpy ⟨fld w 16 5, fld w 11 5, fld w 6 5, fld w 4 2, fld w 0 4⟩)
  | 1 => .ok (.cpys ⟨fld w 16 5, fld w 11 5, fld w 6 5, fld w 4 2, fld w 0 4⟩)
  | 2 => .ok (.cpf ⟨fld w 16 5, fld w 11 5, fld w 6 5, fld w 4 2, fld w 0 4⟩)
  | 3 => .ok (.tld ⟨fld w 16 5, fld w 11 5, fld w 6 5, fld w 4 2, fld w 0 4⟩)
  | 4 => .ok (.tst ⟨fld w 16 5, fld w 11 5, fld w 6 5, fld w 4 2, fld w 0 4⟩)
  | 5 => .ok (.gth ⟨fld w 16 5, fld w 11 5, fld w 6 5, fld w 4 2, fld w 0 4⟩)
  | 6 => .ok (.sct ⟨fld w 16 5, fld w 11 5, fld w 6 5, fld w 4 2, fld w 0 4⟩)
  | 7 => .ok (.scta ⟨fld w 16 5, fld w 11 5, fld w 6 5, fld w 4 2, fld w 0 4⟩)
  | 8 => .ok (.cpz ⟨fld w 16 5, fld w 11 5, fld w 6 5, fld w 4 2, fld w 0 4⟩)
  | 9 => .ok (.cpx ⟨fld w 16 5, fld w 11 5, fld w 6 5, fld w 4 2, fld w 0 4⟩)
  | 10 => .ok (.hist ⟨fld w 16 5, fld w 11 5, fld w 6 5, fld w 4 2, fld w 0 4⟩)
  | 11 => .ok (.tbld ⟨fld w 16 5, fld w 11 5, fld w 6 5, fld w 4 2, fld w 0 4⟩)
  | 12 => .ok (.tern ⟨fld w 16 5, fld w 11 5, fld w 6 5, fld w 4 2, fld w 0 4⟩)
  | _ => .error .unassigned

/-- Major 12 (MXE, format CE). -/
def decodeMxe (w : Word) : Except DecodeError Instr :=
  match w.toNat / 2 ^ 21 % 32 with
  | 0 => .ok (.mmt ⟨fld w 16 5, fld w 11 5, fld w 6 5, fld w 4 2, fld w 0 4⟩)
  | 1 => .ok (.mmtz ⟨fld w 16 5, fld w 11 5, fld w 6 5, fld w 4 2, fld w 0 4⟩)
  | 2 => .ok (.mdr ⟨fld w 16 5, fld w 11 5, fld w 6 5, fld w 4 2, fld w 0 4⟩)
  | 3 => if w.toNat / 2 ^ 6 % 1024 = 0 then .ok (.mld ⟨fld w 16 5, fld w 4 2, fld w 0 4⟩) else .error .reservedField
  | 4 => if w.toNat / 2 ^ 6 % 1024 = 0 then .ok (.mst ⟨fld w 16 5, fld w 4 2, fld w 0 4⟩) else .error .reservedField
  | 5 => if w.toNat / 2 ^ 6 % 32768 = 0 then .ok (.mclr ⟨fld w 4 2, fld w 0 4⟩) else .error .reservedField
  | 6 => if w.toNat / 2 ^ 4 % 131072 = 0 then .ok (.mwait ⟨fld w 0 4⟩) else .error .reservedField
  | _ => .error .unassigned

/-- Major 13 (GS, format CE). -/
def decodeGs (w : Word) : Except DecodeError Instr :=
  match w.toNat / 2 ^ 21 % 32 with
  | 0 => .ok (.vgldW ⟨fld w 16 5, fld w 11 5, fld w 6 5, fld w 4 2, fld w 0 4⟩)
  | 1 => .ok (.vgldD ⟨fld w 16 5, fld w 11 5, fld w 6 5, fld w 4 2, fld w 0 4⟩)
  | 2 => .ok (.vgstW ⟨fld w 16 5, fld w 11 5, fld w 6 5, fld w 4 2, fld w 0 4⟩)
  | 3 => .ok (.vgstD ⟨fld w 16 5, fld w 11 5, fld w 6 5, fld w 4 2, fld w 0 4⟩)
  | _ => .error .unassigned

/-- Major 16 (IR, format XR). -/
def decodeIr (w : Word) : Except DecodeError Instr :=
  match w.toNat / 2 ^ 20 % 64 with
  | 0 => if w.toNat / 2 ^ 31 = 0 ∧ w.toNat / 2 ^ 1 % 16 = 0 then .ok (.add ⟨fld w 15 5, fld w 10 5, fld w 5 5, fld w 0 1⟩) else .error .reservedField
  | 1 => if w.toNat / 2 ^ 31 = 0 ∧ w.toNat / 2 ^ 1 % 16 = 0 then .ok (.sub ⟨fld w 15 5, fld w 10 5, fld w 5 5, fld w 0 1⟩) else .error .reservedField
  | 2 => if w.toNat / 2 ^ 31 = 0 ∧ w.toNat % 32 = 0 then .ok (.andR ⟨fld w 15 5, fld w 10 5, fld w 5 5⟩) else .error .reservedField
  | 3 => if w.toNat / 2 ^ 31 = 0 ∧ w.toNat % 32 = 0 then .ok (.orR ⟨fld w 15 5, fld w 10 5, fld w 5 5⟩) else .error .reservedField
  | 4 => if w.toNat / 2 ^ 31 = 0 ∧ w.toNat % 32 = 0 then .ok (.xorR ⟨fld w 15 5, fld w 10 5, fld w 5 5⟩) else .error .reservedField
  | 5 => if w.toNat / 2 ^ 31 = 0 ∧ w.toNat % 32 = 0 then .ok (.andn ⟨fld w 15 5, fld w 10 5, fld w 5 5⟩) else .error .reservedField
  | 6 => if w.toNat / 2 ^ 31 = 0 ∧ w.toNat % 32 = 0 then .ok (.orn ⟨fld w 15 5, fld w 10 5, fld w 5 5⟩) else .error .reservedField
  | 8 => if w.toNat / 2 ^ 31 = 0 ∧ w.toNat % 32 = 0 then .ok (.minR ⟨fld w 15 5, fld w 10 5, fld w 5 5⟩) else .error .reservedField
  | 9 => if w.toNat / 2 ^ 31 = 0 ∧ w.toNat % 32 = 0 then .ok (.maxR ⟨fld w 15 5, fld w 10 5, fld w 5 5⟩) else .error .reservedField
  | 10 => if w.toNat / 2 ^ 31 = 0 ∧ w.toNat % 32 = 0 then .ok (.minu ⟨fld w 15 5, fld w 10 5, fld w 5 5⟩) else .error .reservedField
  | 11 => if w.toNat / 2 ^ 31 = 0 ∧ w.toNat % 32 = 0 then .ok (.maxu ⟨fld w 15 5, fld w 10 5, fld w 5 5⟩) else .error .reservedField
  | 12 => if w.toNat / 2 ^ 31 = 0 ∧ w.toNat % 32 = 0 then .ok (.adds ⟨fld w 15 5, fld w 10 5, fld w 5 5⟩) else .error .reservedField
  | 13 => if w.toNat / 2 ^ 31 = 0 ∧ w.toNat % 32 = 0 then .ok (.subs ⟨fld w 15 5, fld w 10 5, fld w 5 5⟩) else .error .reservedField
  | 14 => if w.toNat / 2 ^ 31 = 0 ∧ w.toNat % 32 = 0 then .ok (.addus ⟨fld w 15 5, fld w 10 5, fld w 5 5⟩) else .error .reservedField
  | 15 => if w.toNat / 2 ^ 31 = 0 ∧ w.toNat % 32 = 0 then .ok (.subus ⟨fld w 15 5, fld w 10 5, fld w 5 5⟩) else .error .reservedField
  | 16 => if w.toNat / 2 ^ 31 = 0 ∧ w.toNat / 2 ^ 1 % 16 = 0 then .ok (.sll ⟨fld w 15 5, fld w 10 5, fld w 5 5, fld w 0 1⟩) else .error .reservedField
  | 17 => if w.toNat / 2 ^ 31 = 0 ∧ w.toNat / 2 ^ 1 % 16 = 0 then .ok (.srl ⟨fld w 15 5, fld w 10 5, fld w 5 5, fld w 0 1⟩) else .error .reservedField
  | 18 => if w.toNat / 2 ^ 31 = 0 ∧ w.toNat / 2 ^ 1 % 16 = 0 then .ok (.sra ⟨fld w 15 5, fld w 10 5, fld w 5 5, fld w 0 1⟩) else .error .reservedField
  | 19 => if w.toNat / 2 ^ 31 = 0 ∧ w.toNat % 32 = 0 then .ok (.rol ⟨fld w 15 5, fld w 10 5, fld w 5 5⟩) else .error .reservedField
  | 20 => if w.toNat / 2 ^ 31 = 0 ∧ w.toNat % 32 = 0 then .ok (.ror ⟨fld w 15 5, fld w 10 5, fld w 5 5⟩) else .error .reservedField
  | 24 => if w.toNat / 2 ^ 31 = 0 ∧ w.toNat / 2 ^ 5 % 32 = 0 then .ok (.slli ⟨fld w 15 5, fld w 10 5, BitVec.ofNat 6 ((w.toNat / 2 ^ 20) % 2 * 32 + w.toNat % 32)⟩) else .error .reservedField
  | 25 => if w.toNat / 2 ^ 31 = 0 ∧ w.toNat / 2 ^ 5 % 32 = 0 then .ok (.slli ⟨fld w 15 5, fld w 10 5, BitVec.ofNat 6 ((w.toNat / 2 ^ 20) % 2 * 32 + w.toNat % 32)⟩) else .error .reservedField
  | 26 => if w.toNat / 2 ^ 31 = 0 ∧ w.toNat / 2 ^ 5 % 32 = 0 then .ok (.srli ⟨fld w 15 5, fld w 10 5, BitVec.ofNat 6 ((w.toNat / 2 ^ 20) % 2 * 32 + w.toNat % 32)⟩) else .error .reservedField
  | 27 => if w.toNat / 2 ^ 31 = 0 ∧ w.toNat / 2 ^ 5 % 32 = 0 then .ok (.srli ⟨fld w 15 5, fld w 10 5, BitVec.ofNat 6 ((w.toNat / 2 ^ 20) % 2 * 32 + w.toNat % 32)⟩) else .error .reservedField
  | 28 => if w.toNat / 2 ^ 31 = 0 ∧ w.toNat / 2 ^ 5 % 32 = 0 then .ok (.srai ⟨fld w 15 5, fld w 10 5, BitVec.ofNat 6 ((w.toNat / 2 ^ 20) % 2 * 32 + w.toNat % 32)⟩) else .error .reservedField
  | 29 => if w.toNat / 2 ^ 31 = 0 ∧ w.toNat / 2 ^ 5 % 32 = 0 then .ok (.srai ⟨fld w 15 5, fld w 10 5, BitVec.ofNat 6 ((w.toNat / 2 ^ 20) % 2 * 32 + w.toNat % 32)⟩) else .error .reservedField
  | 30 => if w.toNat / 2 ^ 31 = 0 ∧ w.toNat / 2 ^ 5 % 32 = 0 then .ok (.rori ⟨fld w 15 5, fld w 10 5, BitVec.ofNat 6 ((w.toNat / 2 ^ 20) % 2 * 32 + w.toNat % 32)⟩) else .error .reservedField
  | 31 => if w.toNat / 2 ^ 31 = 0 ∧ w.toNat / 2 ^ 5 % 32 = 0 then .ok (.rori ⟨fld w 15 5, fld w 10 5, BitVec.ofNat 6 ((w.toNat / 2 ^ 20) % 2 * 32 + w.toNat % 32)⟩) else .error .reservedField
  | _ => .error .unassigned

/-- Major 17 (II, format XI). -/
def decodeIi (w : Word) : Except DecodeError Instr :=
  if w.toNat / 2 ^ 31 = 0 then .ok (.addi ⟨fld w 21 5, fld w 16 5, fld w 0 16⟩) else .error .reservedField

/-- Major 18 (IM, format XR). -/
def decodeIm (w : Word) : Except DecodeError Instr :=
  match w.toNat / 2 ^ 20 % 64 with
  | 0 => if w.toNat / 2 ^ 31 = 0 ∧ w.toNat / 2 ^ 1 % 16 = 0 then .ok (.mul ⟨fld w 15 5, fld w 10 5, fld w 5 5, fld w 0 1⟩) else .error .reservedField
  | 1 => if w.toNat / 2 ^ 31 = 0 ∧ w.toNat % 32 = 0 then .ok (.mulh ⟨fld w 15 5, fld w 10 5, fld w 5 5⟩) else .error .reservedField
  | 2 => if w.toNat / 2 ^ 31 = 0 ∧ w.toNat % 32 = 0 then .ok (.mulhu ⟨fld w 15 5, fld w 10 5, fld w 5 5⟩) else .error .reservedField
  | 3 => if w.toNat / 2 ^ 31 = 0 ∧ w.toNat % 32 = 0 then .ok (.mulhsu ⟨fld w 15 5, fld w 10 5, fld w 5 5⟩) else .error .reservedField
  | 4 => if w.toNat / 2 ^ 31 = 0 ∧ w.toNat / 2 ^ 1 % 16 = 0 then .ok (.div ⟨fld w 15 5, fld w 10 5, fld w 5 5, fld w 0 1⟩) else .error .reservedField
  | 5 => if w.toNat / 2 ^ 31 = 0 ∧ w.toNat / 2 ^ 1 % 16 = 0 then .ok (.divu ⟨fld w 15 5, fld w 10 5, fld w 5 5, fld w 0 1⟩) else .error .reservedField
  | 6 => if w.toNat / 2 ^ 31 = 0 ∧ w.toNat / 2 ^ 1 % 16 = 0 then .ok (.rem ⟨fld w 15 5, fld w 10 5, fld w 5 5, fld w 0 1⟩) else .error .reservedField
  | 7 => if w.toNat / 2 ^ 31 = 0 ∧ w.toNat / 2 ^ 1 % 16 = 0 then .ok (.remu ⟨fld w 15 5, fld w 10 5, fld w 5 5, fld w 0 1⟩) else .error .reservedField
  | _ => .error .unassigned

/-- Major 19 (IB, format XR). -/
def decodeIb (w : Word) : Except DecodeError Instr :=
  match w.toNat / 2 ^ 20 % 64 with
  | 0 => if w.toNat / 2 ^ 31 = 0 ∧ w.toNat % 1024 = 0 then .ok (.clz ⟨fld w 15 5, fld w 10 5⟩) else .error .reservedField
  | 1 => if w.toNat / 2 ^ 31 = 0 ∧ w.toNat % 1024 = 0 then .ok (.ctz ⟨fld w 15 5, fld w 10 5⟩) else .error .reservedField
  | 2 => if w.toNat / 2 ^ 31 = 0 ∧ w.toNat % 1024 = 0 then .ok (.popc ⟨fld w 15 5, fld w 10 5⟩) else .error .reservedField
  | 3 => if w.toNat / 2 ^ 31 = 0 ∧ w.toNat % 1024 = 0 then .ok (.brev ⟨fld w 15 5, fld w 10 5⟩) else .error .reservedField
  | 4 => if w.toNat / 2 ^ 31 = 0 ∧ w.toNat % 1024 = 0 then .ok (.bswap ⟨fld w 15 5, fld w 10 5⟩) else .error .reservedField
  | 5 => if w.toNat / 2 ^ 31 = 0 ∧ w.toNat % 1024 = 0 then .ok (.sxb ⟨fld w 15 5, fld w 10 5⟩) else .error .reservedField
  | 6 => if w.toNat / 2 ^ 31 = 0 ∧ w.toNat % 1024 = 0 then .ok (.sxh ⟨fld w 15 5, fld w 10 5⟩) else .error .reservedField
  | 7 => if w.toNat / 2 ^ 31 = 0 ∧ w.toNat % 1024 = 0 then .ok (.sxw ⟨fld w 15 5, fld w 10 5⟩) else .error .reservedField
  | 8 => if w.toNat / 2 ^ 31 = 0 ∧ w.toNat % 1024 = 0 then .ok (.zxb ⟨fld w 15 5, fld w 10 5⟩) else .error .reservedField
  | 9 => if w.toNat / 2 ^ 31 = 0 ∧ w.toNat % 1024 = 0 then .ok (.zxh ⟨fld w 15 5, fld w 10 5⟩) else .error .reservedField
  | 10 => if w.toNat / 2 ^ 31 = 0 ∧ w.toNat % 1024 = 0 then .ok (.zxw ⟨fld w 15 5, fld w 10 5⟩) else .error .reservedField
  | 12 => if w.toNat / 2 ^ 31 = 0 ∧ w.toNat % 32 = 0 then .ok (.bfx ⟨fld w 15 5, fld w 10 5, fld w 5 5⟩) else .error .reservedField
  | 13 => if w.toNat / 2 ^ 31 = 0 ∧ w.toNat % 32 = 0 then .ok (.bfxu ⟨fld w 15 5, fld w 10 5, fld w 5 5⟩) else .error .reservedField
  | 14 => if w.toNat / 2 ^ 31 = 0 ∧ w.toNat % 32 = 0 then .ok (.bfi ⟨fld w 15 5, fld w 10 5, fld w 5 5⟩) else .error .reservedField
  | 16 => if w.toNat / 2 ^ 31 = 0 ∧ w.toNat / 2 ^ 3 % 4 = 0 then .ok (.lea ⟨fld w 15 5, fld w 10 5, fld w 5 5, fld w 0 3⟩) else .error .reservedField
  | 17 => if w.toNat / 2 ^ 31 = 0 ∧ w.toNat / 2 ^ 3 % 4 = 0 then .ok (.leal ⟨fld w 15 5, fld w 10 5, fld w 5 5, fld w 0 3⟩) else .error .reservedField
  | _ => .error .unassigned

/-- Major 20 (CMP, format XR). -/
def decodeCmp (w : Word) : Except DecodeError Instr :=
  match w.toNat / 2 ^ 20 % 64 with
  | 0 => if w.toNat / 2 ^ 31 = 0 ∧ w.toNat % 32 = 0 then .ok (.seq ⟨fld w 15 5, fld w 10 5, fld w 5 5⟩) else .error .reservedField
  | 1 => if w.toNat / 2 ^ 31 = 0 ∧ w.toNat % 32 = 0 then .ok (.sne ⟨fld w 15 5, fld w 10 5, fld w 5 5⟩) else .error .reservedField
  | 2 => if w.toNat / 2 ^ 31 = 0 ∧ w.toNat % 32 = 0 then .ok (.slt ⟨fld w 15 5, fld w 10 5, fld w 5 5⟩) else .error .reservedField
  | 3 => if w.toNat / 2 ^ 31 = 0 ∧ w.toNat % 32 = 0 then .ok (.sltu ⟨fld w 15 5, fld w 10 5, fld w 5 5⟩) else .error .reservedField
  | 4 => if w.toNat / 2 ^ 31 = 0 ∧ w.toNat % 32 = 0 then .ok (.sle ⟨fld w 15 5, fld w 10 5, fld w 5 5⟩) else .error .reservedField
  | 5 => if w.toNat / 2 ^ 31 = 0 ∧ w.toNat % 32 = 0 then .ok (.sleu ⟨fld w 15 5, fld w 10 5, fld w 5 5⟩) else .error .reservedField
  | 8 => if w.toNat / 2 ^ 31 = 0 ∧ w.toNat / 2 ^ 5 % 32 = 0 then .ok (.seqi ⟨fld w 15 5, fld w 10 5, fld w 0 5⟩) else .error .reservedField
  | 9 => if w.toNat / 2 ^ 31 = 0 ∧ w.toNat / 2 ^ 5 % 32 = 0 then .ok (.snei ⟨fld w 15 5, fld w 10 5, fld w 0 5⟩) else .error .reservedField
  | 10 => if w.toNat / 2 ^ 31 = 0 ∧ w.toNat / 2 ^ 5 % 32 = 0 then .ok (.slti ⟨fld w 15 5, fld w 10 5, fld w 0 5⟩) else .error .reservedField
  | 11 => if w.toNat / 2 ^ 31 = 0 ∧ w.toNat / 2 ^ 5 % 32 = 0 then .ok (.sltui ⟨fld w 15 5, fld w 10 5, fld w 0 5⟩) else .error .reservedField
  | 12 => if w.toNat / 2 ^ 31 = 0 ∧ w.toNat / 2 ^ 5 % 32 = 0 then .ok (.slei ⟨fld w 15 5, fld w 10 5, fld w 0 5⟩) else .error .reservedField
  | 13 => if w.toNat / 2 ^ 31 = 0 ∧ w.toNat / 2 ^ 5 % 32 = 0 then .ok (.sleui ⟨fld w 15 5, fld w 10 5, fld w 0 5⟩) else .error .reservedField
  | 14 => if w.toNat / 2 ^ 31 = 0 ∧ w.toNat / 2 ^ 5 % 32 = 0 then .ok (.sgti ⟨fld w 15 5, fld w 10 5, fld w 0 5⟩) else .error .reservedField
  | 15 => if w.toNat / 2 ^ 31 = 0 ∧ w.toNat / 2 ^ 5 % 32 = 0 then .ok (.sgtui ⟨fld w 15 5, fld w 10 5, fld w 0 5⟩) else .error .reservedField
  | 16 => if w.toNat / 2 ^ 31 = 0 then .ok (.sel ⟨fld w 15 5, fld w 10 5, fld w 5 5, fld w 0 5⟩) else .error .reservedField
  | _ => .error .unassigned

/-- Major 21 (VI, format XV). -/
def decodeVi (w : Word) : Except DecodeError Instr :=
  match w.toNat / 2 ^ 20 % 64 with
  | 0 => if w.toNat / 2 ^ 31 = 0 then .ok (.vadd ⟨fld w 15 5, fld w 10 5, fld w 5 5, fld w 2 3, fld w 0 2⟩) else .error .reservedField
  | 1 => if w.toNat / 2 ^ 31 = 0 then .ok (.vsub ⟨fld w 15 5, fld w 10 5, fld w 5 5, fld w 2 3, fld w 0 2⟩) else .error .reservedField
  | 2 => if w.toNat / 2 ^ 31 = 0 then .ok (.vadds ⟨fld w 15 5, fld w 10 5, fld w 5 5, fld w 2 3, fld w 0 2⟩) else .error .reservedField
  | 3 => if w.toNat / 2 ^ 31 = 0 then .ok (.vsubs ⟨fld w 15 5, fld w 10 5, fld w 5 5, fld w 2 3, fld w 0 2⟩) else .error .reservedField
  | 4 => if w.toNat / 2 ^ 31 = 0 then .ok (.vaddus ⟨fld w 15 5, fld w 10 5, fld w 5 5, fld w 2 3, fld w 0 2⟩) else .error .reservedField
  | 5 => if w.toNat / 2 ^ 31 = 0 then .ok (.vsubus ⟨fld w 15 5, fld w 10 5, fld w 5 5, fld w 2 3, fld w 0 2⟩) else .error .reservedField
  | 6 => if w.toNat / 2 ^ 31 = 0 then .ok (.vmul ⟨fld w 15 5, fld w 10 5, fld w 5 5, fld w 2 3, fld w 0 2⟩) else .error .reservedField
  | 7 => if w.toNat / 2 ^ 31 = 0 then .ok (.vmulh ⟨fld w 15 5, fld w 10 5, fld w 5 5, fld w 2 3, fld w 0 2⟩) else .error .reservedField
  | 8 => if w.toNat / 2 ^ 31 = 0 then .ok (.vmulhu ⟨fld w 15 5, fld w 10 5, fld w 5 5, fld w 2 3, fld w 0 2⟩) else .error .reservedField
  | 9 => if w.toNat / 2 ^ 31 = 0 then .ok (.vmin ⟨fld w 15 5, fld w 10 5, fld w 5 5, fld w 2 3, fld w 0 2⟩) else .error .reservedField
  | 10 => if w.toNat / 2 ^ 31 = 0 then .ok (.vmax ⟨fld w 15 5, fld w 10 5, fld w 5 5, fld w 2 3, fld w 0 2⟩) else .error .reservedField
  | 11 => if w.toNat / 2 ^ 31 = 0 then .ok (.vminu ⟨fld w 15 5, fld w 10 5, fld w 5 5, fld w 2 3, fld w 0 2⟩) else .error .reservedField
  | 12 => if w.toNat / 2 ^ 31 = 0 then .ok (.vmaxu ⟨fld w 15 5, fld w 10 5, fld w 5 5, fld w 2 3, fld w 0 2⟩) else .error .reservedField
  | 13 => if w.toNat / 2 ^ 31 = 0 then .ok (.vand ⟨fld w 15 5, fld w 10 5, fld w 5 5, fld w 2 3, fld w 0 2⟩) else .error .reservedField
  | 14 => if w.toNat / 2 ^ 31 = 0 then .ok (.vor ⟨fld w 15 5, fld w 10 5, fld w 5 5, fld w 2 3, fld w 0 2⟩) else .error .reservedField
  | 15 => if w.toNat / 2 ^ 31 = 0 then .ok (.vxor ⟨fld w 15 5, fld w 10 5, fld w 5 5, fld w 2 3, fld w 0 2⟩) else .error .reservedField
  | 16 => if w.toNat / 2 ^ 31 = 0 then .ok (.vandn ⟨fld w 15 5, fld w 10 5, fld w 5 5, fld w 2 3, fld w 0 2⟩) else .error .reservedField
  | 17 => if w.toNat / 2 ^ 31 = 0 then .ok (.vsll ⟨fld w 15 5, fld w 10 5, fld w 5 5, fld w 2 3, fld w 0 2⟩) else .error .reservedField
  | 18 => if w.toNat / 2 ^ 31 = 0 then .ok (.vsrl ⟨fld w 15 5, fld w 10 5, fld w 5 5, fld w 2 3, fld w 0 2⟩) else .error .reservedField
  | 19 => if w.toNat / 2 ^ 31 = 0 then .ok (.vsra ⟨fld w 15 5, fld w 10 5, fld w 5 5, fld w 2 3, fld w 0 2⟩) else .error .reservedField
  | 24 => if w.toNat / 2 ^ 31 = 0 then .ok (.vcmpeq ⟨fld w 15 5, fld w 10 5, fld w 5 5, fld w 2 3, fld w 0 2⟩) else .error .reservedField
  | 25 => if w.toNat / 2 ^ 31 = 0 then .ok (.vcmplt ⟨fld w 15 5, fld w 10 5, fld w 5 5, fld w 2 3, fld w 0 2⟩) else .error .reservedField
  | 26 => if w.toNat / 2 ^ 31 = 0 then .ok (.vcmpltu ⟨fld w 15 5, fld w 10 5, fld w 5 5, fld w 2 3, fld w 0 2⟩) else .error .reservedField
  | 27 => if w.toNat / 2 ^ 31 = 0 then .ok (.vcmple ⟨fld w 15 5, fld w 10 5, fld w 5 5, fld w 2 3, fld w 0 2⟩) else .error .reservedField
  | 28 => if w.toNat / 2 ^ 31 = 0 then .ok (.vcmpleu ⟨fld w 15 5, fld w 10 5, fld w 5 5, fld w 2 3, fld w 0 2⟩) else .error .reservedField
  | 32 => if w.toNat / 2 ^ 31 = 0 then .ok (.vsel ⟨fld w 15 5, fld w 10 5, fld w 5 5, fld w 2 3, fld w 0 2⟩) else .error .reservedField
  | _ => .error .unassigned

/-- Major 22 (VF, format XV). -/
def decodeVf (w : Word) : Except DecodeError Instr :=
  match w.toNat / 2 ^ 20 % 64 with
  | 0 => if w.toNat / 2 ^ 31 = 0 then .ok (.vfadd ⟨fld w 15 5, fld w 10 5, fld w 5 5, fld w 2 3, fld w 0 2⟩) else .error .reservedField
  | 1 => if w.toNat / 2 ^ 31 = 0 then .ok (.vfsub ⟨fld w 15 5, fld w 10 5, fld w 5 5, fld w 2 3, fld w 0 2⟩) else .error .reservedField
  | 2 => if w.toNat / 2 ^ 31 = 0 then .ok (.vfmul ⟨fld w 15 5, fld w 10 5, fld w 5 5, fld w 2 3, fld w 0 2⟩) else .error .reservedField
  | 3 => if w.toNat / 2 ^ 31 = 0 then .ok (.vfdiv ⟨fld w 15 5, fld w 10 5, fld w 5 5, fld w 2 3, fld w 0 2⟩) else .error .reservedField
  | 4 => if w.toNat / 2 ^ 31 = 0 then .ok (.vfmin ⟨fld w 15 5, fld w 10 5, fld w 5 5, fld w 2 3, fld w 0 2⟩) else .error .reservedField
  | 5 => if w.toNat / 2 ^ 31 = 0 then .ok (.vfmax ⟨fld w 15 5, fld w 10 5, fld w 5 5, fld w 2 3, fld w 0 2⟩) else .error .reservedField
  | 6 => if w.toNat / 2 ^ 31 = 0 ∧ w.toNat / 2 ^ 5 % 32 = 0 then .ok (.vfsqrt ⟨fld w 15 5, fld w 10 5, fld w 2 3, fld w 0 2⟩) else .error .reservedField
  | 7 => if w.toNat / 2 ^ 31 = 0 ∧ w.toNat / 2 ^ 5 % 32 = 0 then .ok (.vrcp ⟨fld w 15 5, fld w 10 5, fld w 2 3, fld w 0 2⟩) else .error .reservedField
  | 8 => if w.toNat / 2 ^ 31 = 0 ∧ w.toNat / 2 ^ 5 % 32 = 0 then .ok (.vrsq ⟨fld w 15 5, fld w 10 5, fld w 2 3, fld w 0 2⟩) else .error .reservedField
  | 9 => if w.toNat / 2 ^ 31 = 0 ∧ w.toNat / 2 ^ 5 % 32 = 0 then .ok (.vexp2 ⟨fld w 15 5, fld w 10 5, fld w 2 3, fld w 0 2⟩) else .error .reservedField
  | 10 => if w.toNat / 2 ^ 31 = 0 ∧ w.toNat / 2 ^ 5 % 32 = 0 then .ok (.vlog2 ⟨fld w 15 5, fld w 10 5, fld w 2 3, fld w 0 2⟩) else .error .reservedField
  | 11 => if w.toNat / 2 ^ 31 = 0 ∧ w.toNat / 2 ^ 5 % 32 = 0 then .ok (.vfabs ⟨fld w 15 5, fld w 10 5, fld w 2 3, fld w 0 2⟩) else .error .reservedField
  | 12 => if w.toNat / 2 ^ 31 = 0 ∧ w.toNat / 2 ^ 5 % 32 = 0 then .ok (.vfneg ⟨fld w 15 5, fld w 10 5, fld w 2 3, fld w 0 2⟩) else .error .reservedField
  | 16 => if w.toNat / 2 ^ 31 = 0 then .ok (.vfcmpeq ⟨fld w 15 5, fld w 10 5, fld w 5 5, fld w 2 3, fld w 0 2⟩) else .error .reservedField
  | 17 => if w.toNat / 2 ^ 31 = 0 then .ok (.vfcmplt ⟨fld w 15 5, fld w 10 5, fld w 5 5, fld w 2 3, fld w 0 2⟩) else .error .reservedField
  | 18 => if w.toNat / 2 ^ 31 = 0 then .ok (.vfcmple ⟨fld w 15 5, fld w 10 5, fld w 5 5, fld w 2 3, fld w 0 2⟩) else .error .reservedField
  | 19 => if w.toNat / 2 ^ 31 = 0 then .ok (.vfcmpun ⟨fld w 15 5, fld w 10 5, fld w 5 5, fld w 2 3, fld w 0 2⟩) else .error .reservedField
  | _ => .error .unassigned

/-- Major 23 (VFMA, format XV4). -/
def decodeVfma (w : Word) : Except DecodeError Instr :=
  match w.toNat / 2 ^ 20 % 64 with
  | 0 => if w.toNat / 2 ^ 31 = 0 then .ok (.vfmaW ⟨fld w 15 5, fld w 10 5, fld w 5 5, fld w 0 5⟩) else .error .reservedField
  | 1 => if w.toNat / 2 ^ 31 = 0 then .ok (.vfmsW ⟨fld w 15 5, fld w 10 5, fld w 5 5, fld w 0 5⟩) else .error .reservedField
  | 2 => if w.toNat / 2 ^ 31 = 0 then .ok (.vfnmaW ⟨fld w 15 5, fld w 10 5, fld w 5 5, fld w 0 5⟩) else .error .reservedField
  | 3 => if w.toNat / 2 ^ 31 = 0 then .ok (.vfnmsW ⟨fld w 15 5, fld w 10 5, fld w 5 5, fld w 0 5⟩) else .error .reservedField
  | 4 => if w.toNat / 2 ^ 31 = 0 then .ok (.vfmaH ⟨fld w 15 5, fld w 10 5, fld w 5 5, fld w 0 5⟩) else .error .reservedField
  | 5 => if w.toNat / 2 ^ 31 = 0 then .ok (.vfmsH ⟨fld w 15 5, fld w 10 5, fld w 5 5, fld w 0 5⟩) else .error .reservedField
  | 6 => if w.toNat / 2 ^ 31 = 0 then .ok (.vfnmaH ⟨fld w 15 5, fld w 10 5, fld w 5 5, fld w 0 5⟩) else .error .reservedField
  | 7 => if w.toNat / 2 ^ 31 = 0 then .ok (.vfnmsH ⟨fld w 15 5, fld w 10 5, fld w 5 5, fld w 0 5⟩) else .error .reservedField
  | 8 => if w.toNat / 2 ^ 31 = 0 then .ok (.vdp2 ⟨fld w 15 5, fld w 10 5, fld w 5 5, fld w 0 5⟩) else .error .reservedField
  | 9 => if w.toNat / 2 ^ 31 = 0 then .ok (.vdp4 ⟨fld w 15 5, fld w 10 5, fld w 5 5, fld w 0 5⟩) else .error .reservedField
  | 10 => if w.toNat / 2 ^ 31 = 0 then .ok (.vdp4s ⟨fld w 15 5, fld w 10 5, fld w 5 5, fld w 0 5⟩) else .error .reservedField
  | 11 => if w.toNat / 2 ^ 31 = 0 then .ok (.vdp4u ⟨fld w 15 5, fld w 10 5, fld w 5 5, fld w 0 5⟩) else .error .reservedField
  | _ => .error .unassigned

/-- Major 24 (VCV, format XV). -/
def decodeVcv (w : Word) : Except DecodeError Instr :=
  match w.toNat / 2 ^ 20 % 64 with
  | 0 => if w.toNat / 2 ^ 31 = 0 ∧ w.toNat / 2 ^ 8 % 4 = 0 then .ok (.vcvt ⟨fld w 15 5, fld w 10 5, fld w 5 3, fld w 2 3, fld w 0 2⟩) else .error .reservedField
  | 1 => if w.toNat / 2 ^ 31 = 0 ∧ w.toNat / 2 ^ 2 % 8 = 0 then .ok (.vqnt ⟨fld w 15 5, fld w 10 5, fld w 5 5, fld w 0 2⟩) else .error .reservedField
  | 2 => if w.toNat / 2 ^ 31 = 0 ∧ w.toNat / 2 ^ 2 % 8 = 0 then .ok (.vqnts ⟨fld w 15 5, fld w 10 5, fld w 5 5, fld w 0 2⟩) else .error .reservedField
  | 3 => if w.toNat / 2 ^ 31 = 0 ∧ w.toNat / 2 ^ 2 % 8 = 0 then .ok (.vdqt ⟨fld w 15 5, fld w 10 5, fld w 5 5, fld w 0 2⟩) else .error .reservedField
  | 4 => if w.toNat / 2 ^ 31 = 0 ∧ w.toNat % 4 = 0 then .ok (.vpk ⟨fld w 15 5, fld w 10 5, fld w 5 5, fld w 2 3⟩) else .error .reservedField
  | 5 => if w.toNat / 2 ^ 31 = 0 ∧ w.toNat % 4 = 0 then .ok (.vunp ⟨fld w 15 5, fld w 10 5, fld w 5 5, fld w 2 3⟩) else .error .reservedField
  | 6 => if w.toNat / 2 ^ 31 = 0 ∧ w.toNat % 4 = 0 then .ok (.vtpk ⟨fld w 15 5, fld w 10 5, fld w 5 5, fld w 2 3⟩) else .error .reservedField
  | 7 => if w.toNat / 2 ^ 31 = 0 ∧ w.toNat % 4 = 0 then .ok (.vtun ⟨fld w 15 5, fld w 10 5, fld w 5 5, fld w 2 3⟩) else .error .reservedField
  | _ => .error .unassigned

/-- Major 25 (VPM, format XV). -/
def decodeVpm (w : Word) : Except DecodeError Instr :=
  match w.toNat / 2 ^ 20 % 64 with
  | 0 => if w.toNat / 2 ^ 31 = 0 then .ok (.vperm ⟨fld w 15 5, fld w 10 5, fld w 5 5, fld w 2 3, fld w 0 2⟩) else .error .reservedField
  | 2 => if w.toNat / 2 ^ 31 = 0 then .ok (.vsldu ⟨fld w 15 5, fld w 10 5, fld w 5 5, fld w 2 3, fld w 0 2⟩) else .error .reservedField
  | 3 => if w.toNat / 2 ^ 31 = 0 then .ok (.vsldd ⟨fld w 15 5, fld w 10 5, fld w 5 5, fld w 2 3, fld w 0 2⟩) else .error .reservedField
  | 4 => if w.toNat / 2 ^ 31 = 0 ∧ w.toNat / 2 ^ 5 % 32 = 0 then .ok (.vcmpr ⟨fld w 15 5, fld w 10 5, fld w 2 3, fld w 0 2⟩) else .error .reservedField
  | 5 => if w.toNat / 2 ^ 31 = 0 ∧ w.toNat / 2 ^ 5 % 32 = 0 then .ok (.vexpd ⟨fld w 15 5, fld w 10 5, fld w 2 3, fld w 0 2⟩) else .error .reservedField
  | 8 => if w.toNat / 2 ^ 31 = 0 ∧ w.toNat / 2 ^ 5 % 32 = 0 then .ok (.vredi ⟨fld w 15 5, fld w 10 5, fld w 2 3, fld w 0 2⟩) else .error .reservedField
  | 9 => if w.toNat / 2 ^ 31 = 0 ∧ w.toNat / 2 ^ 5 % 32 = 0 then .ok (.vredmax ⟨fld w 15 5, fld w 10 5, fld w 2 3, fld w 0 2⟩) else .error .reservedField
  | 10 => if w.toNat / 2 ^ 31 = 0 ∧ w.toNat / 2 ^ 5 % 32 = 0 then .ok (.vredmin ⟨fld w 15 5, fld w 10 5, fld w 2 3, fld w 0 2⟩) else .error .reservedField
  | 11 => if w.toNat / 2 ^ 31 = 0 ∧ w.toNat / 2 ^ 5 % 32 = 0 then .ok (.vredmaxu ⟨fld w 15 5, fld w 10 5, fld w 2 3, fld w 0 2⟩) else .error .reservedField
  | 12 => if w.toNat / 2 ^ 31 = 0 ∧ w.toNat / 2 ^ 5 % 32 = 0 then .ok (.vredminu ⟨fld w 15 5, fld w 10 5, fld w 2 3, fld w 0 2⟩) else .error .reservedField
  | 13 => if w.toNat / 2 ^ 31 = 0 ∧ w.toNat / 2 ^ 5 % 32 = 0 then .ok (.vredor ⟨fld w 15 5, fld w 10 5, fld w 2 3, fld w 0 2⟩) else .error .reservedField
  | 16 => if w.toNat / 2 ^ 31 = 0 ∧ w.toNat / 2 ^ 5 % 32 = 0 then .ok (.vred ⟨fld w 15 5, fld w 10 5, fld w 2 3, fld w 0 2⟩) else .error .reservedField
  | 17 => if w.toNat / 2 ^ 31 = 0 ∧ w.toNat / 2 ^ 5 % 32 = 0 then .ok (.vfredmax ⟨fld w 15 5, fld w 10 5, fld w 2 3, fld w 0 2⟩) else .error .reservedField
  | 18 => if w.toNat / 2 ^ 31 = 0 ∧ w.toNat / 2 ^ 5 % 32 = 0 then .ok (.vfredmin ⟨fld w 15 5, fld w 10 5, fld w 2 3, fld w 0 2⟩) else .error .reservedField
  | 24 => if w.toNat / 2 ^ 31 = 0 ∧ w.toNat / 2 ^ 5 % 32 = 0 then .ok (.vscani ⟨fld w 15 5, fld w 10 5, fld w 2 3, fld w 0 2⟩) else .error .reservedField
  | 25 => if w.toNat / 2 ^ 31 = 0 ∧ w.toNat / 2 ^ 5 % 32 = 0 then .ok (.vfscan ⟨fld w 15 5, fld w 10 5, fld w 2 3, fld w 0 2⟩) else .error .reservedField
  | _ => .error .unassigned

/-- Major 26 (VRN, format XV). -/
def decodeVrn (w : Word) : Except DecodeError Instr :=
  match w.toNat / 2 ^ 20 % 64 with
  | 0 => if w.toNat / 2 ^ 31 = 0 ∧ w.toNat % 32768 = 0 then .ok (.draw ⟨fld w 15 5⟩) else .error .reservedField
  | 1 => if w.toNat / 2 ^ 31 = 0 ∧ w.toNat / 2 ^ 5 % 1024 = 0 then .ok (.vdraw ⟨fld w 15 5, fld w 2 3, fld w 0 2⟩) else .error .reservedField
  | _ => .error .unassigned

/-- Major 27 (XMV, format XR). -/
def decodeXmv (w : Word) : Except DecodeError Instr :=
  match w.toNat / 2 ^ 20 % 64 with
  | 0 => if w.toNat / 2 ^ 31 = 0 ∧ w.toNat / 2 ^ 5 % 32 = 0 then .ok (.movvsD ⟨fld w 15 5, fld w 10 5, fld w 0 5⟩) else .error .reservedField
  | 1 => if w.toNat / 2 ^ 31 = 0 ∧ w.toNat / 2 ^ 5 % 32 = 0 then .ok (.movvsW ⟨fld w 15 5, fld w 10 5, fld w 0 5⟩) else .error .reservedField
  | 2 => if w.toNat / 2 ^ 31 = 0 ∧ w.toNat / 2 ^ 5 % 32 = 0 then .ok (.movsvD ⟨fld w 15 5, fld w 10 5, fld w 0 5⟩) else .error .reservedField
  | 3 => if w.toNat / 2 ^ 31 = 0 ∧ w.toNat / 2 ^ 5 % 32 = 0 then .ok (.movsvW ⟨fld w 15 5, fld w 10 5, fld w 0 5⟩) else .error .reservedField
  | 4 => if w.toNat / 2 ^ 31 = 0 ∧ w.toNat % 1024 = 0 then .ok (.vbcastD ⟨fld w 15 5, fld w 10 5⟩) else .error .reservedField
  | 5 => if w.toNat / 2 ^ 31 = 0 ∧ w.toNat % 1024 = 0 then .ok (.vbcastW ⟨fld w 15 5, fld w 10 5⟩) else .error .reservedField
  | 6 => if w.toNat / 2 ^ 31 = 0 ∧ w.toNat % 1024 = 0 then .ok (.vbcastH ⟨fld w 15 5, fld w 10 5⟩) else .error .reservedField
  | 7 => if w.toNat / 2 ^ 31 = 0 ∧ w.toNat % 1024 = 0 then .ok (.vbcastB ⟨fld w 15 5, fld w 10 5⟩) else .error .reservedField
  | 16 => if w.toNat / 2 ^ 31 = 0 ∧ w.toNat % 1024 = 0 then .ok (.mvgk ⟨fld w 15 5, fld w 10 5⟩) else .error .reservedField
  | 17 => if w.toNat / 2 ^ 31 = 0 ∧ w.toNat % 1024 = 0 then .ok (.mvkg ⟨fld w 15 5, fld w 10 5⟩) else .error .reservedField
  | 18 => if w.toNat / 2 ^ 31 = 0 ∧ w.toNat % 32 = 0 then .ok (.kand ⟨fld w 15 5, fld w 10 5, fld w 5 5⟩) else .error .reservedField
  | 19 => if w.toNat / 2 ^ 31 = 0 ∧ w.toNat % 32 = 0 then .ok (.kor ⟨fld w 15 5, fld w 10 5, fld w 5 5⟩) else .error .reservedField
  | 20 => if w.toNat / 2 ^ 31 = 0 ∧ w.toNat % 32 = 0 then .ok (.kxor ⟨fld w 15 5, fld w 10 5, fld w 5 5⟩) else .error .reservedField
  | 21 => if w.toNat / 2 ^ 31 = 0 ∧ w.toNat % 32 = 0 then .ok (.kandn ⟨fld w 15 5, fld w 10 5, fld w 5 5⟩) else .error .reservedField
  | 22 => if w.toNat / 2 ^ 31 = 0 ∧ w.toNat % 1024 = 0 then .ok (.knot ⟨fld w 15 5, fld w 10 5⟩) else .error .reservedField
  | 23 => if w.toNat / 2 ^ 31 = 0 ∧ w.toNat % 1024 = 0 then .ok (.kpop ⟨fld w 15 5, fld w 10 5⟩) else .error .reservedField
  | 24 => if w.toNat / 2 ^ 31 = 0 ∧ w.toNat % 1024 = 0 then .ok (.kfirst ⟨fld w 15 5, fld w 10 5⟩) else .error .reservedField
  | _ => .error .unassigned

/-- Major 28 (LI, format LI). -/
def decodeLi (w : Word) : Except DecodeError Instr :=
  if w.toNat / 2 ^ 31 = 0 then .ok (.li ⟨fld w 21 5, fld w 0 21⟩) else .error .reservedField

/-- Major 30 (PFX, format PFX). -/
def decodePfx (w : Word) : Except DecodeError Instr :=
  match w.toNat / 2 ^ 24 % 4 with
  | 0 => if w.toNat / 2 ^ 31 = 0 ∧ w.toNat % 256 = 0 then .ok (.fmt ⟨fld w 19 5, fld w 14 5, fld w 11 3, fld w 10 1, fld w 9 1, fld w 8 1⟩) else .error .reservedField
  | 1 => if w.toNat / 2 ^ 31 = 0 then .ok (.ext ⟨fld w 0 24⟩) else .error .reservedField
  | _ => .error .unassigned

/-- The instruction a word's selecting fields name (R119), before the ranges its entry allows are checked. -/
def decodeRaw (w : Word) : Except DecodeError Instr :=
  match w.toNat / 2 ^ 26 % 32 with
  | 0 => decodeLd w
  | 1 => decodeSt w
  | 2 => decodeVm w
  | 3 => decodeFe w
  | 4 => decodeAmi w
  | 5 => decodeAmf w
  | 6 => decodeMsg w
  | 7 => decodeBr w
  | 8 => decodeJmp w
  | 9 => decodeSys w
  | 10 => decodeBar w
  | 11 => decodeCpe w
  | 12 => decodeMxe w
  | 13 => decodeGs w
  | 16 => decodeIr w
  | 17 => decodeIi w
  | 18 => decodeIm w
  | 19 => decodeIb w
  | 20 => decodeCmp w
  | 21 => decodeVi w
  | 22 => decodeVf w
  | 23 => decodeVfma w
  | 24 => decodeVcv w
  | 25 => decodeVpm w
  | 26 => decodeVrn w
  | 27 => decodeXmv w
  | 28 => decodeLi w
  | 30 => decodePfx w
  | _ => .error .reservedMajor

/-- The instruction of a word, refused when its entry forbids a field value (R123). -/
def decodeWord (w : Word) : Except DecodeError Instr :=
  match decodeRaw w with
  | .ok i => if i.wellFormed then .ok i else .error .outOfRange
  | .error e => .error e

/-- Decodes the first four bytes of a list, least significant byte first (R3, R108), and returns the rest. -/
def decodeBytes : List (BitVec 8) → Except DecodeError (Instr × List (BitVec 8))
  | b0 :: b1 :: b2 :: b3 :: rest =>
    match decodeRaw (BitVec.ofNat 32 (b0.toNat + b1.toNat * 2 ^ 8 + b2.toNat * 2 ^ 16 + b3.toNat * 2 ^ 24)) with
    | .ok i => .ok (i, rest)
    | .error e => .error e
  | _ => .error .truncated

/-- The instruction the decoder reads from the bits the opcode table gives a row, the bits above them zero. -/
def decodeTableWord (_nbits w : Nat) : Option Instr :=
  match decodeBytes [BitVec.ofNat 8 w, BitVec.ofNat 8 (w / 2 ^ 8), BitVec.ofNat 8 (w / 2 ^ 16), BitVec.ofNat 8 (w / 2 ^ 24)] with
  | .ok (i, _) => some i
  | .error _ => none

/-! ## Encoding -/

/-- A word of format CM (R120), P = 0. -/
def packCM (mj : BitVec 5) (d : BitVec 5) (b : BitVec 5) (off : BitVec 7) (sz : BitVec 2) (s : BitVec 3) (la : BitVec 4) : Word :=
  BitVec.ofNat 32 (mj.toNat * 2 ^ 26 + d.toNat * 2 ^ 21 + b.toNat * 2 ^ 16 + off.toNat * 2 ^ 9 + sz.toNat * 2 ^ 7 + s.toNat * 2 ^ 4 + la.toNat)

/-- A word of format CA (R120), P = 0. -/
def packCA (mj : BitVec 5) (d : BitVec 5) (b : BitVec 5) (a : BitVec 5) (aop : BitVec 3) (sc : BitVec 4) (s : BitVec 3) (w : BitVec 1) : Word :=
  BitVec.ofNat 32 (mj.toNat * 2 ^ 26 + d.toNat * 2 ^ 21 + b.toNat * 2 ^ 16 + a.toNat * 2 ^ 11 + aop.toNat * 2 ^ 8 + sc.toNat * 2 ^ 4 + s.toNat * 2 ^ 1 + w.toNat)

/-- A word of format CB (R120), P = 0. -/
def packCB (mj : BitVec 5) (cond : BitVec 4) (a : BitVec 5) (b : BitVec 5) (off : BitVec 12) : Word :=
  BitVec.ofNat 32 (mj.toNat * 2 ^ 26 + cond.toNat * 2 ^ 22 + a.toNat * 2 ^ 17 + b.toNat * 2 ^ 12 + off.toNat)

/-- A word of format J (R120), P = 0. -/
def packJ (mj : BitVec 5) (d : BitVec 5) (off : BitVec 21) : Word :=
  BitVec.ofNat 32 (mj.toNat * 2 ^ 26 + d.toNat * 2 ^ 21 + off.toNat)

/-- A word of format CS (R120), P = 0. -/
def packCS (mj : BitVec 5) (sop : BitVec 6) (d : BitVec 5) (a : BitVec 5) (imm : BitVec 10) : Word :=
  BitVec.ofNat 32 (mj.toNat * 2 ^ 26 + sop.toNat * 2 ^ 20 + d.toNat * 2 ^ 15 + a.toNat * 2 ^ 10 + imm.toNat)

/-- A word of format CE (R120), P = 0. -/
def packCE (mj : BitVec 5) (eop : BitVec 5) (o1 : BitVec 5) (o2 : BitVec 5) (o3 : BitVec 5) (m : BitVec 2) (la : BitVec 4) : Word :=
  BitVec.ofNat 32 (mj.toNat * 2 ^ 26 + eop.toNat * 2 ^ 21 + o1.toNat * 2 ^ 16 + o2.toNat * 2 ^ 11 + o3.toNat * 2 ^ 6 + m.toNat * 2 ^ 4 + la.toNat)

/-- A word of format XR (R120), P = 0. -/
def packXR (mj : BitVec 5) (fn : BitVec 6) (d : BitVec 5) (a : BitVec 5) (b : BitVec 5) (ty : BitVec 5) : Word :=
  BitVec.ofNat 32 (mj.toNat * 2 ^ 26 + fn.toNat * 2 ^ 20 + d.toNat * 2 ^ 15 + a.toNat * 2 ^ 10 + b.toNat * 2 ^ 5 + ty.toNat)

/-- A word of format XI (R120), P = 0. -/
def packXI (mj : BitVec 5) (d : BitVec 5) (a : BitVec 5) (imm : BitVec 16) : Word :=
  BitVec.ofNat 32 (mj.toNat * 2 ^ 26 + d.toNat * 2 ^ 21 + a.toNat * 2 ^ 16 + imm.toNat)

/-- A word of format XV (R120), P = 0. -/
def packXV (mj : BitVec 5) (fn : BitVec 6) (d : BitVec 5) (a : BitVec 5) (b : BitVec 5) (k : BitVec 3) (w : BitVec 2) : Word :=
  BitVec.ofNat 32 (mj.toNat * 2 ^ 26 + fn.toNat * 2 ^ 20 + d.toNat * 2 ^ 15 + a.toNat * 2 ^ 10 + b.toNat * 2 ^ 5 + k.toNat * 2 ^ 2 + w.toNat)

/-- A word of format XV4 (R120), P = 0. -/
def packXV4 (mj : BitVec 5) (fn : BitVec 6) (d : BitVec 5) (a : BitVec 5) (b : BitVec 5) (c : BitVec 5) : Word :=
  BitVec.ofNat 32 (mj.toNat * 2 ^ 26 + fn.toNat * 2 ^ 20 + d.toNat * 2 ^ 15 + a.toNat * 2 ^ 10 + b.toNat * 2 ^ 5 + c.toNat)

/-- A word of format LI (R120), P = 0. -/
def packLI (mj : BitVec 5) (d : BitVec 5) (imm : BitVec 21) : Word :=
  BitVec.ofNat 32 (mj.toNat * 2 ^ 26 + d.toNat * 2 ^ 21 + imm.toNat)

/-- A word of format PFX, kind FMT (R113). -/
def packFMT (fa fb : BitVec 5) (rm : BitVec 3) (va vb vr : BitVec 1) : Word :=
  BitVec.ofNat 32 (30 * 2 ^ 26 + fa.toNat * 2 ^ 19 + fb.toNat * 2 ^ 14 + rm.toNat * 2 ^ 11 + va.toNat * 2 ^ 10 + vb.toNat * 2 ^ 9
    + vr.toNat * 2 ^ 8)

/-- A word of format PFX, kind EXT (R113). -/
def packEXT (extv : BitVec 24) : Word :=
  BitVec.ofNat 32 (30 * 2 ^ 26 + 2 ^ 24 + extv.toNat)

/-- The word of an instruction with P = 0; none for a step that no word encodes. -/
def encode : Instr → Option Word
  | .ld o => some (packCM 0 o.d o.b o.off o.sz 0 o.la)
  | .ldX o => some (packCM 0 o.d o.b o.off o.sz 1 o.la)
  | .st o => some (packCM 1 o.d o.b o.off o.sz o.strm o.la)
  | .vld o => some (packCM 2 o.d o.b o.off 0 0 o.la)
  | .vldX o => some (packCM 2 o.d o.b o.off 0 1 o.la)
  | .vst o => some (packCM 2 o.d o.b o.off 1 o.strm o.la)
  | .ldf o => some (packCE 3 0 o.d o.b o.c 0 o.la)
  | .ldff o => some (packCE 3 1 o.d o.b o.c 0 o.la)
  | .stf o => some (packCE 3 2 o.d o.b 0 0 o.la)
  | .stff o => some (packCE 3 3 o.d o.b 0 0 o.la)
  | .sete o => some (packCE 3 4 0 o.b 0 0 o.la)
  | .qfe o => some (packCE 3 5 o.d o.b 0 0 o.la)
  | .waita o => some (packCE 3 6 o.d o.b o.c 0 o.la)
  | .aadd o => some (packCA 4 o.d o.b o.a 0 o.sc o.strm o.w)
  | .aand o => some (packCA 4 o.d o.b o.a 1 o.sc o.strm o.w)
  | .aor o => some (packCA 4 o.d o.b o.a 2 o.sc o.strm o.w)
  | .axor o => some (packCA 4 o.d o.b o.a 3 o.sc o.strm o.w)
  | .amin o => some (packCA 4 o.d o.b o.a 4 o.sc o.strm o.w)
  | .amax o => some (packCA 4 o.d o.b o.a 5 o.sc o.strm o.w)
  | .aminn o => some (packCA 4 o.d o.b o.a 6 o.sc o.strm o.w)
  | .amaxn o => some (packCA 4 o.d o.b o.a 7 o.sc o.strm o.w)
  | .aswp o => some (packCA 5 o.d o.b o.a 0 o.sc o.strm o.w)
  | .acas o => some (packCA 5 o.d o.b o.a 1 o.sc o.strm o.w)
  | .afadd o => some (packCA 5 o.d o.b o.a 2 o.sc o.strm 0)
  | .afadd2 o => some (packCA 5 o.d o.b o.a 3 o.sc o.strm o.w)
  | .afmax o => some (packCA 5 o.d o.b o.a 4 o.sc o.strm 0)
  | .afmin o => some (packCA 5 o.d o.b o.a 5 o.sc o.strm 0)
  | .sig o => some (packCA 5 0 o.b o.a 6 o.sc o.strm 1)
  | .send o => some (packCS 6 0 o.t o.a (BitVec.ofNat 10 (o.nr.toNat * 2 ^ 4 + o.ob.toNat * 2 ^ 3 + o.kind.toNat * 2 ^ 2 + o.np.toNat)))
  | .waitq o => some (packCS 6 1 o.d o.a (BitVec.ofNat 10 (o.n.toNat * 2 ^ 4 + o.code.toNat)))
  | .qlen o => some (packCS 6 2 o.d 0 (BitVec.ofNat 10 (o.code.toNat)))
  | .beq o => some (packCB 7 0 o.a o.b o.off)
  | .bne o => some (packCB 7 1 o.a o.b o.off)
  | .blt o => some (packCB 7 2 o.a o.b o.off)
  | .bge o => some (packCB 7 3 o.a o.b o.off)
  | .bltu o => some (packCB 7 4 o.a o.b o.off)
  | .bgeu o => some (packCB 7 5 o.a o.b o.off)
  | .bbs o => some (packCB 7 6 o.a o.b o.off)
  | .bbc o => some (packCB 7 7 o.a o.b o.off)
  | .jal o => some (packJ 8 o.d o.off)
  | .mfs o => some (packCS 9 0 o.d 0 o.sreg)
  | .mts o => some (packCS 9 1 0 o.a o.imm)
  | .jalr o => some (packCS 9 4 o.d o.a o.imm)
  | .trap o => some (packCS 9 8 0 o.a o.imm)
  | .bkpt o => some (packCS 9 10 0 0 o.imm)
  | .spawn o => some (packCS 9 14 o.d o.a 0)
  | .fns o => some (packCS 9 16 0 0 (BitVec.ofNat 10 (o.streams.toNat * 2 ^ 1)))
  | .enq o => some (packCS 9 20 o.d o.a 0)
  | .rett => some (packCS 9 9 0 0 0)
  | .yield => some (packCS 9 12 0 0 0)
  | .quit => some (packCS 9 13 0 0 0)
  | .fnc => some (packCS 9 17 0 0 0)
  | .ifnc => some (packCS 9 18 0 0 0)
  | .bar o => some (packCS 10 0 o.d o.a (BitVec.ofNat 10 (o.op.toNat * 2 ^ 8 + o.group.toNat)))
  | .bara o => some (packCS 10 1 0 o.a (BitVec.ofNat 10 (o.op.toNat * 2 ^ 8 + o.group.toNat)))
  | .barw o => some (packCS 10 2 o.d o.a (BitVec.ofNat 10 (o.op.toNat * 2 ^ 8 + o.group.toNat)))
  | .barq o => some (packCS 10 3 o.d 0 (BitVec.ofNat 10 (o.group.toNat)))
  | .cpy o => some (packCE 11 0 o.o1 o.o2 o.o3 o.m o.la)
  | .cpys o => some (packCE 11 1 o.o1 o.o2 o.o3 o.m o.la)
  | .cpf o => some (packCE 11 2 o.o1 o.o2 o.o3 o.m o.la)
  | .tld o => some (packCE 11 3 o.o1 o.o2 o.o3 o.m o.la)
  | .tst o => some (packCE 11 4 o.o1 o.o2 o.o3 o.m o.la)
  | .gth o => some (packCE 11 5 o.o1 o.o2 o.o3 o.m o.la)
  | .sct o => some (packCE 11 6 o.o1 o.o2 o.o3 o.m o.la)
  | .scta o => some (packCE 11 7 o.o1 o.o2 o.o3 o.m o.la)
  | .cpz o => some (packCE 11 8 o.o1 o.o2 o.o3 o.m o.la)
  | .cpx o => some (packCE 11 9 o.o1 o.o2 o.o3 o.m o.la)
  | .hist o => some (packCE 11 10 o.o1 o.o2 o.o3 o.m o.la)
  | .tbld o => some (packCE 11 11 o.o1 o.o2 o.o3 o.m o.la)
  | .tern o => some (packCE 11 12 o.o1 o.o2 o.o3 o.m o.la)
  | .mmt o => some (packCE 12 0 o.o1 o.o2 o.o3 o.m o.la)
  | .mmtz o => some (packCE 12 1 o.o1 o.o2 o.o3 o.m o.la)
  | .mdr o => some (packCE 12 2 o.o1 o.o2 o.o3 o.m o.la)
  | .mld o => some (packCE 12 3 o.b 0 0 o.m o.la)
  | .mst o => some (packCE 12 4 o.b 0 0 o.m o.la)
  | .mclr o => some (packCE 12 5 0 0 0 o.m o.la)
  | .mwait o => some (packCE 12 6 0 0 0 0 o.la)
  | .vgldW o => some (packCE 13 0 o.v o.b o.i o.m o.la)
  | .vgldD o => some (packCE 13 1 o.v o.b o.i o.m o.la)
  | .vgstW o => some (packCE 13 2 o.v o.b o.i o.m o.la)
  | .vgstD o => some (packCE 13 3 o.v o.b o.i o.m o.la)
  | .add o => some (packXR 16 0 o.d o.a o.b (BitVec.ofNat 5 (o.w.toNat)))
  | .sub o => some (packXR 16 1 o.d o.a o.b (BitVec.ofNat 5 (o.w.toNat)))
  | .andR o => some (packXR 16 2 o.d o.a o.b 0)
  | .orR o => some (packXR 16 3 o.d o.a o.b 0)
  | .xorR o => some (packXR 16 4 o.d o.a o.b 0)
  | .andn o => some (packXR 16 5 o.d o.a o.b 0)
  | .orn o => some (packXR 16 6 o.d o.a o.b 0)
  | .minR o => some (packXR 16 8 o.d o.a o.b 0)
  | .maxR o => some (packXR 16 9 o.d o.a o.b 0)
  | .minu o => some (packXR 16 10 o.d o.a o.b 0)
  | .maxu o => some (packXR 16 11 o.d o.a o.b 0)
  | .adds o => some (packXR 16 12 o.d o.a o.b 0)
  | .subs o => some (packXR 16 13 o.d o.a o.b 0)
  | .addus o => some (packXR 16 14 o.d o.a o.b 0)
  | .subus o => some (packXR 16 15 o.d o.a o.b 0)
  | .sll o => some (packXR 16 16 o.d o.a o.b (BitVec.ofNat 5 (o.w.toNat)))
  | .srl o => some (packXR 16 17 o.d o.a o.b (BitVec.ofNat 5 (o.w.toNat)))
  | .sra o => some (packXR 16 18 o.d o.a o.b (BitVec.ofNat 5 (o.w.toNat)))
  | .rol o => some (packXR 16 19 o.d o.a o.b 0)
  | .ror o => some (packXR 16 20 o.d o.a o.b 0)
  | .slli o => some (packXR 16 (BitVec.ofNat 6 (24 + o.n.toNat / 32)) o.d o.a 0 (BitVec.ofNat 5 o.n.toNat))
  | .srli o => some (packXR 16 (BitVec.ofNat 6 (26 + o.n.toNat / 32)) o.d o.a 0 (BitVec.ofNat 5 o.n.toNat))
  | .srai o => some (packXR 16 (BitVec.ofNat 6 (28 + o.n.toNat / 32)) o.d o.a 0 (BitVec.ofNat 5 o.n.toNat))
  | .rori o => some (packXR 16 (BitVec.ofNat 6 (30 + o.n.toNat / 32)) o.d o.a 0 (BitVec.ofNat 5 o.n.toNat))
  | .addi o => some (packXI 17 o.d o.a o.imm)
  | .mul o => some (packXR 18 0 o.d o.a o.b (BitVec.ofNat 5 (o.w.toNat)))
  | .mulh o => some (packXR 18 1 o.d o.a o.b 0)
  | .mulhu o => some (packXR 18 2 o.d o.a o.b 0)
  | .mulhsu o => some (packXR 18 3 o.d o.a o.b 0)
  | .div o => some (packXR 18 4 o.d o.a o.b (BitVec.ofNat 5 (o.w.toNat)))
  | .divu o => some (packXR 18 5 o.d o.a o.b (BitVec.ofNat 5 (o.w.toNat)))
  | .rem o => some (packXR 18 6 o.d o.a o.b (BitVec.ofNat 5 (o.w.toNat)))
  | .remu o => some (packXR 18 7 o.d o.a o.b (BitVec.ofNat 5 (o.w.toNat)))
  | .clz o => some (packXR 19 0 o.d o.a 0 0)
  | .ctz o => some (packXR 19 1 o.d o.a 0 0)
  | .popc o => some (packXR 19 2 o.d o.a 0 0)
  | .brev o => some (packXR 19 3 o.d o.a 0 0)
  | .bswap o => some (packXR 19 4 o.d o.a 0 0)
  | .sxb o => some (packXR 19 5 o.d o.a 0 0)
  | .sxh o => some (packXR 19 6 o.d o.a 0 0)
  | .sxw o => some (packXR 19 7 o.d o.a 0 0)
  | .zxb o => some (packXR 19 8 o.d o.a 0 0)
  | .zxh o => some (packXR 19 9 o.d o.a 0 0)
  | .zxw o => some (packXR 19 10 o.d o.a 0 0)
  | .bfx o => some (packXR 19 12 o.d o.a o.b 0)
  | .bfxu o => some (packXR 19 13 o.d o.a o.b 0)
  | .bfi o => some (packXR 19 14 o.d o.a o.b 0)
  | .lea o => some (packXR 19 16 o.d o.a o.b (BitVec.ofNat 5 (o.sh.toNat)))
  | .leal o => some (packXR 19 17 o.d o.a o.b (BitVec.ofNat 5 (o.sh.toNat)))
  | .seq o => some (packXR 20 0 o.d o.a o.b 0)
  | .sne o => some (packXR 20 1 o.d o.a o.b 0)
  | .slt o => some (packXR 20 2 o.d o.a o.b 0)
  | .sltu o => some (packXR 20 3 o.d o.a o.b 0)
  | .sle o => some (packXR 20 4 o.d o.a o.b 0)
  | .sleu o => some (packXR 20 5 o.d o.a o.b 0)
  | .seqi o => some (packXR 20 8 o.d o.a 0 o.imm)
  | .snei o => some (packXR 20 9 o.d o.a 0 o.imm)
  | .slti o => some (packXR 20 10 o.d o.a 0 o.imm)
  | .sltui o => some (packXR 20 11 o.d o.a 0 o.imm)
  | .slei o => some (packXR 20 12 o.d o.a 0 o.imm)
  | .sleui o => some (packXR 20 13 o.d o.a 0 o.imm)
  | .sgti o => some (packXR 20 14 o.d o.a 0 o.imm)
  | .sgtui o => some (packXR 20 15 o.d o.a 0 o.imm)
  | .sel o => some (packXR 20 16 o.d o.a o.b o.c)
  | .vadd o => some (packXV 21 0 o.d o.a o.b o.k o.w)
  | .vsub o => some (packXV 21 1 o.d o.a o.b o.k o.w)
  | .vadds o => some (packXV 21 2 o.d o.a o.b o.k o.w)
  | .vsubs o => some (packXV 21 3 o.d o.a o.b o.k o.w)
  | .vaddus o => some (packXV 21 4 o.d o.a o.b o.k o.w)
  | .vsubus o => some (packXV 21 5 o.d o.a o.b o.k o.w)
  | .vmul o => some (packXV 21 6 o.d o.a o.b o.k o.w)
  | .vmulh o => some (packXV 21 7 o.d o.a o.b o.k o.w)
  | .vmulhu o => some (packXV 21 8 o.d o.a o.b o.k o.w)
  | .vmin o => some (packXV 21 9 o.d o.a o.b o.k o.w)
  | .vmax o => some (packXV 21 10 o.d o.a o.b o.k o.w)
  | .vminu o => some (packXV 21 11 o.d o.a o.b o.k o.w)
  | .vmaxu o => some (packXV 21 12 o.d o.a o.b o.k o.w)
  | .vand o => some (packXV 21 13 o.d o.a o.b o.k o.w)
  | .vor o => some (packXV 21 14 o.d o.a o.b o.k o.w)
  | .vxor o => some (packXV 21 15 o.d o.a o.b o.k o.w)
  | .vandn o => some (packXV 21 16 o.d o.a o.b o.k o.w)
  | .vsll o => some (packXV 21 17 o.d o.a o.b o.k o.w)
  | .vsrl o => some (packXV 21 18 o.d o.a o.b o.k o.w)
  | .vsra o => some (packXV 21 19 o.d o.a o.b o.k o.w)
  | .vcmpeq o => some (packXV 21 24 o.d o.a o.b o.k o.w)
  | .vcmplt o => some (packXV 21 25 o.d o.a o.b o.k o.w)
  | .vcmpltu o => some (packXV 21 26 o.d o.a o.b o.k o.w)
  | .vcmple o => some (packXV 21 27 o.d o.a o.b o.k o.w)
  | .vcmpleu o => some (packXV 21 28 o.d o.a o.b o.k o.w)
  | .vsel o => some (packXV 21 32 o.d o.a o.b o.k o.w)
  | .vfadd o => some (packXV 22 0 o.d o.a o.b o.k o.w)
  | .vfsub o => some (packXV 22 1 o.d o.a o.b o.k o.w)
  | .vfmul o => some (packXV 22 2 o.d o.a o.b o.k o.w)
  | .vfdiv o => some (packXV 22 3 o.d o.a o.b o.k o.w)
  | .vfmin o => some (packXV 22 4 o.d o.a o.b o.k o.w)
  | .vfmax o => some (packXV 22 5 o.d o.a o.b o.k o.w)
  | .vfsqrt o => some (packXV 22 6 o.d o.a 0 o.k o.w)
  | .vrcp o => some (packXV 22 7 o.d o.a 0 o.k o.w)
  | .vrsq o => some (packXV 22 8 o.d o.a 0 o.k o.w)
  | .vexp2 o => some (packXV 22 9 o.d o.a 0 o.k o.w)
  | .vlog2 o => some (packXV 22 10 o.d o.a 0 o.k o.w)
  | .vfabs o => some (packXV 22 11 o.d o.a 0 o.k o.w)
  | .vfneg o => some (packXV 22 12 o.d o.a 0 o.k o.w)
  | .vfcmpeq o => some (packXV 22 16 o.d o.a o.b o.k o.w)
  | .vfcmplt o => some (packXV 22 17 o.d o.a o.b o.k o.w)
  | .vfcmple o => some (packXV 22 18 o.d o.a o.b o.k o.w)
  | .vfcmpun o => some (packXV 22 19 o.d o.a o.b o.k o.w)
  | .vfmaW o => some (packXV4 23 0 o.d o.a o.b o.c)
  | .vfmsW o => some (packXV4 23 1 o.d o.a o.b o.c)
  | .vfnmaW o => some (packXV4 23 2 o.d o.a o.b o.c)
  | .vfnmsW o => some (packXV4 23 3 o.d o.a o.b o.c)
  | .vfmaH o => some (packXV4 23 4 o.d o.a o.b o.c)
  | .vfmsH o => some (packXV4 23 5 o.d o.a o.b o.c)
  | .vfnmaH o => some (packXV4 23 6 o.d o.a o.b o.c)
  | .vfnmsH o => some (packXV4 23 7 o.d o.a o.b o.c)
  | .vdp2 o => some (packXV4 23 8 o.d o.a o.b o.c)
  | .vdp4 o => some (packXV4 23 9 o.d o.a o.b o.c)
  | .vdp4s o => some (packXV4 23 10 o.d o.a o.b o.c)
  | .vdp4u o => some (packXV4 23 11 o.d o.a o.b o.c)
  | .vcvt o => some (packXV 24 0 o.d o.a (BitVec.ofNat 5 (o.rm.toNat)) o.k o.part)
  | .vqnt o => some (packXV 24 1 o.d o.a o.x 0 o.part)
  | .vqnts o => some (packXV 24 2 o.d o.a o.x 0 o.part)
  | .vdqt o => some (packXV 24 3 o.d o.a o.x 0 o.part)
  | .vpk o => some (packXV 24 4 o.d o.a o.part o.k 0)
  | .vunp o => some (packXV 24 5 o.d o.a o.part o.k 0)
  | .vtpk o => some (packXV 24 6 o.d o.a o.part o.k 0)
  | .vtun o => some (packXV 24 7 o.d o.a o.part o.k 0)
  | .vperm o => some (packXV 25 0 o.d o.a o.b o.k o.w)
  | .vsldu o => some (packXV 25 2 o.d o.a o.b o.k o.w)
  | .vsldd o => some (packXV 25 3 o.d o.a o.b o.k o.w)
  | .vcmpr o => some (packXV 25 4 o.d o.a 0 o.k o.w)
  | .vexpd o => some (packXV 25 5 o.d o.a 0 o.k o.w)
  | .vredi o => some (packXV 25 8 o.d o.a 0 o.k o.w)
  | .vredmax o => some (packXV 25 9 o.d o.a 0 o.k o.w)
  | .vredmin o => some (packXV 25 10 o.d o.a 0 o.k o.w)
  | .vredmaxu o => some (packXV 25 11 o.d o.a 0 o.k o.w)
  | .vredminu o => some (packXV 25 12 o.d o.a 0 o.k o.w)
  | .vredor o => some (packXV 25 13 o.d o.a 0 o.k o.w)
  | .vred o => some (packXV 25 16 o.d o.a 0 o.k o.w)
  | .vfredmax o => some (packXV 25 17 o.d o.a 0 o.k o.w)
  | .vfredmin o => some (packXV 25 18 o.d o.a 0 o.k o.w)
  | .vscani o => some (packXV 25 24 o.d o.a 0 o.k o.w)
  | .vfscan o => some (packXV 25 25 o.d o.a 0 o.k o.w)
  | .draw o => some (packXV 26 0 o.d 0 0 0 0)
  | .vdraw o => some (packXV 26 1 o.d 0 0 o.k o.w)
  | .movvsD o => some (packXR 27 0 o.d o.a 0 o.lane)
  | .movvsW o => some (packXR 27 1 o.d o.a 0 o.lane)
  | .movsvD o => some (packXR 27 2 o.d o.a 0 o.lane)
  | .movsvW o => some (packXR 27 3 o.d o.a 0 o.lane)
  | .vbcastD o => some (packXR 27 4 o.d o.a 0 0)
  | .vbcastW o => some (packXR 27 5 o.d o.a 0 0)
  | .vbcastH o => some (packXR 27 6 o.d o.a 0 0)
  | .vbcastB o => some (packXR 27 7 o.d o.a 0 0)
  | .mvgk o => some (packXR 27 16 o.d o.a 0 0)
  | .mvkg o => some (packXR 27 17 o.d o.a 0 0)
  | .kand o => some (packXR 27 18 o.d o.a o.b 0)
  | .kor o => some (packXR 27 19 o.d o.a o.b 0)
  | .kxor o => some (packXR 27 20 o.d o.a o.b 0)
  | .kandn o => some (packXR 27 21 o.d o.a o.b 0)
  | .knot o => some (packXR 27 22 o.d o.a 0 0)
  | .kpop o => some (packXR 27 23 o.d o.a 0 0)
  | .kfirst o => some (packXR 27 24 o.d o.a 0 0)
  | .li o => some (packLI 28 o.d o.imm)
  | .fmt o => some (packFMT o.fa o.fb o.rm o.va o.vb o.vr)
  | .ext o => some (packEXT o.extv)
  | .resultReturn => none
  | .systemFault => none
  | .waitLimitExpiry => none
  | .ldfWithdrawConfirm => none
  | .feWaitRetry => none
  | .combineTimeout => none
  | .contextFree => none
  | .crewRelease => none
  | .walkComplete => none
  | .walkRetry => none
  | .spawnRequest => none
  | .spawnPlace => none
  | .barrierArrival => none
  | .meshInterrupt => none
  | .crewSave => none
  | .copyStart => none
  | .ringPush => none
  | .copyComplete => none
  | .copyFail => none
  | .matrixStart => none
  | .matrixStep => none
  | .lqptrTailWrite => none
  | .headRecordCheck => none
  | .dependencePoll => none
  | .launchComplete => none
  | .rotationBoundary => none
  | .coresidentHold => none
  | .priorityPreempt => none
  | .teardownStart => none
  | .teardownEnd => none
  | .faultRecordPost => none
  | .resolveResume => none
  | .resolveAbort => none
  | .resolveEnd => none
  | .invalPage => none
  | .invalAsid => none
  | .invalAll => none
  | .invalComplete => none
  | .moveMem => none
  | .preemptPark => none
  | .preemptEvict => none
  | .residentSet => none
  | .residentClear => none
  | .flitReceive => none
  | .linkReplay => none
  | .keepalive => none
  | .linkDown => none
  | .retrainEnd => none
  | .packetForward => none
  | .read => none
  | .rdata => none
  | .write => none
  | .atomic => none
  | .signal => none
  | .aval => none
  | .msg => none
  | .ack => none
  | .nack => none
  | .close => none
  | .drain => none
  | .mgmt => none
  | .retransmitTimeout => none
  | .nackBackoffExpiry => none
  | .sessionReclaim => none
  | .routeSwitch => none
  | .bar2Read => none
  | .bar2Write => none
  | .bar2Atomicop => none
  | .powerUp => none
  | .deviceReset => none
  | .pfFlr => none
  | .vfFlr => none
  | .mailboxGo => none
  | .mailboxAnswer => none
  | .getVersion => none
  | .getCapabilities => none
  | .negotiateAlgorithms => none
  | .getDigests => none
  | .getCertificate => none
  | .challenge => none
  | .getMeasurements => none
  | .readbackRead => none
  | .readbackWrite => none
  | .quiesceRequest => none
  | .quiesceAck => none
  | .quiesceRelease => none
  | .scrubBankRead => none
  | .scrubChannelRead => none
  | .refreshForced => none
  | .clockStep => none
  | .thermalTrip => none
  | .registerWrite => none
  | .illegalInstruction => none
  | .pcieCompletion => none
  | .completionTimeout => none
  | .configurationWrite => none
  | .portTraining => none
  | .powerRemoval => none

end Sys2Proof
end

