-- ==== Sys2Proof/Machine/Issue.lean ====
section
/-! DEFINITION. The issue logic of a core: waking, choosing a context, the order of R272, fetching, single words and bundles
(R24, R37 to R40, R44, R45, R78, R110 to R112, R124, R164, R284). The meaning of an instruction is a parameter. -/

namespace Sys2Proof.Machine

/-! ## Waking (R44) -/

/-- The count that WAITQ waits for and QLEN reads (R194); an outbox entry kept for a reply whose result returns later counts as free.
(DESIGN CHOICE, notes/assumptions/97.md.) -/
def State.targetCount (s : State) (ep : Ep) (ctx : Ctx) (code : BitVec 4) : Nat :=
  let c := s.core ep
  let t := s.thr ep ctx
  match code.toNat with
  | 9 => (c.inbox.filter (fun m => m.readable (launchKey t.home t.lid))).length
  | 10 => ((c.repliesOf ctx).filter (fun w => t.replyPos.map Prod.fst ≠ some w.1)).length
  | 11 => 64 - c.outbox0.length
  | 12 => 64 - c.outbox1.length
  | _ => (c.queue code).data.length

/-- The stores of a thread into its own core's instruction store have committed (R69). -/
def State.codeQuiet (s : State) (ep : Ep) (ctx : Ctx) : Bool :=
  let own (pa : Nat) : Bool := paRegion pa = .istore && homeEp pa = ep
  (s.thr ep ctx).streams.toList.all (fun st => st.unacked.all (fun u => !own u.pkt.pa.toNat))
    && (s.core ep).combine.all (fun e => !(e.ctx = ctx && own e.seg))

/-- Every earlier access of a thread is performed and acknowledged, and its copies are complete; one that fails has its own performed and acknowledged
before it leaves its queue (R69, R227). -/
def State.allQuiet (s : State) (ep : Ep) (ctx : Ctx) : Bool :=
  (s.thr ep ctx).pend.isEmpty && s.streamsQuiet ep ctx 0xFF &&
    (s.core ep).copies.all (fun k => k.ended || !(s.thr ep ctx).owns k.home k.lid k.lti || k.phase = .done)

/-- The dwords that a thread can pop from a target now, and the room for its pushes there (R28, R187, R191). -/
def State.portStock (s : State) (ep : Ep) (ctx : Ctx) (code : BitVec 4) : Nat × Nat :=
  let c := s.core ep
  let t := s.thr ep ctx
  match code.toNat with
  | 9 =>
    let key := launchKey t.home t.lid
    (t.restMsg.length + ((c.inbox.filter (fun m => t.heldReq = some m.id)).map (fun m => m.payload.length - m.read)).sum +
      ((c.inbox.filter (fun m => m.readable key)).map (fun m => m.payload.length + 1)).sum, 0)
  | 10 =>
    (t.restReply.length + ((c.repliesOf ctx).map (fun w =>
      let n := (w.2.msg.map (fun m => m.2.length)).getD 0
      match t.replyPos with
      | some (i, pos) => if i = w.1 then n - pos else n + 1
      | none => n + 1)).sum, 0)
  | 11 => (0, 64 - c.outboxUsed 0)
  | 12 => (0, 64 - c.outboxUsed 1)
  | _ => ((c.queue code).data.length, 32 - (c.queue code).data.length - (c.queue code).reserved)

/-- Pops (false) and pushes (true) of one target are served in turn, from the dwords there and the room there. -/
def served : Nat → Nat → List Bool → Bool
  | _, _, [] => true
  | n, room, false :: r => decide (0 < n) && served (n - 1) (room + 1) r
  | n, room, true :: r => decide (0 < room) && served n (room - 1) r

/-- The order of parked threads that a port operand stands in. -/
def portPlace (code : BitVec 4) (push : Bool) : Wait :=
  if code = 11 || code = 12 then .outbox (BitVec.ofNat 1 (code.toNat - 11)) false else .queue code push

/-- All port operands of a unit can be served at once, and no thread that parked earlier on one of their queues is before it (R28, R44). -/
def State.portsServed (s : State) (ep : Ep) (ctx : Ctx) (needs : List (BitVec 4 × Bool)) : Bool :=
  needs.all (fun n => !(s.core ep).behind ctx (portPlace n.1 n.2) &&
    served (s.portStock ep ctx n.1).1 (s.portStock ep ctx n.1).2 ((needs.filter (fun m => m.1 = n.1)).map Prod.snd))

/-- The entry of an outbox that a SEND takes, as a push to the outbox's target (R189). -/
def outboxNeed : Instr → List (BitVec 4 × Bool)
  | .send o => [(11 + o.ob.setWidth 4, true)]
  | _ => []

/-- The targets of an instruction's port operands in the order in which they are served, each with whether it is pushed to, and the outbox of a SEND (R28,
R189). With SQT set a full outbox is waited for by none, for it traps (R189, R192). -/
def Thread.portNeeds (t : Thread) (i : Instr) : List (BitVec 4 × Bool) :=
  ((i.gSrcs.filter isPort).map (fun r => (t.portCode r, false)) ++ (i.gDest.toList.filter isPort).map (fun r => (t.portCode r, true)) ++ outboxNeed i).filter
    (fun n => !(t.stBit 23 && (n.1 = 11 || n.1 = 12)))

/-- A unit that has parked keeps what its ports need, for its thread wakes when all of them can be served (R28, R44). -/
def State.notePorts (s : State) (is : List Instr) : State :=
  if s.issue.fate = .parked then s.setMe { s.me with needs := is.flatMap s.me.portNeeds } else s

/-- After the words of a unit: registers written whole carry no error, and a unit that has parked keeps its ports (R28, R284). `pre` is the
thread as it issued. -/
def State.closed (s : State) (pre : Thread) (is : List Instr) : State := (is.foldl (fun s i => s.mended pre i) s).notePorts is

/-- What a parked thread waits for has come (R24, R28, R39, R44, R45, R64, R68, R69). Waits that a step of their own ends
(walks, barriers, retries) are not listed. -/
def State.awake (s : State) (ep : Ep) (ctx : Ctx) : Bool :=
  let c := s.core ep
  let t := s.thr ep ctx
  match t.wait with
  | .none => false
  | .pendingAll => t.pend.isEmpty
  | .reg n => t.isFull n
  | .vec n => !t.vecPending n
  | .acc m => !c.mq.any (fun q => t.owns q.home q.lid q.lti && !q.ended && q.acc = m)
  | .queue code push => s.portsServed ep ctx (if t.needs.contains (code, push) then t.needs else [(code, push)])
  | .count code n => n ≤ s.targetCount ep ctx code
  | .walk => false
  | .walkRefused _ => false
  | .streams mask => s.streamsQuiet ep ctx mask
  | .ownStores pa size => !s.ownStores ep ctx pa size
  | .streamRoom n => (t.stream n).unacked.length + (c.combine.filter (fun e => e.ctx = ctx && e.strm = n)).length < 128
  | .closeStore => c.closes.length < 64
  | .fenceAll => s.allQuiet ep ctx
  | .fenceCode => s.codeQuiet ep ctx
  | .barrier _ => false
  | .copyRoom => c.copies.length < 32
  | .tableSlot n => (vget n c.slots).refs = 0
  | .matrixRoom => (c.mq.filter (fun q => q.phase = .queued || q.phase = .running)).length < 8
  | .matrixIdle => c.mq.isEmpty
  | .ringIdle n => !c.ringBusy n
  | .outbox ob slotOnly => if slotOnly then c.freeSlot.isSome else c.outboxUsed ob < 64 && !c.behind ctx t.wait && s.portsServed ep ctx t.needs
  | .spawnAnswer => t.pend.isEmpty
  | .matrixCommand id => c.mq.all (fun q => q.id ≠ id)

/-- A parked context whose reason has cleared becomes READY (R44). -/
def State.wakeOne (s : State) (ep : Ep) (ctx : Ctx) : State :=
  let t := s.thr ep ctx
  match t.status with
  | .parked _ => if s.awake ep ctx then
      (match t.wait with
       | .count code _ => s.completeHeld ep ctx (BitVec.ofNat 64 (s.targetCount ep ctx code))
       | _ => s.setThr ep ctx { t with status := .ready, wait := .none })
    else
      (match t.wait with
       | .pendingAll => s.setThr ep ctx { t with status := .parked t.pendReason }
       | _ => s)
  | _ => s

/-- The sixteen contexts in ascending order. -/
def allCtx : List Ctx := (List.range 16).map (fun i => BitVec.ofNat 4 i)

/-- Every parked context of a core whose reason has cleared becomes READY (R44). -/
def State.wakeAll (s : State) (ep : Ep) : State := allCtx.foldl (fun s ctx => s.wakeOne ep ctx) s

/-! ## Choosing a context (R37) -/

/-- A context that may issue, but for YIELD: READY, not ending, its crew neither stopped nor still being restored, and no bundle in the last three cycles. -/
def Core.eligible (c : Core) (ctx : Ctx) : Bool :=
  let t := vget ctx c.threads
  t.status = .ready && !t.quitting
    && (match t.lastIssue with | none => true | some n => n + 4 ≤ c.cyc.toNat)
    && (match c.crew? t.home t.lid with | some w => w.preempt.isNone && !w.tearing && w.owed.isEmpty | none => true)

/-- Visits contexts in round-robin order; YIELD excludes its context once, when it would be chosen. -/
def Core.pick (c : Core) : List Ctx → Core × Option Ctx
  | [] => (c, none)
  | x :: r =>
    if c.eligible x then
      if (vget x c.threads).yielded then Core.pick (c.setThr x { vget x c.threads with yielded := false }) r
      else (c, some x)
    else Core.pick c r

/-- The contexts after the one that issued last. -/
def Core.rotation (c : Core) : List Ctx := (List.range 16).map (fun i => c.last + 1 + BitVec.ofNat 4 i)

/-! ## Fetching (R78, R109) -/

/-- The word at an offset of a core's instruction store. A word that the core's own threads have stored and not yet fenced is what it is now or
any word it held since the first of those stores, by a free value (R78). -/
def State.fetchWord (s : State) (ep : Ep) (pc : BitVec 18) : Word × State :=
  let w := BitVec.ofNat 32 (s.mem.read (istorePa ep pc.toNat) 4)
  match ((s.core ep).stale.filter (fun x => x.1 = pc.toNat)).map (fun x => x.2.1) with
  | [] => (w, s)
  | olds => (olds.getD (s.freeDword.1.toNat % (olds.length + 1)) w, s.freeDword.2)

/-- P of a word. -/
def wordP (w : Word) : Bool := w.getLsbD 31

/-- The major opcode. -/
def wordMajor (w : Word) : Nat := w.toNat / 2 ^ 26 % 32

/-- A C-class word (R108). -/
def wordIsC (w : Word) : Bool := wordMajor w ≤ 13

/-- An X-class word (R108). -/
def wordIsX (w : Word) : Bool := 16 ≤ wordMajor w && wordMajor w ≤ 28

/-- QUIT, TRAP, RETT, BKPT and MTS open no bundle (R110 reason 6). -/
def wordAlone (w : Word) : Bool :=
  let sop := w.toNat / 2 ^ 20 % 64
  wordMajor w = 9 && (sop = 1 || sop = 8 || sop = 9 || sop = 10 || sop = 13)

/-- The instruction of a word, or the illegal-instruction step (R123). -/
def instrOf (w : Word) : Instr :=
  match decodeWord w with
  | .ok i => i
  | .error _ => .illegalInstruction

/-- A floating word of VF or VPM whose w is beyond the range its entry accepts, found at step 2 of R124 (R123, R202). -/
def floatWidthBad (w : Word) : Bool :=
  let fn := w.toNat / 2 ^ 20 % 64
  (wordMajor w = 22 || (wordMajor w = 25 && (fn = 16 || fn = 17 || fn = 18 || fn = 25))) && (w.toNat % 4 = 0 || w.toNat % 4 = 3)

/-- A field of an X-class instruction is beyond the range that the formats in force give it, found at step 2 of R124 (R123, R216, R218, R219). -/
def fieldBeyond (t : Thread) (i : Instr) : Bool :=
  let a := (t.fmt.fa.getD 31).toNat
  let b := (t.fmt.fb.getD 31).toNat
  match i with
  | .vtpk o => packBeyond 12 o.part.toNat
  | .vtun o => packBeyond 12 o.part.toNat
  | .vpk o => packBeyond b o.part.toNat
  | .vunp o => packBeyond a o.part.toNat
  | .vcvt o => partBad a b o.part.toNat
  | .vqnt o => quantBeyond a b o.a o.part.toNat
  | .vqnts o => quantBeyond a b o.a o.part.toNat
  | .vdqt o => quantBeyond b a o.d o.part.toNat
  | _ => false

/-- The reason code of an illegal bundle whose first word stands at 8k (R110). When its X-class word is done, it is not issued, and
only the first word counts (R112). Of several reasons that hold at once it is the one of the lowest number. (DESIGN CHOICE, notes/assumptions/104.md.) -/
def bundleReason (w0 w1 : Word) (xDone toFp32 : Bool) : Option Nat :=
  if !wordIsC w0 then some 2
  else if xDone then if wordAlone w0 then some 6 else none
  else if wordP w1 then some 3
  else if !wordIsX w1 then some 4
  else if sameDest (instrOf (w0 &&& 0x7FFFFFFF)) (instrOf w1) toFp32 then some 5
  else if wordAlone w0 then some 6
  else none

/-! ## Issue units (R110 to R112) -/

/-- The outcome of a meaning, which the issue logic takes as a parameter. -/
abbrev Run := Instr → State → Host.Outcome State Fault Refusal

/-- Continues with the next state of an outcome. -/
def andThen (o : Host.Outcome State Fault Refusal) (f : State → Host.Outcome State Fault Refusal) : Host.Outcome State Fault Refusal :=
  match o with
  | .next s => f s
  | .fault r => .fault r
  | .refused r => .refused r

/-- Prepares one word of the unit. -/
def State.withWord (s : State) (w : Word) : State := { s with issue := { s.issue with word := w, fate := .issued } }

/-- The registers after both words: of each register, the value of the word that wrote it (R111). -/
def mergeRegs (pre c x : Thread) : Thread :=
  { x with
    g := Vector.ofFn (fun i => if c.g[i] = pre.g[i] then x.g[i] else c.g[i]),
    v := Vector.ofFn (fun i => if c.v[i] = pre.v[i] then x.v[i] else c.v[i]),
    k := Vector.ofFn (fun i => if c.k[i] = pre.k[i] then x.k[i] else c.k[i]),
    full := (c.full &&& x.full) ||| ((c.full ||| x.full) &&& ~~~pre.full),
    pc := c.pc, pend := c.pend ++ x.pend.filter (fun p => decide (c.nextId ≤ p.id)), status := c.status, wait := c.wait,
    st := putBit x.st 22 false,
    shadow := if pre.pend.isEmpty then c.shadow else min (pre.shadow - 2) c.shadow }

/-- The results pending before the bundle, and those of its C-class word that will be pushed, which X's pushes follow (R28, R111). -/
def pushesOwed (pre c : Thread) : List Pending :=
  c.pend.filter (fun p => decide (p.id < pre.nextId) || (match p.dest with | .port _ _ => true | .reply _ _ => true | _ => false))

/-- A trap that the values of operands decide, after both words' ports have been served (R28, R111, R124). -/
def trapNeedsOperands (r : Stop) : Bool :=
  match r with
  | .trap cause _ _ => cause ≠ 1
  | .fault _ => false

/-- The word took a trap at issue. -/
def State.trappedAtIssue (s : State) : Bool :=
  match s.issue.fate with
  | .trapped _ => true
  | _ => false

/-- The word parked for a pending register, or in the shadow of pending results (R24, R39, R111). -/
def State.parkedForPending (s : State) : Bool :=
  match s.me.wait with
  | .reg _ | .vec _ | .acc _ | .pendingAll => true
  | _ => false

/-- The X-class word parks for a register operand of its own (R111). -/
def State.parkedForReg (s : State) : Bool :=
  s.issue.fate = .parked && (match s.me.wait with | .reg _ | .vec _ | .acc _ => true | _ => false)

/-- The pending prefixes that a C-class word consumes: EXT for the majors with an offset, FMT for the engines' (R115, R117). -/
def consumedBy (w : Word) (t : Thread) : Dword :=
  if wordMajor w ≤ 2 then t.st &&& 0x200000 else if wordMajor w = 11 || wordMajor w = 12 then t.st &&& 0x100000 else 0

/-- The issuing thread as the X-class word of its bundle finds it: without the prefixes that the C-class word consumes (R115, R117). -/
def State.fmtLeft (s : State) (wC : Word) : Thread := { s.me with st := s.me.st &&& ~~~(consumedBy wC s.me) }

/-- The dwords a C-class word of a bundle has pushed to a core queue: what stands there beyond what its pops have left. -/
def CoreQueue.pushed (pre post : CoreQueue) : List Dword := post.data.drop (pre.data.length - (post.head - pre.head).toNat)

/-- The queues as X finds them: C's pops are done, its pushes are not there yet but hold their room (R28, R111). -/
def Core.withoutPushes (pre post : Core) : Core :=
  { post with cq := Vector.ofFn (fun (i : Fin 8) =>
    let q := post.cq[i]
    let n := (pre.cq[i].pushed q).length
    { q with data := q.data.take (q.data.length - n), reserved := q.reserved + n }) }

/-- The queues after both words: C's pushes stand before X's (R28, R111). -/
def Core.withPushes (pre post now : Core) : Core :=
  { now with cq := Vector.ofFn (fun (i : Fin 8) =>
    let q := now.cq[i]
    let mid := (Core.withoutPushes pre post).cq[i]
    let l := pre.cq[i].pushed post.cq[i]
    let own := mid.pushed q
    { q with data := q.data.take (q.data.length - own.length) ++ l ++ own, reserved := q.reserved - l.length }) }

/-- The bundle does not issue, for the reason for which a word of it did not: it parks as that word parked, or takes its trap. -/
def State.stallAs (s w : State) : State :=
  match w.issue.fate with
  | .trapped r => s.stopAtIssue r
  | .stopped r => s.stopAtIssue r
  | _ => match w.me.status with
    | .parked r => s.park r w.me.wait
    | _ => s.park .queue w.me.wait

/-- The X-class word found that it may send no reply, for the header remembered before the bundle, while the C-class word takes a new one from the request
inbox, which X's reply answers (R28, R111, R191, R192). -/
def State.replyToCome (s : State) (iC iX : Instr) (alone : State) : Bool :=
  (s.me.portNeeds iC).contains (9, false) &&
    (match iX.gDest, alone.issue.fate with
     | some r, .trapped (.trap cause v0 v1) =>
       let code := s.me.portCode r
       isPort r && (code = 11 || code = 12) && cause = 1 && v0 = r.setWidth 64 && v1 = code.setWidth 64
     | _, _ => false)

/-- A C–X pair (R111, R112). X reads the registers as they stood before the bundle and the queues after C's pops; when X
cannot issue, neither does C; when C stops after issue, C's pops are undone, X's effect stands, its pops first, and XD is saved.
(DEDUCED, notes/assumptions/14.md.) How far S falls where C stops after issue, R48 and R111 do not say. (DESIGN CHOICE, notes/assumptions/90.md.) -/
def issueBundle (run : Run) (iC iX : Instr) (wC wX : Word) (s : State) : Host.Outcome State Fault Refusal :=
  let pre := s.me
  let keep := consumedBy wC pre
  let bare := s.setMe (s.fmtLeft wC)
  andThen (run iX (bare.withWord wX)) fun alone =>
  if alone.parkedForReg then .next ((s.withWord wX).stallAs alone)
  else
  andThen (run iC (s.withWord wC)) fun sC =>
  match sC.issue.fate with
  | .trapped r => .next (if trapNeedsOperands r && alone.issue.fate = .parked then (s.withWord wX).stallAs alone else sC)
  | .parked => .next (if alone.trappedAtIssue && !sC.parkedForPending && !s.replyToCome iC iX alone then (s.withWord wX).stallAs alone else sC)
  | .stopped r =>
    andThen (run iX (bare.withWord wX)) fun sX =>
    match sX.issue.fate with
    | .issued =>
      .next ((sX.setMe { sX.me with st := putBit (sX.me.st ||| keep) 22 true, shadow := pre.shadow - 1 }).stopAfterIssue r)
    | .trapped e => .next (s.stopAtIssue e)
    | .stopped e => .next (s.stopAtIssue e)
    | _ => .next (s.stallAs sX)
  | fate =>
    let base := (sC.setMyCore (Core.withoutPushes s.myCore sC.myCore)).setMe { sC.me with
      g := pre.g, v := pre.v, k := pre.k, full := pre.full, pend := pushesOwed pre sC.me,
      shadow := if pre.pend.isEmpty then 15 else pre.shadow, status := pre.status, wait := pre.wait }
    andThen (run iX (base.withWord wX)) fun sX =>
    match sX.issue.fate with
    | .trapped r => .next (s.stopAtIssue r)
    | .stopped r => .next (s.stopAtIssue r)
    | .parked => .next (s.stallAs sX)
    | _ =>
      let m := mergeRegs pre sC.me sX.me
      let t := if fate = .held then { m with st := putBit m.st 22 true } else m.settle
      .next { (sX.setMyCore (Core.withPushes s.myCore sC.myCore sX.myCore)).setMe t with issue := { sX.issue with fate := fate } }

/-- An illegal-bundle trap: the reason and the words (R110). -/
def State.illegalBundle (s : State) (reason : Nat) (words : Dword) : State := s.trap 2 (BitVec.ofNat 64 reason) words

/-- The issue record of a unit: its address and the address after it. -/
def State.unitAt (s : State) (pc next : BitVec 18) : State := { s with issue := { s.issue with pc := pc, next := next, fate := .issued } }

/-- Issues the unit at the thread's PC: a bundle, a word alone, or the C-class word of a bundle whose X-class word is done. -/
def issueUnit (run : Run) (s : State) : Host.Outcome State Fault Refusal :=
  let pc := s.me.pc
  let s := s.unitAt pc (pc + 4)
  match s.fetchError pc with
  | some r => .next (s.stopAtIssue (.fault r))
  | none =>
  let (w0, s) := s.fetchWord s.issue.ep pc
  let opens := wordP w0 && pc.toNat % 8 = 0
  let xd := s.me.xd
  let s := if xd && !opens then s.setMe (s.me.setStBit 22 false) else s
  if wordP w0 && !opens then .next (s.illegalBundle 1 (w0.setWidth 64))
  else if opens then
    match if xd then none else s.fetchError (pc + 4) with
    | some r => .next (s.stopAtIssue (.fault r))
    | none =>
    let (w1, s) := s.fetchWord s.issue.ep (pc + 4)
    let s := s.unitAt pc (pc + 8)
    match bundleReason w0 w1 xd (s.me.fmt.fb = some 22) with
    | some r => .next (s.illegalBundle r (BitVec.ofNat 64 (w1.toNat * 2 ^ 32 + w0.toNat)))
    | none =>
      let iC := instrOf (w0 &&& 0x7FFFFFFF)
      let iX := instrOf w1
      match (s.registerError iC).orElse (fun _ => if xd then none else s.registerError iX) with
      | some r => .next (s.stopAtIssue (.fault r))
      | none =>
        if iC = .illegalInstruction || xd then andThen (run iC (s.withWord w0)) fun s' => .next (s'.closed s.me [iC])
        else if iX = .illegalInstruction || floatWidthBad w1 || fieldBeyond (s.fmtLeft w0) iX then run iX (s.withWord w1)
        else andThen (issueBundle run iC iX w0 w1 s) fun s' => .next (s'.closed (s.fmtLeft w0) [iC, iX])
  else
    let i := instrOf w0
    match s.registerError i with
    | some r => .next (s.stopAtIssue (.fault r))
    | none => andThen (run i (s.withWord w0)) fun s' => .next (s'.closed s.me [i])

/-! ## Issue boundaries (R272) -/

/-- The first fault posted against a thread makes it FAULTED (R271, R272). -/
def State.takeFault (s : State) (ep : Ep) (ctx : Ctx) : State :=
  let t := s.thr ep ctx
  match t.faultQ with
  | r :: rest => (s.setThr ep ctx { t with faultQ := rest }).enterFault ep ctx r
  | [] => s

/-- The step trap: code 9, TVAL0 1,024, the PC of the next unit (R164). Where its entry meets a register in error, RESUME takes it again (R284). -/
def State.stepTrapNow (s : State) (ep : Ep) (ctx : Ctx) : State :=
  let t := s.thr ep ctx
  (s.setThr ep ctx { t with stepTrap := ((s.core ep).badTrap ctx).isSome }).trapThread ep ctx 9 1024 0 t.pc


/-- A core's clock advances, and with it the count of cycles in which a product waited for the expander (R20, R246). -/
def Core.nextCycle (c : Core) : Core := { c with cyc := c.cyc + 1, stall := c.stall + b2n c.expanderStalls }

/-- A core that idles for some cycles: they count, and each of them in which a product waits for the expander (R20, R246). -/
def Core.idleCycles (c : Core) (n : Nat) : Core :=
  { c with cyc := c.cyc + BitVec.ofNat 64 n, stall := c.stall + n * b2n c.expanderStalls }

/-- A core at its next cycle: its clock has advanced and the threads whose reasons have cleared are awake (R20, R44). -/
def State.clocked (s : State) (ep : Ep) : State := (s.setCore ep (s.core ep).nextCycle).wakeAll ep

/-- A core on which a context has issued a bundle in this cycle (R37). -/
def Core.boundary (c : Core) (ctx : Ctx) : Core :=
  { c with last := ctx }.setThr ctx { vget ctx c.threads with lastIssue := some c.cyc.toNat }

/-- The unit issued: it neither parked nor trapped before it had any effect; `trap` has issued, its effect is its trap (R37, R163). -/
def Fate.issues : Fate → Bool
  | .issued | .held | .stopped _ => true
  | .trapped (.trap 8 _ _) => true
  | .parked | .trapped _ => false

/-- A context has had its turn: the next choice begins after it, though its unit may not have issued, so that every READY context issues within 16 cycles
(R37, R45). (DEDUCED, notes/assumptions/82.md.) -/
def State.hadTurn (s : State) (ep : Ep) (ctx : Ctx) : State := s.setCore ep { s.core ep with last := ctx }

/-- A bundle that issued is the last of its core, and of its context (R37). -/
def State.countIssue (s : State) : State :=
  if s.issue.fate.issues then s.setMyCore (s.myCore.boundary s.issue.ctx) else s.hadTurn s.issue.ep s.issue.ctx

/-- After a unit: it counts as issued when it has (R37); with SS set, a step trap follows (R164). -/
def State.afterUnit (pre : Thread) (s : State) : State :=
  let s := s.countIssue
  match s.issue.fate with
  | .issued => if pre.stBit 25 then s.setMe { s.me with stepTrap := true } else s
  | _ => s

/-- The issue record of a context of a core, before its unit is fetched. -/
def State.issuing (s : State) (ep : Ep) (ctx : Ctx) : State := { s with issue := { ep := ep, ctx := ctx } }

/-- One cycle of a core: its clock advances, cleared reasons wake their threads, and the first eligible context takes its issue
boundary (R20, R37, R44, R272). A package that is asked to quiesce issues nothing, and once it has quiesced only its clock goes on (R326; DEDUCED,
notes/assumptions/68.md); in maintenance the clock stands (R321). -/
def coreCycle (run : Run) (ep : Ep) (s : State) : Host.Outcome State Fault Refusal :=
  if (s.pkg (epPkg ep)).state = 4 then .next s
  else if (s.pkg (epPkg ep)).still then .next (s.setCore ep { s.core ep with cyc := (s.core ep).cyc + 1 })
  else
  let s := s.clocked ep
  if (s.pkg (epPkg ep)).halted then .next s
  else
  match (s.core ep).pick (s.core ep).rotation with
  | (c, none) => .next (s.setCore ep c)
  | (c, some ctx) =>
    let s := s.setCore ep c
    if !(vget ctx c.threads).faultQ.isEmpty then .next ((s.takeFault ep ctx).hadTurn ep ctx)
    else if (vget ctx c.threads).stepTrap then .next ((s.stepTrapNow ep ctx).hadTurn ep ctx)
    else andThen (issueUnit run (s.issuing ep ctx)) fun s' => .next (s'.afterUnit (s.thr ep ctx))

end Sys2Proof.Machine
end

