-- ==== Sys2Proof/Machine/System.lean ====
section
/-! DEFINITION. System registers, user traps by instruction, YIELD, QUIT and the fences: major SYS but for `jalr`, `spawn` and
`enq` (R153 to R166, R197, R198). -/

namespace Sys2Proof.Machine

/-! ## System registers (R153, R154) -/

/-- The register belongs to the engine set: RINGn, APCn or ASTn (R31). -/
def sregOfSet (n : Nat) : Bool := 64 ≤ n && n < 80

/-- The value of a system register, none for a number that R154 does not assign. -/
def State.sreg (s : State) (n : Nat) : Option Dword :=
  let t := s.me
  let c := s.myCore
  if 32 ≤ n && n < 40 then some (t.stream (BitVec.ofNat 3 (n - 32))).reg
  else if 64 ≤ n && n < 72 then some (vget (BitVec.ofNat 3 (n - 64)) c.rings)
  else if 72 ≤ n && n < 76 then some (vget (BitVec.ofNat 2 (n - 72)) c.apc)
  else if 76 ≤ n && n < 80 then some (vget (BitVec.ofNat 2 (n - 76)) c.ast)
  else match n with
  | 0 => some (s.issue.pc.setWidth 64)
  | 1 => some t.st
  | 2 => some t.pfx
  | 8 => some t.tvec
  | 9 => some t.tepc
  | 10 => some t.tst
  | 11 => some t.tcause
  | 12 => some t.tval0
  | 13 => some t.tval1
  | 16 => some (t.lti.setWidth 64)
  | 17 => some (t.lid.setWidth 64)
  | 18 => some (t.asid.setWidth 64)
  | 19 => some t.did
  | 20 => some t.dkey0
  | 21 => some t.dkey1
  | 22 => some t.dctr
  | 24 => some t.qbind
  | 25 => some t.gms
  | 26 => some t.wlim
  | 80 => some (t.cgb.setWidth 64)
  | 81 => some (t.cgl.setWidth 64)
  | 96 => some (s.issue.ep.setWidth 64)
  | 97 => some c.cyc
  | _ => none

/-- MTS may write the register (Access RW or W1C, R154). -/
def sregWritable (n : Nat) : Bool :=
  [1, 2, 8, 9, 10, 11, 12, 13, 20, 21, 22, 24, 26].contains n || (64 ≤ n && n < 72) || (76 ≤ n && n < 80)

/-- The bits an MTS changes; the others are reserved or read-only (R2, R153 to R155). -/
def sregMask (n : Nat) : Dword :=
  match n with
  | 1 => 0x03B700FF
  | 2 => 0xFFFFFF000000FFFF
  | 8 => 0x3FFFD
  | 9 => 0x3FFFC
  | 10 => 0x03F700FF
  | 11 => 0xFF
  | 24 => 0xFFFF
  | 26 => 0xFFFFFFFF
  | _ => 0xFFFFFFFFFFFFFFFF

/-- A register after an MTS of `x`: the masked bits take the value, the others stay. -/
def sregMerge (n : Nat) (old x : Dword) : Dword := (old &&& ~~~sregMask n) ||| (x &&& sregMask n)

/-- A writable register of the thread after an MTS. -/
def Thread.setSreg (t : Thread) (n : Nat) (x : Dword) : Thread :=
  match n with
  | 1 => { t with st := sregMerge 1 t.st x }
  | 2 => { t with pfx := sregMerge 2 t.pfx x }
  | 8 => { t with tvec := sregMerge 8 t.tvec x }
  | 9 => { t with tepc := sregMerge 9 t.tepc x }
  | 10 => { t with tst := sregMerge 10 t.tst x }
  | 11 => { t with tcause := sregMerge 11 t.tcause x }
  | 12 => { t with tval0 := x }
  | 13 => { t with tval1 := x }
  | 20 => { t with dkey0 := x }
  | 21 => { t with dkey1 := x }
  | 22 => { t with dctr := x }
  | 24 => { t with qbind := sregMerge 24 t.qbind x }
  | 26 => { t with wlim := sregMerge 26 t.wlim x }
  | _ => t

/-- The bits of a system register that are not reserved (R2, R154, R155). -/
def sregField (n : Nat) : Dword :=
  match n with
  | 0 => 0x3FFFC
  | 1 => 0x03F700FF
  | 16 => 0xFFFFFF
  | 17 => 0xFFFFFFFFFFF
  | 18 => 0xFFFF
  | 19 => 0xFFFFFFFFFFFF0000
  | 25 => 0xFFFFFFFFF
  | n => sregMask n

/-- The thread with a system register replaced whole, as the supervisor and a restore write it (R169, R288). -/
def Thread.putSreg (t : Thread) (n : Nat) (x : Dword) : Thread :=
  let x := x &&& sregField n
  match n with
  | 0 => { t with pc := fld x 0 18 }
  | 1 => { t with st := x }
  | 16 => { t with lti := fld x 0 24 }
  | 17 => { t with lid := fld x 0 44 }
  | 18 => { t with asid := fld x 0 16 }
  | 19 => { t with did := x }
  | 25 => { t with gms := x }
  | n => t.setSreg n x

/-- The fields of AST (R101). -/
def astField : Dword := 7

/-- The fields of APC (R250). -/
def apcField : Dword := 0x8000FFFFFFFFFFFF

/-- A ring, or a W1C accumulator status, of the core after an MTS. A descriptor written discards every reservation on its ring
(R101, R157, R258). -/
def Core.setSreg (c : Core) (n : Nat) (x : Dword) : Core :=
  if 64 ≤ n && n < 72 then
    let r : BitVec 3 := BitVec.ofNat 3 (n - 64)
    { c with
      rings := vset r x c.rings, ringNext := vset r (x.toNat / 2 ^ 51) c.ringNext, ringTails := vset r (x.toNat / 2 ^ 51) c.ringTails,
      tampered := c.tampered.filter (fun a => c.liveIn (homeEp a) a (allRings.filter (fun i => i ≠ r))),
      ringDone := c.ringDone.filter (fun d => d.1 ≠ r.toNat) }
  else if 76 ≤ n && n < 80 then
    let m : BitVec 2 := BitVec.ofNat 2 (n - 76)
    { c with ast := vset m (vget m c.ast &&& ~~~x) c.ast }
  else c

/-- The accumulator that a system register belongs to: APCm or ASTm, which name accumulator m (R31, R40, R154). -/
def accOfSreg (n : Nat) : Option (BitVec 2) := if 72 ≤ n && n < 80 then some (BitVec.ofNat 2 n) else none

/-- What holds back an MFS or MTS of an accumulator's register: a command of the thread on the accumulator (R31, R40). -/
def State.sregStall (s : State) (n : Nat) : Option Stall := ((accOfSreg n).filter s.accBusy).map (fun m => .park .matrix (.acc m))

/-- `mfs` (R40, R153). -/
def execMfs (o : OpMfs) (s : State) : Out :=
  let n := o.sreg.toNat
  .next (match s.sreg n with
    | none => s.illegal
    | some x =>
      if sregOfSet n && !s.me.eset then s.illegal
      else match s.sregStall n with
      | some e => s.stall e
      | none =>
        match s.operands [] [o.d] with
        | .error e => s.stall e
        | .ok (_, s1) =>
          match s1.writeReg o.d x with
          | .error e => s.stall e
          | .ok s2 => s2.retire)

/-- `mts` (R40, R153, R157). -/
def execMts (o : OpMts) (s : State) : Out :=
  let n := o.imm.toNat
  .next (if !sregWritable n || (sregOfSet n && !s.me.eset) then s.illegal
    else if 64 ≤ n && n < 72 && s.myCore.ringBusy (BitVec.ofNat 3 (n - 64)) then s.park .matrix (.ringIdle (BitVec.ofNat 3 (n - 64)))
    else match s.sregStall n with
    | some e => s.stall e
    | none =>
      match s.operands [o.a] [] with
      | .error e => s.stall e
      | .ok (xs, s1) =>
        let x := xs.headD 0
        let s2 := s1.setMyCore (s1.myCore.setSreg n x)
        (s2.setMe (s2.me.setSreg n x)).retire)

/-! ## Traps by instruction (R162 to R164) -/

/-- `trap`: a user trap of code 8 whose saved PC is the word after it (R163). -/
def execTrap (o : OpMts) (s : State) : Out :=
  .next (match s.operands [o.a] [] with
    | .error e => s.stall e
    | .ok (xs, s1) =>
      let v1 := xs.headD 0
      let s2 := s1.leaveOrder.trapThread s.issue.ep s.issue.ctx 8 (o.imm.setWidth 64) v1 (s.issue.pc + 4)
      { s2 with issue := { s2.issue with fate := .trapped (.trap 8 (o.imm.setWidth 64) v1) } })

/-- `rett` (R162): the instruction ends, then PC and ST are those saved. -/
def execRett (s : State) : Out :=
  let s1 := s.retire
  .next (s1.setMe s1.me.returnFromTrap)

/-- `bkpt`: a user trap of code 9 at the word itself (R164). -/
def execBkpt (o : OpImm10) (s : State) : Out := .next (s.trap 9 (o.imm.setWidth 64) 0)

/-! ## YIELD and QUIT (R36, R165, R166, R198) -/

/-- `yield` (R165). -/
def execYield (s : State) : Out :=
  let s1 := s.retire
  .next (s1.setMe { s1.me with yielded := true })

/-- A thread that ends frees the request it holds and its reply slots (R191, R198). -/
def Core.dropMessages (c : Core) (ctx : Ctx) (held : Option Nat) : Core :=
  { c with
    inbox := match held with
      | some id => c.inbox.filter (fun m => m.id ≠ id)
      | none => c.inbox,
    replies := c.replies.map (fun w => if w.owner = some ctx then {} else w),
    parkOrder := (c.leaveOrder ctx).parkOrder }

/-- The reply slots that a moved thread still holds on cores it left are freed (R190, R193). -/
def State.dropSlots (s : State) (key : Nat) (lti : BitVec 24) : State :=
  { s with cores := s.cores.map (fun (w : Nat × Core) =>
    (w.1, { w.2 with replies := w.2.replies.map (fun (x : Slot) => if x.saved = some (key, lti) then {} else x) })) }

/-- A thread ends: it issues nothing more, its combining entries are sent, what it held in the message stores is freed, its
stopped matrix commands are discarded (R36, R67, R118, R198, R257). -/
def State.endThread (s : State) (ep : Ep) (ctx : Ctx) : State :=
  let s := s.flushThread ep ctx
  let t := s.thr ep ctx
  let s := (s.withdrawHeld ep ctx).dropSlots (launchKey t.home t.lid) t.lti
  let t := s.thr ep ctx
  let c := (s.core ep).dropMessages ctx t.heldReq
  let c : Core := { c with
    mq := (c.mq.filter (fun m => !(t.owns m.home m.lid m.lti && !m.ended && (m.phase = .held || m.phase = .stopped)))).map (fun m =>
      if t.owns m.home m.lid m.lti then { m with ended := true } else m),
    copies := c.copies.map (fun (k : CopyCmd) => if k.home = t.home && k.lid = t.lid && k.lti = t.lti then { k with ended := true } else k) }
  let left := c.mq.map MxCmd.id
  s.setCore ep (c.setThr ctx { t with
    status := .ready, wait := .none, quitting := true, st := setFld t.st 20 2 0, header := none, heldReq := none,
    replyPos := none, restMsg := [], restReply := [], faultQ := [], walkFault := none, stepTrap := false, waitFrom := 0,
    pend := t.pend.filter (fun p => match p.kind with | .matrix id _ => left.contains id | _ => true) })

/-- `quit` (R166). -/
def execQuit (s : State) : Out :=
  let s1 := s.retire
  .next (s1.endThread s.issue.ep s.issue.ctx)

/-! ## Fences (R69, R197) -/

/-- What an IFNC of a thread leaves of the stores whose IFNC has not come: of each word those after the last of that thread (R78). -/
def staleAfter (key : Nat) : List (Nat × Word × Nat) → List (Nat × Word × Nat)
  | [] => []
  | x :: r =>
    if x.2.2 = key || r.any (fun y => y.1 = x.1 && y.2.2 = key) then staleAfter key r else x :: staleAfter key r

/-- IFNC: the words its thread has stored into the store of its core, or of a core it was on before, are fetched by every thread of that core from
now on (R78). -/
def State.endFetchAhead (s : State) : State :=
  { s with cores := s.cores.map (fun c => (c.1, { c.2 with stale := staleAfter s.me.nameKey c.2.stale })) }

/-- A fence waits until it may complete; a wait that began is over (R69, R197). -/
def State.fence (s : State) (w : Wait) (quiet : Bool) : State :=
  if quiet then State.retire (s.setMe { s.me with waitFrom := 0 }) else s.hold .fill w

/-- The streams an FNS names, as a mask of eight (R197). -/
def fnsMask (streams : BitVec 7) : BitVec 8 := BitVec.ofNat 8 (2 * streams.toNat)

/-- `fns` (R69, R197). -/
def execFns (o : OpFns) (s : State) : Out :=
  .next (match s.shadowStall with
    | some e => s.stall e
    | none =>
      let mask := fnsMask o.streams
      let s1 := s.flushWhere s.issue.ep (fun e => e.ctx = s.issue.ctx && mask.getLsbD e.strm.toNat)
      s1.fence (.streams mask) (s1.streamsQuiet s.issue.ep s.issue.ctx mask))

/-- `fnc` (R69, R197). -/
def execFnc (s : State) : Out :=
  .next (match s.shadowStall with
    | some e => s.stall e
    | none =>
      let s1 := s.flushThread s.issue.ep s.issue.ctx
      s1.fence .fenceAll (s1.allQuiet s.issue.ep s.issue.ctx))

/-- `ifnc` (R69, R78, R197). -/
def execIfnc (s : State) : Out :=
  .next (match s.shadowStall with
    | some e => s.stall e
    | none =>
      let quiet := s.codeQuiet s.issue.ep s.issue.ctx
      (if quiet then s.endFetchAhead else s).fence .fenceCode quiet)

end Sys2Proof.Machine
end

