-- ==== Sys2Proof/Machine/ReturnSteps.lean ====
section
/-! DEFINITION. Steps of a core beside issue: accesses performed at its own bank or cluster unit, results that return, limits that
expire, retries, walks, and the end of a thread and of a crew (R24, R32, R36, R45, R56, R58, R59, R67, R71, R80, R172, R178, R272). -/

namespace Sys2Proof.Machine

/-! ## Accesses of the core's own bank and cluster unit -/

/-- A pending result of a thread. -/
def Thread.pending? (t : Thread) (id : Nat) : Option Pending := t.pend.find? (fun p => p.id = id)

/-- Changes the lane at a position of a pending result. -/
def Thread.setLaneAt (t : Thread) (id pos : Nat) (f : Lane → Lane) : Thread :=
  { t with pend := t.pend.map (fun (p : Pending) => if p.id = id then { p with lanes := p.lanes.modify pos f } else p) }

/-- The dword pieces of a request. -/
def MemReq.pieces (r : MemReq) : List (Nat × Nat) := piecesOf 8 r.pa r.size

/-- The lane with a dword of its access performed; the last one completes it (R59). -/
def Lane.performDword (l : Lane) (d got : Nat) : Lane :=
  let done := natSet l.req.done d true
  { l with
    req := { l.req with done := done, got := l.req.got + got },
    stage := if l.req.pieces.length ≤ done.length then .performed else l.stage }

/-- The lane with its access stopped by poison at a dword. -/
def Lane.poisonDword (l : Lane) (d : Nat) : Lane := { l with req := { l.req with done := [d] }, stage := .poisoned }

/-- Scatter lanes to the same bytes go in lane order (R178). -/
def Pending.laneHeld (p : Pending) (pos : Nat) (r : MemReq) : Bool :=
  (p.lanes.take pos).any (fun l => l.req.op = .store && l.stage ≠ .performed && l.req.overlaps r)

/-- Performs dword `d` of a lane's load or store at the core's own bank or instruction store. -/
def State.ownDword (s : State) (ep : Ep) (ctx : Ctx) (id pos d : Nat) (l : Lane) : State :=
  let r := l.req
  match r.pieces[d]? with
  | none => s
  | some (a, n) =>
    if r.op = .store then
      let x := r.data / 2 ^ (8 * (a - r.pa))
      let mark : Option Bool := if n = 8 then some false else none
      let s1 := (s.writeDword (some ctx) (dwordAt a) (cellsOf a n x) mark).serve (dwordAt a)
      s1.setThr ep ctx ((s1.thr ep ctx).setLaneAt id pos (fun l => l.performDword d 0))
    else if s.mem.poisoned a then s.setThr ep ctx ((s.thr ep ctx).setLaneAt id pos (fun l => l.poisonDword d))
    else s.setThr ep ctx ((s.thr ep ctx).setLaneAt id pos (fun l => l.performDword d (s.mem.read a n * 2 ^ (8 * (a - r.pa)))))

/-- Performs an atomic or full/empty operation at the core's own bank: done, held in its waiter list, or refused (R58, R180). -/
def State.ownOperation (s : State) (ep : Ep) (ctx : Ctx) (id pos : Nat) (l : Lane) : State :=
  let now := (s.core ep).cyc.toNat
  let (s1, a) := s.arrive (some ctx) { pa := l.req.pa, req := l.req, ep := ep, ctx := ctx, pend := id, lane := l.lane }
  s1.setThr ep ctx ((s1.thr ep ctx).setLaneAt id pos (fun l =>
    match a with
    | .performed got poisoned => l.performedWith got poisoned
    | .waits => { l with stage := .waiting }
    | .refused => { l with stage := .refused now }))

/-- An atomic of the same cluster unit holds the dword between its read and its write (R73). -/
def State.unitBusy (s : State) (ep : Ep) (pa : Nat) : Bool :=
  s.cores.any (fun w =>
    let e : Ep := BitVec.ofNat 22 w.1
    epPkg e = epPkg ep && epDie e = epDie ep && epCluster e = epCluster ep &&
      w.2.threads.toList.any (fun t => t.pend.any (fun p => p.lanes.any (fun l =>
        (match l.stage with | .unitWrite _ => true | _ => false) && dwordAt l.req.pa = dwordAt pa))))

/-- The two events of an atomic at a cluster unit, its read and its write, each at the dword's home wherever that is, once its package takes
it (R12, R71, R73, R326).
(DESIGN CHOICE, notes/assumptions/70.md.) -/
def State.unitOperation (s : State) (ep : Ep) (ctx : Ctx) (id pos : Nat) (l : Lane) : State :=
  let r := l.req
  if s.homeShut (epPkg ep) r.pa then s
  else
  match l.stage with
  | .unitRead =>
    if s.unitBusy ep r.pa then s
    else if s.mem.poisoned r.pa then s.setThr ep ctx ((s.thr ep ctx).setLaneAt id pos (fun l => l.poisonDword 0))
    else s.setThr ep ctx ((s.thr ep ctx).setLaneAt id pos (fun l => { l with stage := .unitWrite (s.mem.read r.pa r.size) }))
  | .unitWrite old =>
    let s0 := s.noteRing r.pa r.size
    let m := s0.mem.write r.pa r.size (r.new old)
    let s1 : State := { s0 with mem := if r.op.signals then m.setFull r.pa true else m }
    let s2 := s1.serve (dwordAt r.pa)
    s2.setThr ep ctx ((s2.thr ep ctx).setLaneAt id pos (fun l => l.performedWith old false))
  | _ => s

/-- Performs what part `k` of a pending result names: dword k mod 8 of the lane at position k div 8. -/
def State.performPart (s : State) (ep : Ep) (ctx : Ctx) (id k : Nat) : State :=
  let t := s.thr ep ctx
  match t.pending? id with
  | none => s
  | some p =>
    match p.lanes[k / 8]? with
    | none => s
    | some l =>
      match l.stage with
      | .here =>
        if l.req.op = .load then
          if t.earlierOverlap id l.req || l.req.done.contains (k % 8) then s else s.ownDword ep ctx id (k / 8) (k % 8) l
        else if l.req.op = .store then
          if p.laneHeld (k / 8) l.req || l.req.done.contains (k % 8) then s else s.ownDword ep ctx id (k / 8) (k % 8) l
        else if k % 8 = 0 then s.ownOperation ep ctx id (k / 8) l else s
      | .unitRead | .unitWrite _ => if k % 8 = 0 then s.unitOperation ep ctx id (k / 8) l else s
      | _ => s

/-! ## Results that return (R24, R28, R36, R172) -/

/-- The access of a lane is over. -/
def Lane.over (l : Lane) : Bool := l.stage = .performed || l.stage = .poisoned

/-- A vector result: the loaded lanes replace theirs (R176, R178). -/
def vecResult (old : VReg) (width : Nat) (lanes : List Lane) : VReg :=
  lanes.foldl (fun (v : VReg) (l : Lane) => setFld v (8 * width * l.lane) (8 * width) l.req.got) old

/-- The fault of a result whose access met poison (R172, R274). Its VA is that of the access, of a vector load its own address. (DESIGN CHOICE,
notes/assumptions/105.md.) -/
def Pending.poisonFault (p : Pending) (l : Lane) : FaultReq :=
  let d := l.req.done.headD 0
  { kind := 3, va := l.req.va, aux0 := BitVec.ofNat 64 (dwordAt l.req.pa + 8 * d), aux1 := destCode p.dest }

/-- A pending result is gone. -/
def Thread.dropPending (t : Thread) (id : Nat) : Thread := { t with pend := t.pend.filter (fun p => p.id ≠ id) }

/-- The dwords of the record that a waiting TLD, TST or ENQ has read (R234, R268). -/
def Pending.recordRead (p : Pending) : RecordRead :=
  { pc := p.pc, va := (p.lanes.headD {}).req.va, dwords := p.lanes.flatMap (fun l =>
      (unpackNats 64 (l.req.size / 8) l.req.got).map (fun x => BitVec.ofNat 64 x)),
    bad := (p.lanes.find? (fun l => l.stage = .poisoned)).map (fun l => dwordAt l.req.pa + 8 * l.req.done.headD 0) }

/-- TAIL of a launch queue passes over the slots that are written (R268). -/
def Queue.passTail (w : Queue) : Nat → Queue
  | 0 => w
  | n + 1 =>
    if w.written.contains w.tail then
      Queue.passTail { w with tail := w.tail + 1, claimed := w.claimed - 1, written := w.written.filter (fun x => x ≠ w.tail) } n
    else w

/-- The record of an ENQ is in its slot: TAIL advances in slot order, in a teardown too, which aborts the records up to it (R268, R269).
(DESIGN CHOICE, notes/assumptions/63.md.) -/
def State.enqWritten (s : State) (p : Pkg) (q : Nat) (n : Word) : State :=
  let w := (s.pkg p).queue q
  s.setPkg p ((s.pkg p).setQueue q (Queue.passTail { w with written := w.written ++ [n] } (w.written.length + 1)))

/-- A result whose accesses are over returns: written, discarded for a thread that ended, or a fault (R24, R36, R172). -/
def State.returnResult (s : State) (ep : Ep) (ctx : Ctx) (p : Pending) : State :=
  let s0 := s.setThr ep ctx ((s.thr ep ctx).dropPending p.id)
  let s1 := match p.kind with | .enq k q n => s0.enqWritten k q n | _ => s0
  if (s1.thr ep ctx).quitting then s1.dropDest ep p.dest
  else if p.kind = .record then
    (if (s1.thr ep ctx).status = .faulted then s1 else s1.setThr ep ctx { s1.thr ep ctx with record := some p.recordRead })
  else
    match p.lanes.find? (fun l => l.stage = .poisoned) with
    | some l => (s1.dropDest ep p.dest).enterFault ep ctx (p.poisonFault l)
    | none =>
      match p.dest with
      | .vec n width =>
        let c := (s1.core ep).setThr ctx ((s1.thr ep ctx).setV n (vecResult ((s1.thr ep ctx).getV n) width p.lanes))
        s1.setCore ep (if 64 ≤ p.lanes.length * width then c.mendReg ctx (32 + n.toNat) else c)
      | d =>
        s1.writeDest ep ctx d (match p.kind with
          | .enq _ q n => (lidOf q n).setWidth 64
          | _ => BitVec.ofNat 64 ((p.lanes.headD {}).req.got))

/-- Results of one thread that push into the same queue return in issue order, and behind that of its held instruction (R28). -/
def Thread.pushOrder (t : Thread) (p : Pending) : Bool :=
  match p.dest.target with
  | some code => !({ t with pend := t.pend.takeWhile (fun q => q.id ≠ p.id) } : Thread).owesPush code
  | none => true

/-- Every part of a pending result. -/
def Pending.parts (p : Pending) : List Nat :=
  (List.range p.lanes.length).flatMap (fun i => (List.range ((p.lanes.getD i {}).req.pieces.length)).map (fun d => 8 * i + d))

/-- RESULT_RETURN: performs the named parts of an access of the core's own bank or cluster unit, all that remain when none is named,
and returns the result when every lane is over (R24, R59, R172). -/
def execResultReturn (s : State) : Out :=
  let a := s.ev
  let all : List Nat := match (s.thr a.ep a.ctx).pending? a.id with | some p => p.parts | none => []
  let s1 := (if a.parts.isEmpty then all ++ all else a.parts).foldl (fun (s : State) k => s.performPart a.ep a.ctx a.id k) s
  let t := s1.thr a.ep a.ctx
  .next (match t.pending? a.id with
    | none => s
    | some p =>
      if (p.kind.isAccess || p.kind = .later) && p.lanes.all Lane.over && t.pushOrder p then (s1.returnResult a.ep a.ctx p).pump a.ep a.ctx else s1)

/-! ## Faults and limits (R45, R272) -/

/-- SYSTEM_FAULT: the first fault posted against a thread makes it FAULTED (R271, R272). -/
def execSystemFault (s : State) : Out :=
  let a := s.ev
  .next (match (s.thr a.ep a.ctx).faultQ with
    | [] => s
    | r :: rest => (s.setThr a.ep a.ctx { s.thr a.ep a.ctx with faultQ := rest }).enterFault a.ep a.ctx r)

/-- TVAL1 of a WAITQ's expiry (R45). -/
def State.waitqVal (s : State) (ep : Ep) (ctx : Ctx) (code : BitVec 4) : Dword :=
  let c := s.core ep
  if code.toNat ≤ 8 then
    let q := c.queue code
    BitVec.ofNat 64 (q.head.toNat * 2 ^ 32 + (q.head.toNat + q.data.length) % 32)
  else
    let used := match code.toNat with
      | 9 => c.inbox.length
      | 10 => (c.replies.toList.filter (fun w => w.owner.isSome || w.saved.isSome)).length
      | 11 => c.outbox0.length
      | _ => c.outbox1.length
    BitVec.ofNat 64 (used * 2 ^ 32 + s.targetCount ep ctx code)

/-- A held instruction is withdrawn with the wait-limit trap, at its own address (R45, R112, R161). -/
def State.expireHeld (s : State) (ep : Ep) (ctx : Ctx) (v0 v1 : Dword) : State :=
  let t := s.thr ep ctx
  let c := s.core ep
  ((s.setCore ep (c.leaveOrder ctx)).withdrawHeld ep ctx).trapThread ep ctx 7 v0 v1 t.pc

/-- An LDF is withdrawn: its destination is full with its old value, and the thread takes the trap at the LDF, in place of a step trap (R45, R164).
(DEDUCED, notes/assumptions/35.md.) -/
def State.expireLdf (s : State) (ep : Ep) (ctx : Ctx) (p : Pending) (ahead total : Nat) : State :=
  let s1 := s.dropDest ep p.dest
  let t := (s1.thr ep ctx).dropPending p.id
  let t1 := match p.dest with | .reg n => t.setG n (t.getG n) | _ => t
  if t1.quitting then s1.setThr ep ctx t1
  else
    (s1.setThr ep ctx { t1.setStBit 22 p.xd with stepTrap := false }).trapThread ep ctx 7 ((p.lanes.headD {}).req.va)
      (BitVec.ofNat 64 (ahead % 2 ^ 32 * 2 ^ 32 + total % 2 ^ 32)) p.pc

/-- The limit of a wait that began at a cycle has expired. -/
def expired (since limit now : Nat) : Bool := decide (limit ≠ 0 ∧ since + limit ≤ now)

/-- WAIT_LIMIT_EXPIRY: a bounded WAITQ or BARW traps; an LDF that its home does not hold is withdrawn at once, one that it may hold has
its withdrawal sent (R45). -/
def execWaitLimitExpiry (s : State) : Out :=
  let a := s.ev
  let t := s.thr a.ep a.ctx
  let now := (s.core a.ep).cyc.toNat
  .next (if t.waitFrom ≠ 0 && expired (t.waitFrom - 1) t.waitLimit now && !s.awake a.ep a.ctx then
      match t.status, t.wait with
      | .parked _, .count code _ => s.expireHeld a.ep a.ctx (code.setWidth 64) (s.waitqVal a.ep a.ctx code)
      | .parked _, .barrier g =>
        (match s.launch? t.home t.lid with
         | some l => s.expireHeld a.ep a.ctx (g.setWidth 64) (BitVec.ofNat 64 (s.arrivalsIn l g * 2 ^ 32 + l.members g))
         | none => s)
      | _, _ => s
    else if t.status = .faulted then s
    else
      match t.pend.find? (fun p => p.limit ≠ 0 && expired p.since p.limit now && !p.lanes.any (fun l => l.stage = .withdrawing || l.over)) with
      | none => s
      | some p =>
        match (p.lanes.headD {}).stage with
        | .here | .unsent | .refused _ => s.expireLdf a.ep a.ctx p 0xFFFFFFFF 0xFFFFFFFF
        | _ => s.setThr a.ep a.ctx (t.setLaneAt p.id 0 (fun l => { l with stage := .withdrawing })))

/-- The waiters of the dword of an address, in arrival order (R45, R58). -/
def State.waitersOf (s : State) (pa : Nat) : List Waiter := s.waiters.filter (fun w => dwordAt w.pa = dwordAt pa)

/-- A waiter is the wait of a thread's pending result. -/
def Waiter.isOf (w : Waiter) (ep : Ep) (ctx : Ctx) (id lane : Nat) : Bool :=
  w.ep = ep && w.ctx = ctx && w.pend = id && w.lane = lane

/-- LDF_WITHDRAW_CONFIRM: the home gives up the wait it holds, and the thread takes its trap; a wait already served stays served
(R45). -/
def execLdfWithdrawConfirm (s : State) : Out :=
  let a := s.ev
  let t := s.thr a.ep a.ctx
  .next (match t.pending? a.id with
    | none => s
    | some p =>
      match p.lanes.headD {} with
      | l =>
        let q := s.waitersOf l.req.pa
        let mine (w : Waiter) : Bool := w.isOf a.ep a.ctx a.id l.lane
        if l.stage ≠ .withdrawing || t.status = .faulted || !q.any mine then s
        else
          ({ s with waiters := s.waiters.filter (fun w => !mine w) }).expireLdf a.ep a.ctx p
            (q.takeWhile (fun w => !mine w)).length q.length)

/-- FE_WAIT_RETRY: a refused full/empty wait goes to its home again after 64 core cycles (R58). -/
def execFeWaitRetry (s : State) : Out :=
  let a := s.ev
  let now := (s.core a.ep).cyc.toNat
  let retry (l : Lane) : Lane := match l.stage with
    | .refused since => if since + 64 ≤ now then { l with stage := startStage a.ep l.req.pa } else l
    | _ => l
  let t := s.thr a.ep a.ctx
  let t1 : Thread := { t with pend := t.pend.map (fun (p : Pending) => if p.id = a.id then { p with lanes := p.lanes.map retry } else p) }
  .next ((s.setThr a.ep a.ctx t1).pump a.ep a.ctx)

/-- COMBINE_TIMEOUT: an entry that no store has joined for 64 core cycles is sent (R67). -/
def execCombineTimeout (s : State) : Out :=
  let a := s.ev
  let c := s.core a.ep
  .next (match c.combine[a.n]? with
    | some e => if e.last + 64 ≤ c.cyc.toNat then s.sendCombine a.ep e else s
    | none => s)

/-! ## The end of a thread and of a crew (R32, R36) -/

/-- Every message of a thread is acknowledged (R190). -/
def Thread.messagesQuiet (t : Thread) : Bool := t.msgStreams.all (fun w => w.2.unacked.isEmpty)

/-- Every operation of every session of a thread is acknowledged. -/
def State.sessionsQuiet (s : State) (ep : Ep) (ctx : Ctx) : Bool := s.streamsQuiet ep ctx 0xFF && (s.thr ep ctx).messagesQuiet

/-- The thread's open sessions, each with its stream code (R190, R297). -/
def Thread.openSessions (t : Thread) : List (BitVec 4 × Stream) :=
  (((List.range 8).map (fun i => (BitVec.ofNat 4 i, t.stream (BitVec.ofNat 3 i)))) ++
    t.msgStreams.map (fun w => (BitVec.ofNat 4 (9 + w.1 / 2 ^ 22), w.2))).filter (fun w => w.2.opened)

/-- A session of a thread under a stream code towards a destination is open no more. -/
def Thread.unopen (t : Thread) (code : BitVec 4) (dst : Ep) : Thread :=
  let shut (st : Stream) : Stream := { st with opened := false, unacked := [], err := false }
  if code.toNat < 8 then t.setStream (code.setWidth 3) (shut (t.stream (code.setWidth 3)))
  else { t with msgStreams := t.msgStreams.map (fun w => if w.1 = msgKey (BitVec.ofNat 1 (code.toNat - 9)) dst then (w.1, shut w.2) else w) }

/-- Closes the sessions of a thread that stops, as many as the close store has room for; one with operations that END or a teardown leaves unacknowledged
is abandoned (R66, R269, R280, R303). -/
def State.closeAll (s : State) (ep : Ep) (ctx : Ctx) : State :=
  (s.thr ep ctx).openSessions.foldl (fun (s : State) w =>
    if 64 ≤ (s.core ep).closes.length then s
    else
      let s1 := (s.abandonSession ep ctx w.1 0 w.2).1
      s1.setThr ep ctx ((s1.thr ep ctx).unopen w.1 w.2.ep)) s

/-- A session of a thread is open. -/
def Thread.hasOpen (t : Thread) : Bool := !t.openSessions.isEmpty

/-- A context becomes FREE; the numbers by which packets name its pending results go on (notes/assumptions/8.md). -/
def State.freeContext (s : State) (ep : Ep) (ctx : Ctx) : State := s.setThr ep ctx { nextId := (s.thr ep ctx).nextId }

/-- CONTEXT_FREE: an ended thread leaves its context once its operations are acknowledged and its results have returned, those of its copies with
LA 0 to 14 among them, and the CLOSE of every session is in the close store (R36, R303). (DESIGN CHOICE, notes/assumptions/55.md.) -/
def execContextFree (s : State) : Out :=
  let a := s.ev
  let t := s.thr a.ep a.ctx
  .next (if !t.quitting || t.status = .free || !t.pend.isEmpty || !t.outstanding.isEmpty || !(t.messagesQuiet && (t.abandon || s.streamsQuiet a.ep a.ctx 0xFF)) then s
    else
      let s0 := s.closeAll a.ep a.ctx
      if (s0.thr a.ep a.ctx).hasOpen then s0
      else
      let s1 := s0.freeContext a.ep a.ctx
      match s1.launch? t.home t.lid with
      | some l => s1.setLaunch { l with live := l.live - 1 }
      | none => s1)

/-- Memory with a range cleared to zeros, every full bit set and no dword poisoned (R32, R33). -/
def Memory.clearRange (m : Memory) (a n : Nat) : Memory :=
  let out (x : Nat) : Bool := decide (x < a ∨ a + n ≤ x)
  { cells := m.cells.filter (fun c => out c.1), empty := m.empty.filter out, poison := m.poison.filter out }

/-- A crew has nothing left on its core: no thread, no SAVED thread kept in place, no copy, no matrix command, no hold (R32, R227,
R257). -/
def State.crewIdle (s : State) (ep : Ep) (w : Crew) : Bool :=
  let c := s.core ep
  w.holds.isEmpty && w.preempt.isNone
    && (match s.launch? w.home w.lid with | some l => l.saved.all (fun x => x.place ≠ some ep) | none => true)
    && c.threads.toList.all (fun t => t.status = .free || !(t.home = w.home && t.lid = w.lid))
    && c.copies.all (fun k => !(k.home = w.home && k.lid = w.lid)) && c.mq.all (fun m => !(m.home = w.home && m.lid = w.lid))

/-- A crew's allocation is cleared and it is gone, its engine set with it (R32). -/
def State.releaseCrew (s : State) (ep : Ep) (w : Crew) : State :=
  let c := s.core ep
  let s1 := s.setCore ep { c with crews := c.crews.filter (fun x => !(x.home = w.home && x.lid = w.lid)) }
  { s1 with mem := s1.mem.clearRange (granaryPa ep w.base.toNat) (w.limit.toNat - w.base.toNat) }

/-! ## Walks (R56, R80) -/

/-- Who waited for a walk goes on, with the fault it takes when it tries again, if any. -/
def State.wakeWalker (s : State) (w : WalkWaiter) (f : Option WalkFault) : State :=
  match w.queue, w.copy with
  | some q, _ =>
    let p := epPkg w.ep
    s.setPkg p ((s.pkg p).setQueue q { (s.pkg p).queue q with walkWait := .none, walkFault := f })
  | none, some id =>
    (match (s.core w.ep).copy? id with
     | some k => s.setCopy w.ep { k with walkWait := .none, walkFault := f }
     | none => s)
  | none, none =>
    let t := s.thr w.ep w.ctx
    if t.wait = .walk then
      s.setThr w.ep w.ctx { t with status := (if t.status = Status.faulted then Status.faulted else Status.ready), wait := .none, walkFault := f }
    else s

/-- A walk leaves its walker, which takes the earliest queued miss (R80). -/
def Die.endWalk (d : Die) (k : Walk) : Die :=
  let left := d.walks.filter (fun x => !(x.asid = k.asid && x.page = k.page))
  match d.walkQueue with
  | q :: r => { d with walks := left ++ [q], walkQueue := r }
  | [] => { d with walks := left }

/-- A walk ends: its waiters go on. One that met poison and that no thread or copy waits for posts kind 9, which names the entry's home (R56, R271,
R273). -/
def State.finishWalk (s : State) (p : Pkg) (die : BitVec 1) (k : Walk) (f : Option WalkFault) : State :=
  let s1 := s.setDie p die ((s.die p die).endWalk k)
  let s2 := match f with
    | some x => if x.kind = 3 && k.waiters.all (fun w => w.queue.isSome) then
        s1.postNoThread (homeEp x.entryPa) { kind := 9, src := 4, aux0 := BitVec.ofNat 64 x.entryPa } else s1
    | none => s1
  k.waiters.foldl (fun (s : State) w => s.wakeWalker w f) s2

/-- WALK_COMPLETE: a walk of a die reads its next entry, and ends with a leaf that some waiter may use, which is cached, or with the fault or poison
its waiters take when they try again (R53 to R56, R80, R171). A walk shared by waiters of which its leaf permits some and not others counts as
one that has not faulted. (DESIGN CHOICE, notes/assumptions/58.md.) -/
def execWalkComplete (s : State) : Out :=
  let a := s.ev
  .next (match (s.die a.pkg a.die).walks[a.n]? with
    | none => s
    | some k =>
      let va : Dword := BitVec.ofNat 64 (k.page * 2 ^ 16)
      let d := s.die a.pkg a.die
      let ends (s : State) (f : Option WalkFault) : State := s.finishWalk a.pkg a.die k f
      match s.walkStep a.pkg k.asid va k.read k.table with
      | .go table => s.setDie a.pkg a.die { d with walks := d.walks.set a.n { k with read := k.read + 1, table := table } }
      | .poison pa => ends s (some { page := k.page, kind := 3, entryPa := pa })
      | .invalid e table => ends s (some { page := k.page, kind := 1, entry := e, table := table })
      | .leaf level e =>
        if (s.pkg a.pkg).npkg ≤ (paPkg (leafPa level e va)).toNat then ends s (some { page := k.page, kind := 1, entry := e })
        else if k.waiters.any (fun w => leafPermits e w.need) then ends (s.setDie a.pkg a.die (d.cache k.asid level va e)) none
        else ends s (some { page := k.page, kind := 2 }))

/-- WALK_RETRY: a miss that found the walk queue full is retried after 64 core cycles (R80). -/
def execWalkRetry (s : State) : Out :=
  let a := s.ev
  let t := s.thr a.ep a.ctx
  .next (match t.wait with
    | .walkRefused since =>
      if since + 64 ≤ (s.core a.ep).cyc.toNat && t.status ≠ .faulted then s.setThr a.ep a.ctx { t with status := .ready, wait := .none } else s
    | _ => s)

end Sys2Proof.Machine
end

