-- ==== Sys2Proof/Machine/Placement.lean ====
section
/-! DEFINITION. Placing threads: a launch's record, crews and their allocations, the engine set a crew receives, the state a thread
starts in, and the candidates of a rotation boundary (R30, R31, R35, R41, R137, R261, R264, R265). -/

namespace Sys2Proof.Machine

/-! ## The launch record (R261) -/

/-- A dword of the record. -/
def Launch.dw (l : Launch) (i : Nat) : Dword := l.record.getD i 0

/-- The ASID of the record. -/
def Launch.asid (l : Launch) : Asid := fld (l.dw 0) 48 16

/-- The draw domain. -/
def Launch.domain (l : Launch) : BitVec 24 := fld (l.dw 0) 24 24

/-- The entry address. -/
def Launch.entry (l : Launch) : BitVec 18 := BitVec.ofNat 18 ((fld (l.dw 2) 16 16).toNat * 4)

/-- Crew granary bytes, rounded up to 4 KiB (R31). -/
def Launch.crewSize (l : Launch) : Nat := ((fld (l.dw 2) 32 24).toNat + 4095) / 4096 * 4096

/-- Per-core thread limit. -/
def Launch.perCore (l : Launch) : Nat := (fld (l.dw 2) 56 4).toNat + 1

/-- CR: co-resident. -/
def Launch.co (l : Launch) : Bool := bitOf (l.dw 2) 60

/-- ESET. -/
def Launch.takesEngines (l : Launch) : Bool := bitOf (l.dw 2) 61

/-- The cluster and core masks select a core of the package that holds the launch. -/
def Launch.selects (l : Launch) (ep : Ep) : Bool :=
  epIsCore ep && epPkg ep = l.home
    && (l.dw 1 = 0 || bitOf (l.dw 1) (32 * (epDie ep).toNat + epCluster ep))
    && (fld (l.dw 2) 0 16 = 0 || bitOf (l.dw 2) ((epUnit ep).toNat % 16))

/-- The selected cores in ascending die, cluster and core order. -/
def Launch.cores (l : Launch) : List Ep :=
  ((List.range 1024).map (fun i => mkEp l.home (BitVec.ofNat 1 (i / 512)) (BitVec.ofNat 11 (i % 512)))).filter l.selects

/-- The die whose scheduler ranks a co-resident launch: the lowest that its mask selects (R265). -/
def Launch.die (l : Launch) : BitVec 1 := match l.cores with | ep :: _ => epDie ep | [] => 0

/-- The launch queue of a launch. -/
def Launch.queue (l : Launch) : Nat := lidQueue l.lid

/-! ## Crews (R31) -/

/-- The ranges of a core's granary that crews and resident regions hold. -/
def Core.taken (c : Core) : List (Nat × Nat) :=
  c.crews.map (fun w => (w.base.toNat, w.limit.toNat)) ++
    (c.resident.toList.filter (fun e => bitOf e 63)).map (fun e => ((fld e 0 24).toNat, (fld e 24 24).toNat))

/-- A range lies in the granary and overlaps nothing held. -/
def Core.rangeFree (c : Core) (base size : Nat) : Bool :=
  decide (base + size ≤ 0x800000) && c.taken.all (fun r => decide (base + size ≤ r.1 ∨ r.2 ≤ base))

/-- The least of some numbers. -/
def leastOf : List Nat → Option Nat
  | [] => none
  | a :: r => match leastOf r with
    | some b => some (min a b)
    | none => some a

/-- The lowest offset at which an allocation fits (R31). -/
def Core.fit (c : Core) (size : Nat) : Option Nat :=
  if size = 0 then some 0 else leastOf ((0 :: c.taken.map Prod.snd).filter (fun b => c.rangeFree b size))

/-- A crew of a size, with the engine set or without it, can form here (R31). -/
def Core.mayForm (c : Core) (size : Nat) (engines : Bool) : Bool :=
  (c.fit size).isSome && (!engines || c.crews.all (fun w => !w.eset))

/-- RINGi as a valid slot of the image descriptor, a ring entry of R136, gives it: its number, format, flags, size and base (R136, R137, R229,
R319); a ring without an entry has every field 0, of which R137 and R229 give SIZE and KOFF. (DESIGN CHOICE, notes/assumptions/96.md.) -/
def ringOfSlot (i : Nat) (x : BitVec 128) : Dword :=
  if (fld x 0 8).toNat = 0x80 + i then
    BitVec.ofNat 64 ((fld x 17 1).toNat * 2 ^ 27 + (fld x 16 1).toNat * 2 ^ 26 + (fld x 8 5).toNat * 2 ^ 21 +
      ((fld x 24 8).toNat + 1) % 32 * 2 ^ 16 + (fld x 64 64).toNat / 128 % 2 ^ 16)
  else 0

/-- The engine set cleared for a crew that receives it, its rings loaded from the image (R31, R137). -/
def Core.clearEngines (c : Core) : Core :=
  { c with
    acc := Vector.replicate 4 (Vector.replicate 256 0), apc := Vector.replicate 4 0, ast := Vector.replicate 4 0,
    cq := Vector.replicate 8 {}, mq := [], tampered := [], rings := Vector.ofFn (fun i => ringOfSlot i.val c.image[i]),
    ringNext := Vector.replicate 8 0, ringTails := Vector.replicate 8 0, ringDone := [], badRegs := c.badRegs.filter (fun b => !codeOfCore b.2 || codeFile b.2 = 6) }

/-- A crew of a launch on a core at an allocation. -/
def State.addCrew (s : State) (ep : Ep) (l : Launch) (base size : Nat) : State :=
  let c := s.core ep
  let w : Crew :=
    { home := l.home, lid := l.lid, asid := l.asid, base := BitVec.ofNat 24 base, limit := BitVec.ofNat 24 (base + size),
      eset := l.takesEngines, stamp := s.stamp }
  ({ s with stamp := s.stamp + 1 }).setCore ep { c with crews := c.crews ++ [w] }

/-- The crew of a launch forms on a core, which has room for it (R31). -/
def State.formCrew (s : State) (ep : Ep) (l : Launch) : State :=
  let base := ((s.core ep).fit l.crewSize).getD 0
  let s1 := s.addCrew ep l base l.crewSize
  if l.takesEngines then s1.setCore ep (s1.core ep).clearEngines else s1

/-! ## Contexts -/

/-- The FREE contexts of a core, ascending. -/
def Core.freeCtx (c : Core) : List Ctx := allCtx.filter (fun x => (vget x c.threads).status = .free)

/-- Threads of a launch in contexts of a core. -/
def Core.crewThreads (c : Core) (home : Pkg) (lid : Lid) : Nat :=
  (c.threads.toList.filter (fun t => t.status ≠ .free && t.home = home && t.lid = lid)).length

/-- A launch's crew on a core exists and takes threads, or can form (R31, R264). -/
def Core.crewReady (c : Core) (l : Launch) : Bool :=
  match c.crew? l.home l.lid with
  | some w => w.preempt.isNone && !w.tearing
  | none => c.mayForm l.crewSize l.takesEngines

/-- A core takes another thread of a launch, once a context is FREE: the mask and the per-core limit allow it, and its crew exists or can form (R30,
R264). -/
def State.takesMore (s : State) (ep : Ep) (l : Launch) : Bool :=
  let c := s.core ep
  l.selects ep && decide (c.crewThreads l.home l.lid < l.perCore) && c.crewReady l

/-- A thread of a launch may take a context of a core: the core takes another, and a context is FREE (R30). -/
def State.admits (s : State) (ep : Ep) (l : Launch) : Bool := s.takesMore ep l && !(s.core ep).freeCtx.isEmpty

/-- A thread takes a context of its crew, which forms if there is none. -/
def State.seat (s : State) (ep : Ep) (ctx : Ctx) (l : Launch) (t : Thread) : State :=
  let s1 := match (s.core ep).crew? l.home l.lid with
    | some _ => s
    | none => s.formCrew ep l
  let (b, e, g) : BitVec 24 × BitVec 24 × Bool := match (s1.core ep).crew? l.home l.lid with
    | some w => (w.base, w.limit, w.eset)
    | none => (0, 0, false)
  s1.setCore ep (((s1.core ep).mend (fun x y => x = ctx && !codeOfCore y)).setThr ctx { t with
    status := .ready, home := l.home, lid := l.lid, cgb := b, cgl := e, eset := g, corun := l.co })

/-- The general registers a thread starts with: its arguments in g1 to g4 (R30). -/
def startRegs (args : List Dword) : Vector Dword 32 :=
  Vector.ofFn (fun i => if 1 ≤ i.val && i.val ≤ 4 then args.getD (i.val - 1) 0 else 0)

/-- A launched thread's starting state (R30, R104). -/
def Launch.newThread (l : Launch) (lti : Nat) (gms : Dword) : Thread :=
  { pc := l.entry, g := startRegs [l.dw 6, l.dw 7, l.dw 8, l.dw 9], lti := BitVec.ofNat 24 lti, asid := l.asid,
    did := BitVec.ofNat 64 (l.domain.toNat * 2 ^ 40 + lti % 2 ^ 24 * 2 ^ 16), dkey0 := l.dw 10, dkey1 := l.dw 11,
    gms := gms &&& 0xFFFFFFFFF }

/-- A spawned child's starting state (R30, R35). -/
def SpawnReq.child (r : SpawnReq) : Thread :=
  { pc := r.entry, g := startRegs r.args, lti := r.lti, asid := r.asid, did := r.did, dkey0 := fld r.key 0 64, dkey1 := fld r.key 64 64 }

/-! ## Queues (R259, R264) -/

/-- The launches of a queue. -/
def State.launchesOf (s : State) (p : Pkg) (q : Nat) : List Launch := s.launches.filter (fun l => l.home = p && l.queue = q)

/-- LQSTAT.STATE: 0 idle, 1 active, 2 teardown. (DEDUCED, notes/assumptions/29.md.) -/
def State.queueState (s : State) (p : Pkg) (q : Nat) : Nat :=
  let w := (s.pkg p).queue q
  if w.tearing then 2 else if w.head ≠ w.tail || !(s.launchesOf p q).isEmpty then 1 else 0

/-- A queue that is idle has both deficits 0 (R264). -/
def State.idleQueue (s : State) (p : Pkg) (q : Nat) : State :=
  if s.queueState p q = 0 then
    let k := s.pkg p
    s.setPkg p (k.setQueue q { k.queue q with def0 := 0, def1 := 0 })
  else s

/-- The deficit of a queue on a die. -/
def Queue.deficit (w : Queue) (d : BitVec 1) : Int := if d = 0 then w.def0 else w.def1

/-- Replaces a deficit, which saturates (R264). -/
def Queue.setDeficit (w : Queue) (d : BitVec 1) (x : Int) : Queue :=
  if d = 0 then { w with def0 := satS x 28 } else { w with def1 := satS x 28 }

/-- The launch at the head of a queue, read and checked. -/
def State.head? (s : State) (p : Pkg) (q : Nat) : Option Launch :=
  let w := (s.pkg p).queue q
  if w.checked then (s.launch? p (lidOf q w.head)).filter (fun l => l.phase = .head) else none

/-- Every valid dependence of a launch is satisfied (R263). -/
def Launch.ready (l : Launch) : Bool := (List.range 4).all (fun i => !bitOf (l.dw (12 + i)) 0 || l.satisfied.getLsbD i)

/-- A read of the queue's head waits for the supervisor (R262). -/
def Queue.blocked (w : Queue) : Bool := w.faults.any (fun f => f.reason = 6)

/-- The head launch of a queue may have threads placed (R263, R264). -/
def State.startable (s : State) (p : Pkg) (q : Nat) : Option Launch :=
  let w := (s.pkg p).queue q
  if w.enabled && !w.tearing && !w.blocked then (s.head? p q).filter Launch.ready else none

/-- HEAD advances over the head record (R263). -/
def State.advanceHead (s : State) (p : Pkg) (q : Nat) : State :=
  let k := s.pkg p
  let w := k.queue q
  (s.setPkg p (k.setQueue q { w with head := w.head + 1, checked := false, got := [], waited := 0, holding := false, lackFrom := none, striking := false })).idleQueue p q

/-- The queues of a package that exist in its state. -/
def Package.queueNumbers (k : Package) : List Nat := k.queues.map Prod.fst

/-- A co-resident launch of a queue of the priority or higher holds a core's contexts (R265). -/
def State.heldFrom (s : State) (ep : Ep) (q : Nat) (pri : Nat) : Bool :=
  let p := epPkg ep
  let k := s.pkg p
  k.queueNumbers.any (fun h =>
    let w := k.queue h
    h ≠ q && w.holding && decide (pri ≤ w.pri) && (match s.head? p h with | some l => l.selects ep | none => false))

end Sys2Proof.Machine
end

