-- ==== Sys2Proof/Machine/GroupSteps.lean ====
section
/-! DEFINITION. Spawn requests at a cluster unit and the arrivals of a group (R35, R43, R168, R196, R264). The events read `ev.n`, the
place of a request or arrival in its list, and `ev.ep`. -/

namespace Sys2Proof.Machine

/-! ## SPAWN_REQUEST and SPAWN_PLACE -/

/-- The cores a spawn request may take: the one it names, or those of its cluster. -/
def SpawnReq.targets (r : SpawnReq) : List Ep :=
  if r.cluster then
    (List.range 16).map (fun i => mkEp (epPkg r.tgt) (epDie r.tgt) (BitVec.ofNat 11 (r.tgt.toNat % 32 * 16 + i)))
  else [r.tgt]

/-- Requests that a cluster unit holds (R168). -/
def State.storedAt (s : State) (unit : Ep) : List SpawnReq :=
  s.spawns.filter (fun r => r.stored && spawnUnit r.cluster r.tgt = unit)

/-- The answer to a spawn request returns to its parent (R24, R168). -/
def State.answerSpawn (s : State) (r : SpawnReq) (x : Dword) : State :=
  let t := s.thr r.from_ r.ctx
  match t.pend.find? (fun p => p.kind = .spawn) with
  | none => s
  | some p =>
    let s1 := s.setThr r.from_ r.ctx { t with pend := t.pend.filter (fun q => q.id ≠ p.id) }
    if t.quitting then s1.dropDest r.from_ p.dest else s1.writeDest r.from_ r.ctx p.dest x

/-- SPAWN_REQUEST: a cluster unit with a free entry accepts a request, which takes the launch's next LTI, or refuses it (R35, R168), for its target
before for want of an LTI. (DESIGN CHOICE, notes/assumptions/62.md.) -/
def execSpawnRequest (s : State) : Out :=
  .next (match s.spawns[s.ev.n]? with
    | none => s
    | some r =>
      if r.stored || 256 ≤ (s.storedAt (spawnUnit r.cluster r.tgt)).length then s
      else
        let rest := s.spawns.eraseIdx s.ev.n
        match s.launch? r.home r.lid with
        | none => { s with spawns := rest }
        | some l =>
          let lti := l.threads + l.nextChild
          if !r.targets.any l.selects then ({ s with spawns := rest }).answerSpawn r 0x8000000000000002
          else if 2 ^ 24 ≤ lti then ({ s with spawns := rest }).answerSpawn r 0x8000000000000001
          else
            let s1 : State := { s with spawns := rest ++ [{ r with stored := true, lti := BitVec.ofNat 24 lti }] }
            let s2 := s1.setLaunch { l with nextChild := l.nextChild + 1, spawning := l.spawning + 1 }
            s2.answerSpawn r (BitVec.ofNat 64 lti))

/-- Contexts are assigned at a core's rotation boundary (R264). -/
def State.atBoundary (s : State) (ep : Ep) : Bool := (s.core ep).cyc.toNat % 16 = 0 && !(s.pkg (epPkg ep)).halted

/-- SPAWN_PLACE: at a core's rotation boundary the earliest request its cluster unit holds takes the lowest FREE context, if it may be
placed on that core (R35, R264). -/
def execSpawnPlace (s : State) : Out :=
  let ep := s.ev.ep
  .next (match (s.storedAt (spawnUnit false ep)).head? with
    | none => s
    | some r =>
      match s.launch? r.home r.lid, (s.core ep).freeCtx with
      | some l, ctx :: _ =>
        if s.atBoundary ep && r.targets.contains ep && s.admits ep l &&
            !s.heldFrom ep l.queue ((s.pkg r.home).queue l.queue).pri then
          let s1 : State := { s with spawns := s.spawns.erase r }
          let s2 := s1.setLaunch { l with spawning := l.spawning - 1, live := l.live + 1 }
          s2.seat ep ctx l r.child
        else s
      | _, _ => s)

/-! ## BARRIER_ARRIVAL (R43, R195, R196) -/

/-- The combining operation of a group: add, signed max, signed min, or. -/
def combineValues (op : BitVec 2) (a b : Dword) : Dword :=
  match op.toNat with
  | 0 => a + b
  | 1 => if a.toInt < b.toInt then b else a
  | 2 => if b.toInt < a.toInt then b else a
  | _ => a ||| b

/-- An arrival joins the current episode, under the operation of the first to reach the root (R195). -/
def Episode.join (e : Episode) (a : Arrival) : Episode :=
  if e.arrivals = 0 then { e with op := a.op, value := a.value, arrivals := 1 }
  else { e with value := combineValues e.op e.value a.value, arrivals := e.arrivals + 1 }

/-- The thread's arrival in a group's episode is over. -/
def Thread.forget (t : Thread) (l : Launch) (g : BitVec 8) : Thread :=
  if g = 255 then { t with arrived255 := false }
  else match t.slotOf l g with
    | some i => { t with arrived := putBit t.arrived i false }
    | none => t

/-- A resident member that has arrived is released: the value goes to the BAR it waits in (R43). -/
def State.releaseMember (s : State) (ep : Ep) (ctx : Ctx) (l : Launch) (g : BitVec 8) (x : Dword) : State :=
  let t := s.thr ep ctx
  if t.status ≠ .free && t.home = l.home && t.lid = l.lid && t.hasArrived l g then
    let s1 := s.setThr ep ctx (t.forget l g)
    if t.wait = .barrier g && t.waitFrom ≠ 0 then s1.completeHeld ep ctx x else s1
  else s

/-- A spill entry of a SAVED thread, in its record and in the model's list (R290). -/
def State.spill (s : State) (l : Launch) (lti : BitVec 24) (e : List Dword) : State :=
  match l.saved.find? (fun w => w.lti = lti) with
  | none => s
  | some w =>
    let n := w.spill.length
    let at_ := w.pa + 0xA80 + 48 * n
    let s1 := (List.range 6).foldl (fun (s : State) i => s.pokeDword (at_ + 8 * i) (e.getD i 0)) s
    let s2 := s1.amendDword (w.pa + 0xA20) (fun x => setFld x 16 7 (n + 1))
    match s2.launch? l.home l.lid with
    | none => s2
    | some l2 => s2.setLaunch { l2 with saved := l2.saved.map (fun (x : Saved) => if x.lti = lti then { x with spill := x.spill ++ [e] } else x) }

/-- A spill entry whose dwords carry the mark, or do not (R281, R283). -/
def State.spillMarked (s : State) (l : Launch) (lti : BitVec 24) (e : List Dword) (marked : Bool) : State :=
  match l.saved.find? (fun w => w.lti = lti) with
  | some w =>
    let s1 := s.spill l lti e
    if marked then { s1 with mem := s1.mem.markDwords (w.pa + 0xA80 + 48 * w.spill.length) 6 } else s1
  | none => s

/-- A SAVED thread has arrived in a group's episode: BARST in its record, or the model's note for group 255 (R288). -/
def State.savedArrived (s : State) (l : Launch) (w : Saved) (g : BitVec 8) : Bool :=
  if g = 255 then w.arrived255
  else
    let t : Thread := { gms := s.peekDword (w.pa + 0x920 + 8 * 17) }
    match t.slotOf l g with
    | some i => bitOf (s.peekDword (w.pa + 0xA18)) (8 * i + 7)
    | none => false

/-- The contexts of every core of the system's state. -/
def State.contexts (s : State) : List (Ep × Ctx) :=
  s.cores.flatMap (fun c => allCtx.map (fun x => (BitVec.ofNat 22 c.1, x)))

/-- The episode releases: every arrived thread receives the combined value, a SAVED one in its spill queue (R43, R46). -/
def State.releaseEpisode (s : State) (l : Launch) (g : BitVec 8) (x : Dword) : State :=
  let e := l.episode g
  let s1 := s.setLaunch (l.setEpisode g { number := e.number + 1 })
  let s2 := s1.contexts.foldl (fun (s : State) w => s.releaseMember w.1 w.2 l g x) s1
  (l.saved.filter (fun w => s2.savedArrived l w g)).foldl (fun (s : State) w =>
    match s.launch? l.home l.lid with
    | some l2 => s.spill l2 w.lti [1, g.setWidth 64, x]
    | none => s) s2

/-- BARRIER_ARRIVAL: an arrival reaches the root of its group; the last member's releases the episode (R43, R196). -/
def execBarrierArrival (s : State) : Out :=
  .next (match s.arrivals[s.ev.n]? with
    | none => s
    | some a =>
      let s1 : State := { s with arrivals := s.arrivals.eraseIdx s.ev.n }
      match s1.launch? a.home a.lid with
      | none => s1
      | some l =>
        let e := (l.episode a.group).join a
        let l1 := l.setEpisode a.group e
        let s2 := s1.setLaunch l1
        if l1.members a.group ≤ e.arrivals then s2.releaseEpisode l1 a.group e.value else s2)

end Sys2Proof.Machine
end

