-- ==== Sys2Proof/Machine/Frames.lean ====
section
/-! DEFINITION. Pre-emption: frames of the save pool, the interrupt that stops a crew, and the save of its contexts, engine set and
allocation (R46, R47, R252, R286 to R291, R295). The events read `ev.n` (a mesh message), `ev.ep` and `ev.lid`. -/

namespace Sys2Proof.Machine

/-! ## The save pool (R286, R287) -/

/-- Physical address of frame f of a package's pool. -/
def Package.frameAt (k : Package) (f : Nat) : Nat :=
  (fld k.psbase 16 38).toNat * 2 ^ 16 + f * (fld k.psfsz 0 24).toNat * 2 ^ 16

/-- Frames of the pool that no crew uses, lowest first, at most `n`. -/
def Package.freeFrames (k : Package) (n : Nat) : List Nat :=
  ((List.range (min (fld k.psbase 0 16).toNat (k.frames.length + n))).filter (fun f => !k.frames.contains f)).take n

/-- The pool's frames are large enough for a crew's full eviction (R287). -/
def Package.frameHolds (k : Package) (w : Crew) : Bool :=
  decide (0x1C000 + (w.limit.toNat - w.base.toNat) ≤ (fld k.psfsz 0 24).toNat * 65536)

/-- The crews that a pre-emption of a launch's crew on a core strikes: all of a co-resident launch's (R47). -/
def State.struck (s : State) (ep : Ep) (lid : Lid) : List (Ep × Crew) :=
  let p := epPkg ep
  match s.launch? p lid with
  | some l =>
    if l.co then s.cores.filterMap (fun c => (c.2.crew? p lid).map (fun w => (BitVec.ofNat 22 c.1, w)))
    else match (s.core ep).crew? p lid with
      | some w => [(ep, w)]
      | none => []
  | none => []

/-- Mesh messages go out to some crews, each with a frame (R46, R286). -/
def State.strike (s : State) (p : Pkg) (lid : Lid) (mode : BitVec 4) (crews : List (Ep × Crew)) (frames : List Nat) : State :=
  let k := s.pkg p
  let s1 := s.setPkg p { k with frames := k.frames ++ frames }
  { s1 with mesh := s1.mesh ++ (crews.zip frames).map (fun w => { ep := w.1.1, home := p, lid := lid, mode := mode, frame := w.2 }) }

/-- A pre-emption takes its frames and starts, or finds too few free (R286). -/
def State.tryStrike (s : State) (ep : Ep) (lid : Lid) (mode : BitVec 4) : Option State :=
  let p := epPkg ep
  let crews := s.struck ep lid
  let frames := (s.pkg p).freeFrames crews.length
  if frames.length < crews.length then none else some (s.strike p lid mode crews frames)

/-- MSTAT: an operation is over with a result (R278). -/
def State.mcmdDone (s : State) (p : Pkg) (res : BitVec 3) : State := s.setPkg p { s.pkg p with busy := false, res := res }

/-- A pre-emption refuses crews already stopped, or too large for their frames (R287). -/
def State.preemptRefused (s : State) (p : Pkg) (mode : BitVec 4) (crews : List (Ep × Crew)) : Bool :=
  crews.any (fun w => w.2.preempt.isSome || w.2.parkedIn || w.2.tearing || (mode = 1 && !(s.pkg p).frameHolds w.2))

/-- PREEMPT (R279, R286, R287): refused for a crew that is not there or already stopped, or too large for its frame; it waits for frames
and stays BUSY until the save is done. -/
def State.preempt (s : State) (p : Pkg) (mode : BitVec 4) (ep : Ep) (lid : Lid) : State :=
  let crews := s.struck ep lid
  let k := s.pkg p
  if epPkg ep ≠ p || ((s.core ep).crew? p lid).isNone || s.preemptRefused p mode crews then s.mcmdDone p 2
  else
    let s1 := s.setPkg p { k with busy := true, preempting := crews.map (fun w => (w.1.toNat, lid)) }
    match s1.tryStrike ep lid mode with
    | some s2 => s2
    | none => s1.setPkg p { s1.pkg p with waitPreempt := some { ep := ep, home := p, lid := lid, mode := mode } }

/-- A PREEMPT that waits for frames is tried again: it starts when its crews' frames are free, and ends when what it names is gone, stopped by
another or too large (R286, R287). -/
def State.retryPreempt (s : State) (p : Pkg) : State :=
  let k := s.pkg p
  match k.waitPreempt with
  | none => s
  | some m =>
    let crews := s.struck m.ep m.lid
    let idle : Package := { k with waitPreempt := none, preempting := [] }
    if ((s.core m.ep).crew? p m.lid).isNone then (s.setPkg p idle).mcmdDone p 0
    else if s.preemptRefused p m.mode crews then (s.setPkg p idle).mcmdDone p 2
    else
      match s.tryStrike m.ep m.lid m.mode with
      | some s2 => s2.setPkg p { s2.pkg p with waitPreempt := none, preempting := crews.map (fun w => (w.1.toNat, m.lid)) }
      | none => s

/-- A frame that holds no SAVED thread and no evicted crew is free again, and a PREEMPT that waits for frames may start (R286). -/
def State.freeFrame (s : State) (p : Pkg) (f : Nat) : State :=
  if s.launches.any (fun l => l.home = p && (l.saved.any (fun w => w.frame = f) || l.evicted.any (fun e => e.frame = f))) then s
  else
    let k := s.pkg p
    (s.setPkg p { k with frames := k.frames.filter (fun x => x ≠ f) }).retryPreempt p

/-- The save of a crew that a PREEMPT awaits is done, or the crew is gone (R286). -/
def State.preemptDone (s : State) (ep : Ep) (lid : Lid) : State :=
  let p := epPkg ep
  let k := s.pkg p
  if k.preempting.isEmpty then s
  else
    let left := k.preempting.filter (fun w => !(w.1 = ep.toNat && w.2 = lid))
    let s1 := s.setPkg p { k with preempting := left }
    if left.isEmpty then s1.mcmdDone p 0 else s1

/-! ## The interrupt (R46) -/

/-- The contexts of a crew, ascending. -/
def Core.crewCtx (c : Core) (w : Crew) : List Ctx :=
  allCtx.filter (fun x => (vget x c.threads).status ≠ .free && (vget x c.threads).home = w.home && (vget x c.threads).lid = w.lid)

/-- A wait that has not been satisfied and takes nothing with it: held by the core for its home, or held there. -/
def Stage.withdrawable (g : Stage) : Bool :=
  match g with
  | .here | .unsent | .refused _ | .waiting => true
  | _ => false

/-- A wait that has been sent to its home, whose withdrawal may be sent too: on its way, held there, or satisfied with its value on the way back (R45). -/
def Stage.outward (g : Stage) : Bool :=
  match g with
  | .sent | .withdrawing => true
  | _ => false

/-- A full/empty wait of a thread is withdrawn: its pending result is gone with its destination full, and the PC is back at it, at its
bundle's address with XD where it stood in one, and no step trap follows (R46 step 3, R112, R164); instructions of its shadow that have issued issue again.
(DESIGN CHOICE, notes/assumptions/54.md.) -/
def State.withdrawWait (s : State) (ep : Ep) (ctx : Ctx) (p : Pending) : State :=
  let s1 := s.dropDest ep p.dest
  let t := (s1.thr ep ctx).dropPending p.id
  let t1 := match p.dest with | .reg n => t.setG n (t.getG n) | _ => t
  if t.quitting then s1.setThr ep ctx t1
  else
    s1.setThr ep ctx { t1 with
      pc := p.pc, st := putBit t1.st 22 p.xd, shadow := 0, stepTrap := false,
      status := (if t1.status = Status.faulted then Status.faulted else Status.ready), wait := .none }

/-- The waits of a thread that its homes hold, or that it still holds itself, are withdrawn with no effect on their dwords; one that its home has satisfied,
its limit over or not, completes (R46). -/
def State.withdrawThread (s : State) (ep : Ep) (ctx : Ctx) : State :=
  ((s.thr ep ctx).pend.filter (fun p => p.lanes.any (fun l => l.req.op.waits))).foldl (fun (s : State) p =>
    let mine (w : Waiter) : Bool := w.ep = ep && w.ctx = ctx && w.pend = p.id
    if (p.lanes.all (fun l => l.stage.outward) && s.waiters.any mine) || p.lanes.all (fun l => l.stage.withdrawable) then
      ({ s with waiters := s.waiters.filter (fun w => !mine w) }).withdrawWait ep ctx p
    else s) s

/-- The running product of a crew stops at a K-step boundary: with LA = 0 it leaves the queue and its thread's PC names it, one of a thread that
has ended is discarded, any other is held (R46 step 2, R252, R257). -/
def Core.stopProducts (c : Core) (q : MxCmd → Bool) : Core :=
  let running (m : MxCmd) : Bool := q m && m.multiplies && m.phase = .running
  let gone := (c.mq.filter (fun m => running m && (m.la = 0 || m.ended))).map MxCmd.id
  let owed (p : Pending) : Bool := match p.kind with | .matrix id _ => !gone.contains id | _ => true
  { c with
    mq := (c.mq.filter (fun m => !gone.contains m.id)).map (fun (m : MxCmd) => if running m then { m with phase := .stopped } else m),
    threads := (c.threads.map (fun (t : Thread) => { t with pend := t.pend.filter owed })).map (fun (t : Thread) =>
      match t.wait with
      | .matrixCommand id =>
        if gone.contains id then
          { t with status := (if t.status = Status.faulted then Status.faulted else Status.ready), wait := .none, waitFrom := 0 }
        else t
      | _ => t) }

/-- Takes the faults posted against a thread. -/
def State.takeFaults (s : State) (ep : Ep) (ctx : Ctx) : Nat → State
  | 0 => s
  | n + 1 => (s.takeFault ep ctx).takeFaults ep ctx n

/-- A WAITQ that still waits is withdrawn: its thread is at it, XD set where the X-class word of its bundle is done, and issues it again after the restore
(R46, R112, R194; DEDUCED, notes/assumptions/44.md). -/
def State.withdrawCount (s : State) (ep : Ep) (ctx : Ctx) : State :=
  match (s.thr ep ctx).wait with
  | .count _ _ =>
    let s1 := (s.setCore ep ((s.core ep).leaveOrder ctx)).withdrawHeld ep ctx
    let t := s1.thr ep ctx
    s1.setThr ep ctx { t with status := (if t.status = Status.faulted then Status.faulted else Status.ready), wait := .none }
  | _ => s

/-- The threads of a crew stop: posted faults are taken, combining entries are sent, full/empty waits and WAITQs are withdrawn (R46, R67, R272). -/
def State.stopCrew (s : State) (ep : Ep) (w : Crew) : State :=
  let s1 := s.setCore ep ((s.core ep).stopProducts (fun m => m.home = w.home && m.lid = w.lid))
  ((s1.core ep).crewCtx w).foldl (fun (s : State) x => ((s.takeFaults ep x (s.thr ep x).faultQ.length).flushThread ep x).withdrawThread ep x |>.withdrawCount ep x) s1

/-- MESH_INTERRUPT: a core takes a pre-emption message for a crew; one for a crew that is gone or torn down gives its frame back (R46, R269). -/
def execMeshInterrupt (s : State) : Out :=
  .next (match s.mesh[s.ev.n]? with
    | none => s
    | some m =>
      let s1 : State := { s with mesh := s.mesh.eraseIdx s.ev.n }
      match (s1.core m.ep).crew? m.home m.lid with
      | none => (s1.freeFrame (epPkg m.ep) m.frame).preemptDone m.ep m.lid
      | some w =>
        let w1 : Crew := { w with preempt := some (m.mode, m.frame), written := [] }
        if w.tearing then (s1.freeFrame (epPkg m.ep) m.frame).preemptDone m.ep m.lid
        else (s1.setCore m.ep ((s1.core m.ep).setCrew w1)).stopCrew m.ep w1)

/-! ## The save (R47, R287 to R290) -/

/-- The state code of R29. -/
def Status.code (t : Status) : Nat :=
  match t with
  | .ready => 0
  | .parked r => (match r with | .fill => 1 | .fe => 2 | .queue => 3 | .barrier => 4 | .matrix => 5 | .copy => 6 | .message => 7)
  | .faulted => 8
  | .free => 9

/-- Dwords from an address up, in memory that the machine itself keeps. -/
def State.pokeDwords (s : State) (at_ : Nat) : List Dword → State
  | [] => s
  | x :: r => (s.pokeDword at_ x).pokeDwords (at_ + 8) r

/-- STRMn at a save, with PEND 0 (R288). -/
def Stream.saved (st : Stream) : Dword := ({ st with unacked := [] }).reg

/-- The full bits a record keeps (R288). -/
def fullMask : BitVec 32 := 0x0FFFFFFE

/-- The unread rest of a message, as a spill entry, with the entry of the store it was read from, none for one of a spill queue (R193, R290). -/
def restEntry (code : Option (BitVec 16)) (xs : List Dword) : List (Option (BitVec 16) × List Dword) := if xs.isEmpty then [] else [(code, 2 :: xs)]

/-- Unread dwords of the request a thread holds. -/
def State.requestRest (s : State) (ep : Ep) (t : Thread) : List Dword :=
  match t.heldReq with
  | some id => (match (s.core ep).inbox.find? (fun m => m.id = id) with
    | some m => m.payload.drop m.read
    | none => [])
  | none => t.restMsg

/-- Unread dwords of the reply a thread is partway through. -/
def State.replyRest (s : State) (ep : Ep) (t : Thread) : List Dword :=
  match t.replyPos with
  | some (i, pos) => (match ((s.core ep).replies.toList.getD i {}).msg with
    | some (_, pl) => pl.drop pos
    | none => [])
  | none => t.restReply

/-- Dwords already read of the partial message, header included: of the request, where both are partly read (R288). -/
def State.restRead (s : State) (ep : Ep) (t : Thread) : Nat :=
  match t.heldReq with
  | some id => (match (s.core ep).inbox.find? (fun m => m.id = id) with
    | some m => m.read + 1
    | none => 0)
  | none =>
    if !t.restMsg.isEmpty then t.restGone
    else match t.replyPos with
      | some (_, pos) => pos + 1
      | none => t.restGone

/-- MSGST (R288). -/
def State.msgst (s : State) (ep : Ep) (t : Thread) : Dword :=
  BitVec.ofNat 64 (b2n t.header.isSome * 2 ^ 63 + b2n (!(s.requestRest ep t).isEmpty) * 2 ^ 62 + b2n (!(s.replyRest ep t).isEmpty) * 2 ^ 61 +
    s.restRead ep t % 8)

/-- Replies that have arrived for a context and are not begun, earliest first, as spill entries, each with its slot's code. -/
def arrivedReplies : Nat → List (Nat × Slot) → List (Option (BitVec 16) × List Dword)
  | 0, _ => []
  | n + 1, l =>
    match earliest l with
    | none => []
    | some (i, w) =>
      (match w.msg with
       | some (h, pl) => [(some (regCode 6 1 i), 0 :: h :: pl)]
       | none => []) ++ arrivedReplies n (l.filter (fun x => x.1 ≠ i))

/-- The entry of the request inbox that holds the request a thread has begun. -/
def Core.heldEntry (c : Core) (t : Thread) : Option (BitVec 16) :=
  (t.heldReq.bind (fun id => c.inbox.find? (fun m => m.id = id))).map (fun m => regCode 6 0 m.entry)

/-- A context's spill entries at its save: partial messages, then arrived replies, each with the code of the entry it stands in (R193, R290). -/
def State.spillOf (s : State) (ep : Ep) (ctx : Ctx) : List (Option (BitVec 16) × List Dword) :=
  let t := s.thr ep ctx
  let started (w : Nat × Slot) : Bool := t.replyPos.map Prod.fst = some w.1
  restEntry ((s.core ep).heldEntry t) (s.requestRest ep t) ++ restEntry (t.replyPos.map (fun w => regCode 6 1 w.1)) (s.replyRest ep t) ++
    arrivedReplies 64 (((s.core ep).repliesOf ctx).filter (fun w => !started w))

/-- The reply slots a context keeps reserved when it is saved: those no reply has reached (R193). -/
def Core.keptSlots (c : Core) (ctx : Ctx) : List Nat :=
  (List.range 64).filter (fun i => (c.replies.toList.getD i {}).owner = some ctx && (c.replies.toList.getD i {}).msg.isNone)

/-- The reply slots of a core that stay reserved for a thread that left it (R193). -/
def Core.leftSlots (c : Core) (t : Thread) : List Nat :=
  (List.range 64).filter (fun i => (c.replies.toList.getD i {}).saved = some (launchKey t.home t.lid, t.lti))

/-- The slots a record names and the core that holds them: those of the context's core, or if it has none those of the core that its last record named.
(DESIGN CHOICE, notes/assumptions/80.md.) -/
def State.slotsOf (s : State) (ep : Ep) (ctx : Ctx) : List Nat × Ep :=
  let kept := (s.core ep).keptSlots ctx
  let t := s.thr ep ctx
  if kept.isEmpty then ((s.core t.slotHome).leftSlots t, t.slotHome) else (kept, ep)

/-- A number with the bits of a list set. -/
def bitSet (l : List Nat) : Dword := BitVec.ofNat 64 (l.foldl (fun n i => Nat.lor n (2 ^ i)) 0)

/-- BARST (R288). -/
def Thread.barst (t : Thread) : Dword :=
  BitVec.ofNat 64 (packNats 8 ((List.range 4).map (fun i => b2n (t.arrived.getLsbD i) * 128 + (t.episode.toList.getD i 0).toNat)))

/-- CSTATE (R288). -/
def Thread.cstate (t : Thread) (spill : Nat) : Dword :=
  BitVec.ofNat 64 (t.status.code * 2 ^ 60 + (match t.outstanding with | o :: _ => o.seq.toNat | [] => 0) * 2 ^ 32 + spill * 2 ^ 16)

/-- A thread record (R288), dword by dword from its start, its reserved end reading 0 (R2); `strm` gives STRMn. -/
def State.recordWith (strm : Stream → Dword) (s : State) (ep : Ep) (ctx : Ctx) : List Dword :=
  let t := s.thr ep ctx
  let slots := s.slotsOf ep ctx
  t.v.toList.flatMap (fun v => (unpackNats 64 8 v.toNat).map (BitVec.ofNat 64)) ++ t.k.toList ++ (t.g.toList.drop 1).take 27 ++
    [(t.full &&& fullMask).setWidth 64,
      t.pc.setWidth 64, t.st, t.pfx, t.tvec, t.tepc, t.tst, t.tcause, t.tval0, t.tval1, t.lti.setWidth 64, t.lid.setWidth 64,
      t.asid.setWidth 64, t.did, t.dkey0, t.dkey1, t.dctr, t.qbind, t.gms, t.wlim] ++
    t.streams.toList.map strm ++
    [t.header.getD 0, s.msgst ep t, bitSet slots.1, slots.2.setWidth 64, t.barst,
      t.cstate (s.spillOf ep ctx).length] ++ List.replicate 11 0

/-- The record of a save, whose streams have nothing left to be acknowledged. -/
def State.recordOf (s : State) (ep : Ep) (ctx : Ctx) : List Dword := s.recordWith Stream.saved ep ctx

/-- What a context holds in the message stores leaves them; its free slots stay reserved for the SAVED thread (R193). -/
def Core.parkMessages (c : Core) (ctx : Ctx) (t : Thread) : Core :=
  { c with
    inbox := match t.heldReq with
      | some id => c.inbox.filter (fun m => m.id ≠ id)
      | none => c.inbox,
    replies := c.replies.map (fun (w : Slot) =>
      if w.owner = some ctx then
        (if w.msg.isNone then { saved := some (launchKey t.home t.lid, t.lti) } else {})
      else w),
    parkOrder := (c.leaveOrder ctx).parkOrder }

/-- The wait a SAVED thread comes back to: a BAR it has arrived at, or an MMT still queued; every other instruction reissues (R43, R46,
R249, R252). -/
def Thread.keptWait (t : Thread) : Wait :=
  if t.waitFrom = 0 then .none
  else match t.wait with
    | .barrier g => .barrier g
    | .matrixCommand id => .matrixCommand id
    | _ => .none

/-- A context is saved as the s-th of its crew and becomes FREE (R46 step 5); an entry with an uncorrectable error, of a message store too, is saved
poisoned (R283).
(DEDUCED, notes/assumptions/44.md.) -/
def State.saveThread (s : State) (ep : Ep) (ctx : Ctx) (w : Crew) (mode : BitVec 4) (frame i : Nat) : State :=
  let pa := (s.pkg (epPkg ep)).frameAt frame + 0x1800 * i
  let entries := s.spillOf ep ctx
  let kept := (s.thr ep ctx).keptWait
  let t := s.thr ep ctx
  let x : Saved :=
    { order := s.stamp, pa := pa, frame := frame, lti := t.lti, ep := ep, ctx := ctx, place := (if mode = 1 then none else some ep),
      outstanding := t.outstanding.map (fun (o : Outstanding) => { o with gone := o.gone || mode = 1 }),
      spill := entries.map Prod.snd, wait := kept, heldDest := t.heldDest, heldNext := t.heldNext,
      heldLimit := t.waitLimit, pend := t.pend, shadow := t.shadow, stepTrap := t.stepTrap, arrived255 := t.arrived255 }
  let bad := ((s.core ep).badRegs.filter (fun b => b.1 = ctx && !codeOfCore b.2)).map Prod.snd
  let s0 := s.pokeDwords pa (s.recordOf ep ctx)
  let s1 : State := { s0 with mem := s0.mem.markEntries pa bad threadEntries }
  let damaged (code : Option (BitVec 16)) : Bool := (s.core ep).badRegs.any (fun b => some b.2 = code)
  let s2 := ((List.range entries.length).zip entries).foldl (fun (s : State) e =>
    let at_ := pa + 0xA80 + 48 * e.1
    let s1 := s.pokeDwords at_ ((e.2.2 ++ List.replicate 6 0).take 6)
    if damaged e.2.1 then { s1 with mem := s1.mem.markDwords at_ 6 } else s1) s1
  let s4 := (s2.setCore ep ((s2.core ep).parkMessages ctx t)).freeContext ep ctx
  let s5 : State := { s4 with stamp := s4.stamp + 1 }
  match s5.launch? w.home w.lid with
  | some l => s5.setLaunch { l with saved := l.saved ++ [x] }
  | none => s5

/-- A matrix command as 16 dwords of a core record (R289). -/
def MxCmd.saved (m : MxCmd) : List Dword :=
  [m.word.setWidth 64, BitVec.ofNat 64 (m.pc.toNat + b2n m.xd * 2 ^ 63), m.a, m.c, 0, m.base, m.fmt.setWidth 64, 0] ++
    (if m.eop = 2 then (unpackNats 64 8 m.scale.toNat).map (BitVec.ofNat 64) else List.replicate 8 0)

/-- A copy command as 16 dwords of a core record (R289). -/
def CopyCmd.saved (k : CopyCmd) : List Dword :=
  ([k.word.setWidth 64, k.pc.setWidth 64] ++ k.ops ++ (if k.action = 0 then [] else [k.w, k.value]) ++ List.replicate 16 0).take 15 ++ [k.base]

/-- The core record of an evicted crew (R289). -/
def Core.recordDwords (c : Core) (w : Crew) : List Dword :=
  let mine (k : CopyCmd) : Bool := k.home = w.home && k.lid = w.lid
  if w.eset then
    c.acc.toList.flatMap (fun a => a.toList.map (fun x => x.signExtend 64)) ++ c.ast.toList ++ c.apc.toList ++ c.rings.toList ++
      c.cq.toList.map (fun q => BitVec.ofNat 64 q.data.length) ++ c.cq.toList.flatMap CoreQueue.entries ++
      List.replicate 40 0 ++
      ((c.copies.filter mine).flatMap CopyCmd.saved ++ List.replicate 512 0).take 512 ++ c.mq.flatMap MxCmd.saved
  else
    List.replicate 1344 0 ++ (c.copies.filter mine).flatMap CopyCmd.saved

/-- Bytes, full/empty bits and poison marks moved from one place to another: those that `inside` picks from a base (R281, R287, R293). -/
def Memory.moveWhere (m : Memory) (src dst : Nat) (inside : Nat → Nat → Bool) : Memory :=
  let bytes := (m.cells.filter (fun c => inside src c.1)).map (fun c => (c.1 - src + dst, c.2))
  let moved (l : List Nat) : List Nat :=
    ((l.filter (inside src)).map (fun x => x - src + dst)).foldl (fun l x => natSet l x true) (l.filter (fun x => !inside dst x))
  { cells := bytes.foldr (fun c l => cellSet l c.1 c.2) (m.cells.filter (fun c => !inside dst c.1)),
    empty := if paHasFe dst then moved m.empty else m.empty, poison := if paRegion dst = .host then m.poison else moved m.poison }

/-- A range moved to another place (R287). -/
def Memory.moveRange (m : Memory) (src dst n : Nat) : Memory := m.moveWhere src dst (fun a x => decide (a ≤ x ∧ x < a + n))

/-- The engine set, copies and allocation of an evicted crew go to its frame, and the crew leaves the core (R47, R287, R289). -/
def State.evictCrew (s : State) (ep : Ep) (w : Crew) (frame : Nat) : State :=
  let c := s.core ep
  let base := (s.pkg (epPkg ep)).frameAt frame
  let mine (k : CopyCmd) : Bool := k.home = w.home && k.lid = w.lid
  let size := w.limit.toNat - w.base.toNat
  let e : Evicted :=
    { frame := frame, crew := { w with preempt := none, parkedIn := false, written := [], holds := w.holds.map (fun (h : Hold) => { h with copy := none }) }, copies := c.copies.filter mine,
      mq := if w.eset then c.mq else [], ringNext := c.ringNext, ringTails := c.ringTails, reserved := c.cq.toList.map CoreQueue.reserved,
      tampered := if w.eset then c.tampered.map (fun a => a - granaryPa ep w.base.toNat) else [] }
  let s0 := s.pokeDwords (base + 0x18000) (c.recordDwords w)
  let ours (code : BitVec 16) : Bool := w.eset && codeOfCore code && codeFile code ≠ 6
  let bad := (c.badRegs.map Prod.snd).filter ours
  let s1 : State := { s0 with mem := s0.mem.markEntries (base + 0x18000) bad (engineEntries (c.cq.toList.map (fun q => q.head.toNat))) }
  let s2 : State := { s1 with mem := s1.mem.moveRange (granaryPa ep w.base.toNat) (base + 0x1C000) size }
  let c1 : Core := ({ c with
    copies := c.copies.filter (fun k => !mine k), mq := if w.eset then [] else c.mq, tampered := if w.eset then [] else c.tampered }).mend (fun _ y => ours y)
  let c2 := (c.copies.filter mine).foldl (fun (c : Core) k => c.countRefs k.refs false) c1
  let s3 := (s2.setCore ep c2).releaseCrew ep w
  match s3.launch? w.home w.lid with
  | some l => s3.setLaunch { l with evicted := l.evicted ++ [e] }
  | none => s3

/-- A copy command stands stopped by a fault. -/
def Core.stopped (c : Core) (id : Nat) : Bool := c.copies.any (fun k => k.id = id && k.phase = .stopped)

/-- A thread that has ended keeps its context beside a crew parked in place: it waits for stopped copies alone (R36, R295). -/
def Thread.staysFor (t : Thread) (c : Core) (mode : BitVec 4) : Bool :=
  mode ≠ 1 && !t.pend.isEmpty && t.pend.all (fun p => match p.kind with | .copy id => c.stopped id | _ => false)

/-- A crew may be saved: what its threads issued is done and acknowledged but for matrix commands that have not started or are stopped, and for
an eviction no copy of it has started or is owed (R46, R47, R249). A push that waits behind a held instruction
goes with it (R28). A stream error must have been resolved (R291); a stopped copy's pending result holds up no
park-in-place, nor does a thread that has ended and waits for it alone (R36, R295). -/
def State.savable (s : State) (ep : Ep) (w : Crew) (mode : BitVec 4) : Bool :=
  let c := s.core ep
  (c.crewCtx w).all (fun x =>
    let t := vget x c.threads
    (!t.quitting || t.staysFor c mode) && s.sessionsQuiet ep x && t.outstanding.all (fun o => o.kind ≠ 4) && t.pend.all (fun p => match p.kind with
      | .matrix _ _ => true
      | .copy id => mode ≠ 1 && c.stopped id
      | .later => t.behindHeld p
      | _ => false))
    && w.owed.isEmpty && (mode ≠ 1 || c.copies.all (fun k => !(k.home = w.home && k.lid = w.lid) || k.phase = .queued))
    && c.mq.all (fun m => !(m.home = w.home && m.lid = w.lid) || m.phase ≠ .running)

/-- The sessions of a crew's threads are closed, as many as the close store has room for (R66, R303). -/
def State.closeCrew (s : State) (ep : Ep) (w : Crew) : State := ((s.core ep).crewCtx w).foldl (fun (s : State) x => s.closeAll ep x) s

/-- A session of a crew's thread is open. -/
def Core.crewOpen (c : Core) (w : Crew) : Bool := (c.crewCtx w).any (fun x => (vget x c.threads).hasOpen)

/-- A crew whose work has drained is saved: its contexts, and in an eviction its engine set and its allocation (R46, R47). One parked in place with no thread
left to restore goes on with its queued commands (R257). (DESIGN CHOICE, notes/assumptions/100.md.) -/
def State.saveCrew (s : State) (ep : Ep) (w : Crew) (mode : BitVec 4) (frame : Nat) : State :=
  let who := ((s.core ep).crewCtx w).filter (fun x => !(s.thr ep x).quitting)
  let s1 := ((List.range who.length).zip who).foldl (fun (s : State) x => s.saveThread ep x.2 w mode frame x.1) s
  if mode = 1 then s1.evictCrew ep w frame
  else
    let kept := (s1.launch? w.home w.lid).any (fun l => l.saved.any (fun x => x.place = some ep))
    s1.setCore ep ((s1.core ep).setCrew { w with preempt := none, parkedIn := kept, written := [] })

/-- Bytes of a frame (R286). -/
def Package.frameSize (k : Package) : Nat := (fld k.psfsz 0 24).toNat * 65536

/-- Some dwords of a crew's frame are written ahead of the rest of its save, each as one event, with what the save would write now (R59). -/
def State.writeAhead (s : State) (ep : Ep) (w : Crew) (mode : BitVec 4) (frame : Nat) (parts : List Nat) : State :=
  let k := s.pkg (epPkg ep)
  let image := (s.saveCrew ep w mode frame).mem
  let at_ := (parts.filter (fun i => decide (8 * i < k.frameSize))).map (fun i => k.frameAt frame + 8 * i)
  let now := (at_.filter (fun a => w.written.all (fun x => x.pa ≠ a))).map image.capture
  let s1 := s.setCore ep ((s.core ep).setCrew { w with written := w.written ++ now })
  { s1 with mem := s1.mem.putAll now }

/-- What the rest of a save leaves alone: the dwords it has written ahead, but for those of a record that the crew's state has changed since. -/
def Crew.standing (w : Crew) (image : Memory) (allocation : Nat) : List FrameDword :=
  w.written.filter (fun x => decide (allocation ≤ x.pa) || image.capture x.pa = x)

/-- CREW_SAVE: a stopped crew whose work has drained is saved, once its sessions are closed; full/empty waits that have reached their homes since are withdrawn
first (R46, R47, R66, R286). An event that names dwords of the frame by `ev.parts` writes these alone; one that names none writes what is left and ends the save
(R59). -/
def execCrewSave (s : State) : Out :=
  let a := s.ev
  .next (match (s.core a.ep).crew? (epPkg a.ep) a.lid with
    | none => s
    | some w =>
      match w.preempt with
      | none => s
      | some (mode, frame) =>
        let s1 := s.stopCrew a.ep w
        if !s1.savable a.ep w mode then s1
        else
          let s1 := s1.closeCrew a.ep w
          if (s1.core a.ep).crewOpen w then s1
          else if !a.parts.isEmpty then s1.writeAhead a.ep w mode frame a.parts
          else
          let s2 := s1.saveCrew a.ep w mode frame
          let stands := w.standing s2.mem ((s1.pkg (epPkg a.ep)).frameAt frame + 0x1C000)
          let s3 : State := { s2 with mem := s2.mem.putAll (stands.map (fun x => s1.mem.capture x.pa)) }
          (s3.freeFrame (epPkg a.ep) frame).preemptDone a.ep a.lid)

/-- CREW_RELEASE (R32); a PREEMPT that waits for frames to save the crew has nothing left to do (R286). -/
def execCrewRelease (s : State) : Out :=
  let a := s.ev
  .next (match (s.core a.ep).crew? a.pkg a.lid with
    | some w => if s.crewIdle a.ep w then (s.releaseCrew a.ep w).retryPreempt a.pkg else s
    | none => s)

end Sys2Proof.Machine
end

