-- ==== Sys2Proof/Machine/FullEmpty.lean ====
section
/-! DEFINITION. Full/empty operations: major FE (R57, R179 to R181). -/

namespace Sys2Proof.Machine

/-- The limit in force of a bounded wait: the low word of the limit register, or WLIM when that is 0 (R45). -/
def Thread.limitOf (t : Thread) (x : Dword) : Nat := if x.toNat % 2 ^ 32 = 0 then t.wlim.toNat % 2 ^ 32 else x.toNat % 2 ^ 32

/-- A full/empty operation with its operands read: `data` its value or threshold, `limit` 0 when it waits without limit. -/
def State.feAt (s s1 : State) (op : MemOp) (va : Dword) (data limit : Nat) (la : BitVec 4) (dest : Dest) (port : Reg) : State :=
  match s.me.addressStop va 8 8 with
  | some r => s.stopAtIssue r
  | none =>
    match s.reached s1 va .atomic dest with
    | .error s2 => s2
    | .ok (pa, s2) =>
      if !paHasFe pa then s.homeFault va .atomic
      else
        match s.ownStall pa 8 with
        | some s3 => s3
        | none =>
          match s2.reserve port with
          | .error e => s.stall e
          | .ok s3 =>
            let req : MemReq := { op := op, va := va, pa := pa, size := 8, data := data }
            let lanes : List Lane := [{ req := req, stage := startStage s.issue.ep pa }]
            if s.closeStall lanes then s.park .fill .closeStore
            else s3.issueAccess { s3.pendingOf .access dest la.toNat lanes with limit := limit }

/-- A take or read with a limit register (R180, R181). -/
def State.feBounded (s : State) (op : MemOp) (o : OpFeWait) : State :=
  match s.shadowStall with
  | some e => s.stall e
  | none =>
    match s.operands [o.b, o.c] [o.d] with
    | .error e => s.stall e
    | .ok (xs, s1) => s.feAt s1 op (xs.headD 0) 0 (s.me.limitOf (xs.getD 1 0)) o.la (s1.me.destOf o.d) o.d

/-- A put or fill of a register's value (R180). -/
def State.fePut (s : State) (op : MemOp) (o : OpFe) : State :=
  match s.shadowStall with
  | some e => s.stall e
  | none =>
    match s.operands [o.d, o.b] [] with
    | .error e => s.stall e
    | .ok (xs, s1) => s.feAt s1 op (xs.getD 1 0) (xs.headD 0).toNat 0 o.la .none 0

/-- `ldf` (R180). -/
def execLdf (o : OpFeWait) (s : State) : Out := .next (s.feBounded .ldf o)

/-- `ldff` (R180). -/
def execLdff (o : OpFeWait) (s : State) : Out := .next (s.feBounded .ldff o)

/-- `stf` (R180). -/
def execStf (o : OpFe) (s : State) : Out := .next (s.fePut .stf o)

/-- `stff` (R180). -/
def execStff (o : OpFe) (s : State) : Out := .next (s.fePut .stff o)

/-- `sete` (R180). -/
def execSete (o : OpFeAddr) (s : State) : Out :=
  .next (match s.shadowStall with
    | some e => s.stall e
    | none =>
      match s.operands [o.b] [] with
      | .error e => s.stall e
      | .ok (xs, s1) => s.feAt s1 .sete (xs.headD 0) 0 0 o.la .none 0)

/-- `qfe` (R180). -/
def execQfe (o : OpFe) (s : State) : Out :=
  .next (match s.shadowStall with
    | some e => s.stall e
    | none =>
      match s.operands [o.b] [o.d] with
      | .error e => s.stall e
      | .ok (xs, s1) => s.feAt s1 .qfe (xs.headD 0) 0 0 o.la (s1.me.destOf o.d) o.d)

/-- `waita` (R180). -/
def execWaita (o : OpFeWait) (s : State) : Out :=
  .next (match s.shadowStall with
    | some e => s.stall e
    | none =>
      match s.operands [o.b, o.c] [o.d] with
      | .error e => s.stall e
      | .ok (xs, s1) => s.feAt s1 .waita (xs.headD 0) (xs.getD 1 0).toNat 0 o.la (s1.me.destOf o.d) o.d)

end Sys2Proof.Machine
end

