-- ==== Sys2Proof/Machine/Gather.lean ====
section
/-! DEFINITION. Gathers and scatters: major GS (R177, R178). -/

namespace Sys2Proof.Machine

/-- The lanes a gather or scatter accesses, with their addresses (R178). -/
def State.gsLanes (s : State) (o : OpGs) (base : Dword) (n size : Nat) : List (Nat × Dword) :=
  let t := s.me
  let ix := t.getV o.i
  ((List.range n).filter (fun l => o.m = 0 || (t.getK (o.m.setWidth 3)).getLsbD l)).map
    (fun l => (l, base + BitVec.ofInt 64 (sextN (laneN 32 ix l) 32 * size)))

/-- Translates the lanes of a gather or scatter, lowest first (R178). -/
def State.gsReach (s s1 : State) (a : Access) (dest : Dest) : List (Nat × Dword) → Except State (List (Nat × Dword × Nat) × State)
  | [] => .ok ([], s1)
  | (l, va) :: r =>
    match s.reached s1 va a dest with
    | .error e => .error e
    | .ok (pa, s2) =>
      match s.gsReach s2 a dest r with
      | .error e => .error e
      | .ok (xs, s3) => .ok ((l, va, pa) :: xs, s3)

/-- A gather, or a scatter of the lanes of the data vector (R178); the alignment and the bound of every active lane come before any translation.
(DESIGN CHOICE, notes/assumptions/92.md.) -/
def State.gs (s : State) (o : OpGs) (n size : Nat) (store : Bool) : State :=
  match s.shadowStall with
  | some e => s.stall e
  | none =>
    match s.operandsV [o.b] [] [o.v, o.i] with
    | .error e => s.stall e
    | .ok (xs, s1) =>
      let want := s.gsLanes o (xs.headD 0) n size
      match want.findSome? (fun w => s.me.addressStop w.2 size size) with
      | some r => s.stopAtIssue r
      | none =>
        let dest : Dest := if store then .none else .vec o.v size
        match s.gsReach s1 (if store then .write else .read) dest want with
        | .error s2 => s2
        | .ok (at_, s2) =>
          let lanes : List Lane := at_.map (fun w =>
            { lane := w.1, stage := startStage s.issue.ep w.2.2,
              req := { op := if store then .store else .load, va := w.2.1, pa := w.2.2, size := size,
                       data := if store then laneN (8 * size) (s.me.getV o.v) w.1 else 0 } })
          match s.ownStalls lanes with
          | some s3 => s3
          | none =>
            if s.closeStall lanes then s.park .fill .closeStore
            else s2.issueAccess (s2.pendingOf .access dest o.la.toNat lanes)

/-- `vgld.w` (R177, R178). -/
def execVgldW (o : OpGs) (s : State) : Out := .next (s.gs o 16 4 false)

/-- `vgld.d` (R177, R178). -/
def execVgldD (o : OpGs) (s : State) : Out := .next (s.gs o 8 8 false)

/-- `vgst.w` (R177, R178). -/
def execVgstW (o : OpGs) (s : State) : Out := .next (s.gs o 16 4 true)

/-- `vgst.d` (R177, R178). -/
def execVgstD (o : OpGs) (s : State) : Out := .next (s.gs o 8 8 true)

end Sys2Proof.Machine
end

