-- ==== Sys2Proof/Machine/PacketSteps.lean ====
section
/-! DEFINITION. Packets at their destination: reads, and the operations of sessions, which commit exactly once and in stream order (R51,
R59, R61, R66, R67, R172, R173, R185, R190, R193, R299, R302, R303, R314). Each event names its packet by its place `ev.n` in the
network, and the dwords it performs by `ev.parts`, all when none is named. -/

namespace Sys2Proof.Machine

/-! ## A packet at its destination -/

/-- Flits of a packet: its header and its payload (R296). -/
def Packet.flits (p : Packet) : Nat := 1 + (p.len.toNat + 31) / 32

/-- The packet an event names, once it is at the package of its destination, no port holds it, its lifetime is not over, and the bridge may pass it. A
halted package takes none (R8, R302, R326). (DEDUCED, notes/assumptions/7.md.) -/
def State.arrived (s : State) (t : PType) : Option Packet :=
  (s.net[s.ev.n]?).filter (fun p =>
    p.type = t && p.via.isNone && s.isHome p && !s.expired p && s.mayCross s.ev.n p && !(s.pkg p.at_).halted)

/-- The flits a packet held in the input port it came by are free, and credits for them are owed to the sender (R300). -/
def State.freeBuffer (s : State) (p : Packet) : State :=
  let k := s.pkg p.at_
  let w := k.port p.inPort
  if p.inPort.toNat < 14 then
    s.setPkg p.at_ (k.setPort p.inPort { w with owed := w.owed.setIfInBounds p.vn.toNat (w.owed.toList.getD p.vn.toNat 0 + p.flits) })
  else s

/-- The event's packet leaves the network. -/
def State.consumed (s : State) (p : Packet) : State := ({ s with net := s.net.eraseIdx s.ev.n }).freeBuffer p

/-- A package injects a packet that its own units did not source: the source named in it may be another, and it is on the die where it is needed
(R304, R306). -/
def State.injectAt (s : State) (g : Pkg) (p : Packet) : State :=
  let k := s.pkg g
  { s with net := s.net ++
    [{ p with bank := k.rtAct, hops := 0, at_ := g, via := none, vn := packetVn k p, inPort := 14, born := s.dieTime p.dst, crossed := true }] }

/-- The packet belongs to a session whose destination answers it (R66, R299). -/
def Packet.inSession (p : Packet) : Bool :=
  match p.type with
  | .write | .atomic | .signal | .msg | .close => true
  | _ => false

/-- LEN is within the type's range (R299). -/
def Packet.lenOk (p : Packet) : Bool :=
  let n := p.len.toNat
  match p.type with
  | .read | .ack | .nack | .close | .drain => n = 0
  | .rdata | .write => 8 ≤ n && n ≤ 256
  | .atomic => n = 8 || n = 16
  | .signal | .aval => n = 8
  | .msg => 16 ≤ n && n ≤ 40
  | .mgmt => n ≤ 256

/-- A packet its receiver does not use: a failing ECRC, a reserved VN, a LEN out of range, or an operation no ATOMIC has (R299). -/
def Packet.malformed (p : Packet) : Bool :=
  p.bad || 5 ≤ p.vn.toNat || !p.lenOk || (p.type = .atomic && p.req.isNone) ||
    (p.type = .read && (p.auxf.toNat % 8 ≠ 0 || p.auxf.toNat < 8 || 256 < p.auxf.toNat))

/-- Device requests to host memory that may await their completion (R310). -/
def Package.hostRoom (k : Package) : Bool := decide (k.hostReqs.length < 4096)

/-- A refusal (R302), which names the read it refuses in its note. (DEDUCED, notes/assumptions/46.md.) -/
def nackOf (p : Packet) (reason : Nat) (poisoned : Bool) : Packet :=
  { type := .nack, dst := p.src, src := p.dst, ctx := p.ctx, str := p.str, cqe := p.cqe, epoch := p.epoch,
    op := BitVec.ofNat 7 reason, auxf := p.seq.setWidth 32, pmask := BitVec.ofNat 32 (b2n poisoned),
    note := if p.type = .read then p.note / 2 ^ 32 else 0 }

/-- A value, or a home's word that a wait is over, is lost on its way: the home sends it again (notes/assumptions/15.md). -/
def State.lose (s : State) (p : Packet) : State :=
  if p.type = .aval || (p.type = .ack && p.note ≠ 0) then s.inject { p with bad := false, inPort := 14, since := 0, crossed := false, out := 0 } else s

/-- A packet its receiver does not use: counted at the port it came by, refused if it has a session, else discarded (R299). -/
def State.reject (s : State) (p : Packet) : State :=
  let s1 := s.consumed p
  let k := s1.pkg p.at_
  let w := k.port p.inPort
  let s2 := if p.inPort.toNat < 14 then s1.setPkg p.at_ (k.setPort p.inPort { w with errors := w.errors + 1 }) else s1
  if p.inSession then s2.inject (nackOf p 3 false) else s2.lose p

/-! ## READ (R59, R61, R314) -/

/-- The dwords of a READ or a WRITE. -/
def Packet.dwords (p : Packet) : List Nat :=
  (List.range ((if p.type = .read then p.auxf.toNat else p.len.toNat) / 8)).map (fun i => p.pa.toNat + 8 * i)

/-- A READ with one more dword performed: its value, its mark, and a note of it among the enables. -/
def Packet.readDword (m : Memory) (p : Packet) (i : Nat) : Packet :=
  let dw := p.pa.toNat + 8 * i
  if p.be.getLsbD i || p.auxf.toNat ≤ 8 * i then p
  else
    { p with
      payload := p.payload + m.read dw 8 * 2 ^ (64 * i), be := p.be ||| BitVec.ofNat 256 (2 ^ i),
      pmask := if m.poisoned dw then p.pmask ||| BitVec.ofNat 32 (2 ^ i) else p.pmask }

/-- The data of a READ (R299). -/
def Packet.rdata (p : Packet) : Packet :=
  { type := .rdata, dst := p.src, src := p.dst, ctx := p.ctx, len := p.auxf.setWidth 9, payload := p.payload, pmask := p.pmask,
    note := p.note / 2 ^ 32 }

/-- Every dword of a READ is performed. -/
def Packet.allRead (p : Packet) : Bool := (List.range (p.auxf.toNat / 8)).all (fun i => p.be.getLsbD i)

/-- READ: dwords are performed at the home, and when all are, their data goes back; a read of host memory goes to the host, once that has fewer than
4,096 requests to answer (R310). -/
def execRead (s : State) : Out :=
  .next (match s.arrived .read with
    | none => s
    | some p =>
      if p.malformed then s.reject p
      else if paRegion p.pa.toNat = .host then
        let s1 := s.consumed p
        let k := s1.pkg p.at_
        if k.hostRoom then s1.setPkg p.at_ { k with hostReqs := k.hostReqs ++ [{ pkt := p }] } else s
      else
        let p1 := (s.ev.chosen (p.auxf.toNat / 8)).foldl (fun (p : Packet) i => p.readDword s.mem i) p
        if p1.allRead then (s.consumed p).inject p1.rdata else { s with net := s.net.set s.ev.n { p1 with crossed := true } })

/-! ## Performing the operations of a session -/

/-- The mark a WRITE gives a dword: copy payload carries its source's, a dword written whole loses its own, a part leaves it (R173, R281). -/
def Packet.markAt (p : Packet) (i : Nat) : Option Bool :=
  if p.str = 8 && p.pmask.getLsbD i then some true else if p.note.testBit i then some false else none

/-- Writes the enabled bytes of one dword of a WRITE. -/
def State.writeAt (s : State) (p : Packet) (i : Nat) : State :=
  let dw := p.pa.toNat + 8 * i
  let own := if homeEp dw = p.src then some p.ctx else none
  s.writeDword own dw (enabledCells p.pa.toNat p.len.toNat p.be p.payload dw) (p.markAt i)

/-- Every dword of a combined operation, as one event (R67). -/
def State.writeWhole (s : State) (p : Packet) : State :=
  let n := List.range p.dwords.length
  let s1 := n.foldl (fun (s : State) i => s.writeAt p i) s
  p.dwords.foldl (fun (s : State) dw => s.serve dw) s1

/-- The pending result and the lane that a key names (notes/assumptions/8.md). -/
def keyOf (key : Nat) : Nat × Nat := ((key - 1) / 64, (key - 1) % 64)

/-- How an operation that is next in its session ends: committed with its answers, not yet over, or refused with one. -/
inductive Effect where
  | committed (out : List Packet)
  | partial_
  | refused (answer : Packet)
  deriving DecidableEq, Repr

/-- An ATOMIC or SIGNAL at its home. A streamed one that meets poison is not committed: its stream blocks (R172, R186). One that waits is
committed with its wait, one refused a waiter entry is sent anew later (R58; notes/assumptions/15.md). -/
def State.performAtomic (s : State) (p : Packet) (r : MemReq) : State × Effect :=
  let key := p.note / 2 ^ 32
  let value := p.type = .atomic && p.op.getLsbD 0
  let (s1, a) := s.arrive none
    { pa := r.pa, req := r, ep := p.src, ctx := p.ctx, pend := (keyOf key).1, lane := (keyOf key).2, pkt := some p }
  match a with
  | .performed got poisoned =>
    if poisoned && p.str ≠ 0 then (s, .refused (nackOf p 0 true))
    else if value then (s1, .committed [avalOf p got poisoned, ackOf p 0 false])
    else (s1, .committed [ackOf p key poisoned])
  | .waits => (s1, .committed [ackOf p 0 false])
  | .refused => (s, .committed [{ ackOf p key false with be := 1 }])

/-- The header and payload of a MSG. -/
def Packet.message (p : Packet) : Dword × List Dword :=
  let l := (unpackNats 64 (p.len.toNat / 8) p.payload).map (fun x => BitVec.ofNat 64 x)
  (l.headD 0, l.drop 1)

/-- The core and context that hold a thread. -/
def State.whereIs (s : State) (key : Nat) (lti : BitVec 24) : Option (Ep × Ctx) :=
  s.contexts.find? (fun w =>
    let t := s.thr w.1 w.2
    t.status ≠ .free && !t.quitting && launchKey t.home t.lid = key && t.lti = lti)

/-- A slot that a SAVED thread's record names on a core is reserved no more, for the reply that frees it stands in the spill queue (R193, R288, R290). -/
def State.unreserve (s : State) (l : Launch) (lti : BitVec 24) (ep : Ep) (slot : Nat) : State :=
  match l.saved.find? (fun x => x.lti = lti) with
  | some w => if fld (s.peekDword (w.pa + 0xA10)) 0 22 = ep then s.amendDword (w.pa + 0xA08) (fun x => setFld x slot 1 0) else s
  | none => s

/-- A reply at the core that reserved its slot: into the slot, whichever thread of the launch holds it, into the spill queue of a SAVED thread,
forwarded once to a thread restored elsewhere, or discarded, as is one for a slot that holds a reply already; none, which refuses the packet, when the
slots of the core it is forwarded to are all reserved (R190, R193). (DESIGN CHOICE, notes/assumptions/77.md, notes/assumptions/101.md.) -/
def State.receiveReply (s : State) (ep : Ep) (key slot : Nat) (m : Dword × List Dword) (marked : Bool) : Option State :=
  let c := s.core ep
  let w := c.replies.toList.getD slot {}
  match w.owner, w.saved with
  | some o, _ =>
    let t := s.thr ep o
    if launchKey t.home t.lid = key && w.msg.isNone then some (s.fillSlot ep slot o m marked) else some s
  | none, some (k, lti) =>
    if k ≠ key then some s
    else
      let s1 := s.setCore ep (c.setSlot slot {})
      match s.launches.find? (fun l => launchKey l.home l.lid = key && l.saved.any (fun x => x.lti = lti)) with
      | some l => some ((s1.unreserve l lti ep slot).spillMarked l lti (0 :: m.1 :: m.2) marked)
      | none =>
        match s.whereIs key lti with
        | none => some s1
        | some (e, x) => ((s.core e).freeSlot).map (fun i => s1.fillSlot e i x m marked)
  | none, none => some s

/-- A message at its destination core: a request enters an entry of the inbox, in error when the packet marks a dword (R283); one for a launch that is
over is discarded (R187, R190, R193). -/
def State.receive (s : State) (p : Packet) : Option State :=
  let m := p.message
  let key := p.note / 2 ^ 10
  if bitOf m.1 33 then s.receiveReply p.dst key (p.note / 2 ^ 4 % 64) m (p.pmask ≠ 0)
  else
    let c := s.core p.dst
    if !s.launches.any (fun l => launchKey l.home l.lid = key) then some s
    else if 64 ≤ c.inbox.length then none
    else
      let entry := freeEntry (c.inbox.map InMsg.entry)
      let c1 : Core := { c with
        inbox := c.inbox ++ [{ header := m.1, payload := m.2, lid := key, id := c.msgSeq, entry := entry }], msgSeq := c.msgSeq + 1 }
      some (s.setCore p.dst ((c1.mendCode (regCode 6 0 entry)).spoil (regCode 6 0 entry) (p.pmask ≠ 0)))

/-- The operation of a packet that is next in its session, CLOSE and host atomics apart; `parts` are the dwords of a WRITE done now. -/
def State.perform (s : State) (e : Entry) (p : Packet) (parts : List Nat) : State × Entry × Effect :=
  match p.type with
  | .write =>
    let n := p.dwords.length
    if p.str ≠ 0 && p.str ≠ 8 then (s.writeWhole p, e, .committed [ackOf p 0 false])
    else
      let todo := parts.filter (fun i => decide (i < n) && !e.done.contains i)
      let s1 := todo.foldl (fun (s : State) i => (s.writeAt p i).serve (p.pa.toNat + 8 * i)) s
      let done := todo.foldl (fun l i => natSet l i true) e.done
      (s1, { e with done := done }, if n ≤ done.length then .committed [ackOf p 0 false] else .partial_)
  | .msg =>
    match s.receive p with
    | some s1 => (s1, e, .committed [ackOf p 0 false])
    | none => (s, e, .refused (nackOf p 4 false))
  | _ =>
    match p.req with
    | some r => let w := s.performAtomic p r; (w.1, e, w.2)
    | none => (s, e, .refused (nackOf p 3 false))

/-! ## The stream table (R66, R303) -/

/-- Entries of a destination's stream table, and packets of its reorder store. -/
def tableRoom (ep : Ep) : Nat × Nat := if epIsCore ep then (256, 32) else (4096, 256)

/-- The stream table of an endpoint. -/
def State.table (s : State) (ep : Ep) : List Entry := Assoc.get s.tables ep.toNat []

/-- Replaces a stream table. -/
def State.setTable (s : State) (ep : Ep) (l : List Entry) : State := { s with tables := Assoc.set s.tables ep.toNat l }

/-- An entry is the one of a packet's session: CQE counts when STR is 8 (R297). -/
def Entry.isOf (e : Entry) (p : Packet) : Bool :=
  e.src = p.src && e.ctx = p.ctx && e.str = p.str && (p.str ≠ 8 || e.cqe = p.cqe)

/-- The entry of a packet's session. -/
def State.entry? (s : State) (p : Packet) : Option Entry := (s.table p.dst).find? (fun e => e.isOf p)

/-- Stores the entry of a packet's session, with the time at which a packet of it last came. -/
def State.putEntry (s : State) (p : Packet) (e : Entry) : State :=
  let l := s.table p.dst
  let e1 := { e with lastRx := s.dieCyc p.dst }
  s.setTable p.dst (if l.any (fun x => x.isOf p) then l.map (fun (x : Entry) => if x.isOf p then e1 else x) else l ++ [e1])

/-- A packet of an entry's session has come that leaves the entry as it is (R303). -/
def State.touch (s : State) (p : Packet) : State :=
  match s.entry? p with
  | some e => s.putEntry p e
  | none => s

/-- A new session's entry. -/
def Packet.newEntry (p : Packet) : Entry :=
  { src := p.src, ctx := p.ctx, str := p.str, cqe := p.cqe, epoch := p.epoch, expected := p.seq }

/-- What the tables of R66 and R303 do with an arriving operation. -/
inductive Verdict where
  | commit (e : Entry)
  | hold (e : Entry)
  | again
  | abandon (e : Entry)
  | refuse (reason : Nat)
  | discard
  deriving DecidableEq, Repr

/-- Whether the reorder store of an endpoint has room. -/
def State.reorderRoom (s : State) (ep : Ep) : Bool :=
  decide (((s.table ep).map (fun (e : Entry) => e.held.length)).sum < (tableRoom ep).2)

/-- An operation of an open session's epoch, by how far it lies from the expected number; one farther ahead than 127 and farther behind than 128 is
discarded. (DESIGN CHOICE, notes/assumptions/59.md.) -/
def State.verdictOpen (s : State) (e : Entry) (p : Packet) : Verdict :=
  let ahead := seqAhead p.seq e.expected
  let behind := seqAhead e.expected p.seq
  if p.type = .close && p.abn then .abandon e
  else if ahead = 0 then .commit e
  else if ahead ≤ 127 then
    (if e.held.any (fun h => h.seq = p.seq && h.type = p.type) then .discard
     else if s.reorderRoom p.dst then .hold e else .refuse 1)
  else if behind ≤ 128 then .again
  else .discard

/-- The row of R66 and R303 that an arriving operation meets; a CLOSE with ABN that comes before any operation of its session leaves a closed entry, so
that nothing of it commits; so does one that meets a closed entry of the other epoch. (DEDUCED, notes/assumptions/36.md.) -/
def State.verdict (s : State) (p : Packet) : Verdict :=
  match s.entry? p with
  | none =>
    if p.opn then (if (s.table p.dst).length < (tableRoom p.dst).1 then .commit p.newEntry else .refuse 2)
    else if p.type = .close && !p.abn then .again
    else if p.type = .close then (if (s.table p.dst).length < (tableRoom p.dst).1 then .abandon p.newEntry else .refuse 2)
    else .refuse 6
  | some e =>
    if e.epoch = p.epoch then (if e.isOpen then s.verdictOpen e p else .again)
    else if p.opn then .commit p.newEntry
    else if p.type = .close && p.abn && !e.isOpen then .abandon p.newEntry
    else if e.isOpen || p.type = .close then .again
    else .refuse 6

/-- The expected number advances past a committed operation. -/
def Entry.advance (e : Entry) (p : Packet) : Entry :=
  { e with expected := e.expected + 1, done := [], busy := false, held := e.held.filter (fun h => !(h.seq = p.seq && h.type ≠ .close)) }

/-- A session closes: nothing further commits on it, and what it holds is dropped (R303). -/
def Entry.close (e : Entry) (now : Nat) : Entry := { e with isOpen := false, held := [], done := [], busy := false, since := now }

/-- What a commit gives: the state, the entry, the answers to send, and whether the packet stays for its remaining dwords. -/
structure Commit where
  st : State
  entry : Entry
  out : List Packet := []
  keep : Bool := false
  deriving DecidableEq, Repr

/-- An ATOMIC on host memory, performed by the host, once fewer than 4,096 requests await it (R71, R310, R314). -/
def Packet.hostAtomic (p : Packet) : Bool := p.type = .atomic && paRegion p.pa.toNat = .host

/-- Commits the operation that is next in its session. -/
def State.commitOne (s : State) (e : Entry) (p : Packet) (parts : List Nat) : Commit :=
  if p.type = .close then { st := s, entry := e.close (s.dieCyc p.dst), out := [ackOf p 0 false] }
  else if p.hostAtomic then
    if e.busy then { st := s, entry := e }
    else if !(s.pkg (epPkg p.dst)).hostRoom then { st := s, entry := e, keep := true }
    else
      let k := s.pkg (epPkg p.dst)
      { st := s.setPkg (epPkg p.dst) { k with hostReqs := k.hostReqs ++ [{ pkt := p }] }, entry := { e with busy := true } }
  else
    match s.perform e p parts with
    | (s1, e1, .committed out) => { st := s1, entry := e1.advance p, out := out }
    | (s1, e1, .partial_) => { st := s1, entry := e1, keep := true }
    | (s1, e1, .refused x) => { st := s1, entry := e1, out := [x] }

/-- Commits held packets that have become next, in order. A WRITE whose dwords are separate events goes back to the network at its
destination to be performed there; a refused one is sent again by its source (R59, R66). -/
def State.drainHeld (w : Commit) : Nat → Commit
  | 0 => w
  | n + 1 =>
    match w.entry.held.find? (fun h => h.seq = w.entry.expected) with
    | none => w
    | some h =>
      let e := { w.entry with held := w.entry.held.filter (fun x => x ≠ h) }
      if !w.entry.isOpen || (h.hostAtomic && !(w.st.pkg (epPkg h.dst)).hostRoom) then w
      else if h.type = .write && (h.str = 0 || h.str = 8) then
        { w with st := { w.st with net := w.st.net ++ [{ h with inPort := 14, via := none, at_ := epPkg h.dst, born := w.st.dieTime h.dst, crossed := true }] }, entry := e }
      else
        let c := w.st.commitOne e h []
        let w1 : Commit := { c with out := w.out ++ c.out }
        if c.entry.expected = w.entry.expected then w1 else State.drainHeld w1 n

/-- An acknowledgement that names nothing but a sequence number. -/
def Packet.plainAck (p : Packet) : Bool := p.type = .ack && p.note = 0

/-- A plain acknowledgement covers every earlier one (R299). -/
def mergeAcks : List Packet → List Packet
  | [] => []
  | p :: r => if p.plainAck && r.any (fun q => q.type = .ack) then mergeAcks r else p :: mergeAcks r

/-- Sends several packets. -/
def State.injectAll (s : State) (l : List Packet) : State := l.foldl (fun (s : State) p => s.inject p) s

/-- An operation of a session arrives (R66, R299, R303). -/
def State.sessionPacket (s : State) (t : PType) : State :=
  match s.arrived t with
  | none => s
  | some p =>
    if p.malformed then s.reject p
    else
      match s.verdict p with
      | .discard => (s.consumed p).touch p
      | .again => ((s.consumed p).touch p).inject (ackOf p 0 false)
      | .refuse reason => ((s.consumed p).touch p).inject (nackOf p reason false)
      | .abandon e => ((s.consumed p).putEntry p (e.close (s.dieCyc p.dst))).inject (ackOf p 0 false)
      | .hold e => (s.consumed p).putEntry p { e with held := e.held ++ [p] }
      | .commit e =>
        let c := s.commitOne e p (s.ev.chosen p.dwords.length)
        if c.keep then ({ c.st with net := c.st.net.set s.ev.n { p with crossed := true } }).putEntry p c.entry
        else
          let w := State.drainHeld { c with st := c.st.consumed p } c.entry.held.length
          (w.st.putEntry p w.entry).injectAll (mergeAcks w.out)

/-- WRITE (R59, R66, R67, R173). -/
def execWrite (s : State) : Out := .next (s.sessionPacket .write)

/-- ATOMIC (R66, R180 to R186). -/
def execAtomic (s : State) : Out := .next (s.sessionPacket .atomic)

/-- SIGNAL (R66, R185). -/
def execSignal (s : State) : Out := .next (s.sessionPacket .signal)

/-- MSG (R190). -/
def execMsg (s : State) : Out := .next (s.sessionPacket .msg)

/-- CLOSE (R303). -/
def execClose (s : State) : Out := .next (s.sessionPacket .close)

/-- SESSION_RECLAIM: entry `ev.n` of endpoint `ev.ep` is freed one packet lifetime after closing, or when nothing is held and no packet has
come for two (R303). -/
def execSessionReclaim (s : State) : Out :=
  let a := s.ev
  let now := s.dieCyc a.ep
  .next (match (s.table a.ep)[a.n]? with
    | none => s
    | some e =>
      if (!e.isOpen && e.since + 2 ^ 29 ≤ now) || (e.held.isEmpty && !e.busy && e.lastRx + 2 ^ 30 ≤ now) then
        s.setTable a.ep ((s.table a.ep).eraseIdx a.n)
      else s)

/-! ## Host atomics (R71, R314) -/

/-- The host has answered a session's ATOMIC: it commits, its value or its acknowledgement goes back, and what it held up follows. -/
def State.hostCommit (s : State) (p : Packet) (got : Nat) (poisoned : Bool) : State :=
  match s.entry? p with
  | none => s
  | some e =>
    if !e.isOpen || e.epoch ≠ p.epoch || e.expected ≠ p.seq || !e.busy then s
    else if poisoned && p.str ≠ 0 then (s.putEntry p { e with busy := false }).inject (nackOf p 0 true)
    else
      let out := if p.op.getLsbD 0 then [avalOf p got poisoned, ackOf p 0 false] else [ackOf p (p.note / 2 ^ 32) poisoned]
      let w := State.drainHeld { st := s, entry := e.advance p, out := out } e.held.length
      (w.st.putEntry p w.entry).injectAll (mergeAcks w.out)

end Sys2Proof.Machine
end

