-- ==== Sys2Proof/Machine/LinkSteps.lean ====
section
/-! DEFINITION. Links and routers: headers and flits, routing by bank, credits, replay, retraining, route switches and management packets
(R6, R296 to R301, R304 to R309). Events name a port by `ev.pkg` and `ev.port`, a packet by its place `ev.n`. -/

namespace Sys2Proof.Machine

/-! ## Headers and flits (R296, R297) -/

/-- The TYPE code of a packet. -/
def PType.code : PType → Nat
  | .read => 0
  | .rdata => 1
  | .write => 2
  | .atomic => 3
  | .signal => 4
  | .aval => 5
  | .msg => 6
  | .ack => 7
  | .nack => 8
  | .close => 9
  | .drain => 10
  | .mgmt => 11

/-- The type of a TYPE code; 12 to 15 are reserved. -/
def PType.ofCode (n : Nat) : Option PType :=
  [PType.read, .rdata, .write, .atomic, .signal, .aval, .msg, .ack, .nack, .close, .drain, .mgmt][n]?

/-- The header flit with ECRC zero and the given HOPS. -/
def Packet.header (p : Packet) (hops : Nat) : Nat :=
  p.type.code + p.vn.toNat * 2 ^ 4 + p.bank.toNat * 2 ^ 7 + p.dst.toNat * 2 ^ 8 + p.src.toNat * 2 ^ 30 + p.ctx.toNat * 2 ^ 52 +
    p.str.toNat * 2 ^ 56 + p.seq.toNat * 2 ^ 60 + b2n p.opn * 2 ^ 76 + b2n p.cls * 2 ^ 77 + p.epoch.toNat * 2 ^ 78 + b2n p.abn * 2 ^ 79 +
    p.len.toNat * 2 ^ 80 + p.op.toNat * 2 ^ 89 + p.pa.toNat * 2 ^ 96 + p.pmask.toNat * 2 ^ 150 + p.cqe.toNat * 2 ^ 182 + hops * 2 ^ 187 +
    p.auxf.toNat * 2 ^ 192

/-- The packet a header flit names, without payload and the model's notes. -/
def headerPacket (h : BitVec 256) : Option Packet :=
  (PType.ofCode (fld h 0 4).toNat).map (fun t =>
    { type := t, vn := fld h 4 3, bank := fld h 7 1, dst := fld h 8 22, src := fld h 30 22, ctx := fld h 52 4, str := fld h 56 4, seq := fld h 60 16,
      opn := bitOf h 76, cls := bitOf h 77, epoch := fld h 78 1, abn := bitOf h 79, len := fld h 80 9, op := fld h 89 7, pa := fld h 96 54,
      pmask := fld h 150 32, cqe := fld h 182 5, hops := fld h 187 5, auxf := fld h 192 32 })

/-- The payload flits of a packet. -/
def Packet.payloadFlits (p : Packet) : List Nat := unpackNats 256 (p.flits - 1) (p.payload % 2 ^ (8 * p.len.toNat))

/-- CRC-32C of the flits of a packet whose header has ECRC and HOPS zero (R297). -/
def ecrcOf (flits : List Nat) : Nat := crc32c (flits.flatMap (fun f => unpackNats 8 32 f))

/-- ECRC of a packet. -/
def Packet.ecrc (p : Packet) : Nat := ecrcOf (p.header 0 :: p.payloadFlits)

/-- The flits of a packet (R296). One whose ECRC failed on an earlier link goes on with an ECRC that fails, so that its destination refuses it (R299). -/
def Packet.flitBits (p : Packet) : List (BitVec 256) :=
  let ecrc := if p.bad then 2 ^ 32 - 1 - p.ecrc else p.ecrc
  (BitVec.ofNat 256 (p.header p.hops.toNat + ecrc * 2 ^ 224)) :: p.payloadFlits.map (fun x => BitVec.ofNat 256 x)

/-- The flits of a packet carry the ECRC they should (R299). -/
def ecrcGood (flits : List (BitVec 256)) : Bool :=
  match flits with
  | [] => false
  | h :: r => ecrcOf ((setFld (setFld h 224 32 0) 187 5 0).toNat :: r.map (fun x => x.toNat)) = (fld h 224 32).toNat

/-- A packet put together from its flits: `sent` carries the model's notes. One whose ECRC fails is marked, and keeps the fields sent, by which
the model lets its receiver answer it; a reserved TYPE gives none (R299; notes/assumptions/8.md). -/
def assemble (sent : Packet) (flits : List (BitVec 256)) : Option Packet :=
  if !ecrcGood flits then some { sent with bad := true }
  else
    (headerPacket (flits.headD 0)).map (fun (p : Packet) =>
      { p with payload := packNats 256 ((flits.drop 1).map (fun x => x.toNat)) % 2 ^ (8 * p.len.toNat), be := sent.be, note := sent.note, vas := sent.vas, born := sent.born,
               bad := p.flits ≠ flits.length })

/-- One step of the CRC with polynomial 0x8BB7, the highest bit first. -/
def crc16Step (c : Nat) (bit : Bool) : Nat :=
  let top : Bool := (c.testBit 15) ≠ bit
  Nat.xor (c * 2 % 2 ^ 16) (if top then 0x8BB7 else 0)

/-- CRC-16 over a flit, its link sequence number and its credits (R300; notes/assumptions/21.md). -/
def Flit.crcOf (f : Flit) : BitVec 16 :=
  let x := f.bits.toNat + f.seq.toNat * 2 ^ 256 + f.creditVn.toNat * 2 ^ 268 + f.credits.toNat * 2 ^ 271
  BitVec.ofNat 16 ((List.range 280).foldl (fun c i => crc16Step c (x.testBit (279 - i))) 0)

/-! ## Ports (R6, R298, R300) -/

/-- Flits of a VN that an input port holds. -/
def portBuffer (port : BitVec 4) : Nat := if 12 ≤ port.toNat then 256 else 128

/-- Priority of a VN, 1 the highest (R298). -/
def vnPriority (vn : BitVec 3) : Nat :=
  match vn.toNat with
  | 4 => 1
  | 3 => 2
  | 1 => 3
  | 2 => 4
  | _ => 5

/-- The endpoint that records of source 5 name (R307). -/
def linkEp (g : Pkg) (die : BitVec 1) : Ep := mkEp g die 0x7FF

/-- Credits a port holds for a VN. -/
def Port.credits (w : Port) (vn : BitVec 3) : Nat := w.credit.toList.getD vn.toNat 0

/-- Replaces a port of a package. -/
def State.setPort (s : State) (g : Pkg) (n : BitVec 4) (w : Port) : State := s.setPkg g ((s.pkg g).setPort n w)

/-- A port of a package. -/
def State.port (s : State) (g : Pkg) (n : BitVec 4) : Port := (s.pkg g).port n

/-- The credits the next trailer returns: those owed for the lowest VN that has any. -/
def Port.nextCredits (w : Port) : BitVec 3 × Nat :=
  match (List.range 5).find? (fun i => 0 < w.owed.toList.getD i 0) with
  | some i => (BitVec.ofNat 3 i, min 511 (w.owed.toList.getD i 0))
  | none => (0, 0)

/-- Sends one flit, or a keepalive trailer, and keeps it among the last 1,024 (R300, R301). -/
def Port.emit (w : Port) (bits : BitVec 256) (vn : BitVec 3) (keep : Bool) (whole : Option Packet) : Port :=
  let (cv, n) := w.nextCredits
  let f : Flit := { bits := bits, vn := vn, keep := keep, seq := w.txSeq, creditVn := cv, credits := BitVec.ofNat 9 n, whole := whole }
  let f := { f with crc := f.crcOf }
  { w with
    txSeq := w.txSeq + 1, unheard := w.unheard + 1, lastTx := w.cyc, creditAt := w.cyc, wire := w.wire ++ [f], replay := (w.replay ++ [f]).drop (w.replay.length - 1023),
    owed := w.owed.setIfInBounds cv.toNat (w.owed.toList.getD cv.toNat 0 - n),
    credit := if keep then w.credit else w.credit.setIfInBounds vn.toNat (w.credits vn - 1) }

/-- Sends a packet's next flit on its VN; the last one carries the packet's notes (R296). -/
def Port.sendFlit (w : Port) (p : Packet) : Port :=
  w.emit (p.flitBits.getD p.out 0) p.vn false
    (if p.out + 1 = p.flits then some { p with via := none, since := 0, crossed := false, out := 0 } else none)

/-! ## Routing (R304, R306) -/

/-- What a NACK of reason 5 for a packet carries: one that has no session and is no READ names nothing at its source. -/
def unroutable (p : Packet) : Packet :=
  if p.inSession || p.type = .read then nackOf p 5 false else { nackOf p 5 false with str := 15, cqe := 0, auxf := 0 }

/-- The packet goes back as NACK reason 5, a NACK is discarded; a router posts its record once for each bank, destination and cause, and waits with
the packet while the holding store has no room for it (R277, R306). -/
def State.noRoute (s : State) (p : Packet) (cause : Nat) : State :=
  let g := p.at_
  let s1 := s.consumed p
  let k := s1.pkg g
  let key := (p.bank, epPkg p.dst, cause)
  let die := if p.inPort.toNat < 14 then portDie p.inPort else epDie p.src
  let s2 := if k.noRoute.contains key || !k.recordRoom then s1
    else (s1.setPkg g { k with noRoute := k.noRoute ++ [key] }).postNoThread (linkEp g die)
      { kind := 12, src := 5, aux0 := (epPkg p.dst).setWidth 64, aux1 := p.bank.setWidth 64, aux2 := BitVec.ofNat 64 cause,
        aux3 := p.inPort.setWidth 64 }
  if !k.noRoute.contains key && !k.recordRoom then s
  else if p.type = .nack then s2
  else (s2.injectAt g (unroutable p)).lose p

/-- A packet queued at an output port. -/
def Packet.queuedAt (p : Packet) (g : Pkg) (port : BitVec 4) : Bool := p.at_ = g && p.via = some port

/-- A packet injected in its package under another bank than the one in force, queued or still to be queued for a port and a VN (R305). -/
def Packet.oldAt (p : Packet) (k : Package) (g : Pkg) (port : BitVec 4) (vn : BitVec 3) : Bool :=
  p.at_ = g && 14 ≤ p.inPort.toNat && p.type ≠ .drain && p.bank ≠ k.rtAct && p.vn = vn &&
    (p.via = some port || (p.via.isNone && epPkg p.dst ≠ g && (fld (k.route p.bank (epPkg p.dst)) 0 5).toNat = port.toNat))

/-- A packet queued for an output port has waited 2^16 port cycles since it came to the router, or since the link came up (R302). -/
def Port.overdue (w : Port) (p : Packet) : Bool := decide (max p.since w.upAt + 2 ^ 16 ≤ w.cyc)

/-- How far the turn of an input is on a VN of an output port, which serves its inputs round-robin (R298). -/
def Port.turn (w : Port) (vn : BitVec 3) (input : Nat) : Nat := (input + 15 - (w.served.toList.getD vn.toNat 15).toNat) % 16

/-- The first packet that an input holds for an output port on a VN. -/
def State.firstOf (s : State) (g : Pkg) (port : BitVec 4) (vn : BitVec 3) (input : Nat) : Option Packet :=
  s.net.find? (fun q => q.queuedAt g port && q.vn = vn && q.inPort.toNat = input)

/-- The packet of a VN of an output port whose sending has begun: it is finished before another starts there (R298). -/
def State.begun (s : State) (g : Pkg) (port : BitVec 4) (vn : BitVec 3) : Option Packet :=
  s.net.find? (fun q => q.queuedAt g port && q.vn = vn && 0 < q.out)

/-- A packet queued for an output port may be sent there, but for its VN's turn and credits: a DRAIN has no old packet before it, and 2^16 port cycles
have not gone by since it came (R302, R305). -/
def State.sendable (s : State) (g : Pkg) (port : BitVec 4) (q : Packet) : Bool :=
  let k := s.pkg g
  !(k.port port).overdue q && !(q.type = .drain && s.net.any (fun x => x.oldAt k g port q.vn))

/-- A VN of an output port holds a flit ready: it has a credit, and a packet to go on with or to start (R298, R300). -/
def State.vnReady (s : State) (g : Pkg) (port : BitVec 4) (vn : BitVec 3) : Bool :=
  decide (0 < ((s.pkg g).port port).credits vn) &&
    (match s.begun g port vn with
     | some q => s.sendable g port q
     | none => (List.range 15).any (fun i => (s.firstOf g port vn i).any (s.sendable g port)))

/-- An output port may send a packet's next flit now: it holds a credit of its VN, no VN of higher priority holds a flit ready, it keeps fewer than 1,024
flits that its peer has not accepted, and the packet has begun, or none of its VN has and it is the first of its input, whose turn it is (R298, R300, R301). -/
def State.maySend (s : State) (n : Nat) (p : Packet) (port : BitVec 4) : Bool :=
  let w := (s.pkg p.at_).port port
  w.up && decide (w.unheard < 1024) && decide (0 < w.credits p.vn) && s.sendable p.at_ port p
    && (decide (0 < p.out) || ((s.begun p.at_ port p.vn).isNone
      && !(s.net.take n).any (fun q => q.queuedAt p.at_ port && q.vn = p.vn && q.inPort = p.inPort)
      && !(List.range 15).any (fun i => decide (w.turn p.vn i < w.turn p.vn p.inPort.toNat) && (s.firstOf p.at_ port p.vn i).any (s.sendable p.at_ port))))
    && !(List.range 5).any (fun v => decide (vnPriority (BitVec.ofNat 3 v) < vnPriority p.vn) && s.vnReady p.at_ port (BitVec.ofNat 3 v))

/-- A packet at its destination's package crosses that package's bridge, if it has to and may; what its destination does with it is a step of its own (R8). -/
def State.crossOnly (s : State) (n : Nat) (p : Packet) : State :=
  if s.toCross p (epDie p.dst) && s.mayCross n p then { s with net := s.net.set n { p with crossed := true } } else s

/-- The cycle of an output port since when a packet that is queued for it now has waited: since it came to the router by an input port, whose cycles are of
the same clock (R302). -/
def Package.waitsFrom (k : Package) (p : Packet) (port : BitVec 4) : Nat :=
  let now := (k.port port).cyc
  if p.inPort.toNat < 14 then now - ((k.port p.inPort).cyc - p.since) else now

/-- PACKET_FORWARD: a packet for another package is routed by its bank to the queue of an output port, or goes back; the next flit of a queued packet is
sent on its link; one for this package crosses the bridge; one whose lifetime is over is discarded, unless its sending has begun. A halted package forwards
nothing (R8, R298, R302, R304, R306, R326). -/
def execPacketForward (s : State) : Out :=
  let n := s.ev.n
  .next (match s.net[n]? with
    | none => s
    | some p =>
      let k := s.pkg p.at_
      if k.halted then s
      else if s.expired p && p.out = 0 then (s.consumed p).lose p
      else
        match p.via with
        | none =>
          if s.isHome p || p.type = .drain then s.crossOnly n p
          else if !s.mayCross n p then s
          else
            match k.routePort p with
            | .error cause => s.noRoute p cause
            | .ok port =>
              let w := k.port port
              let idle := !s.net.any (fun q => q.queuedAt p.at_ port)
              let s1 : State := { s with net := s.net.set n { p with via := some port, since := k.waitsFrom p port } }
              if idle then s1.setPort p.at_ port { w with creditAt := w.cyc } else s1
        | some port =>
          if s.maySend n p port then
            let s1 := if p.out + 1 = p.flits then s.consumed p else { s with net := s.net.set n { p with out := p.out + 1 } }
            let w := s1.port p.at_ port
            let w1 : Port := if p.out = 0 then { w with served := w.served.setIfInBounds p.vn.toNat p.inPort } else w
            s1.setPort p.at_ port (w1.sendFlit p)
          else s)

/-! ## Receiving (R300, R301) -/

/-- A flit as it arrives: the bits that noise inverts, and of its trailer those of `ev.value` (CRC 16, sequence 12, credit VN 3, credits 9). -/
def Flit.disturbed (f : Flit) (a : EvArgs) : Flit :=
  { f with
    bits := f.bits ^^^ a.noise, crc := f.crc ^^^ fld a.value 0 16, seq := f.seq ^^^ fld a.value 16 12, creditVn := f.creditVn ^^^ fld a.value 28 3,
    credits := f.credits ^^^ fld a.value 31 9 }

/-- A port takes a flit in order: its trailer's credits, its bits, and with a last flit the packet. -/
def State.accept (s : State) (g : Pkg) (n : BitVec 4) (f : Flit) : State :=
  let w := s.port g n
  let credit := w.credit.setIfInBounds f.creditVn.toNat (w.credits f.creditVn + f.credits.toNat)
  let got := w.rx.toList.getD f.vn.toNat [] ++ [f.bits]
  let w1 : Port := { w with rxSeq := w.rxSeq + 1, lastRx := w.cyc, credit := credit }
  if f.keep then s.setPort g n w1
  else
    match f.whole with
    | none => s.setPort g n { w1 with rx := w1.rx.setIfInBounds f.vn.toNat got }
    | some sent =>
      let w2 : Port := { w1 with rx := w1.rx.setIfInBounds f.vn.toNat [] }
      match assemble sent got with
      | some p => { s.setPort g n w2 with net := s.net ++ [{ p with at_ := g, via := none, hops := p.hops + 1, inPort := n, since := w.cyc }] }
      | none =>
        s.setPort g n { w2 with
          errors := w2.errors + 1, owed := w2.owed.setIfInBounds f.vn.toNat (w2.owed.toList.getD f.vn.toNat 0 + got.length) }

/-- FLIT_RECEIVE: the first flit under way reaches the port, which takes it in link-sequence order, which is progress for its sender, or discards it
and asks for a replay (R301). -/
def execFlitReceive (s : State) : Out :=
  let a := s.ev
  let w := s.port a.pkg a.port
  .next (match w.peer with
    | none => s
    | some (q, m) =>
      let x := s.port q m
      match x.wire with
      | [] => s
      | f :: rest =>
        if !w.up || !x.up || x.peer ≠ some (a.pkg, a.port) then s
        else
          let f1 := f.disturbed a
          let s1 := s.setPort q m { x with wire := rest }
          let good := f1.crc = f1.crcOf
          if good && f1.seq = w.rxSeq then
            (s1.setPort q m { s1.port q m with unheard := x.unheard - 1, replays := 0 }).accept a.pkg a.port f1
          else
            let s2 := s1.setPort q m { s1.port q m with replayFrom := some w.rxSeq }
            if good then s2.setPort a.pkg a.port { s2.port a.pkg a.port with lastRx := w.cyc } else s2)

/-- LINK_REPLAY: the sender replays from the requested flit, at most 16 times without progress (R301). -/
def execLinkReplay (s : State) : Out :=
  let a := s.ev
  let w := s.port a.pkg a.port
  .next (match w.replayFrom with
    | none => s
    | some q =>
      let again := if q = w.replayAt then w.replays + 1 else 1
      if !w.up || (s.pkg a.pkg).halted || 16 < again then s
      else s.setPort a.pkg a.port { w with
        wire := w.replay.dropWhile (fun f => f.seq ≠ q), replayFrom := none, replayAt := q, replays := again, lastTx := w.cyc })

/-- KEEPALIVE: a port that has sent no flit for 4,096 port cycles sends a trailer (R300). -/
def execKeepalive (s : State) : Out :=
  let a := s.ev
  let w := s.port a.pkg a.port
  .next (if w.up && !(s.pkg a.pkg).halted && w.lastTx + 4096 ≤ w.cyc && w.unheard < 1024 then
    s.setPort a.pkg a.port { w.emit 0 0 true none with creditAt := w.creditAt } else s)

/-! ## Link failure (R301, R307) -/

/-- A record of kind 11 (R307). -/
def State.linkRecord (s : State) (g : Pkg) (port : BitVec 4) (cause discarded : Nat) : State :=
  s.postNoThread (linkEp g (portDie port))
    { kind := 11, src := 5, aux0 := port.setWidth 64, aux1 := BitVec.ofNat 64 cause, aux2 := BitVec.ofNat 64 discarded,
      aux3 := BitVec.ofNat 64 (s.port g port).cyc }

/-- LINK_DOWN with its cause `ev.n`: no valid trailer for 2^16 port cycles, a flit replayed 16 times without progress, or nothing sent for
2^16 port cycles for want of credits, which names a packet not forwarded in that time too; retraining starts. A port of a package
in a quiesce stands still (R301, R302, R326).
(DESIGN CHOICE, notes/assumptions/67.md.) -/
def execLinkDown (s : State) : Out :=
  let a := s.ev
  let w := s.port a.pkg a.port
  let queue := s.net.filter (fun p => p.queuedAt a.pkg a.port)
  let down : Bool := match a.n with
    | 1 => w.lastRx + 2 ^ 16 ≤ w.cyc
    | 2 => w.replayFrom = some w.replayAt && 16 ≤ w.replays
    | 3 => queue.any w.overdue || !queue.isEmpty && queue.all (fun p => w.credits p.vn = 0) && w.creditAt + 2 ^ 16 ≤ w.cyc
    | _ => false
  .next (if w.up && down && !(s.pkg a.pkg).halted then
    (s.linkRecord a.pkg a.port a.n 0).setPort a.pkg a.port
      { (s.linkRecord a.pkg a.port a.n 0).port a.pkg a.port with up := false, retrainFrom := some w.cyc }
    else s)

/-- A packet goes when a port gives up its link: it is queued for that port, or stands in its input buffer and its sending on another link has not begun.
(DESIGN CHOICE, notes/assumptions/81.md.) -/
def Packet.goesWith (p : Packet) (g : Pkg) (n : BitVec 4) : Bool := p.queuedAt g n || (p.at_ = g && p.inPort = n && p.out = 0)

/-- A port whose link is lost discards the flits it holds and the packets queued for it, and how many packets these are with those that its peer has not
had (R301). -/
def State.discardPort (s : State) (g : Pkg) (n : BitVec 4) : State × Nat :=
  let w := s.port g n
  let gone := w.unheardPackets ++ s.net.filter (fun p => p.goesWith g n)
  let s1 := (s.net.filter (fun p => p.goesWith g n)).foldl (fun (s : State) p => s.freeBuffer p)
    { s with net := s.net.filter (fun p => !p.goesWith g n) }
  let s2 := s1.setPort g n { s1.port g n with
    up := false, lost := true, retrainFrom := none, wire := [], replay := [], unheard := 0, replayFrom := none, rx := Vector.replicate 5 [] }
  (gone.foldl (fun (s : State) p => s.lose p) s2, gone.length)

/-- A port that carries on after retraining: it replays from the flit its peer expects (R301). -/
def Port.resume (w : Port) (expected : BitVec 12) : Port :=
  { w with
    up := true, upAt := w.cyc, retrainFrom := none, wire := [], replayFrom := some expected, replays := 0, lastTx := w.cyc, lastRx := w.cyc, creditAt := w.cyc }

/-- RETRAIN_END: with `ev.ok` both ends go on from the sequence numbers they held; otherwise, after 2^24 port cycles, the port discards
what it holds (R301). -/
def execRetrainEnd (s : State) : Out :=
  let a := s.ev
  let w := s.port a.pkg a.port
  .next (match w.retrainFrom with
    | none => s
    | some since =>
      if a.ok then
        match w.peer with
        | none => s
        | some (q, m) =>
          let x := s.port q m
          let alive := (s.pkg q).state = 3 && !(s.pkg q).halted && (x.up || x.retrainFrom.isSome) && x.peer = some (a.pkg, a.port)
          if !alive || (s.pkg a.pkg).halted || since + 2 ^ 24 < w.cyc then s
          else (s.setPort a.pkg a.port (w.resume x.rxSeq)).setPort q m (x.resume w.rxSeq)
      else if w.cyc < since + 2 ^ 24 || (s.pkg a.pkg).halted then s
      else
        let r := s.discardPort a.pkg a.port
        r.1.linkRecord a.pkg a.port 4 r.2)

/-- Flits of a VN that stand in an input port's buffer. -/
def State.buffered (s : State) (g : Pkg) (n : BitVec 4) (vn : Nat) : Nat :=
  ((s.net.filter (fun p => p.at_ = g && p.inPort = n && p.vn.toNat = vn)).map Packet.flits).sum

/-- The credits of a port that has trained: by VN, the room of its peer's input buffer (R300). -/
def State.freshCredits (s : State) (peer : Pkg × BitVec 4) : Vector Nat 5 :=
  Vector.ofFn (fun (v : Fin 5) => portBuffer peer.2 - s.buffered peer.1 peer.2 v.val)

/-- A port after training with a package of a boot, with the credits it gets: nothing under way (R300). -/
def Port.trained (w : Port) (credit : Vector Nat 5) (peer : Pkg × BitVec 4) (boot : Nat) : Port :=
  { up := true, upAt := w.cyc, peer := some peer, partner := boot, cyc := w.cyc, credit := credit, lastTx := w.cyc, lastRx := w.cyc,
    creditAt := w.cyc, errors := w.errors, drained := w.drained, drainBank := w.drainBank }

/-- Two ports that a cable may join: two fabric ports, or an east and a west ring port (R6). -/
def portsMatch (a b : BitVec 4) : Bool := (a.toNat < 12 && b.toNat < 12) || (a = 12 && b = 13) || (a = 13 && b = 12)

/-- A port gave up its link with a package, which has not come up anew since (R309). -/
def Port.refuses (w : Port) (peer : Pkg) (boot : Nat) : Bool := w.lost && w.peer.map Prod.fst = some peer && w.partner = boot

/-- PORT_TRAINING: two ports whose links are down train, once bring-up has initialised memory; a link given up comes back only after the failed
package's own bring-up (R309, R320). (DEDUCED, notes/assumptions/37.md.) -/
def execPortTraining (s : State) : Out :=
  let a := s.ev
  let w := s.port a.pkg a.port
  let x := s.port a.peer a.peerPort
  let alive (g : Pkg) : Bool := (((s.pkg g).state = 2 && (s.pkg g).ready) || (s.pkg g).state = 3) && !(s.pkg g).halted
  let down (w : Port) : Bool := !w.up && w.retrainFrom.isNone
  let boot (g : Pkg) : Nat := (s.pkg g).boot
  .next (if alive a.pkg && alive a.peer && down w && down x && portsMatch a.port a.peerPort && (a.pkg, a.port) ≠ (a.peer, a.peerPort) &&
      !w.refuses a.peer (boot a.peer) && !x.refuses a.pkg (boot a.pkg) then
    (s.setPort a.pkg a.port (w.trained (s.freshCredits (a.peer, a.peerPort)) (a.peer, a.peerPort) (boot a.peer))).setPort a.peer a.peerPort
      (x.trained (s.freshCredits (a.pkg, a.port)) (a.pkg, a.port) (boot a.pkg)) else s)

/-! ## Route switches (R305) -/

/-- Markers that a package has still to send: SW reads 1 (R304). -/
def State.switching (s : State) (g : Pkg) : Bool := s.net.any (fun p => p.type = .drain && p.at_ = g && 14 ≤ p.inPort.toNat)

/-- A port has a link, which is up or retrains, with what is queued for it. -/
def Port.linked (w : Port) : Bool := w.up || w.retrainFrom.isSome

/-- The DRAIN markers of a switch, queued for every output port that has a link, one that retrains too, which sends them when it goes on (R301, R305). -/
def Package.markers (k : Package) (g : Pkg) : List Packet :=
  (List.range 14).flatMap (fun i =>
    let port : BitVec 4 := BitVec.ofNat 4 i
    if (k.port port).linked then (List.range 5).map (fun v =>
      { type := .drain, vn := BitVec.ofNat 3 v, bank := k.rtAct, dst := linkEp g 0, src := linkEp g 0, at_ := g, via := some port, since := (k.port port).cyc })
    else [])

/-- Writing SW = 1 flips ACT and queues a DRAIN on each VN of each output port; ignored while a switch is under way. FL keeps the DRAINs that came
with the new bank, which another package switched to before, and loses the others (R304, R305).
(DEDUCED, notes/assumptions/39.md.) -/
def State.startSwitch (s : State) (g : Pkg) : State :=
  if s.switching g then s
  else
    let k := s.pkg g
    let k1 : Package := { k with rtAct := k.rtAct + 1, ports := k.ports.map (fun (w : Port) => if w.drainBank = k.rtAct + 1 then w else { w with drained := 0 }) }
    { s.setPkg g k1 with net := s.net ++ k1.markers g }

/-- ROUTE_SWITCH. -/
def execRouteSwitch (s : State) : Out := .next (if (s.pkg s.ev.pkg).state = 4 then s else s.startSwitch s.ev.pkg)

/-- DRAIN: a marker at an input port, which it does not leave, notes its VN; one of the other bank begins the marks of its switch anew
(R304, R305; notes/assumptions/39.md). -/
def execDrain (s : State) : Out :=
  .next (match s.net[s.ev.n]? with
    | none => s
    | some p =>
      if p.type ≠ .drain || 14 ≤ p.inPort.toNat || (s.pkg p.at_).halted then s
      else if p.malformed then s.reject p
      else
        let s1 := s.consumed p
        let w := s1.port p.at_ p.inPort
        s1.setPort p.at_ p.inPort { w with drained := (if w.drainBank = p.bank then w.drained else 0) ||| BitVec.ofNat 5 (2 ^ p.vn.toNat), drainBank := p.bank })

/-- FL and DRN of RTCTL; with no link up DRN reads its reset value (R304). (DEDUCED, notes/assumptions/39.md.) -/
def Package.rtctl (k : Package) (switching : Bool) : Dword :=
  let fl := (List.range 14).foldl (fun n i => n + b2n ((k.port (BitVec.ofNat 4 i)).drained = 0x1F) * 2 ^ (4 + i)) 0
  let links := ((List.range 14).map (fun i => k.port (BitVec.ofNat 4 i))).filter Port.up
  let drn := !links.isEmpty && links.all (fun w => w.drained = 0x1F)
  BitVec.ofNat 64 (fl + b2n drn * 2 ^ 3 + b2n switching * 2 + k.rtAct.toNat)

/-! ## Management packets (R308) -/

/-- A probe, or its answer, whose note is 1 (notes/assumptions/22.md). -/
def mgmtPacket (src dst : Pkg) (answer : Bool) : Packet :=
  { type := .mgmt, dst := linkEp dst 0, src := linkEp src 0, note := b2n answer }

/-- MGMT: a probe is answered, an answer is shown to the supervisor; a place beyond the network sends a probe from `ev.pkg` to `ev.peer`
(R299, R308). -/
def execMgmt (s : State) : Out :=
  let a := s.ev
  .next (if s.net.length ≤ a.n then
      (if (s.pkg a.pkg).state = 3 && !(s.pkg a.pkg).halted then s.inject (mgmtPacket a.pkg a.peer false) else s)
    else
      match s.arrived .mgmt with
      | none => s
      | some p =>
        if p.malformed then s.reject p
        else
          let s1 := s.consumed p
          if p.note = 0 then s1.injectAt p.at_ (mgmtPacket p.at_ (epPkg p.src) true)
          else
            let k := s1.pkg p.at_
            s1.setPkg p.at_ { k with replies := k.replies ++ [.probe (epPkg p.src)] })

end Sys2Proof.Machine
end

