-- ==== Sys2Proof/Machine/Matrix.lean ====
section
/-! DEFINITION. Issuing the matrix commands: major MXE (R97, R248 to R256). Their work is done by Machine/MatrixSteps.lean. -/

namespace Sys2Proof.Machine

/-- Commands of the matrix queue that are queued or running (R249). -/
def Core.matrixUsed (c : Core) : Nat := (c.mq.filter (fun q => q.phase = .queued || q.phase = .running)).length

/-- What holds a matrix command back before it issues: other results pending, a full queue, a detached command of the thread on the
accumulator it names (R39, R40, R249). -/
def State.matrixStall (s : State) (acc : BitVec 2) : Option Stall :=
  match s.shadowStall with
  | some e => some e
  | none =>
    if s.accBusy acc then some (.park .matrix (.acc acc))
    else if 8 ≤ s.myCore.matrixUsed then some (.park .matrix .matrixRoom)
    else none

/-- The command of the issuing word, with the values it reads at issue (R249). -/
def State.matrixCmd (s : State) (eop : Nat) (acc : BitVec 2) (la : BitVec 4) (a c : Dword) : MxCmd :=
  let t := s.me
  { id := s.myCore.nextCmd, eop := BitVec.ofNat 5 eop, word := s.issue.word, pc := s.issue.pc, xd := s.issue.next - s.issue.pc = 8,
    ctx := s.issue.ctx, home := t.home, lid := t.lid, lti := t.lti, acc := acc, a := a, c := c, la := la, base := t.dctr, key := t.key, did := t.did,
    fmt := if t.fmtPending then fld t.pfx 0 16 else 0 }

/-- Queues a command: an MMT or MMTZ with LA = 0 keeps its thread at it, another makes a pending result unless detached (R40, R249). -/
def State.queueMatrix (s1 : State) (m : MxCmd) : State :=
  let c := s1.myCore
  let s2 := (s1.setMyCore { c with mq := c.mq ++ [m], nextCmd := c.nextCmd + 1 }).consumeFmt
  if m.multiplies && m.la = 0 then
    s2.holdFor .matrix (.matrixCommand m.id) .none 0
  else if m.la = 15 then s2.retire
  else s2.retireLong (s2.pendingOf (.matrix m.id m.acc) .none m.la.toNat [])

/-- The usable-ring check of R231. -/
def State.ringStop (s : State) (r : BitVec 3) : Option Stop :=
  let t := s.me
  if ringUsable (vget r s.myCore.rings) (t.cgl.toNat - t.cgb.toNat) then none else some (t.boundStop (ringDesignator r))

/-- Exactly one of two format codes is dense and the other a selector (R97). -/
def classesOk (a b : Nat) : Bool := decide ((a ≤ 11 ∧ 12 ≤ b ∧ b ≤ 19) ∨ (b ≤ 11 ∧ 12 ≤ a ∧ a ≤ 19))

/-- The checks of MMT and MMTZ after R31 (R251). -/
def State.mmtStop (s : State) (ra rb : BitVec 3) : Option Stop :=
  (s.ringStop ra).orElse fun _ => (s.ringStop rb).orElse fun _ =>
    let fa := ringFmt (vget ra s.myCore.rings)
    let fb := ringFmt (vget rb s.myCore.rings)
    if classesOk fa fb then none else some (.trap 5 (BitVec.ofNat 64 fa) (BitVec.ofNat 64 fb))

/-- MMT and MMTZ at issue: a full queue parks them before any trap of their operands (R37, R124, R248, R251). -/
def State.multiply (s : State) (o : OpMmt) (eop : Nat) : State :=
  let ra : BitVec 3 := fld o.o2 0 3
  let rb : BitVec 3 := fld o.o3 0 3
  if 8 ≤ o.o2.toNat || 8 ≤ o.o3.toNat || !s.me.eset then s.illegal
  else match s.matrixStall o.m with
  | some e => s.stall e
  | none =>
    match s.operands [o.o1] [] with
    | .error e => s.stall e
    | .ok (xs, s1) =>
      match s.mmtStop ra rb with
      | some e => s.stopAtIssue e
      | none => s1.queueMatrix { s1.matrixCmd eop o.m o.la (xs.headD 0) 0 with ringA := ra, ringB := rb }

/-- `mmt` (R251). -/
def execMmt (o : OpMmt) (s : State) : Out := .next (s.multiply o 0)

/-- `mmtz` (R251). -/
def execMmtz (o : OpMmt) (s : State) : Out := .next (s.multiply o 1)

/-- Element bits of an output format of MDR; none for a code it does not take (R254). -/
def drainBits (code : Nat) : Option Nat :=
  match code with
  | 0 | 1 | 7 | 10 | 23 | 24 => some 8
  | 2 | 20 | 21 => some 16
  | 3 | 8 => some 6
  | 4 | 5 | 9 | 11 => some 4
  | 6 => some 2
  | 22 | 26 => some 32
  | 27 => some 64
  | _ => none

/-- The checks of MDR that need no operand: a legal code, a legal mode, and then that FB is given (R81, R89, R95, R124, R254). -/
def State.mdrStop (s : State) : Option Stop :=
  let g := s.me.fmt
  match g.fb with
  | none => (s.rmStop g.rm).orElse fun _ => some s.illegalStop
  | some b =>
    (s.fmtCodeStop g.fb).orElse fun _ =>
      if (drainBits b.toNat).isNone then some (.trap 1 s.majorVal (BitVec.ofNat 64 (28 * 256 + b.toNat))) else s.rmStop g.rm

/-- The checks of MDR on its destination and stride (R32, R254); a stride that is no multiple of the alignment takes a misalignment trap, and
of several that fail the first of these is taken.
(DESIGN CHOICE, notes/assumptions/93.md.) -/
def State.drainStop (s : State) (dst ctl : Dword) (bits : Nat) : Option Stop :=
  let rb := 2 * bits
  let stride := (fld ctl 16 16).toNat
  let align := if rb < 8 then 4 else 8
  if !bitOf dst 63 then some (.trap 1 s.majorVal 1)
  else if dst.toNat % align ≠ 0 then some (.trap 3 dst (BitVec.ofNat 64 align))
  else if stride % align ≠ 0 then some (.trap 3 (BitVec.ofNat 64 stride) (BitVec.ofNat 64 align))
  else if stride < rb then some (.trap 1 s.majorVal 3)
  else if !s.me.inBound dst (15 * stride + rb) then some (s.me.boundStop dst)
  else none

/-- `mdr` (R102, R254). Under SR it consumes 64 draws at issue (R106). (DEDUCED, notes/assumptions/33.md.) -/
def execMdr (o : OpMmt) (s : State) : Out :=
  .next (if !s.me.eset then s.illegal
    else match s.matrixStall o.m with
    | some e => s.stall e
    | none =>
      match (s.portStops [o.o1, o.o3] []).orElse (fun _ => s.mdrStop) with
      | some e => s.stopAtIssue e
      | none =>
        match s.operandsV [o.o1, o.o3] [] [o.o2] with
        | .error e => s.stall e
        | .ok (xs, s1) =>
          let dst := xs.headD 0
          let ctl := xs.getD 1 0
          let mode : RMode := s.me.vmode
          match s.drainStop dst ctl ((drainBits (s.me.fmt.fb.getD 0).toNat).getD 8) with
          | some e => s.stopAtIssue e
          | none =>
            let m : MxCmd :=
              { s1.matrixCmd 2 o.m o.la dst ctl with
                scale := s.me.getV o.o2,
                rm := (match mode with | .rne => 0 | .rtz => 1 | .rdn => 2 | .rup => 3 | .rna => 4 | .sr => 5) }
            (s1.setMe (s1.me.consume (if mode = .sr then 64 else 0))).queueMatrix m)

/-- The checks of MLD and MST on their address (R255). -/
def State.tileStop (s : State) (a : Dword) : Option Stop :=
  if !bitOf a 63 then some (.trap 1 s.majorVal 1)
  else if a.toNat % 8 ≠ 0 then some (.trap 3 a 8)
  else if !s.me.inBound a 2048 then some (s.me.boundStop a)
  else none

/-- MLD and MST at issue (R255). -/
def State.tileMove (s : State) (eop : Nat) (r : Reg) (acc : BitVec 2) (la : BitVec 4) : State :=
  if !s.me.eset then s.illegal
  else match s.matrixStall acc with
  | some e => s.stall e
  | none =>
    match s.operands [r] [] with
    | .error e => s.stall e
    | .ok (xs, s1) =>
      match s.tileStop (xs.headD 0) with
      | some e => s.stopAtIssue e
      | none => s1.queueMatrix (s1.matrixCmd eop acc la (xs.headD 0) 0)

/-- `mld` (R255). -/
def execMld (o : OpMacc) (s : State) : Out := .next (s.tileMove 3 o.b o.m o.la)

/-- `mst` (R255). -/
def execMst (o : OpMacc) (s : State) : Out := .next (s.tileMove 4 o.b o.m o.la)

/-- `mclr` (R255). -/
def execMclr (o : OpMclr) (s : State) : Out :=
  .next (if !s.me.eset then s.illegal
    else match s.matrixStall o.m with
    | some e => s.stall e
    | none => s.queueMatrix (s.matrixCmd 5 o.m o.la 0 0))

/-- `mwait`: waits until no matrix command of the crew is queued, running or stopped in the queue; one that has left it, stopped, is not waited for.
(DESIGN CHOICE, notes/assumptions/107.md.) It takes a pending FMT when it issues, not again when
its wait is over (R115, R117, R249). -/
def execMwait (_o : OpLa) (s : State) : Out :=
  .next (if !s.me.eset then s.illegal
    else match s.shadowStall with
    | some e => s.stall e
    | none =>
      let s := if s.me.waitFrom = 0 then s.consumeFmt else s
      if s.myCore.mq.isEmpty then State.retire (s.setMe { s.me with waitFrom := 0 }) else s.hold .matrix .matrixIdle)

end Sys2Proof.Machine
end

