-- ==== Sys2Proof/Machine/MatrixSteps.lean ====
section
/-! DEFINITION. The matrix engine at work: starting a command, one K-step of a product, the drain, and the tile moves (R97 to R102, R249
to R256). The events read `ev.ep`. -/

namespace Sys2Proof.Machine

/-! ## Commands -/

/-- Replaces a command of the matrix queue. -/
def State.setMatrix (s : State) (ep : Ep) (m : MxCmd) : State :=
  let c := s.core ep
  s.setCore ep { c with mq := c.mq.map (fun (x : MxCmd) => if x.id = m.id then m else x) }

/-- Crew offset 0 of a command's crew in the core's window. -/
def Core.matrixBase (c : Core) (ep : Ep) (m : MxCmd) : Nat :=
  match c.crew? m.home m.lid with
  | some w => granaryPa ep w.base.toNat
  | none => granaryPa ep 0

/-- APC with its fields (R250). -/
def apcOf (ip : Bool) (wpc : Nat) (done : Nat) : Dword := BitVec.ofNat 64 (b2n ip * 2 ^ 63 + wpc * 2 ^ 32 + done % 2 ^ 32)

/-- Bits [17:2] of a command's PC (R250). -/
def MxCmd.wpc (m : MxCmd) : Nat := (fld m.pc 2 16).toNat

/-- A command leaves the queue: its pending result returns, or its thread at the command goes on (R40, R249). -/
def State.leaveMatrix (s : State) (ep : Ep) (m : MxCmd) : State :=
  let c := s.core ep
  let c1 : Core := { c with
    mq := c.mq.filter (fun x => x.id ≠ m.id),
    threads := c.threads.map (fun (t : Thread) => { t with pend := t.pend.filter (fun p => p.kind ≠ .matrix m.id m.acc) }) }
  let s1 := s.setCore ep c1
  match c1.ctxOf m.home m.lid m.lti with
  | some x => if m.multiplies && m.la = 0 && (s1.thr ep x).wait = .matrixCommand m.id then s1.completeHeld ep x 0 else s1
  | none => s1

/-- A fault of a command goes to its thread (R251, R255, R284). -/
def State.postCommand (s : State) (ep : Ep) (m : MxCmd) (r : FaultReq) : State :=
  let asid := match (s.core ep).crew? m.home m.lid with | some w => w.asid | none => 0
  s.postFault ep m.home m.lid m.lti m.ctx asid m.ended { r with src := 2, id := m.id, pc := m.pc }

/-- The fault of a command that met a poisoned dword, with the local address of an MLD's (R251, R255, R273). -/
def State.postMatrix (s : State) (ep : Ep) (m : MxCmd) (va : Dword) (pa : Nat) (step : Nat) : State :=
  s.postCommand ep m { kind := 3, va := va, aux0 := BitVec.ofNat 64 pa, aux1 := BitVec.ofNat 64 (2 * 2 ^ 5 + m.acc.toNat), aux2 := BitVec.ofNat 64 step }

/-- A product stops at a step: one of a thread that has ended is discarded, with APC as it stands; with LA = 0 its thread's fault takes it from
the queue; any other is held (R252, R257). -/
def State.stopProduct (s : State) (ep : Ep) (m : MxCmd) : State :=
  if m.ended then s.leaveMatrix ep m
  else if m.la = 0 then s
  else s.setMatrix ep { m with phase := .stopped }

/-- The entries of a core that a step of a product reads: its accumulator, whose status and progress it also reads, and its rings. -/
def MxCmd.readsCode (m : MxCmd) (code : BitVec 16) : Bool :=
  codeIsAcc m.acc code || codeIsSreg (72 + m.acc.toNat) code || codeIsSreg (76 + m.acc.toNat) code ||
    codeIsSreg (64 + m.ringA.toNat) code || codeIsSreg (64 + m.ringB.toNat) code

/-! ## One K-step (R98 to R100) -/

/-- K indices of a scale block, 0 for an unscaled format (R83, R84, R85). -/
def blockElems (code : Nat) : Nat :=
  match code with
  | 7 | 8 | 9 | 18 | 19 => 32
  | 10 | 11 => 16
  | 12 => 128
  | _ => 0

/-- First and last bit of an element in its row (R82). -/
def elemSpan (code n : Nat) : Nat × Nat :=
  if code = 12 then (n / 5 * 8, n / 5 * 8 + 7) else (elemPos code n, elemPos code n + elemBits code - 1)

/-- A run of elements of one tile: the tile's physical address, and which elements of each of its 16 rows. -/
structure TileRun where
  pa : Nat := 0
  first : Nat := 0
  count : Nat := 0
  deriving DecidableEq, Repr

/-- The dwords of a tile that a run reads: of each row, and of its scale block (R82, R86). -/
def TileRun.dwords (r : TileRun) (code : Nat) (sc : Bool) : List Nat :=
  if r.count = 0 then []
  else
    let lo := (elemSpan code r.first).1 / 64
    let hi := (elemSpan code (r.first + r.count - 1)).2 / 64
    let rows := (List.range 16).flatMap (fun i => (List.range (hi + 1 - lo)).map (fun j => r.pa + 128 * i + 8 * (lo + j)))
    let nb := rowBlocks code
    if sc && nb ≠ 0 then
      let b0 := r.first / blockElems code
      let b1 := (r.first + r.count - 1) / blockElems code
      rows ++ (List.range 16).flatMap (fun i => (List.range (b1 + 1 - b0)).map (fun j => dwordAt (r.pa + 2048 + nb * i + b0 + j)))
    else rows

/-- The values of a run in row `i`, and whether an invalid code was read (R84, R85, R99). -/
def TileRun.values (r : TileRun) (m : Memory) (code i : Nat) : List Int × Bool :=
  let row := m.read (r.pa + 128 * i) 128
  let l := (List.range r.count).map (fun n =>
    let x := elemGet code row (r.first + n)
    let bad := badT2 code x || (code = 12 && 243 ≤ row / 2 ^ (8 * ((r.first + n) / 5)) % 256)
    (elemInt code x, bad))
  (l.map Prod.fst, l.any Prod.snd)

/-- The scale exponents of a run in row `i`, one for each element: none for a NaN scale, the fraction shift taken off (R86, R99). -/
def TileRun.scales (r : TileRun) (m : Memory) (code : Nat) (sc : Bool) (i : Nat) : List (Option Int) :=
  (List.range r.count).map (fun n =>
    let nb := rowBlocks code
    if nb = 0 then some 0
    else
      let x := if sc then (m.byte (r.pa + 2048 + nb * i + (r.first + n) / blockElems code)).toNat else 0x7F
      if x = 0xFF then none else some ((x : Int) - 127 - fracShift code))

/-- One segment of a step: its values and its scale exponents. -/
structure Segment where
  vals : List Int := []
  exps : List (Option Int) := []
  deriving DecidableEq, Repr

/-- The lengths of the combined blocks of a step of `n` elements: runs between multiples of a block size from a first position. -/
def blockLens (size first : Nat) : Nat → Nat → List Nat
  | 0, _ => []
  | fuel + 1, n =>
    if n = 0 then []
    else
      let l := min n (size - first % size)
      l :: blockLens size (first + l) fuel (n - l)

/-- Σ of products of two lists. -/
def dotInt : List Int → List Int → Int
  | a :: r, b :: t => a * b + dotInt r t
  | _, _ => 0

/-- The contribution of two segments over combined blocks, and SN (R99). A combined block that straddles two blocks of an operand takes the scale over its
first element. (DESIGN CHOICE, notes/assumptions/86.md.) -/
def contribution : List Nat → Segment → Segment → Int × Bool
  | [], _, _ => (0, false)
  | l :: r, a, b =>
    let p := dotInt (a.vals.take l) (b.vals.take l)
    let rest := contribution r ⟨a.vals.drop l, a.exps.drop l⟩ ⟨b.vals.drop l, b.exps.drop l⟩
    match a.exps.headD (some 0), b.exps.headD (some 0) with
    | some x, some y =>
      let e := x + y + 16
      (rest.1 + (if 0 ≤ e then p * 2 ^ e.toNat else p / 2 ^ (-e).toNat), rest.2)
    | _, _ => (rest.1, true)

/-- The 16 segments of some runs, in K order, and IV. -/
def segments (m : Memory) (runs : List TileRun) (code : Nat) (sc : Bool) : List Segment × Bool :=
  let one (i : Nat) : Segment × Bool := runs.foldl (fun (w : Segment × Bool) r =>
    let v := r.values m code i
    (⟨w.1.vals ++ v.1, w.1.exps ++ r.scales m code sc i⟩, w.2 || v.2)) ({}, false)
  let l := (List.range 16).map one
  (l.map Prod.fst, l.any Prod.snd)

/-- The accumulator after a step, and the AST bits it sets: SAT 1, IV 2, SN 4 (R99, R101). -/
def accumulate (acc : Acc) (blocks : List Nat) (segA segB : List Segment) (iv : Bool) : Acc × Nat :=
  let one (n : Nat) : BitVec 48 × Bool × Bool :=
    let (t, sn) := contribution blocks (segA.getD (n / 16) {}) (segB.getD (n % 16) {})
    let x := (acc.toList.getD n 0).toInt + t
    (wrap 48 (satS x 48), decide (satS x 48 ≠ x), sn)
  let l := (List.range 256).map one
  (Vector.ofFn (fun i => (l.getD i.val (0, false, false)).1),
    b2n (l.any (fun w => w.2.1)) + 2 * b2n iv + 4 * b2n (l.any (fun w => w.2.2)))

/-- HEAD and KOFF of a selector ring after a step: KOFF stays below Ks (R251). -/
def advanceSel (d : Dword) (kd : Nat) : Dword :=
  if ringSta d then d
  else
    let ks := rowElems (ringFmt d)
    let x := ringKoff d + kd
    setFld (setFld d 28 10 (x % ks)) 38 13 (ringHead d + x / ks)

/-- HEAD of a dense ring after a step. -/
def advanceDense (d : Dword) : Dword := if ringSta d then d else setFld d 38 13 (ringHead d + 1)

/-- The combined block lengths of a step (R99). -/
def combinedLens (fd fs pos kd : Nat) : List Nat :=
  let bd := blockElems fd
  let bs := blockElems fs
  if bd = 0 && bs = 0 then [kd]
  else if bs = 0 || (bd ≠ 0 && bd ≤ bs) then blockLens bd 0 (kd + 1) kd
  else blockLens bs pos (kd + 1) kd

/-- Step k of a running product whose tiles are there (R98 to R100, R251). -/
def State.matrixStep (s : State) (ep : Ep) (m : MxCmd) (k : Nat) : State :=
  let c := s.core ep
  let (rd, rs) := c.denseFirst m
  let d := vget rd c.rings
  let sel := vget rs c.rings
  let p := stepPlan d sel k
  let base := c.matrixBase ep m
  let run (ring : Dword) (t first n : Nat) : TileRun := { pa := base + tileOffset ring (ringHead ring + t) 0, first := first, count := n }
  let dr := [run d p.dense 0 p.kd]
  let sr := p.sel.map (fun w => run sel w.1 w.2.1 w.2.2)
  let reads := dr.flatMap (fun r => r.dwords (ringFmt d) (ringSc d)) ++ sr.flatMap (fun r => r.dwords (ringFmt sel) (ringSc sel))
  match c.badAmong m.readsCode, reads.find? (fun a => s.mem.poisoned a) with
  | some code, _ => (s.stopProduct ep m).postCommand ep m (registerFault code)
  | none, some a => (s.stopProduct ep m).postMatrix ep m 0 a k
  | none, none =>
    let (m1, s) := s.engineView (c.tampered.filter (fun a => reads.contains (dwordAt a)))
    let (segD, _) := segments m1 dr (ringFmt d) (ringSc d)
    let (segS, iv) := segments m1 sr (ringFmt sel) (ringSc sel)
    let blocks := combinedLens (ringFmt d) (ringFmt sel) p.pos p.kd
    let (acc, ast) := if rd = m.ringA then accumulate (vget m.acc c.acc) blocks segD segS iv
      else accumulate (vget m.acc c.acc) blocks segS segD iv
    s.setCore ep { c with
      acc := vset m.acc acc c.acc, ast := vset m.acc (vget m.acc c.ast ||| BitVec.ofNat 64 ast) c.ast,
      rings := vset rs (advanceSel sel p.kd) (vset rd (advanceDense d) c.rings),
      apc := vset m.acc (apcOf true m.wpc (k + 1)) c.apc }

/-- A product that has done its steps completes (R251). -/
def State.endProduct (s : State) (ep : Ep) (m : MxCmd) : State :=
  let c := s.core ep
  let a := vget m.acc c.apc
  if m.a.toNat % 2 ^ 32 ≤ apcDone a then
    (s.setCore ep { c with apc := vset m.acc (setFld a 63 1 0) c.apc }).leaveMatrix ep m
  else s

/-- The engine may take another step: its crew is not being pre-empted, and the package is not quiesced (R46, R252, R326). -/
def State.engineRuns (s : State) (ep : Ep) (m : MxCmd) : Bool :=
  !(s.pkg (epPkg ep)).halted && (match (s.core ep).crew? m.home m.lid with | some w => w.preempt.isNone && !w.parkedIn && w.owed.isEmpty | none => true)

/-! ## The drain (R102, R254) -/

/-- The mode a drain took at issue. -/
def MxCmd.mode (m : MxCmd) : RMode := RMode.ofCode m.rm

/-- Output format of a drain. -/
def MxCmd.outFmt (m : MxCmd) : Nat := (fld m.fmt 3 5).toNat

/-- One element of a drain: its code and flags (R94, R96, R102, R254). A finite product outside an integer output raises SA.
(DESIGN CHOICE, notes/assumptions/85.md.) -/
def MxCmd.drainElem (m : MxCmd) (key : BitVec 128) (did : Dword) (n : Nat) (x : BitVec 48) : Nat × Flags :=
  let code := m.outFmt
  let u := if m.mode = .sr then randomWord key did m.base n else 0
  let a : Num := .fin (decide (x.toInt < 0)) x.toInt.natAbs (-16) false
  let sc : Num := if bitOf m.c 8 then fp32.decode (laneN 32 m.scale (n % 16)) else .fin false 1 0 false
  let (p, fl) := a.mul sc
  if isScaledDest code then
    let xb := m.c.toNat % 256
    if xb = 0xFF || unquantisable [p] then (0, { nv := true }) else quantElem code m.mode u ((xb : Int) - 127) p
  else
    match fclass code with
    | some (.float f) => f.result m.mode u (p, fl)
    | some (.int sg w) =>
      let (r, f2) := convertInt false m.mode u 0 (if sg then -(2 ^ (w - 1)) else 0) (if sg then 2 ^ (w - 1) - 1 else 2 ^ w - 1) p
      ((wrap w r).toNat, f2.or fl)
    | _ => (0, fl)

/-- The codes of row `i` of a drain, and its flags. -/
def MxCmd.drainRow (m : MxCmd) (acc : Acc) (i : Nat) : List Nat × Flags :=
  let es := (List.range 16).map (fun j => m.drainElem m.key m.did (16 * i + j) (acc.toList.getD (16 * i + j) 0))
  (es.map Prod.fst, es.foldl (fun f e => f.or e.2) Flags.none)

/-- Element bits of a drain. -/
def MxCmd.drainWidth (m : MxCmd) : Nat := (drainBits m.outFmt).getD 8

/-- The flags of a drain (R102). -/
def MxCmd.drainFlags (m : MxCmd) (acc : Acc) : Flags := (List.range 16).foldl (fun f i => f.or (m.drainRow acc i).2) Flags.none

/-- Dword `n` of a row of a drain: its offset in the row, its bytes, its value (R254). -/
def MxCmd.drainPiece (m : MxCmd) (acc : Acc) (i n : Nat) : Nat × Nat × Nat :=
  let rb := 2 * m.drainWidth
  (8 * n, min 8 (rb - 8 * n), packNats m.drainWidth (m.drainRow acc i).1 / 2 ^ (64 * n))

/-! ## Commands that access memory (R254 to R256) -/

/-- The dwords a running MDR, MLD or MST performs (R256). -/
def MxCmd.total (m : MxCmd) : Nat := if m.eop = 2 then 16 * ((2 * m.drainWidth + 7) / 8) else 256

/-- The command with one more dword performed. -/
def MxCmd.mark (m : MxCmd) (u : Nat) : MxCmd := { m with units := natSet m.units u true }

/-- Element `e` of an accumulator is damaged, or any of it for a drain (R284). -/
def Core.accError (c : Core) (m : MxCmd) : Option (BitVec 16) :=
  if m.eop = 3 then none else c.badAmong (codeIsAcc m.acc)

/-- Performs dword `u` of a running MDR, MLD or MST, as one event; an MLD that meets poison ends there with its fault; an MDR or MST of a damaged element
is held with its fault, to be done anew once its thread goes on (R255, R256, R284). -/
def State.tileDword (s : State) (ep : Ep) (id u : Nat) : State :=
  let c := s.core ep
  match c.mq.find? (fun m => m.id = id) with
  | none => s
  | some m =>
    if m.phase ≠ .running || m.multiplies || m.units.contains u || m.total ≤ u then s
    else
      let at_ := c.matrixBase ep m + localOffset m.a
      match c.accError m with
      | some code =>
        (if m.ended then s.leaveMatrix ep m else s.setMatrix ep { m with phase := .held, units := [], got := [] }).postCommand ep m (registerFault code)
      | none =>
        match m.eop.toNat with
        | 2 =>
          let n := (2 * m.drainWidth + 7) / 8
          let (o, size, x) := m.drainPiece (vget m.acc c.acc) (u / n) (u % n)
          (s.writeOwn (at_ + u / n * (fld m.c 16 16).toNat + o) size x false).setMatrix ep (m.mark u)
        | 3 =>
          if s.mem.poisoned (at_ + 8 * u) then (s.leaveMatrix ep m).postMatrix ep m (m.a + BitVec.ofNat 64 (8 * u)) (at_ + 8 * u) 0
          else s.setMatrix ep { (m.mark u) with got := m.got ++ [(u, BitVec.ofNat 48 (s.mem.read (at_ + 8 * u) 8))] }
        | _ => (s.writeOwn (at_ + 8 * u) 8 (((vget m.acc c.acc).toList.getD u 0).signExtend 64).toNat false).setMatrix ep (m.mark u)

/-- Every dword of a command is performed: an MLD loads its accumulator, an MDR raises its flags, and the command leaves the queue (R102, R254,
R255). -/
def State.endTile (s : State) (ep : Ep) (m : MxCmd) : State :=
  let c := s.core ep
  match m.eop.toNat with
  | 2 => (s.raiseFor ep m.home m.lid m.lti (m.drainFlags (vget m.acc c.acc)).bits).leaveMatrix ep m
  | 3 =>
    let acc : Acc := Vector.ofFn (fun i => Assoc.get m.got i.val 0)
    (s.setCore ep ({ c with acc := vset m.acc acc c.acc }.mend (fun _ y => codeIsAcc m.acc y))).leaveMatrix ep m
  | _ => s.leaveMatrix ep m

/-- Some dwords of the running MDR, MLD or MST, and its end when none is left. -/
def State.tileStep (s : State) (ep : Ep) (id : Nat) (us : List Nat) : State :=
  let s1 := us.foldl (fun (s : State) u => s.tileDword ep id u) s
  match (s1.core ep).mq.find? (fun m => m.id = id) with
  | some m => if m.total ≤ m.units.length then s1.endTile ep m else s1
  | none => s1

/-! ## Starting (R249, R251, R255) -/

/-- A product starts, afresh or where it stopped (R251). -/
def State.startProduct (s : State) (ep : Ep) (m : MxCmd) : State :=
  let c := s.core ep
  let a := vget m.acc c.apc
  let resumes := bitOf a 63 && (fld a 32 16).toNat = m.wpc
  let c1 : Core := if resumes then c
    else
      let c0 : Core := { c with apc := vset m.acc (apcOf true m.wpc 0) c.apc }
      if m.eop = 1 then
        { c0 with acc := vset m.acc (Vector.replicate 256 0) c.acc, ast := vset m.acc 0 c.ast }.mend (fun _ y =>
          codeIsAcc m.acc y || codeIsSreg (76 + m.acc.toNat) y)
      else c0
  ((s.setCore ep c1).setMatrix ep { m with phase := .running }).endProduct ep { m with phase := .running }

/-- `mclr` done (R101, R255). -/
def State.clearTile (s : State) (ep : Ep) (m : MxCmd) : State :=
  let c := s.core ep
  (s.setCore ep ({ c with
    acc := vset m.acc (Vector.replicate 256 0) c.acc, ast := vset m.acc 0 c.ast, apc := vset m.acc 0 c.apc }.mend (fun _ y =>
      codeIsAcc m.acc y || codeIsSreg (76 + m.acc.toNat) y || codeIsSreg (72 + m.acc.toNat) y))).leaveMatrix ep m

/-- MATRIX_START: the next command in queue order starts; a product that is over and MCLR complete at once (R249, R251, R255). -/
def execMatrixStart (s : State) : Out :=
  let ep := s.ev.ep
  let c := s.core ep
  .next (if c.mq.any (fun m => m.phase = .running) then s
    else match c.mq.find? (fun m => m.phase = .queued) with
    | none => s
    | some m =>
      if !s.engineRuns ep m then s
      else if m.multiplies then s.startProduct ep m
      else if m.eop = 5 then s.clearTile ep m
      else s.setMatrix ep { m with phase := .running })

/-- MATRIX_STEP: the running product does its next step, or waits for a tile; a running MDR, MLD or MST performs the dwords `ev.parts` names, all
that remain when none is named. It runs on while its crew is pre-empted (R249, R251, R256). -/
def execMatrixStep (s : State) : Out :=
  let ep := s.ev.ep
  let c := s.core ep
  .next (match c.mq.find? (fun m => m.phase = .running) with
    | none => s
    | some m =>
      if (s.pkg (epPkg ep)).halted then s
      else if !m.multiplies then s.tileStep ep m.id (if s.ev.parts.isEmpty then List.range m.total else s.ev.parts)
      else if !s.engineRuns ep m then s
      else
        let (rd, rs) := c.denseFirst m
        let k := apcDone (vget m.acc c.apc)
        if (c.badAmong m.readsCode).isSome || (stepPlan (vget rd c.rings) (vget rs c.rings) k).ready (vget rd c.rings) (vget rs c.rings) then
          let s1 := s.matrixStep ep m k
          if ((s1.core ep).mq.find? (fun x => x.id = m.id)).map MxCmd.phase = some .running then s1.endProduct ep m else s1
        else s)

end Sys2Proof.Machine
end

