-- ==== Sys2Proof/Machine/Resolve.lean ====
section
/-! DEFINITION. RESOLVE: what the supervisor's action does to a FAULTED thread, to a SAVED one, and to the record of an ended one (R280,
R285, R291, R303), and how a launch ends (R34, R263). -/

namespace Sys2Proof.Machine

/-! ## Retransmission (R285, R302) -/

/-- Every unacknowledged operation of a blocked stream is sent again with a fresh limit (R285). -/
def State.restartStream (s : State) (ep : Ep) (ctx : Ctx) (n : BitVec 3) : State :=
  let t := s.thr ep ctx
  let st := t.stream n
  let now := s.dieCyc ep
  let s1 := s.setThr ep ctx (t.setStream n { st with
    err := false, unacked := st.unacked.map (fun (u : Sent) => { u with sentAt := now, tries := 0, backoff := none, resent := true }) })
  st.unacked.foldl (fun (s : State) u => s.inject u.pkt) s1

/-- The READs of a thread that reached their limit are sent again, with a fresh limit. -/
def State.restartReads (s : State) (ep : Ep) (ctx : Ctx) : State :=
  let t := s.thr ep ctx
  let now := s.dieCyc ep
  let s1 := s.setThr ep ctx { t with pend := t.pend.map (fun (p : Pending) =>
    { p with lanes := p.lanes.map (fun (l : Lane) => if l.spent then { l with tries := 0, sentAt := now } else l) }) }
  t.pend.foldl (fun (s : State) p =>
    (p.lanes.filter Lane.spent).foldl (fun (s : State) l => s.inject (l.req.readPacket ep ctx (laneKey p.id l.lane))) s) s1

/-! ## Actions on a resident thread (R280) -/

/-- The command of a record and its thread, when it stands stopped in the copy queue. -/
def Core.stoppedCopy (c : Core) (id : Nat) : Option CopyCmd := (c.copy? id).filter (fun k => k.phase = .stopped)

/-- A full eviction of a command's crew is under way (R46, R47). -/
def Core.evicting (c : Core) (k : CopyCmd) : Bool := ((c.crew? k.home k.lid).bind Crew.preempt).map Prod.fst = some 1

/-- EP, CTX and SEQ name a record (R280). -/
def Outstanding.named (o : Outstanding) (ep : Ep) (ctx : Ctx) (seq : BitVec 16) : Bool := o.ep = ep && o.ctx = ctx && o.seq = seq

/-- The copy command that a record is about, while its crew is where it was. -/
def Outstanding.command (o : Outstanding) : Option Nat := if o.src = 1 && !o.gone then some o.id else none

/-- What RESUME does for a record before the thread goes on. -/
def State.resumeCause (s : State) (ep : Ep) (ctx : Ctx) (o : Outstanding) : State :=
  if o.src = 1 then
    match o.command.bind (s.core ep).stoppedCopy with
    | some k => s.setCopy ep { k with phase := .running, fault := none, awaited := (s.core ep).evicting k }
    | none => s
  else if o.src = 0 && o.kind = 4 then
    if o.id < 8 then s.restartStream ep ctx (BitVec.ofNat 3 o.id) else s.restartReads ep ctx
  else s

/-- A thread with no outstanding record left is READY again at its PC, and its held matrix commands re-enter the queue (R249, R280). -/
def State.release (s : State) (ep : Ep) (ctx : Ctx) : State :=
  let s1 := s.setCore ep ((s.core ep).matrixResume ctx)
  s1.setThr ep ctx (Thread.settle { s1.thr ep ctx with status := .ready, wait := .none })

/-- RESUME resolves the oldest record. -/
def State.resumeThread (s : State) (ep : Ep) (ctx : Ctx) (o : Outstanding) : State :=
  let s1 := s.resumeCause ep ctx o
  let t := s1.thr ep ctx
  let s2 := s1.setThr ep ctx { t with outstanding := t.outstanding.drop 1 }
  if (s2.thr ep ctx).outstanding.isEmpty then s2.release ep ctx else s2

/-- A stopped command ends as failed, with no further record (R227, R280); what becomes of a CPX's later blocks, and of dwords of earlier ones not yet
pushed, is log 88's. (DESIGN CHOICE, notes/assumptions/88.md.) -/
def State.abortCopy (s : State) (ep : Ep) (id : Nat) : State :=
  match (s.core ep).stoppedCopy id with
  | some k => s.setCopy ep { k with phase := .failed, fault := none, buf := [] }
  | none => s

/-- The command of a record, if it stands stopped, ends as failed. -/
def State.abortRecord (s : State) (ep : Ep) (command : Option Nat) : State :=
  match command with
  | some id => s.abortCopy ep id
  | none => s

/-- An access that END discards: an operation of stream 0 not acknowledged, or a READ that was being sent again. -/
def Pending.discarded (p : Pending) : Bool :=
  p.kind.isAccess && p.lanes.any (fun l => l.tried || (l.req.op ≠ .load && (l.stage = .sent || l.stage = .unsent)))

/-- END: the thread ends as by QUIT, what it sent unacknowledged is discarded, and its other records hold its crew (R280, R303).
(DEDUCED, notes/assumptions/47.md.) -/
def State.endFaulted (s : State) (ep : Ep) (ctx : Ctx) (o : Outstanding) : State :=
  let s0 := s.abortRecord ep o.command
  let t := s0.thr ep ctx
  let c := s0.core ep
  let rest := (t.outstanding.drop 1).map (fun (x : Outstanding) => ({ ep := x.ep, seq := x.seq, ctx := x.ctx, copy := x.command } : Hold))
  let c1 : Core := { c with combine := c.combine.filter (fun e => e.ctx ≠ ctx) }
  let c2 := match c1.crew? t.home t.lid with
    | some w => c1.setCrew { w with holds := w.holds ++ rest }
    | none => c1
  let s1 := (s0.setCore ep c2).endThread ep ctx
  let t1 := s1.thr ep ctx
  let lost := t1.pend.filter Pending.discarded
  let s2 := lost.foldl (fun (s : State) p => s.dropDest ep p.dest) s1
  s2.setThr ep ctx { s2.thr ep ctx with
    outstanding := [], abandon := true, pend := t1.pend.filter (fun p => !p.discarded) }

/-- An action on a FAULTED thread's oldest record, with what MSTAT reports. -/
def State.actOn (s : State) (ep : Ep) (ctx : Ctx) (act : Nat) : State × BitVec 3 :=
  match (s.thr ep ctx).outstanding with
  | [] => (s, 1)
  | o :: _ =>
    match act with
    | 0 => (s.resumeThread ep ctx o, 0)
    | 1 => if o.src = 1 then (s.abortRecord ep o.command, 0) else (s, 2)
    | _ => (s.endFaulted ep ctx o, 0)

/-! ## SAVED threads and ended threads (R280, R291) -/

/-- A FAULTED thread's oldest record is the one that EP, CTX and SEQ name. -/
def Thread.faultedBy (t : Thread) (ep : Ep) (ctx : Ctx) (seq : BitVec 16) : Bool :=
  t.status = .faulted && t.outstanding.head?.any (fun o => o.named ep ctx seq)

/-- The FAULTED thread that EP, CTX and SEQ name, with the core and the context it is in now: those of its record, but for one that was saved and restored
elsewhere (R280). (DEDUCED, notes/assumptions/44.md.) -/
def State.faultedAt (s : State) (ep : Ep) (ctx : Ctx) (seq : BitVec 16) : Option (Ep × Ctx) :=
  if (s.thr ep ctx).faultedBy ep ctx seq then some (ep, ctx)
  else s.cores.findSome? (fun c => (List.range 16).findSome? (fun i =>
    let x : Ctx := BitVec.ofNat 4 i
    if (vget x c.2.threads).faultedBy ep ctx seq then some (BitVec.ofNat 22 c.1, x) else none))

/-- The SAVED thread whose oldest record EP, CTX and SEQ name, with its launch. -/
def State.savedOf (s : State) (ep : Ep) (ctx : Ctx) (seq : BitVec 16) : Option (Launch × Saved) :=
  s.launches.findSome? (fun l =>
    (l.saved.find? (fun w => w.outstanding.head?.any (fun o => o.named ep ctx seq))).map (fun w => (l, w)))

/-- RV: a resolution is recorded in CSTATE (R288). -/
def cstateRv (x : Dword) : Bool := bitOf x 59

/-- A resolution of a SAVED thread is recorded in its record, once (R291). -/
def State.recordAct (s : State) (w : Saved) (act : Nat) : State × BitVec 3 :=
  let x := s.peekDword (w.pa + 0xA20)
  if cstateRv x then (s, 1) else (s.amendDword (w.pa + 0xA20) (fun x => setFld (setFld x 59 1 1) 57 2 act), 3)

/-- EP, CTX and SEQ name an ended thread's record (R280). -/
def Hold.named (h : Hold) (ep : Ep) (ctx : Ctx) (seq : BitVec 16) : Bool := h.ep = ep && h.ctx = ctx && h.seq = seq

/-- The resident crew that an ended thread's record holds, wherever it is now, with its core and the hold. -/
def State.residentHold (s : State) (ep : Ep) (ctx : Ctx) (seq : BitVec 16) : Option (Ep × Crew × Hold) :=
  s.cores.findSome? (fun c => c.2.crews.findSome? (fun w => (w.holds.find? (fun h => h.named ep ctx seq)).map (fun h => (BitVec.ofNat 22 c.1, w, h))))

/-- The evicted crew that an ended thread's record holds. -/
def State.evictedHold (s : State) (ep : Ep) (ctx : Ctx) (seq : BitVec 16) : Option (Launch × Evicted × Hold) :=
  s.launches.findSome? (fun l => l.evicted.findSome? (fun e => (e.crew.holds.find? (fun h => h.named ep ctx seq)).map (fun h => (l, e, h))))

/-- ABORT or END disposes of an ended thread's record; the stopped command of a copy's record fails (R227, R280). -/
def State.dispose (s : State) (ep : Ep) (w : Crew) (h : Hold) : State :=
  let s1 := s.abortRecord ep h.copy
  s1.setCore ep ((s1.core ep).setCrew { w with holds := w.holds.filter (fun x => x ≠ h) })

/-- The record of an ended thread that EP, CTX and SEQ name is disposed of, wherever its crew is (R280). -/
def State.disposed (s : State) (ep : Ep) (ctx : Ctx) (seq : BitVec 16) : Option State :=
  match s.residentHold ep ctx seq, s.evictedHold ep ctx seq with
  | some (e, w, h), _ => some (s.dispose e w h)
  | none, some (l, v, h) => some (s.setLaunch { l with evicted := l.evicted.map (fun (x : Evicted) =>
      if x = v then { x with crew := { x.crew with holds := x.crew.holds.filter (fun y => y ≠ h) } } else x) })
  | none, none => none

/-! ## The end of a launch (R34, R193, R263) -/

/-- A launch is over: it leaves the system, and requests left for it in inboxes are discarded (R193). -/
def State.closeLaunch (s : State) (l : Launch) : State :=
  let key := launchKey l.home l.lid
  let s1 : State := { s with
    launches := s.launches.filter (fun x => !(x.home = l.home && x.lid = l.lid)),
    cores := s.cores.map (fun (w : Nat × Core) => (w.1, { w.2 with inbox := w.2.inbox.filter (fun m => m.lid ≠ key) })) }
  s1.idleQueue l.home l.queue

/-- A scheduler's fault: DF of the queue and a record of kind 10 (R262, R263, R273, R274). -/
def State.queueFault (s : State) (p : Pkg) (q : Nat) (lid : Lid) (reason object : Nat) (r : FaultReq) : State :=
  let asid := ((s.pkg p).queue q).asid
  let rec_ : FaultReq :=
    { kind := 10, src := 3, va := r.va, aux0 := BitVec.ofNat 64 reason, aux1 := r.kind.setWidth 64, aux2 := BitVec.ofNat 64 object,
      aux3 := if r.kind = 3 then r.aux0 else 0 }
  let ep : Ep := BitVec.ofNat 22 q
  let (s1, seq) := s.addRecord p (fun n => { ep := mkEp p 0 0x7FF, dwords := recordDwords ep 0 asid lid false true n 0 rec_ })
  let k := s1.pkg p
  let w := k.queue q
  s1.setPkg p (k.setQueue q { w with
    faults := w.faults ++ [{ seq := seq, reason := reason, object := object, lid := lid }], got := [], walkWait := .none, walkFault := none })

/-- A VA of a scheduler's access translated for a queue, whose miss has a walk served; a local address maps nothing (R56). A miss that the walk queue
refuses comes again after 64 cycles of core 0 of the die (R20, R80). (DESIGN CHOICE, notes/assumptions/72.md.) -/
def State.schedReach (s : State) (p : Pkg) (die : BitVec 1) (q : Nat) (va : Dword) (a : Access) : EngineReach :=
  let ep := mkEp p die 0
  let w := (s.pkg p).queue q
  if bitOf va 63 then .fault (xlatFault 1 va a 0)
  else
    match s.lookupGlobal ep q w.asid va a with
    | .ok pa s1 => .ok pa s1
    | .fault r => .fault r
    | .miss =>
      match w.walkFault.filter (fun f => f.page = va.toNat / 2 ^ 16) with
      | some f => .fault (f.fault va a)
      | none =>
        if w.walkWait.retries (s.core ep).cyc.toNat then
          let (s1, x) := s.requestWalk { ep := ep, queue := some q, need := a.need } w.asid va
          .wait (s1.setPkg p ((s1.pkg p).setQueue q { (s1.pkg p).queue q with walkWait := x }))
        else .wait s

/-- Why a scheduler's access gave nothing: a fault, or a walk that it waits for. -/
inductive SchedStop where
  | fault (r : FaultReq)
  | wait (s : State)
  deriving DecidableEq, Repr

/-- A scheduler's access that gave nothing: its fault is posted, or it is tried again later. -/
def State.schedStop (s : State) (p : Pkg) (q : Nat) (lid : Lid) (reason object : Nat) (e : SchedStop) : State :=
  match e with
  | .fault r => s.queueFault p q lid reason object r
  | .wait s1 => s1

/-- Dwords read by a scheduler, each as one ordinary access; a read of host memory that does not end well is poisoned (R314; the event's
`ev.status`). A home in a package that takes nothing is waited for (R321, R326). -/
def State.schedRead (s : State) (p : Pkg) (die : BitVec 1) (q : Nat) (va : Dword) : Nat → Except SchedStop (List Dword × State)
  | 0 => .ok ([], s)
  | n + 1 =>
    match s.schedReach p die q va .read with
    | .fault r => .error (.fault r)
    | .wait s1 => .error (.wait s1)
    | .ok pa s1 =>
      if s1.homeShut p pa then .error (.wait s1)
      else if s1.mem.poisoned pa || (paRegion pa = .host && s.ev.status ≠ 0) then
        .error (.fault { kind := 3, va := va, aux0 := BitVec.ofNat 64 (dwordAt pa) })
      else
        match s1.schedRead p die q (va + 8) n with
        | .error e => .error e
        | .ok (xs, s2) => .ok (s1.peekDword pa :: xs, s2)

/-- The completion counter's update, one event at its home: 1 is added, the word is full, its waiters are served; the aborted code also
sets bit 63 (R263). It is no push (R76). It waits for a home in a package that takes nothing (R321, R326). -/
def State.updateCounter (s : State) (l : Launch) (aborted : Bool) : Except SchedStop State :=
  let va := l.dw 5
  if va = 0 then .ok s
  else
    match s.schedReach l.home 0 l.queue va .atomic with
    | .fault r => .error (.fault r)
    | .wait s1 => .error (.wait s1)
    | .ok pa0 s1 =>
      let pa := dwordAt pa0
      if !paHasFe pa then .error (.fault (xlatFault 2 va .atomic 0))
      else if s1.homeShut l.home pa then .error (.wait s1)
      else if s1.mem.poisoned pa then .error (.fault { kind := 3, va := va, aux0 := BitVec.ofNat 64 pa })
      else
        let old := s1.mem.read pa 8
        let new := if aborted then 2 ^ 63 + (old + 1) % 2 ^ 63 else (old + 1) % 2 ^ 64
        .ok (({ (s1.noteRing pa 8) with mem := (s1.mem.write pa 8 new).setFull pa true }).serve pa)

/-- A launch ends with its counter's update, plain or aborted; a fault of the update leaves it incomplete, and while the update waits for a walk the
launch is still to be completed (R34, R56, R263). -/
def State.finishLaunch (s : State) (l : Launch) (aborted : Bool) : State :=
  match s.updateCounter l aborted with
  | .ok s1 => s1.closeLaunch l
  | .error (.wait s1) => s1.setLaunch { l with phase := (if aborted then .aborted else .running), counted := false }
  | .error (.fault r) =>
    (s.setLaunch { l with phase := (if aborted then .aborted else .done), counted := true }).queueFault l.home l.queue l.lid 7 4 r

/-- A launch whose threads and crews are gone and which nothing is owed (R34). -/
def State.launchEmpty (s : State) (l : Launch) : Bool :=
  l.live = 0 && l.spawning = 0 && l.saved.isEmpty && l.evicted.isEmpty && s.cores.all (fun c => (c.2.crew? l.home l.lid).isNone)

/-- The head launch is aborted: HEAD advances, and the launch ends with the aborted code once nothing of it is left, in a teardown in its turn (R262, R263,
R269 step 4, R280). -/
def State.abortHead (s : State) (p : Pkg) (q : Nat) (l : Launch) (phase : LaunchPhase) : State :=
  let l1 := { l with phase := phase }
  let s1 := (s.setLaunch l1).advanceHead p q
  if s1.launchEmpty l1 && !((s1.pkg p).queue q).tearing then s1.finishLaunch l1 true else s1

/-! ## Records of a queue (R280) -/

/-- An action on a queue's oldest record. In a teardown a counter's update that is to be repeated comes in its turn (R269 step 4). -/
def State.actOnQueue (s : State) (p : Pkg) (q : Nat) (act : Nat) : State × BitVec 3 :=
  let k := s.pkg p
  let w := k.queue q
  match w.faults with
  | [] => (s, 1)
  | f :: rest =>
    let s1 := s.setPkg p (k.setQueue q { w with faults := rest })
    let l := s1.launch? p f.lid
    match act with
    | 0 =>
      (match f.reason, l with
       | 7, some x => if w.tearing then s1.setLaunch { x with phase := .aborted, counted := false } else s1.finishLaunch x (x.phase = .aborted)
       | _, _ => s1, 0)
    | 1 =>
      (match f.reason, l with
       | 7, some x => s1.closeLaunch x
       | 7, none => s1
       | _, some x => s1.abortHead p q x .aborted
       | _, none => s1.advanceHead p q, 0)
    | _ => (s, 2)

/-- RESOLVE (R280, R291): of a FAULTED thread, an ended thread's record, a SAVED thread, or a queue. -/
def State.resolve (s : State) (p : Pkg) (act : Nat) (ep : Ep) (ctx : Ctx) (seq : BitVec 16) : State × BitVec 3 :=
  let q := ep.toNat % 4096
  match (if epPkg ep = p then s.faultedAt ep ctx seq else none) with
  | some (e, x) => s.actOn e x act
  | none =>
    match s.disposed ep ctx seq, s.savedOf ep ctx seq with
    | some s1, _ => if act = 0 then (s, 1) else (s1, 0)
    | none, some (_, w) => s.recordAct w act
    | none, none =>
      if ((s.pkg p).queue q).faults.head?.map (fun f => f.seq) = some seq && ctx = 0 then s.actOnQueue p q act else (s, 1)

end Sys2Proof.Machine
end

