-- ==== Sys2Proof/Machine/Restore.lean ====
section
/-! DEFINITION. Restoring SAVED threads and evicted crews (R47, R64, R193, R287 to R291). -/

namespace Sys2Proof.Machine

/-! ## The thread record (R288) -/

/-- The thread a record holds; reserved bits of a register read zero (R2, R288). -/
def State.recordThread (s : State) (pa : Nat) : Thread :=
  let d (o : Nat) : Dword := s.peekDword (pa + o)
  let regs : Thread := ((List.range 19).zip recordSregs).foldl (fun (t : Thread) n => t.putSreg n.2 (d (0x920 + 8 * n.1))) {}
  { regs with
    v := Vector.ofFn (fun i => BitVec.ofNat 512 (s.mem.read (pa + 64 * i.val) 64)),
    k := Vector.ofFn (fun i => d (0x800 + 8 * i.val)),
    g := Vector.ofFn (fun i => if 1 ≤ i.val && i.val ≤ 27 then d (0x838 + 8 * i.val) else 0),
    full := (BitVec.ofNat 32 (d 0x918).toNat &&& fullMask) ||| ~~~fullMask,
    streams := Vector.ofFn (fun i => { epoch := fld (d (0x9B8 + 8 * i.val)) 61 1, seq := fld (d (0x9B8 + 8 * i.val)) 37 16 }),
    header := if bitOf (d 0xA00) 63 then some (d 0x9F8) else none, restGone := (fld (d 0xA00) 0 3).toNat,
    slotHome := fld (d 0xA10) 0 22,
    arrived := BitVec.ofNat 4 (packNats 1 ((List.range 4).map (fun i => b2n (bitOf (d 0xA18) (8 * i + 7))))),
    episode := Vector.ofFn (fun i => fld (d 0xA18) (8 * i.val) 7) }

/-! ## Spill entries (R193, R290) -/

/-- Delivers one spill entry to a restored thread: the rest of a message, a reply into a slot of the core, or a release. One whose dwords carry the mark
leaves its slot in error, any other the thread's PC (R283; notes/assumptions/78.md). -/
def State.deliverSpill (s : State) (ep : Ep) (ctx : Ctx) (request marked : Bool) (e : List Dword) : State :=
  let s := if marked && e.headD 0 ≠ 0 then s.setCore ep { s.core ep with badRegs := (ctx, regCode 4 0 0) :: (s.core ep).badRegs } else s
  let t := s.thr ep ctx
  match e with
  | k :: x :: r =>
    if k = 2 then
      s.setThr ep ctx (if request && t.restMsg.isEmpty then { t with restMsg := x :: r } else { t with restReply := x :: r })
    else if k = 0 then
      match (s.core ep).freeSlot with
      | some i =>
        s.fillSlot ep i ctx (x, r) marked
      | none => s
    else
      match s.launch? t.home t.lid with
      | none => s
      | some l =>
        let g : BitVec 8 := fld x 0 8
        let s1 := s.setThr ep ctx (t.forget l g)
        if t.wait = .barrier g && t.waitFrom ≠ 0 then s1.completeHeld ep ctx (r.headD 0) else s1
  | _ => s

/-- Messages among a SAVED thread's spill entries. -/
def Saved.replies (w : Saved) : Nat := (w.spill.filter (fun e => e.headD 1 = 0)).length

/-- Free reply slots of a core. -/
def Core.freeSlots (c : Core) : Nat := (c.replies.toList.filter (fun w => w.owner.isNone && w.saved.isNone)).length

/-! ## A thread (R47, R291) -/

/-- The wait a restored thread is in: a BAR it has arrived at, or its MMT still queued on the core. -/
def Saved.resumeWait (w : Saved) (c : Core) : Wait :=
  match w.wait with
  | .barrier g => .barrier g
  | .matrixCommand id => if c.mq.any (fun m => m.id = id) then .matrixCommand id else .none
  | _ => .none

/-- A SAVED thread takes a context of its crew with the state its record holds, a poisoned dword giving an entry with an uncorrectable error; its
spill queue is delivered, the slots its record names on this core are its own, and a recorded resolution is applied; dwords read ahead are not read again (R46,
R59, R283, R288, R290, R291). A BARW's limit counts anew from here.
(DESIGN CHOICE, notes/assumptions/52.md.) -/
def State.restoreThread (s : State) (ep : Ep) (ctx : Ctx) (l : Launch) (w : Saved) : State :=
  let s0 := s.setLaunch { l with
    saved := l.saved.filter (fun x => x.lti ≠ w.lti), ahead := l.ahead.filter (fun x => decide (x.pa < w.pa ∨ w.pa + 0x1800 ≤ x.pa)) }
  let frame : State := { s with mem := s.mem.putAll l.ahead }
  let cs := frame.peekDword (w.pa + 0xA20)
  let faulted : Bool := fld cs 60 4 = 8
  let request := bitOf (frame.peekDword (w.pa + 0xA00)) 62
  let r := frame.recordThread w.pa
  let s1 := s0.seat ep ctx l r
  let c := s1.core ep
  let kept := w.resumeWait c
  let t : Thread := { vget ctx c.threads with lid := r.lid, asid := r.asid }
  let t1 : Thread := Thread.settle { t with
    status := (if faulted then Status.faulted else match kept with
      | .barrier _ => Status.parked .barrier
      | .matrixCommand _ => Status.parked .matrix
      | _ => Status.ready),
    wait := (match kept with | .barrier g => .barrier g | x => if faulted then .none else x),
    waitFrom := if kept = .none then 0 else c.cyc.toNat + 1, waitLimit := w.heldLimit, heldDest := w.heldDest, heldNext := w.heldNext,
    nextId := t.nextId + w.pend.length, pend := w.pend, shadow := w.shadow, stepTrap := w.stepTrap, arrived255 := w.arrived255,
    outstanding := w.outstanding }
  let slot (i : Nat) (x : Slot) : Slot :=
    if x.saved = some (launchKey l.home l.lid, w.lti) then (if r.slotHome = ep && !bitOf (frame.peekDword (w.pa + 0xA08)) i then {} else { owner := some ctx })
    else if r.slotHome = ep && bitOf (frame.peekDword (w.pa + 0xA08)) i && x.owner.isNone && x.saved.isNone then { owner := some ctx }
    else x
  let marked := (List.range w.spill.length).map (fun n => frame.mem.anyMarked (w.pa + 0xA80 + 48 * n) 6)
  let c1 : Core := { c with
    badRegs := c.badRegs ++ (frame.mem.markedEntries w.pa (threadEntries ++ otherEntries)).map (fun code => (ctx, code)) ++
      (if w.spoiled then [(ctx, regCode 4 0 0)] else []),
    fresh := c.fresh.filter (fun x => x.1 ≠ ctx),
    replies := c.replies.mapIdx slot,
    crews := c.crews.map (fun (x : Crew) => if x.home = l.home && x.lid = l.lid then { x with parkedIn := false } else x) }
  let s2 := s1.setCore ep (c1.setThr ctx t1)
  let s3 := (marked.zip w.spill).foldl (fun (s : State) e => s.deliverSpill ep ctx request e.1 e.2) s2
  let s4 := if faulted then
      (if cstateRv cs then (s3.actOn ep ctx (fld cs 57 2).toNat).1 else s3)
    else s3.setCore ep ((s3.core ep).matrixResume ctx)
  s4.freeFrame (epPkg ep) w.frame

/-! ## A crew (R47, R289) -/

/-- A renumbering of commands. -/
def renumber (ids : List (Nat × Nat)) (id : Nat) : Nat := Assoc.get ids id id

/-- What a SAVED thread knows of its matrix commands, renumbered. -/
def Saved.renumber (w : Saved) (ids : List (Nat × Nat)) : Saved :=
  { w with
    wait := (match w.wait with | .matrixCommand id => .matrixCommand (Machine.renumber ids id) | x => x),
    pend := w.pend.map (fun (p : Pending) =>
      { p with kind := match p.kind with | .matrix id m => .matrix (Machine.renumber ids id) m | x => x }) }

/-- The engine set of a core record; a poisoned dword restores an entry with an uncorrectable error, and a core queue's dwords stand from entry 0 up (R283,
R289). (DESIGN CHOICE, notes/assumptions/99.md.) -/
def State.loadEngines (s : State) (at_ : Nat) (c : Core) (e : Evicted) : Core :=
  let d (o : Nat) : Dword := s.peekDword (at_ + o)
  { c with
    acc := Vector.ofFn (fun m => Vector.ofFn (fun i => fld (d (0x800 * m.val + 8 * i.val)) 0 48)),
    ast := Vector.ofFn (fun i => d (0x2000 + 8 * i.val) &&& astField), apc := Vector.ofFn (fun i => d (0x2020 + 8 * i.val) &&& apcField),
    rings := Vector.ofFn (fun i => d (0x2040 + 8 * i.val)),
    cq := Vector.ofFn (fun i => { data := (List.range ((d (0x2080 + 8 * i.val)).toNat % 33)).map (fun n => d (0x20C0 + 0x100 * i.val + 8 * n)),
                                  reserved := e.reserved.getD i.val 0 }),
    ringNext := e.ringNext, ringTails := e.ringTails, ringDone := [],
    badRegs := c.badRegs.filter (fun b => !codeOfCore b.2 || codeFile b.2 = 6) ++ (s.mem.markedEntries at_ (engineEntries [] ++ countEntries)).map (fun code => (0, code)) }

/-- The register error of a saved command, which no register code of R275 names: that of PC. (DESIGN CHOICE, notes/assumptions/78.md.) -/
def commandFault : FaultReq := registerFault (regCode 4 0 0)

/-- A command saved before it started enters the copy queue of a core again: it starts after the table loads there that write a slot it names, and
its slots are counted (R47, R224, R241). One whose thread has ended and whose dwords in the record carried the mark fails instead, with a register error
(R283, R284). (DESIGN CHOICE, notes/assumptions/78.md.) That the queue has room for it the crew's restore sees to (`State.crewFits`; DESIGN CHOICE,
notes/assumptions/99.md). -/
def Core.requeue (c : Core) (base size : Nat) (k : CopyCmd) (marked : Bool) : Core :=
  let k1 : CopyCmd := { k with
    id := c.nextCmd, cqe := c.freeCqe, cgb := BitVec.ofNat 24 base, cgl := BitVec.ofNat 24 (base + size),
    after := (c.copies.filter (fun (x : CopyCmd) => x.writesSlot && k.named.contains x.slot)).map CopyCmd.id }
  let k2 := if marked && k1.ended then { k1 with phase := .failed, fault := some (k1.faultAt commandFault 0) } else k1
  { c with copies := c.copies ++ [k2], nextCmd := c.nextCmd + 1 }.countRefs k.refs true

/-- The copy commands of an evicted crew in turn, each with whether one of its dwords in the core record carries the mark (R283, R289). -/
def Evicted.readCopies (e : Evicted) (m : Memory) (at_ : Nat) : List (CopyCmd × Bool) :=
  e.copies.zip ((List.range e.copies.length).map (fun i => m.anyMarked (at_ + 0x2A00 + 128 * i) 16))

/-- Its matrix commands likewise. -/
def Evicted.readMatrix (e : Evicted) (m : Memory) (at_ : Nat) : List (MxCmd × Bool) :=
  e.mq.zip ((List.range e.mq.length).map (fun i => m.anyMarked (at_ + 0x3A00 + 128 * i) 16))

/-- The threads of an evicted crew that have a command one of whose dwords in the core record carries the mark (R283, R289). -/
def Evicted.spoiled (e : Evicted) (m : Memory) (at_ : Nat) : List (BitVec 24) :=
  ((e.readCopies m at_).filter Prod.snd).map (fun x => x.1.lti) ++ ((e.readMatrix m at_).filter Prod.snd).map (fun x => x.1.lti)

/-- The dwords of a saved allocation, each to be written where the crew's granary now is (R59, R287). -/
def Memory.allocation (m : Memory) (src dst size : Nat) : List FrameDword :=
  (List.range (size / 8)).map (fun i => { m.capture (src + 8 * i) with pa := dst + 8 * i })

/-- Dwords that the restore of a crew still owes its allocation are written, each as one event: those named of the first crew that has any, or all that are
left of it (R59, R287). -/
def State.payOwed (s : State) (ep : Ep) (parts : List Nat) : State :=
  match (s.core ep).crews.find? (fun w => !w.owed.isEmpty) with
  | none => s
  | some w =>
    let now := if parts.isEmpty then w.owed else parts.filterMap (fun i => w.owed[i]?)
    let s1 := s.setCore ep ((s.core ep).setCrew { w with owed := w.owed.filter (fun x => !now.contains x) })
    { s1 with mem := s1.mem.putAll now }

/-- An evicted crew is restored on a core with room for it: its allocation, its engine set, its copies in order; dwords read ahead are not read again
(R47, R59, R287). Where the event's `ev.n` is not 0, the dwords of the allocation are written later, each as an event of its own (R59;
notes/assumptions/9.md). A mark on a command's dwords is an error of its thread's PC, and ends a command whose thread has ended. (DESIGN CHOICE,
notes/assumptions/78.md.) -/
def State.restoreCrew (s : State) (ep : Ep) (l : Launch) (e : Evicted) : State :=
  let size := e.crew.limit.toNat - e.crew.base.toNat
  let base := ((s.core ep).fit size).getD 0
  let frame := (s.pkg (epPkg ep)).frameAt e.frame
  let s1 := s.addCrew ep l base size
  let image := s1.mem.putAll l.ahead
  let moved := if s.ev.n = 0 then image.moveRange (frame + 0x1C000) (granaryPa ep base) size else image
  let owed := if s.ev.n = 0 then [] else image.allocation (frame + 0x1C000) (granaryPa ep base) size
  let s2 : State := { s1 with mem := moved.putAll (l.ahead.map (fun x => s1.mem.capture x.pa)) }
  let spoiled := e.spoiled moved (frame + 0x18000)
  let c0 := s2.core ep
  let c1 := match c0.crew? l.home l.lid with
    | some w => c0.setCrew { w with holds := e.crew.holds, owed := owed }
    | none => c0
  let c2 := if e.crew.eset then ({ s2 with mem := moved } : State).loadEngines (frame + 0x18000) { c1 with tampered := e.tampered.map (fun o => granaryPa ep base + o) } e else c1
  let first := c2.nextCmd
  let n := e.mq.length
  let ids := (List.range n).map (fun i => ((e.mq.getD i {}).id, first + i))
  let mq := e.mq.map (fun (m : MxCmd) => { m with id := renumber ids m.id })
  let c3 : Core := { c2 with mq := c2.mq ++ mq, nextCmd := first + n }
  let s3 := s2.setCore ep ((e.readCopies moved (frame + 0x18000)).foldl (fun (c : Core) k => c.requeue base size k.1 k.2) c3)
  let lost := (mq.zip (e.readMatrix moved (frame + 0x18000))).filter (fun x => x.1.ended && x.2.2)
  let s3 := lost.foldl (fun (s : State) x => (s.leaveMatrix ep x.1).postCommand ep x.1 commandFault) s3
  match s3.launch? l.home l.lid with
  | some x => s3.setLaunch { x with
      evicted := x.evicted.filter (fun y => y.frame ≠ e.frame),
      ahead := x.ahead.filter (fun y => decide (y.pa < frame + 0x18000 ∨ frame + (s.pkg (epPkg ep)).frameSize ≤ y.pa)),
      saved := x.saved.map (fun (w : Saved) =>
        if w.frame = e.frame then { (w.renumber ids) with place := some ep, spoiled := spoiled.contains w.lti } else w) }
  | none => s3

/-- An evicted crew may be restored on a core: its crew may form there, and the copy queue has entries for its commands (R16, R30, R31, R47).
(DESIGN CHOICE, notes/assumptions/99.md.) -/
def State.crewFits (s : State) (ep : Ep) (l : Launch) (e : Evicted) : Bool :=
  let c := s.core ep
  l.selects ep && (c.crew? l.home l.lid).isNone && c.mayForm (e.crew.limit.toNat - e.crew.base.toNat) e.crew.eset &&
    decide (c.copies.length + e.copies.length ≤ 32)

/-- A SAVED thread is free to resume on a core, once a context is FREE: its crew has fewer threads than the limit, and the replies of its spill queue have
free slots (R47, R193, R264). (DESIGN CHOICE, notes/assumptions/101.md.) -/
def State.resumable (s : State) (ep : Ep) (l : Launch) (w : Saved) : Bool :=
  let c := s.core ep
  decide (c.crewThreads l.home l.lid < l.perCore) && decide (w.replies ≤ c.freeSlots) &&
    (match w.place with
     | some e => e = ep && (match c.crew? l.home l.lid with | some x => x.preempt.isNone && !x.tearing | none => false)
     | none => (match l.evicted.find? (fun e => e.frame = w.frame) with
       | some e => s.crewFits ep l e
       | none => false))

/-- The evicted crews of a core's package that no SAVED thread is left to bring back, and that the core may take (R47, R257). -/
def State.threadless (s : State) (ep : Ep) : List (Launch × Evicted) :=
  let p := epPkg ep
  s.launches.flatMap (fun l =>
    let w := (s.pkg p).queue l.queue
    if l.home = p && w.enabled && !w.tearing && !s.heldFrom ep l.queue w.pri then
      (l.evicted.filter (fun e => l.saved.all (fun x => x.frame ≠ e.frame) && s.crewFits ep l e)).map (fun e => (l, e))
    else [])

/-- An evicted crew without threads, which its queued commands hold, is restored by itself (R47, R257). (DESIGN CHOICE, notes/assumptions/100.md.) -/
def State.restoreThreadless (s : State) (ep : Ep) : State :=
  match (s.threadless ep).head? with
  | none => s
  | some (l, e) => (s.restoreCrew ep l e).freeFrame (epPkg ep) e.frame

/-- Restores a SAVED thread into a context of a core on which it may resume, with its crew when that was evicted. -/
def State.restoreAt (s : State) (ep : Ep) (ctx : Ctx) (l : Launch) (w : Saved) : State :=
  let s1 := match w.place, l.evicted.find? (fun e => e.frame = w.frame) with
    | none, some e => s.restoreCrew ep l e
    | _, _ => s
  match s1.launch? l.home l.lid with
  | none => s1
  | some l1 =>
    match l1.saved.find? (fun x => x.lti = w.lti) with
    | some x => s1.restoreThread ep ctx l1 x
    | none => s1

end Sys2Proof.Machine
end

