-- ==== Sys2Proof/Machine/Scheduler.lean ====
section
/-! DEFINITION. The schedulers: TAIL writes, head records, dependences, placement at rotation boundaries, co-resident holds, priority
pre-emption, completion and teardown (R259 to R266, R269). The events read `ev.pkg`, `ev.q`, `ev.tail`, `ev.die`, `ev.lid` and `ev.ep`. -/

namespace Sys2Proof.Machine

/-- Replaces a launch queue of a package. -/
def State.setQ (s : State) (p : Pkg) (q : Nat) (w : Queue) : State := s.setPkg p ((s.pkg p).setQueue q w)

/-! ## TAIL and the head record (R260 to R262) -/

/-- A host write of TAIL; one back to HEAD may leave the queue idle (R259, R260, R264, R269). -/
def State.writeTail (s : State) (p : Pkg) (q : Nat) (tail : Word) : State :=
  let w := (s.pkg p).queue q
  if w.device || w.tearing || (s.pkg p).state = 4 then s
  else if w.slots < (tail - w.head).toNat then s.setQ p q { w with ovf := true }
  else (s.setQ p q { w with tail := tail }).idleQueue p q

/-- LQPTR_TAIL_WRITE. -/
def execLqptrTailWrite (s : State) : Out := .next (s.writeTail s.ev.pkg s.ev.q.toNat s.ev.tail)

/-- The schedulers of a package work: it is not quiesced (R326). -/
def State.schedules (s : State) (p : Pkg) : Bool := !(s.pkg p).halted

/-- Reserved bits of a record (R261). -/
def recordReserved (r : List Dword) : Bool :=
  fld (r.getD 2 0) 62 2 ≠ 0 || (List.range 4).any (fun i => fld (r.getD (12 + i) 0) 55 9 ≠ 0 || bitOf (r.getD (12 + i) 0) 2)

/-- The reason a head record is aborted (R262, R274): the first of those that hold. (DESIGN CHOICE, notes/assumptions/95.md.) -/
def Launch.badReason (l : Launch) (asid : Asid) : Option Nat :=
  if recordReserved l.record then some 1
  else if l.asid ≠ asid then some 2
  else if 0x800000 < (fld (l.dw 2) 32 24).toNat then some 3
  else if l.dw 4 = 0 || (l.dw 4).toNat % 8 ≠ 0 then some 4
  else if l.co && decide (l.perCore * l.cores.length < l.threads) then some 5
  else none

/-- The record of an aborted launch (R262, R274). -/
def State.postLaunch (s : State) (p : Pkg) (q : Nat) (l : Launch) (reason : Nat) : State :=
  let asid := ((s.pkg p).queue q).asid
  let r : FaultReq := { kind := 10, src := 3, aux0 := BitVec.ofNat 64 reason }
  (s.addRecord p (fun n => { ep := mkEp p 0 0x7FF, dwords := recordDwords (BitVec.ofNat 22 q) 0 asid l.lid false false n 0 r })).1

/-- A launch enters the system, in place of one of its name. -/
def State.putLaunch (s : State) (l : Launch) : State :=
  { s with launches := s.launches.filter (fun (x : Launch) => x.lid ≠ l.lid || x.home ≠ l.home) ++ [l] }

/-- A dword that the scheduler has read of an object of its head. -/
def Queue.gotAt (w : Queue) (i : Nat) : Option Dword := (w.got.find? (fun x => x.1 = i)).map Prod.snd

/-- Reads dwords of an object of a queue's head that have not been read yet, each as one ordinary access; they are kept under their numbers from
`base` up (R59, R262). -/
def State.schedFill (s : State) (p : Pkg) (die : BitVec 1) (q : Nat) (va : Dword) (base : Nat) : List Nat → Except SchedStop State
  | [] => .ok s
  | i :: r =>
    if (((s.pkg p).queue q).gotAt (base + i)).isSome then s.schedFill p die q va base r
    else
      match s.schedRead p die q (va + BitVec.ofNat 64 (8 * i)) 1 with
      | .error e => .error e
      | .ok (xs, s1) =>
        let w := (s1.pkg p).queue q
        (s1.setQ p q { w with got := Assoc.set w.got (base + i) (xs.headD 0) }).schedFill p die q va base r

/-- The `n` dwords of an object of a queue's head, once all have been read: an event reads those that `parts` names from `base` up, or all that are
left (R59). -/
def State.schedGather (s : State) (p : Pkg) (die : BitVec 1) (q : Nat) (va : Dword) (base n : Nat) (parts : List Nat) :
    Except SchedStop (Option (List Dword) × State) :=
  let begun := ((s.pkg p).queue q).got.any (fun x => decide (base ≤ x.1 ∧ x.1 < base + n))
  if parts.isEmpty && !begun then
    match s.schedRead p die q va n with
    | .error e => .error e
    | .ok (xs, s1) => .ok (some xs, s1)
  else
    let now := if parts.isEmpty then List.range n else (parts.filter (fun i => decide (base ≤ i ∧ i < base + n))).map (fun i => i - base)
    match s.schedFill p die q va base now with
    | .error e => .error e
    | .ok s1 =>
      let xs := (List.range n).map (fun i => ((s1.pkg p).queue q).gotAt (base + i))
      .ok (if xs.all Option.isSome then some (xs.map (fun x => x.getD 0)) else none, s1)

/-- The membership dwords of a co-resident launch, which its scheduler may read before it places it (R41, R265). -/
def State.readAhead (s : State) (p : Pkg) (q : Nat) (die : BitVec 1) (l : Launch) : State :=
  match s.schedGather p die q (l.dw 4 + 2048) 272 l.threads s.ev.parts with
  | .error r => s.schedStop p q l.lid 6 2 r
  | .ok (_, s1) => s1

/-- A record that has become head is read and checked; its group table is read (R41, R260, R262). Of their dwords an event reads those that `ev.parts`
names, 0 to 15 of the record and from 16 up of the table, or all (R59). (DESIGN CHOICE, notes/assumptions/45.md.) -/
def State.checkHead (s : State) (p : Pkg) (q : Nat) (die : BitVec 1) : State :=
  let w := (s.pkg p).queue q
  let lid := lidOf q w.head
  match s.schedGather p die q (w.slotVa w.head) 0 16 s.ev.parts with
  | .error r => s.schedStop p q lid 6 1 r
  | .ok (none, s1) => s1
  | .ok (some record, s1) =>
    let l : Launch := { home := p, lid := lid, record := record }
    match l.badReason w.asid with
    | some n => ((s1.putLaunch l).postLaunch p q l n).abortHead p q l .aborted
    | none =>
      match s1.schedGather p die q (l.dw 4) 16 256 s.ev.parts with
      | .error (.wait s2) => s2
      | .error (.fault r) => (s1.putLaunch l).queueFault p q lid 6 2 r
      | .ok (none, s2) => s2
      | .ok (some table, s2) =>
        (s2.putLaunch { l with counts := (table.take 255).map (fun x => fld x 0 24) }).setQ p q { (s2.pkg p).queue q with checked := true, got := [] }

/-- HEAD_RECORD_CHECK; of a co-resident head already checked, `ev.parts` from 272 up names membership dwords that are read ahead (R265). -/
def execHeadRecordCheck (s : State) : Out :=
  let p := s.ev.pkg
  let q := s.ev.q.toNat
  let w := (s.pkg p).queue q
  .next (if !(w.enabled && !w.tearing && !w.blocked && w.head ≠ w.tail && s.schedules p) then s
    else if !w.checked then s.checkHead p q s.ev.die
    else
      match s.head? p q with
      | some l => if l.co && !s.ev.parts.isEmpty then s.readAhead p q s.ev.die l else s
      | none => s)

/-! ## Dependences (R263) -/

/-- Reads the unsatisfied dependences of a head launch: what became satisfied, which stands though a later one faults or waits for a walk, and whether bit
63 was set then (R263). -/
def State.pollDeps (s : State) (p : Pkg) (q : Nat) (die : BitVec 1) (l : Launch) : List Nat → State × Launch
  | [] => (s, l)
  | i :: r =>
    let a := l.dw (12 + i)
    if !bitOf a 0 || l.satisfied.getLsbD i then s.pollDeps p q die l r
    else
      match s.schedRead p die q (BitVec.ofNat 64 ((fld a 3 52).toNat * 8)) 1 with
      | .error e => (s.schedStop p q l.lid 6 3 e, l)
      | .ok (xs, s1) =>
        let x := xs.headD 0
        let l1 : Launch := if (fld (l.dw 3) (16 * i) 16).toNat ≤ x.toNat % 2 ^ 63 then
            { l with satisfied := putBit l.satisfied i true, tainted := putBit l.tainted i (bitOf x 63) }
          else l
        (s1.setLaunch l1).pollDeps p q die l1 r

/-- A satisfied dependence was aborted and does not run all the same (R263). -/
def Launch.skips (l : Launch) : Bool := (List.range 4).any (fun i => bitOf (l.dw (12 + i)) 0 && l.tainted.getLsbD i && !bitOf (l.dw (12 + i)) 1)

/-- DEPENDENCE_POLL: the head's dependences are read again; a launch whose dependence was aborted is skipped (R263). -/
def execDependencePoll (s : State) : Out :=
  let p := s.ev.pkg
  let q := s.ev.q.toNat
  let w := (s.pkg p).queue q
  .next (match s.head? p q with
    | none => s
    | some l =>
      if !w.enabled || w.tearing || w.blocked || l.ready || !s.schedules p then s
      else
        let (s1, l1) := s.pollDeps p q s.ev.die l [0, 1, 2, 3]
        if l1.ready && l1.skips then s1.abortHead p q l1 .skipped else s1)

/-! ## Completion (R34, R263) -/

/-- LAUNCH_COMPLETE: a launch of which nothing is left updates its counter (R34, R70, R263). -/
def execLaunchComplete (s : State) : Out :=
  .next (match s.launch? s.ev.pkg s.ev.lid with
    | none => s
    | some l =>
      let past := l.phase = .running || l.phase = .aborted || l.phase = .skipped
      if past && !l.counted && s.launchEmpty l && !((s.pkg l.home).queue l.queue).tearing && s.schedules l.home then
        s.finishLaunch l (l.phase ≠ .running)
      else s)

/-! ## What a queue may place at a core (R264, R265) -/

/-- What a queue would place: a new thread, a SAVED one, a co-resident launch whole, or its SAVED crews whole. -/
inductive Pick where
  | fresh (l : Launch)
  | saved (l : Launch) (w : Saved)
  | whole (l : Launch) (plan : List (Ep × Nat))
  | wholeSaved (l : Launch) (plan : List (Nat × Ep))
  deriving DecidableEq, Repr

/-- Threads a co-resident launch would place on a core. -/
def State.roomFor (s : State) (ep : Ep) (l : Launch) : Nat :=
  let c := s.core ep
  if s.heldFrom ep l.queue ((s.pkg l.home).queue l.queue).pri || !c.crewReady l then 0 else min c.freeCtx.length l.perCore

/-- The cores of a co-resident launch with their numbers of threads, while `n` are left. -/
def State.coPlanFrom (s : State) (l : Launch) : List Ep → Nat → Option (List (Ep × Nat))
  | _, 0 => some []
  | [], _ => none
  | ep :: r, n + 1 =>
    let k := min (s.roomFor ep l) (n + 1)
    (s.coPlanFrom l r (n + 1 - k)).map (fun plan => if k = 0 then plan else (ep, k) :: plan)

/-- Where a co-resident launch's threads go, when all can be placed at once (R265). -/
def State.coPlan (s : State) (l : Launch) : Option (List (Ep × Nat)) := s.coPlanFrom l l.cores l.threads

/-- The frames of a launch's SAVED threads, in order of saving. -/
def Launch.frames (l : Launch) : List Nat := (l.saved.map Saved.frame).eraseDups

/-- Where a co-resident launch's SAVED crews go, when all can be restored at once, each core within the launch's limit of threads: in order of saving, each
to the first core that fits it then (R47, R265). (DESIGN CHOICE, notes/assumptions/45.md.) -/
def State.coRestore (s : State) (l : Launch) : List Nat → List Ep → Option (List (Nat × Ep))
  | [], _ => some []
  | f :: r, used =>
    let ws := l.saved.filter (fun w => w.frame = f)
    let need := ws.length
    let replies := (ws.map Saved.replies).sum
    let fits (ep : Ep) : Bool :=
      let c := s.core ep
      !used.contains ep && decide (need ≤ c.freeCtx.length ∧ c.crewThreads l.home l.lid + need ≤ l.perCore ∧ replies ≤ c.freeSlots) &&
        !s.heldFrom ep l.queue ((s.pkg l.home).queue l.queue).pri &&
        (match l.evicted.find? (fun e => e.frame = f) with
         | some e => s.crewFits ep l e
         | none => ws.all (fun w => w.place = some ep))
    match l.cores.find? fits with
    | some ep => (s.coRestore l r (ep :: used)).map (fun plan => (f, ep) :: plan)
    | none => none

/-- The earliest saved of some choices, each with its order of saving. -/
def firstSaved : List (Nat × Pick) → Option (Nat × Pick)
  | [] => none
  | x :: r => match firstSaved r with
    | some y => if y.1 < x.1 then some y else some x
    | none => some x

/-- No crew of a launch is still being saved. -/
def State.allSaved (s : State) (l : Launch) : Bool :=
  s.cores.all (fun c => match c.2.crew? l.home l.lid with | some w => w.preempt.isNone | none => true)

/-- The SAVED threads of a launch that may resume in a FREE context of a core now, each with its order of saving; those of a co-resident launch together,
by the earliest of them (R47, R264, R265). -/
def State.savedPicks (s : State) (ep : Ep) (l : Launch) : List (Nat × Pick) :=
  if l.co then
    (if !l.saved.isEmpty && l.die = epDie ep && l.selects ep && s.allSaved l then
      ((s.coRestore l l.frames []).map (fun plan => ((leastOf (l.saved.map Saved.order)).getD 0, Pick.wholeSaved l plan))).toList
    else [])
  else (l.saved.filter (fun x => s.resumable ep l x)).map (fun x => (x.order, .saved l x))

/-- What a queue that is eligible at a core would place in a FREE context there: SAVED threads in order of saving, before new ones (R264, R265). -/
def State.pick (s : State) (ep : Ep) (q : Nat) : Option Pick :=
  let p := epPkg ep
  let w := (s.pkg p).queue q
  if !w.enabled || w.tearing || s.heldFrom ep q w.pri then none
  else
    let ls := s.launchesOf p q
    match firstSaved (ls.flatMap (fun l => s.savedPicks ep l)) with
    | some x => some x.2
    | none =>
      match s.startable p q with
      | none => none
      | some l =>
        if l.co then
          (if l.die = epDie ep && l.selects ep then (s.coPlan l).map (fun plan => .whole l plan) else none)
        else if l.placed < l.threads && s.takesMore ep l then some (.fresh l) else none

/-- A queue ranks before another at a die (R264). -/
def Package.ranksBefore (k : Package) (d : BitVec 1) (a b : Nat) : Bool :=
  let x := k.queue a
  let y := k.queue b
  decide (y.pri < x.pri) || (x.pri = y.pri && (decide (y.deficit d < x.deficit d) || (x.deficit d = y.deficit d && decide (a < b))))

/-- The queue of some that ranks first. -/
def Package.firstRanked (k : Package) (d : BitVec 1) : List (Nat × Pick) → Option (Nat × Pick)
  | [] => none
  | x :: r => match k.firstRanked d r with
    | some y => if k.ranksBefore d y.1 x.1 then some y else some x
    | none => some x

/-- One placement charged: every eligible queue of the priority gains its weight, the chosen one pays their sum (R264). -/
def Package.chargeOne (k : Package) (d : BitVec 1) (es : List Nat) (q : Nat) : Package :=
  let total : Int := ((es.map (fun e => (k.queue e).weight)).sum : Nat)
  let k1 := es.foldl (fun (k : Package) e => k.setQueue e ((k.queue e).setDeficit d ((k.queue e).deficit d + (k.queue e).weight))) k
  k1.setQueue q ((k1.queue q).setDeficit d ((k1.queue q).deficit d - total))

/-- Several placements charged. -/
def Package.charge (k : Package) (d : BitVec 1) (es : List Nat) (q : Nat) : Nat → Package
  | 0 => k
  | n + 1 => (k.chargeOne d es q).charge d es q n

/-! ## Placing (R30, R41, R264, R265) -/

/-- The membership dword of a thread (R41). -/
def State.membership (s : State) (l : Launch) (first : Nat) : Except SchedStop (List Dword × State) :=
  s.schedRead l.home 0 l.queue (l.dw 4 + BitVec.ofNat 64 (2048 + 8 * first)) 1

/-- The membership dwords of a co-resident launch, those not read ahead read now (R41, R265). -/
def State.memberships (s : State) (l : Launch) : Except SchedStop (Option (List Dword) × State) :=
  s.schedGather l.home 0 l.queue (l.dw 4 + 2048) 272 l.threads []

/-- Places new threads of a launch in contexts of a core, with their memberships. -/
def State.placeNew (s : State) (ep : Ep) (l : Launch) (first : Nat) : List (Ctx × Dword) → State
  | [] => s
  | (x, gms) :: r => (s.seat ep x l (l.newThread first gms)).placeNew ep l (first + 1) r

/-- The head launch has placed some threads; when all are placed HEAD advances (R263). -/
def State.notePlaced (s : State) (l : Launch) (n : Nat) : State :=
  let l1 := { l with placed := l.placed + n, live := l.live + n }
  if l1.threads ≤ l1.placed then (s.setLaunch { l1 with phase := .running }).advanceHead l.home l.queue else s.setLaunch l1

/-- The groups all of whose members are resident in one cluster (R71, R73). -/
def State.clusterGroups (s : State) (l : Launch) : List Nat :=
  (List.range 255).filter (fun g =>
    let at_ := s.cores.flatMap (fun c => (c.2.threads.toList.filter (fun t =>
      t.status ≠ .free && t.home = l.home && t.lid = l.lid && t.memberOf l (BitVec.ofNat 8 g))).map (fun _ => c.1 / 16))
    decide (0 < at_.length) && at_.length = l.members (BitVec.ofNat 8 g) && at_.all (fun x => x = at_.headD 0))

/-- Group-scope placement is fixed (R73). -/
def State.fixGroups (s : State) (home : Pkg) (lid : Lid) : State :=
  match s.launch? home lid with
  | some l => s.setLaunch { l with oneCluster := s.clusterGroups l }
  | none => s

/-- A co-resident launch is placed whole. -/
def State.placeWhole (s : State) (l : Launch) (gms : List Dword) : List (Ep × Nat) → Nat → State
  | [], _ => s
  | (ep, n) :: r, first =>
    (s.placeNew ep l first (((s.core ep).freeCtx.take n).zip (gms.drop first))).placeWhole l gms r (first + n)

/-- The SAVED crews of a co-resident launch are restored whole. -/
def State.restoreWhole (s : State) (l : Launch) : List (Nat × Ep) → State
  | [] => s
  | (f, ep) :: r =>
    ((l.saved.filter (fun w => w.frame = f)).foldl (fun (s : State) w =>
      match (s.core ep).freeCtx, s.launch? l.home l.lid with
      | x :: _, some l1 => (match l1.saved.find? (fun y => y.lti = w.lti) with
        | some y => s.restoreAt ep x l1 y
        | none => s)
      | _, _ => s) s).restoreWhole l r

/-- Threads that a choice places. -/
def Pick.size (x : Pick) : Nat :=
  match x with
  | .fresh _ => 1
  | .saved _ _ => 1
  | .whole l _ => l.threads
  | .wholeSaved l _ => l.saved.length

/-- Makes a choice at a context; a fault of its membership array leaves it unplaced (R262). -/
def State.applyPick (s : State) (ep : Ep) (ctx : Ctx) (q : Nat) (charge : State → State) (x : Pick) : State :=
  let p := epPkg ep
  match x with
  | .saved l w => (charge s).restoreAt ep ctx l w
  | .wholeSaved l plan => ((charge s).restoreWhole l plan).fixGroups l.home l.lid
  | .fresh l =>
    (match s.membership l l.placed with
     | .error r => s.schedStop p q l.lid 6 2 r
     | .ok (gms, s1) => ((charge s1).placeNew ep l l.placed [(ctx, gms.headD 0)]).notePlaced l 1)
  | .whole l plan =>
    (match s.memberships l with
     | .error r => s.schedStop p q l.lid 6 2 r
     | .ok (none, s1) => s1
     | .ok (some gms, s1) => (((charge s1).placeWhole l gms plan 0).notePlaced l l.threads).fixGroups l.home l.lid)

/-- The queues eligible at a core, each with what it would place. -/
def State.eligible (s : State) (ep : Ep) : List (Nat × Pick) :=
  (s.pkg (epPkg ep)).queueNumbers.filterMap (fun q => (s.pick ep q).map (fun x => (q, x)))

/-- One FREE context of a core is assigned (R264). -/
def State.assign (s : State) (ep : Ep) (ctx : Ctx) : State :=
  let k := s.pkg (epPkg ep)
  let d := epDie ep
  if (s.thr ep ctx).status ≠ .free then s
  else
    match k.firstRanked d (s.eligible ep) with
    | none => s
    | some (q, x) =>
      let es := ((s.eligible ep).filter (fun c => (k.queue c.1).pri = (k.queue q).pri)).map Prod.fst
      s.applyPick ep ctx q (fun s => s.setPkg (epPkg ep) ((s.pkg (epPkg ep)).charge d es q x.size)) x

/-- A dword of a frame that the machine itself may still change while its thread is SAVED: ST, the reserved slots, CSTATE and the spill queue of a thread
record; a restore reads these last. -/
def amended (offset : Nat) : Bool :=
  decide (offset < 0x18000) && (offset % 0x1800 = 0x928 || offset % 0x1800 = 0xA08 || decide (0xA20 ≤ offset % 0x1800))

/-- Some dwords of a frame are read ahead of the restore of what it holds, each as one event (R59). -/
def State.readFrame (s : State) (l : Launch) (f : Nat) (parts : List Nat) : State :=
  let k := s.pkg l.home
  match s.launch? l.home l.lid with
  | none => s
  | some x =>
    let at_ := (parts.filter (fun i => decide (8 * i < k.frameSize) && !amended (8 * i))).map (fun i => k.frameAt f + 8 * i)
    s.setLaunch { x with ahead := x.ahead ++ (at_.filter (fun a => x.ahead.all (fun y => y.pa ≠ a))).map s.mem.capture }

/-- The restore that a core's next FREE context would be given reads dwords of its frames (R59, R264). -/
def State.readFrames (s : State) (ep : Ep) (parts : List Nat) : State :=
  match (s.core ep).freeCtx, (s.pkg (epPkg ep)).firstRanked (epDie ep) (s.eligible ep) with
  | _ :: _, some (_, .saved l w) => s.readFrame l w.frame parts
  | _ :: _, some (_, .wholeSaved l _) => l.frames.foldl (fun (s : State) f => s.readFrame l f parts) s
  | _, _ => s

/-! ## Waits for want of room (R265, R266) -/

/-- A core within a launch's per-core limit lacks a FREE context, or granary or an engine set for its crew. -/
def Core.short (c : Core) (l : Launch) : Bool :=
  decide (c.crewThreads l.home l.lid < l.perCore) &&
    (c.freeCtx.isEmpty || ((c.crew? l.home l.lid).isNone && !c.mayForm l.crewSize l.takesEngines))

/-- The head of a queue cannot be placed on its mask for want of contexts, granary or an engine set; one held back by its own limit alone lacks
nothing (R266). -/
def State.lacks (s : State) (l : Launch) : Bool :=
  if l.co then (s.coPlan l).isNone else l.cores.all (fun ep => !s.admits ep l) && l.cores.any (fun ep => (s.core ep).short l)

/-- Contexts alone are lacking. -/
def State.lacksContexts (s : State) (l : Launch) : Bool :=
  let ready (ep : Ep) : Bool := (s.core ep).crewReady l
  if l.co then decide (l.threads ≤ l.perCore * (l.cores.filter ready).length)
  else l.cores.any (fun ep => ready ep && decide ((s.core ep).crewThreads l.home l.lid < l.perCore))

/-- The queue of a head would rank first at the first core of its mask, if the head were placeable: of the queues that are eligible there (R264, R265). -/
def State.wouldRankFirst (s : State) (q : Nat) (l : Launch) : Bool :=
  match l.cores with
  | [] => false
  | ep :: _ => (s.pkg l.home).queueNumbers.all (fun h => h = q || (s.pick ep h).isNone || (s.pkg l.home).ranksBefore (epDie ep) q h)

/-- The head of a queue waits `n` cycles of a die, its own: a co-resident one that would rank first counts the boundaries among them, every 16 cycles of the
die's clock, and the time a head has lacked room is noted, which begins anew while no head may start, and goes on once a crew has been pre-empted for the
head until it is placed (R20, R265, R266). (DESIGN CHOICE, notes/assumptions/45.md.) -/
def State.headWaits (s : State) (p : Pkg) (d : BitVec 1) (n q : Nat) : State :=
  let w := (s.pkg p).queue q
  match s.startable p q with
  | none => s.setQ p q { w with lackFrom := none, striking := false }
  | some l =>
    if l.die ≠ d then s
    else
      let now := (s.die p d).cyc
      let lacking := s.lacks l
      s.setQ p q { w with
        waited := if l.co && lacking && s.wouldRankFirst q l then w.waited + ((now + n) / 16 - now / 16) else w.waited,
        lackFrom := if lacking then some (w.lackFrom.getD now) else if w.striking then w.lackFrom else none }

/-- The heads of a package's queues wait `n` cycles of a die, while its schedulers work (R265, R266, R326). -/
def State.noteWaits (s : State) (p : Pkg) (d : BitVec 1) (n : Nat) : State :=
  if s.schedules p then (s.pkg p).queueNumbers.foldl (fun (s : State) q => s.headWaits p d n q) s else s

/-- The boundary that a core stands at, plus one: boundaries are counted on each core's own clock (R20, R264). -/
def Core.boundaryNo (c : Core) : Nat := c.cyc.toNat / 16 + 1

/-- A lower core of the die stands at the same boundary and has not been taken yet. -/
def State.lowerFirst (s : State) (ep : Ep) : Bool :=
  s.cores.any (fun c =>
    let e : Ep := BitVec.ofNat 22 c.1
    epIsCore e && epPkg e = epPkg ep && epDie e = epDie ep && decide ((epUnit e).toNat < (epUnit ep).toNat) && c.2.cyc = (s.core ep).cyc &&
      decide (c.2.swept < c.2.boundaryNo))

/-- ROTATION_BOUNDARY: the core's FREE contexts are assigned in ascending order, once at a boundary; of the cores of a die that stand at one boundary the
scheduler takes the lower ones first (R264, R265). An evicted crew that no SAVED thread is left to bring back is restored there too (R257;
notes/assumptions/100.md). An event that names dwords by `ev.parts` only reads these of the frame that is to be restored (R59); while
the restore of a crew owes its allocation dwords, an event writes those that it names, or all (R59, R287).
(DESIGN CHOICE, notes/assumptions/45.md.) -/
def execRotationBoundary (s : State) : Out :=
  let ep := s.ev.ep
  let c := s.core ep
  .next (if !(s.pkg (epPkg ep)).halted && c.crews.any (fun w => !w.owed.isEmpty) then s.payOwed ep s.ev.parts
    else if !s.atBoundary ep || !epIsCore ep || c.boundaryNo ≤ c.swept || s.lowerFirst ep then s
    else
      if !s.ev.parts.isEmpty then s.readFrames ep s.ev.parts
      else
      let s1 := s.setCore ep { c with swept := c.boundaryNo }
      ((s1.core ep).freeCtx.foldl (fun (s : State) x => s.assign ep x) s1).restoreThreadless ep)

/-- CORESIDENT_HOLD: a co-resident head that has waited 1,024 boundaries holds the contexts of its mask (R265). -/
def execCoresidentHold (s : State) : Out :=
  let p := s.ev.pkg
  let q := s.ev.q.toNat
  let w := (s.pkg p).queue q
  .next (match s.startable p q with
    | some l => if l.co && 1024 ≤ w.waited then s.setQ p q { w with holding := true } else s
    | none => s)

/-! ## Priority pre-emption (R266) -/

/-- A victim ranks before another: lower priority, then formed later. -/
def victimBefore (a b : Nat × Ep × Crew) : Bool :=
  decide (a.1 < b.1) || (a.1 = b.1 && decide (b.2.2.stamp < a.2.2.stamp))

/-- Victims in order. -/
def orderVictims : List (Nat × Ep × Crew) → List (Nat × Ep × Crew)
  | [] => []
  | x :: r =>
    let rest := orderVictims r
    rest.takeWhile (fun y => victimBefore y x) ++ x :: rest.dropWhile (fun y => victimBefore y x)

/-- A full eviction of a crew waits for a copy that a fault has stopped, till it has completed or failed (R295). -/
def Core.waitsForCopy (c : Core) (w : Crew) : Bool :=
  c.copies.any (fun k => k.home = w.home && k.lid = w.lid && (k.phase = .stopped || (k.awaited && k.phase = .running)))

/-- A pre-emption of a crew is under way that the scheduler awaits before it strikes another: any but a full eviction that waits for a copy (R266, R295). -/
def Core.beingSaved (c : Core) (w : Crew) : Bool :=
  match w.preempt with
  | some (mode, _) => mode ≠ 1 || !c.waitsForCopy w
  | none => false

/-- The crews on a launch's mask of launches of lower priority than its queue's. -/
def State.victims (s : State) (l : Launch) : List (Nat × Ep × Crew) :=
  let k := s.pkg l.home
  orderVictims ((s.cores.filter (fun c => l.selects (BitVec.ofNat 22 c.1))).flatMap (fun c =>
    (c.2.crews.filter (fun w => decide ((k.queue (lidQueue w.lid)).pri < (k.queue l.queue).pri) && !w.parkedIn && !w.tearing)).map
      (fun w => ((k.queue (lidQueue w.lid)).pri, (BitVec.ofNat 22 c.1 : Ep), w))))

/-- Strikes the first victim that a frame can take (R266, R286, R287, R295). -/
def State.strikeFirst (s : State) (mode : BitVec 4) : List (Nat × Ep × Crew) → State
  | [] => s
  | (_, ep, w) :: r =>
    if w.preempt.isSome || (mode = 1 && (!(s.pkg (epPkg ep)).frameHolds w || (s.core ep).waitsForCopy w)) then s.strikeFirst mode r
    else
      match s.tryStrike ep w.lid mode with
      | some s1 => s1
      | none => s.strikeFirst mode r

/-- PRIORITY_PREEMPT: a head that has lacked room for 4,096 die cycles pre-empts one crew of lower priority, in place when contexts alone
are lacking, and another once that one's room is not enough (R266). -/
def execPriorityPreempt (s : State) : Out :=
  let p := s.ev.pkg
  let q := s.ev.q.toNat
  let k := s.pkg p
  let w := k.queue q
  .next (match s.startable p q, w.lackFrom with
    | some l, some from_ =>
      let vs := s.victims l
      let busy := vs.any (fun v => (s.core v.2.1).beingSaved v.2.2) || s.mesh.any (fun m => l.selects m.ep)
      if k.pren && bitOf w.cfg 62 && decide (from_ + 4096 ≤ (s.die p l.die).cyc) && s.lacks l && !busy && s.schedules p then
        let s1 := s.strikeFirst (if s.lacksContexts l then 0 else 1) vs
        if s1.mesh.length = s.mesh.length then s else s1.setQ p q { (s1.pkg p).queue q with striking := true }
      else s
    | _, _ => s)

/-! ## Teardown (R269) -/

/-- A torn-down crew on its core: its threads stop, waits are withdrawn, matrix commands are discarded, a pre-emption is called off. -/
def State.tearCrew (s : State) (ep : Ep) (w : Crew) : State :=
  let s1 := (s.setCore ep ((s.core ep).setCrew { w with tearing := true, preempt := none, parkedIn := false, written := [] })).stopCrew ep w
  let c := s1.core ep
  let c1 : Core := { c with
    mq := c.mq.filter (fun m => !(m.home = w.home && m.lid = w.lid)),
    threads := c.threads.map (fun (t : Thread) =>
      if t.home = w.home && t.lid = w.lid then
        { t with pend := t.pend.filter (fun p => match p.kind with | .matrix _ _ => false | .spawn => false | _ => true) }
      else t) }
  let s2 := s1.setCore ep c1
  match w.preempt with
  | some (_, f) => (s2.freeFrame (epPkg ep) f).preemptDone ep w.lid
  | none => s2

/-- Frames of a package freed one after the other. -/
def State.freeFrames (s : State) (p : Pkg) (fs : List Nat) : State := fs.foldl (fun (s : State) f => s.freeFrame p f) s

/-- A launch is torn down: SAVED threads, spill queues and waiting spawns are discarded, and its crews stop; one whose counter's update has faulted is
to receive the aborted code (R269). -/
def State.tearLaunch (s : State) (l : Launch) : State :=
  let fs := (l.saved.map Saved.frame ++ l.evicted.map Evicted.frame).eraseDups
  let s1 := s.setLaunch { l with
    live := l.live - l.saved.length, saved := [], evicted := [], ahead := [], spawning := 0, phase := if l.counted then .aborted else l.phase }
  let s2 : State := { s1 with
    spawns := s1.spawns.filter (fun r => !(r.home = l.home && r.lid = l.lid)),
    arrivals := s1.arrivals.filter (fun a => !(a.home = l.home && a.lid = l.lid)) }
  let s3 := l.saved.foldl (fun (s : State) w => s.dropSlots (launchKey l.home l.lid) w.lti) s2
  let crews := s3.cores.filterMap (fun c => (c.2.crew? l.home l.lid).map (fun w => ((BitVec.ofNat 22 c.1 : Ep), w)))
  (crews.foldl (fun (s : State) x => s.tearCrew x.1 x.2) s3).freeFrames l.home fs

/-- A torn-down queue's launches stop (R269 step 1). -/
def State.tearQueue (s : State) (p : Pkg) (q : Nat) : State :=
  ((s.launchesOf p q).foldl (fun (s : State) l => s.tearLaunch l) s).retryPreempt p

/-- A queue's teardown starts: EN := 0, STATE := 2, its launches stop; while the device is asked to quiesce they stop when its units go on (R269,
R326; DEDUCED, notes/assumptions/68.md). -/
def State.startTeardown (s : State) (p : Pkg) (q : Nat) : State :=
  let w := (s.pkg p).queue q
  let w1 : Queue := { w with cfg := setFld (setFld w.cfg 63 1 0) 59 1 1, holding := false, lackFrom := none, striking := false }
  if w.tearing then s
  else if (s.pkg p).qreq then s.setQ p q { w1 with heldTd := true }
  else (s.setQ p q w1).tearQueue p q

/-- The teardowns that waited for the end of a quiesce begin (R326). -/
def State.releaseTeardowns (s : State) (p : Pkg) : State :=
  if (s.pkg p).qreq then s
  else (((s.pkg p).queues.filter (fun x => x.2.heldTd)).map Prod.fst).foldl (fun (s : State) q =>
    (s.setQ p q { (s.pkg p).queue q with heldTd := false }).tearQueue p q) s

/-- TEARDOWN_START. -/
def execTeardownStart (s : State) : Out :=
  .next (if (s.pkg s.ev.pkg).state = 4 then s else s.startTeardown s.ev.pkg s.ev.q.toNat)

/-- A full/empty wait that its home, or its core for its home, holds: a teardown withdraws it (R46 step 3, R269). -/
def Pending.waits (p : Pending) : Bool := p.lanes.any (fun l => l.req.op.waits && !l.over && l.stage ≠ .here)

/-- A torn-down thread has drained: its results are back but for waits that are withdrawn with it, its streamed operations acknowledged or in
error (R269 step 2). -/
def State.drained (s : State) (ep : Ep) (ctx : Ctx) : Bool :=
  let t := s.thr ep ctx
  t.messagesQuiet && (t.abandon || (t.pend.all (fun p => p.discarded || p.waits) &&
    t.streams.toList.all (fun st => st.unacked.isEmpty || st.err)))

/-- A torn-down crew has drained, its copies are over, and no record holds it. -/
def State.crewDrained (s : State) (ep : Ep) (w : Crew) : Bool :=
  let c := s.core ep
  (c.crewCtx w).all (fun x => s.drained ep x) && w.holds.isEmpty && c.copies.all (fun k => !(k.home = w.home && k.lid = w.lid))

/-- The crews of a queue's launches, with their cores. -/
def State.crewsOf (s : State) (p : Pkg) (q : Nat) : List (Ep × Crew) :=
  s.cores.flatMap (fun c => (c.2.crews.filter (fun w => w.home = p && lidQueue w.lid = q)).map (fun w => ((BitVec.ofNat 22 c.1 : Ep), w)))

/-- A stopped thread's context becomes FREE with what it held in the message stores, and the waits its homes still hold are withdrawn with no effect
on their dwords (R46 step 3). -/
def State.dropThread (s : State) (ep : Ep) (ctx : Ctx) : State :=
  let t := s.thr ep ctx
  let s0 : State := { s with waiters := s.waiters.filter (fun w => !(w.ep = ep && w.ctx = ctx)) }
  let s1 := t.pend.foldl (fun (s : State) p => s.dropDest ep p.dest) s0
  let s2 := (s1.setCore ep ((s1.core ep).dropMessages ctx t.heldReq)).dropSlots (launchKey t.home t.lid) t.lti
  s2.freeContext ep ctx

/-- A drained crew is released (R269 step 3). -/
def State.dropCrew (s : State) (ep : Ep) (w : Crew) : State :=
  (((s.core ep).crewCtx w).foldl (fun (s : State) x => s.dropThread ep x) s).releaseCrew ep w

/-- A launch of the system has not ended: its counter's update waits for a walk, or has faulted (R263). -/
def State.unended (s : State) (l : Launch) : Bool := (s.launch? l.home l.lid).isSome

/-- Launches receive the aborted code in order, each once those before it have ended; one whose update has faulted waits for the supervisor (R269 step 4). -/
def State.finishInOrder (s : State) : List Launch → State
  | [] => s
  | l :: r =>
    if l.counted then s
    else
    let s1 := s.finishLaunch { l with live := 0 } true
    if s1.unended l then s1 else s1.finishInOrder r

/-- The records from HEAD to TAIL receive the aborted code, in order, each once those before it have ended; a record that cannot be read waits for the
supervisor (R269 step 4). -/
def State.abortRecords (s : State) (p : Pkg) (q : Nat) : Nat → State
  | 0 => s
  | n + 1 =>
    let w := (s.pkg p).queue q
    if w.head = w.tail then s
    else
      match s.head? p q with
      | some l =>
        let s1 := (s.advanceHead p q).finishLaunch l true
        if s1.unended l then s1 else s1.abortRecords p q n
      | none =>
        match s.schedGather p 0 q (w.slotVa w.head) 0 16 s.ev.parts with
        | .error r => s.schedStop p q (lidOf q w.head) 6 1 r
        | .ok (none, s1) => s1
        | .ok (some record, s1) =>
          let l : Launch := { home := p, lid := lidOf q w.head, record := record, phase := .aborted }
          let s2 := ((s1.putLaunch l).advanceHead p q).finishLaunch l true
          if s2.unended l then s2 else s2.abortRecords p q n

/-- Launches of a queue that are past its head and have not ended, in LID order. -/
def State.runningOf (s : State) (p : Pkg) (q : Nat) : List Launch :=
  let head := lidOf q ((s.pkg p).queue q).head
  let ls := (s.launchesOf p q).filter (fun l => l.lid ≠ head)
  let keys := (ls.map (fun l => l.lid.toNat)).foldl natInsert []
  keys.filterMap (fun n => ls.find? (fun l => l.lid.toNat = n))

/-- The reset of a VF ends with the last teardown of its queues (R315). -/
def State.endFlr (s : State) (p : Pkg) (q : Nat) : State :=
  let k := s.pkg p
  let f := (Assoc.get k.qfn q 0).toNat
  let w := Assoc.get k.fns f {}
  if w.flr && k.queues.all (fun x => (Assoc.get k.qfn x.1 0).toNat ≠ f || !x.2.tearing) then
    s.setPkg p { k with fns := Assoc.set k.fns f { w with flr := false } }
  else s

/-- An ENQ that the queue has taken has its record's write under way (R268). -/
def State.enqUnderWay (s : State) (p : Pkg) (q : Nat) : Bool :=
  s.cores.any (fun c => c.2.threads.toList.any (fun t => t.pend.any (fun x => match x.kind with | .enq k m _ => k = p && m = q | _ => false)))

/-- TEARDOWN_END: once everything has drained, and every record that an ENQ was writing is there, the stopped threads' sessions are closed, the crews
are released, every launch receives the aborted code, and the queue is reset (R269 steps 3 to 5). -/
def execTeardownEnd (s : State) : Out :=
  let p := s.ev.pkg
  let q := s.ev.q.toNat
  let w := (s.pkg p).queue q
  .next (if !w.tearing || w.heldTd || w.blocked || s.enqUnderWay p q || (s.crewsOf p q).any (fun x => !s.crewDrained x.1 x.2) then s
    else
      let s0 := (s.crewsOf p q).foldl (fun (s : State) x => s.closeCrew x.1 x.2) s
      if (s.crewsOf p q).any (fun x => (s0.core x.1).crewOpen x.2) then s0
      else
      let s1 := (s.crewsOf p q).foldl (fun (s : State) x => s.dropCrew x.1 x.2) s0
      let s2 := s1.finishInOrder (s1.runningOf p q)
      let head := lidOf q ((s2.pkg p).queue q).head
      let s3 := if (s2.launchesOf p q).all (fun l => l.lid = head) then s2.abortRecords p q w.filled else s2
      let w3 := (s3.pkg p).queue q
      if w3.head ≠ w3.tail || w3.blocked || !(s3.launchesOf p q).isEmpty then s3
      else (s3.setQ p q { w3 with
        cfg := setFld w3.cfg 59 1 0, checked := false, got := [], claimed := 0, written := [], walkWait := .none, walkFault := none, def0 := 0, def1 := 0, waited := 0, holding := false, lackFrom := none, striking := false }).endFlr p q)

end Sys2Proof.Machine
end

