-- ==== Sys2Proof/Machine/Supervisor.lean ====
section
/-! DEFINITION. The supervisor: the fault queue, and the operations of MCMD (R33, R276 to R280, R286, R292, R293). The events read `ev.pkg`,
and `ev.ep`, `ev.ctx`, `ev.seq` as MCMD's fields; other arguments stand in MARG0 to MARG2. -/

namespace Sys2Proof.Machine

/-! ## The supervisor fault queue (R276, R277) -/

/-- LOG2 of the fault queue. -/
def Package.sfqLog (k : Package) : Nat := max 6 (fld k.sfqCfg 12 4).toNat

/-- A range lies in the second tier, the granary windows or the host window of an existing package (R277). -/
def Package.rangeOk (k : Package) (pa n : Nat) : Bool :=
  let r := paRegion pa
  (r = .secondTier || r = .granary || r = .host) && r = paRegion (pa + n - 1) && paPkg pa = paPkg (pa + n - 1)
    && decide ((paPkg pa).toNat < k.npkg)

/-- Slot 0 of the fault queue. -/
def Package.sfqPa (k : Package) : Nat := (fld k.sfqBase 6 48).toNat * 64

/-- The signal word. -/
def Package.sfqSigPa (k : Package) : Nat := (fld k.sfqSig 3 51).toNat * 8

/-- The fault queue is enabled and its registers name what they may (R277). -/
def Package.sfqOn (k : Package) : Bool :=
  bitOf k.sfqCfg 63 && k.rangeOk k.sfqPa (2 ^ k.sfqLog * 64) && (!bitOf k.sfqCfg 61 || k.rangeOk k.sfqSigPa 8)

/-- An MSI-X vector is sent, or pending while it is masked (R315). -/
def Package.sendMsix (k : Package) (v : BitVec 11) : Package :=
  if k.msixOpen.contains v.toNat then { k with replies := k.replies ++ [.msix v] }
  else { k with msixPending := natSet k.msixPending v.toNat true }

/-- FAULT_RECORD_POST: the oldest record held is written, dword by dword: those that `ev.parts` names, or all (R59); with the last, TAIL advances, the
vector is sent and the word signalled; or it waits, and OVF is set (R277). It waits too for
a queue or a word in a package that takes nothing (R321, R326). -/
def execFaultRecordPost (s : State) : Out :=
  let p := s.ev.pkg
  let k := s.pkg p
  .next (match k.records with
    | [] => s
    | r :: rest =>
      if !k.sfqOn || (k.sfqTail - k.sfqHead).toNat = 2 ^ k.sfqLog then s.setPkg p { k with sfqCfg := setFld k.sfqCfg 60 1 1 }
      else if s.homeShut p k.sfqPa || (bitOf k.sfqCfg 61 && s.homeShut p k.sfqSigPa) then s
      else
        let now := (s.ev.chosen 8).filter (fun i => decide (i < 8) && !k.posted.contains i)
        let s1 := now.foldl (fun (s : State) i =>
          s.storeDwords none (k.sfqPa + k.sfqTail.toNat % 2 ^ k.sfqLog * 64 + 8 * i) [r.dwords.getD i 0]) s
        let k1 := s1.pkg p
        let done := now.foldl (fun l i => natSet l i true) k.posted
        let k2 : Package := { k1 with records := rest, posted := [], sfqTail := k1.sfqTail + 1 }
        let s2 := s1.setPkg p (if bitOf k1.sfqCfg 62 then k2.sendMsix (fld k1.sfqCfg 0 11) else k2)
        if done.length < 8 then s1.setPkg p { k1 with posted := done }
        else if bitOf k1.sfqCfg 61 then (s2.arrive none { req := { op := .amf 6, pa := k1.sfqSigPa, data := 1 } }).1 else s2)

/-! ## INVAL (R292) -/

/-- A cached leaf is one that an INVAL names. -/
def Inval.names (v : Inval) (e : TlbEntry) : Bool :=
  match v.scope.toNat with
  | 0 => e.asid = v.asid && e.level = v.level && e.vpn = vpnOf v.level v.va
  | 1 => e.asid = v.asid
  | _ => true

/-- A thread may have used a leaf that an INVAL names. -/
def Inval.mayConcern (v : Inval) (asid : Asid) : Bool := v.scope = 2 || v.asid = asid

/-- An address lies under a leaf that an INVAL names; a local address lies under none (R54). -/
def Inval.covers (v : Inval) (va : Dword) : Bool := !bitOf va 63 && (v.scope ≠ 0 || vpnOf v.level va = vpnOf v.level v.va)

/-- A session's unacknowledged operations whose addresses lie under a leaf that an INVAL names. -/
def Inval.sentOf (v : Inval) (st : Stream) : List Packet := (st.unacked.map Sent.pkt).filter (fun p => p.vas.any v.covers)

/-- An access of a lane is still to be performed: a wait that was refused an entry is sent to its home again (R58). -/
def Lane.inFlight (l : Lane) : Bool :=
  match l.stage with
  | .performed | .poisoned => false
  | _ => true

/-- The contexts of a package's cores. -/
def State.contextsOf (s : State) (p : Pkg) : List (Ep × Ctx) := s.contexts.filter (fun w => epPkg w.1 = p)

/-- Two packets carry the same operation of a source. -/
def Packet.sameOp (x y : Packet) : Bool := x.src = y.src && sessionKey x = sessionKey y && x.seq = y.seq

/-- Streamed operations sent and not acknowledged that an INVAL waits for: of threads, and of copies. -/
def State.invalSent (s : State) (p : Pkg) (v : Inval) : List Packet :=
  (s.contextsOf p).flatMap (fun w =>
    let t := s.thr w.1 w.2
    if v.mayConcern t.asid then t.streams.toList.flatMap v.sentOf else []) ++
  (s.cores.filter (fun c => epPkg (BitVec.ofNat 22 c.1) = p)).flatMap (fun c =>
    (c.2.copies.filter (fun k => v.mayConcern k.asid)).flatMap (fun k => k.streams.flatMap (fun st => v.sentOf st.2)))

/-- Reads and writes of copies that an INVAL waits for, told apart from those of threads by 16 and 17 in place of a context. -/
def State.invalCopies (s : State) (p : Pkg) (v : Inval) : List (Nat × Nat × Nat × Nat) :=
  (s.cores.filter (fun c => epPkg (BitVec.ofNat 22 c.1) = p)).flatMap (fun c =>
    (c.2.copies.filter (fun k => v.mayConcern k.asid)).flatMap (fun k =>
      (k.reads.filter (fun r => v.covers (BitVec.ofNat 64 r.va))).map (fun r => (c.1, 16, k.id, r.n)) ++
        (k.puts.filter (fun x => v.covers x.va)).map (fun x => (c.1, 17, k.id, x.pa))))

/-- Accesses of pending results, and of copies, that an INVAL waits for: all but the waits that their homes hold. -/
def State.invalLanes (s : State) (p : Pkg) (v : Inval) : List (Nat × Nat × Nat × Nat) :=
  s.invalCopies p v ++
  (s.contextsOf p).flatMap (fun w =>
    let t := s.thr w.1 w.2
    if v.mayConcern t.asid then
      t.pend.flatMap (fun q => (q.lanes.filter (fun l => l.inFlight && v.covers l.req.va &&
        !s.waiters.any (fun x => x.isOf w.1 w.2 q.id l.lane))).map (fun l => (w.1.toNat, w.2.toNat, q.id, l.lane)))
    else [])

/-- Drops the leaves an INVAL names from a die. -/
def Die.drop (d : Die) (v : Inval) : Die := { d with tlb := d.tlb.filter (fun e => !v.names e) }

/-- INVAL starts: matching leaves leave both dies, combining entries are sent, and the accesses under way are noted.
(DESIGN CHOICE, notes/assumptions/43.md.) -/
def State.startInval (s : State) (p : Pkg) (v : Inval) : State :=
  let s1 := (s.contextsOf p).foldl (fun (s : State) w => if v.mayConcern (s.thr w.1 w.2).asid then s.flushThread w.1 w.2 else s) s
  let k := s1.pkg p
  s1.setPkg p { k with
    busy := true, dies := k.dies.map (fun d => d.drop v),
    inval := some { v with sent := s1.invalSent p v, lanes := s1.invalLanes p v } }

/-- INVAL with its arguments (R279). -/
def State.inval (s : State) (p : Pkg) : State :=
  let k := s.pkg p
  let v : Inval := { scope := fld k.marg0 16 2, asid := fld k.marg0 0 16, level := fld k.marg0 18 2, va := k.marg1 }
  if v.scope = 3 || (v.scope = 0 && v.level = 0) then s.mcmdDone p 2 else s.startInval p v

/-- INVAL_COMPLETE: no die holds a matching leaf, and what used one before has been performed (R292). -/
def execInvalComplete (s : State) : Out :=
  let p := s.ev.pkg
  .next (match (s.pkg p).inval with
    | none => s
    | some v =>
      let now := s.invalSent p { v with scope := 2 }
      let lanes := s.invalLanes p { v with scope := 2 }
      if v.sent.any (fun x => now.any (fun y => x.sameOp y)) || v.lanes.any (fun x => lanes.contains x) then s
      else
        let k := s.pkg p
        (s.setPkg p { k with inval := none, dies := k.dies.map (fun d => d.drop v) }).mcmdDone p 0)

/-! ## MOVE (R293) -/

/-- The waits held on some dwords are withdrawn, each thread's PC back at its instruction (R46 step 3, R293). -/
def State.withdrawWhere (s : State) (here : Nat → Bool) : State :=
  let inside (w : Waiter) : Bool := here w.pa
  let gone := s.waiters.filter inside
  gone.foldl (fun (s : State) w =>
    match (s.thr w.ep w.ctx).pending? w.pend with
    | some p => s.withdrawWait w.ep w.ctx p
    | none => s) { s with waiters := s.waiters.filter (fun w => !inside w) }

/-- The bytes of a page, from its base, that an event moves: of the dwords not yet moved those that it names, or all (R59). -/
def Move.picks (m : Move) (parts : List Nat) (base a : Nat) : Bool :=
  decide (base ≤ a ∧ a < base + m.size) && !m.done.contains ((a - base) / 8) && (parts.isEmpty || parts.contains ((a - base) / 8))

/-- Dwords of a MOVE go over with their values, bits and marks, each as one event: the waits held on them are withdrawn first, what is written is no
push of a ring and can be fetched at once, and the waiters there are served (R59, R76, R77, R281, R293). The operation ends with its last dword. It
waits for a page of a package that takes nothing (R321, R326). -/
def State.moveDwords (s : State) (p : Pkg) (m : Move) : State :=
  if s.homeShut p m.src || s.homeShut p m.dst then s.setPkg p { s.pkg p with busy := true, moving := some m }
  else
  let picks := m.picks s.ev.parts
  let now := (s.ev.parts.eraseDups).filter (fun i => decide (i < m.size / 8) && !m.done.contains i)
  let s1 := s.withdrawWhere (picks m.src)
  let s2 := (({ s1 with mem := s1.mem.moveWhere m.src m.dst picks } : State).noteMoved (picks m.dst)).noteCodeMoved (picks m.dst)
  let marked := if paRegion m.dst = .host then (s1.mem.poison.filter (picks m.src)).map (fun x => x - m.src + m.dst) else []
  let s3 := marked.foldl (fun (s : State) dw => s.poisonedWrite dw) s2
  let near := (s3.waiters.filter (fun w => picks m.dst w.pa)).map (fun w => dwordAt w.pa)
  let s4 := near.foldl (fun (s : State) dw => s.serve dw) s3
  if s.ev.parts.isEmpty || m.size / 8 ≤ m.done.length + now.length then
    (s4.setPkg p { s4.pkg p with moving := none }).mcmdDone p 0
  else s4.setPkg p { s4.pkg p with busy := true, moving := some { m with done := m.done ++ now } }

/-- MOVE starts: its arguments are checked, and dwords go over (R279, R293). -/
def State.movePages (s : State) (p : Pkg) : State :=
  let k := s.pkg p
  let src := k.marg0.toNat % 2 ^ 54
  let dst := k.marg1.toNat % 2 ^ 54
  let n := k.marg2.toNat
  if n % 65536 ≠ 0 || 2 ^ 42 < n || src % 8 ≠ 0 || dst % 8 ≠ 0 then s.mcmdDone p 2
  else if n = 0 then s.mcmdDone p 0
  else if paRegion src = .reserved || paRegion dst = .reserved || paRegion src ≠ paRegion (src + n - 1) || paRegion dst ≠ paRegion (dst + n - 1) ||
      k.npkg ≤ (paPkg src).toNat || k.npkg ≤ (paPkg dst).toNat then s.mcmdDone p 2
  else s.moveDwords p { src := src, dst := dst, size := n }

/-! ## RESIDENT (R33) -/

/-- An entry of a core's resident regions. -/
def residentEntry (base limit : BitVec 24) : Dword := BitVec.ofNat 64 (2 ^ 63 + limit.toNat * 2 ^ 24 + base.toNat)

/-- A core with a resident entry replaced. -/
def Core.setResident (c : Core) (i : BitVec 2) (x : Dword) : Core := { c with resident := vset i x c.resident }

/-- The range of a valid resident entry is cleared: zeros, every full/empty bit set (R33). -/
def State.clearResident (s : State) (ep : Ep) (e : Dword) : State :=
  if bitOf e 63 then
    { s with mem := s.mem.clearRange (granaryPa ep (fld e 0 24).toNat) ((fld e 24 24).toNat - (fld e 0 24).toNat) }
  else s

/-- RESIDENT sets an entry: aligned, in the granary, over no crew and no other valid entry (R33). The range of a valid entry that it replaces is
cleared first. (DESIGN CHOICE, notes/assumptions/53.md.) -/
def State.residentSet (s : State) (p : Pkg) (ep : Ep) : State :=
  let k := s.pkg p
  let i : BitVec 2 := fld k.marg0 0 2
  let base : BitVec 24 := fld k.marg1 0 24
  let limit : BitVec 24 := fld k.marg1 24 24
  let c := s.core ep
  let others := c.setResident i 0
  if !epIsCore ep || epPkg ep ≠ p || base.toNat % 4096 ≠ 0 || limit.toNat % 4096 ≠ 0 || limit.toNat ≤ base.toNat ||
      !others.rangeFree base.toNat (limit.toNat - base.toNat) then s.mcmdDone p 2
  else ((s.setCore ep (c.setResident i (residentEntry base limit))).clearResident ep (vget i c.resident)).mcmdDone p 0

/-- RESIDENT clears an entry, and its range with it (R33). -/
def State.residentClear (s : State) (p : Pkg) (ep : Ep) : State :=
  let i : BitVec 2 := fld (s.pkg p).marg0 0 2
  let c := s.core ep
  if !epIsCore ep || epPkg ep ≠ p then s.mcmdDone p 2
  else ((s.setCore ep (c.setResident i 0)).clearResident ep (vget i c.resident)).mcmdDone p 0

/-! ## MCMD (R278, R279) -/

/-- The MCMD word of an operation. -/
def mcmdWord (op act : Nat) (seq : BitVec 16) (ctx : Ctx) (ep : Ep) : Dword :=
  BitVec.ofNat 64 (op % 16 * 2 ^ 60 + act % 16 * 2 ^ 56 + seq.toNat * 2 ^ 40 + ctx.toNat * 2 ^ 22 + ep.toNat)

/-- The operation of an MCMD word starts (R279). -/
def State.startMcmd (s1 : State) (p : Pkg) (w : Dword) : State :=
    let k := s1.pkg p
    let act := (fld w 56 4).toNat
    let ep : Ep := fld w 0 22
    match (fld w 60 4).toNat, act with
    | 1, 0 | 1, 1 | 1, 2 =>
      let r := s1.resolve p act ep (fld w 22 4) (fld w 40 16)
      r.1.mcmdDone p r.2
    | 2, 0 => s1.inval p
    | 3, 0 => s1.movePages p
    | 4, 0 | 4, 1 => s1.preempt p (fld w 56 4) ep (fld k.marg0 0 44)
    | 5, 0 => s1.residentSet p ep
    | 5, 1 => s1.residentClear p ep
    | _, _ => s1.mcmdDone p 2

/-- A write of MCMD starts its operation, unless one is running; while the device is asked to quiesce it waits until the units go on; it is ignored in
maintenance (R278, R279, R321, R326). -/
def State.writeMcmd (s : State) (p : Pkg) (w : Dword) : State :=
  let k := s.pkg p
  let k1 : Package := { k with mcmd := w &&& 0xFFFFFF0003FFFFFF }
  if k.busy || k.state = 4 then s
  else if k.qreq then s.setPkg p { k1 with busy := true, heldMcmd := true }
  else (s.setPkg p k1).startMcmd p w

/-- An operation that waited for the end of a quiesce starts (R326). -/
def State.releaseMcmd (s : State) (p : Pkg) : State :=
  let k := s.pkg p
  if k.heldMcmd && !k.qreq then (s.setPkg p { k with busy := false, heldMcmd := false }).startMcmd p k.mcmd else s

/-- An MCMD event. -/
def State.mcmdEvent (s : State) (op act : Nat) : State :=
  s.writeMcmd s.ev.pkg (mcmdWord op act s.ev.seq s.ev.ctx s.ev.ep)

/-- An INVAL event, whose scope MARG0 must hold. -/
def State.invalEvent (s : State) (scope : BitVec 2) : State :=
  if fld (s.pkg s.ev.pkg).marg0 16 2 = scope then s.mcmdEvent 2 0 else s

/-- RESOLVE_RESUME (R280). -/
def execResolveResume (s : State) : Out := .next (s.mcmdEvent 1 0)

/-- RESOLVE_ABORT (R280). -/
def execResolveAbort (s : State) : Out := .next (s.mcmdEvent 1 1)

/-- RESOLVE_END (R280). -/
def execResolveEnd (s : State) : Out := .next (s.mcmdEvent 1 2)

/-- INVAL_PAGE (R292). -/
def execInvalPage (s : State) : Out := .next (s.invalEvent 0)

/-- INVAL_ASID (R292). -/
def execInvalAsid (s : State) : Out := .next (s.invalEvent 1)

/-- INVAL_ALL (R292). -/
def execInvalAll (s : State) : Out := .next (s.invalEvent 2)

/-- MOVE (R293): starts one, or moves more dwords of the one under way, which stands still in a quiesce (R326). -/
def execMoveMem (s : State) : Out :=
  let p := s.ev.pkg
  .next (match (s.pkg p).moving with
    | some m => if (s.pkg p).halted then s else s.moveDwords p m
    | none => s.mcmdEvent 3 0)

/-- PREEMPT_PARK (R286). -/
def execPreemptPark (s : State) : Out := .next (s.mcmdEvent 4 0)

/-- PREEMPT_EVICT (R286). -/
def execPreemptEvict (s : State) : Out := .next (s.mcmdEvent 4 1)

/-- RESIDENT_SET (R33). -/
def execResidentSet (s : State) : Out := .next (s.mcmdEvent 5 0)

/-- RESIDENT_CLEAR (R33). -/
def execResidentClear (s : State) : Out := .next (s.mcmdEvent 5 1)

end Sys2Proof.Machine
end

