-- ==== Sys2Proof/Machine/HostRegs.lean ====
section
/-! DEFINITION. The management window: every register of BAR0, what reads and writes of it do, quiesce and reset (R2, R33, R259, R260, R276,
R278, R286, R302, R304, R312, R314 to R321, R326). A write carries byte enables of its aligned dword. -/

namespace Sys2Proof.Machine

/-! ## Fields -/

/-- The bits of the bytes a write enables. -/
def byteEnables (be : BitVec 8) : Dword :=
  (List.range 8).foldl (fun (m : Dword) i => if be.getLsbD i then m ||| BitVec.ofNat 64 (0xFF * 2 ^ (8 * i)) else m) 0

/-- A register after a write: writable bits of the enabled bytes take the value (R2). -/
def maskWrite (mask old x : Dword) (be : BitVec 8) : Dword :=
  let m := mask &&& byteEnables be
  (old &&& ~~~m) ||| (x &&& m)

/-- A write-1-to-clear bit is cleared by a write. -/
def clearedBy (x : Dword) (be : BitVec 8) (i : Nat) : Bool := bitOf (x &&& byteEnables be) i

/-! ## Reading BAR0 (R316 to R321) -/

/-- DEVSTAT, DEVCTL and the other device registers (R317). -/
def Package.deviceReg (k : Package) (off : Nat) : Dword :=
  match off with
  | 0x000 => BitVec.ofNat 64 (0x9200 * 2 ^ 32 + Config.silicon.toNat)
  | 0x008 => BitVec.ofNat 64 (k.state.toNat * 2 ^ 61 + k.reason.toNat * 2 ^ 53)
  | 0x010 => BitVec.ofNat 64 (b2n k.qreq * 2 ^ 63 + b2n k.qack * 2 ^ 62)
  | 0x018 => BitVec.ofNat 64 (b2n k.pren * 2 ^ 63)
  | 0x020 => k.artb
  | 0x028 => k.ftcfg
  | 0x030 => k.psbase
  | 0x038 => k.psfsz
  | 0x040 => k.pwrlim
  | 0x048 => BitVec.ofNat 64 (b2n k.throttled * 2 ^ 16 + (vget (1 : BitVec 1) k.dies).step.toNat * 2 ^ 8 + (vget (0 : BitVec 1) k.dies).step.toNat)
  | 0x050 => k.scrub
  | 0x058 => BitVec.ofNat 64 (b2n k.mbxGo * 2 ^ 63)
  | 0x060 => k.rbsel
  | 0x068 => k.rbstat.setWidth 64
  | 0x070 => k.syscfg
  | _ => 0

/-- Entries of the self-test report, as many as its place in BAR0 holds at most (R316, R321). -/
def Package.testCount (k : Package) (p : Pkg) : Nat := 1 + (Config.selfTest (k.physical p) k.boot 0).toNat % 4095

/-- The first entry that failed, none but after a failure of BIST (R321). -/
def Package.firstFailed (k : Package) (p : Pkg) : Option Nat :=
  if k.state = 4 && k.reason = 2 then some ((Config.selfTest (k.physical p) k.boot 1).toNat % k.testCount p) else none

/-- Instances of a unit kind: units of 1,024 cores, 128 lanes, 32 channel groups (R329). -/
def testInstances (kind : Nat) : Nat := if kind ≤ 4 then 1024 else if kind = 5 then 128 else 32

/-- Bits of an offset within a unit: 8 MiB of granary, 256 KiB of instruction store, four channels of 8 GiB; no rule gives the size of a register file or an
engine (R11, R15, R16, R327, R329; notes/assumptions/65.md). -/
def testOffsetBits (kind : Nat) : Nat :=
  match kind with
  | 1 => 23
  | 3 => 18
  | 6 => 35
  | _ => 48

/-- The two dwords of entry i: kind, instance and outcome, then the offset within the unit, or the lane, and the syndrome (R321, R329). Which unit
an entry tests, and what a test found, are free (notes/assumptions/65.md). -/
def Package.testEntry (k : Package) (p : Pkg) (i : Nat) : Dword × Dword :=
  let x := (Config.selfTest (k.physical p) k.boot (2 + 2 * i)).toNat
  let y := Config.selfTest (k.physical p) k.boot (3 + 2 * i)
  let kind := 1 + x % 2 ^ 8 % 6
  let unit := x / 2 ^ 8 % 2 ^ 16 % testInstances kind
  let failed := match k.firstFailed p with | some f => i = f || (decide (f < i) && x.testBit 63) | none => false
  (BitVec.ofNat 64 (kind + unit * 2 ^ 16 + b2n failed * 2 ^ 32),
    BitVec.ofNat 64 ((if kind = 5 then unit else y.toNat % 2 ^ testOffsetBits kind) + (fld y 56 8).toNat * 2 ^ 56))

/-- A dword of the self-test report: its count and its first failing entry, then two dwords an entry (R321). -/
def Package.selfTestDword (k : Package) (p : Pkg) (n : Nat) : Dword :=
  let e := k.testEntry p ((n - 1) / 2)
  if n = 0 then BitVec.ofNat 64 (k.testCount p + (k.firstFailed p).getD 0xFFFF * 2 ^ 16)
  else if k.testCount p ≤ (n - 1) / 2 then 0
  else if n % 2 = 1 then e.1
  else e.2

/-- LQSTAT (R259). -/
def State.lqstat (s : State) (p : Pkg) (q : Nat) : Dword :=
  let w := (s.pkg p).queue q
  BitVec.ofNat 64 (s.queueState p q * 2 ^ 62 + b2n w.ovf * 2 ^ 61 + b2n (!w.faults.isEmpty) * 2 ^ 60 + (BitVec.ofInt 28 w.def1).toNat * 2 ^ 28 +
    (BitVec.ofInt 28 w.def0).toNat)

/-- A register of a queue's block (R259). -/
def State.queueReg (s : State) (p : Pkg) (q n : Nat) : Dword :=
  let w := (s.pkg p).queue q
  match n with
  | 0 => w.cfg
  | 1 => w.base
  | 2 => BitVec.ofNat 64 (w.tail.toNat * 2 ^ 32 + w.head.toNat)
  | _ => s.lqstat p q

/-- Four entries of a route bank. -/
def Package.routeDword (k : Package) (bank : BitVec 1) (n : Nat) : Dword :=
  BitVec.ofNat 64 (packNats 16 ((List.range 4).map (fun i => (k.route bank (BitVec.ofNat 10 (n + i))).toNat)))

/-- MSTAT (R278). -/
def Package.mstat (k : Package) : Dword := BitVec.ofNat 64 (b2n k.busy * 2 ^ 63 + k.res.toNat * 2 ^ 60)

/-- The core a per-core block of the window belongs to: core n of die d is number 512d + n (R319). -/
def coreOfBlock (p : Pkg) (n : Nat) : Ep := mkEp p (BitVec.ofNat 1 (n / 512)) (BitVec.ofNat 11 (n % 512))

/-- The fields of a segment register that can be written (R312). -/
def segmentMask : Dword := BitVec.ofNat 64 (2 ^ 63 + 2 ^ 62 + 1023 * 2 ^ 52 + 32767 * 2 ^ 29)

/-- A function of a package. -/
def Package.fn (k : Package) (f : Nat) : Function := Assoc.get k.fns f {}

/-- Replaces a function. -/
def Package.setFn (k : Package) (f : Nat) (x : Function) : Package := { k with fns := Assoc.set k.fns f x }

/-- A dword of the PF's BAR0 but for the readback aperture; offsets not listed read 0 (R316). In maintenance only the device registers,
the mailbox and the self-test report are alive (R321). -/
def State.readBar0 (s : State) (p : Pkg) (off : Nat) : Dword :=
  let k := s.pkg p
  if off < 0x1000 then k.deviceReg off
  else if 0x3000 ≤ off && off < 0x4000 then Assoc.get k.mailbox ((off - 0x3000) / 8) 0
  else if 0x80000 ≤ off && off < 0x90000 then k.selfTestDword p ((off - 0x80000) / 8)
  else if k.state = 4 then 0
  else if off < 0x2000 then
    match off with
    | 0x1000 => k.mcmd
    | 0x1008 => k.marg0
    | 0x1010 => k.marg1
    | 0x1018 => k.marg2
    | 0x1020 => k.mstat
    | 0x1100 => k.sfqBase
    | 0x1108 => k.sfqCfg
    | 0x1110 => k.sfqSig
    | 0x1118 => BitVec.ofNat 64 (k.sfqTail.toNat * 2 ^ 32 + k.sfqHead.toNat)
    | 0x1200 => k.rtctl (s.switching p)
    | _ => 0
  else if off < 0x2800 then k.routeDword 0 ((off - 0x2000) / 2)
  else if off < 0x3000 then k.routeDword 1 ((off - 0x2800) / 2)
  else if 0x4000 ≤ off && off < 0x5000 then
    BitVec.ofNat 64 (packNats 8 ((List.range 8).map (fun i => (Assoc.get k.qfn (off - 0x4000 + i) 0).toNat)))
  else if 0x10000 ≤ off && off < 0x20000 then Assoc.get (k.fn ((off - 0x10000) / 0x400)).segments ((off - 0x10000) % 0x400 / 8) 0
  else if 0x20000 ≤ off && off < 0x40000 then s.queueReg p ((off - 0x20000) / 32) (off % 32 / 8)
  else if 0x40000 ≤ off && off < 0x60000 then
    let x := vget (BitVec.ofNat 3 (off % 128 / 16)) (s.core (coreOfBlock p ((off - 0x40000) / 128))).image
    fld x (64 * (off % 16 / 8)) 64
  else if 0xC0000 ≤ off && off < 0xC8000 then
    vget (BitVec.ofNat 2 (off % 32 / 8)) (s.core (coreOfBlock p ((off - 0xC0000) / 32))).resident
  else 0

/-! ## Reset (R315, R320) -/

/-- Memory without what a package holds: its second tier, granaries and instruction stores. Host memory is the host's. -/
def Memory.forget (m : Memory) (p : Pkg) : Memory :=
  let keep (a : Nat) : Bool := paPkg a ≠ p || paRegion a = .host
  { cells := m.cells.filter (fun c => keep c.1), empty := m.empty.filter keep, poison := m.poison.filter keep }

/-- Memory as bring-up leaves it: every dword of the package's second tier zero and full, its granaries cleared (R57, R320). -/
def Memory.initialise (m : Memory) (p : Pkg) : Memory :=
  let keep (a : Nat) : Bool := paPkg a ≠ p || !paHasFe a
  { cells := m.cells.filter (fun c => keep c.1), empty := m.empty.filter keep, poison := m.poison.filter keep }

/-- What outlives a reset: the board's images and fuses, what tells the package apart, what the host has received, and the time by which packets age
(R302, R322). -/
def Package.afterReset (k : Package) : Package :=
  { replies := k.replies, board := k.board, was := k.was, dies := k.dies.map (fun (d : Die) => { base := d.base + d.cyc }) }

/-- A package loses all architectural state and every record, and what it held in flight; STATE is 0 (R320). -/
def State.resetPackage (s : State) (p : Pkg) : State :=
  let away (ep : Nat) : Bool := epPkg (BitVec.ofNat 22 ep) ≠ p
  let held := s.net.filter (fun x => x.at_ = p) ++ (s.pkg p).ports.toList.flatMap Port.unheardPackets
  let lost := held.filter (fun x => epPkg x.src ≠ p)
  let s1 : State := { s with
    mem := s.mem.forget p,
    cores := s.cores.filter (fun c => away c.1),
    tables := s.tables.filter (fun t => away t.1),
    waiters := s.waiters.filter (fun w => paPkg w.pa ≠ p),
    launches := s.launches.filter (fun l => l.home ≠ p),
    net := s.net.filter (fun x => x.at_ ≠ p),
    spawns := s.spawns.filter (fun r => epPkg r.from_ ≠ p),
    arrivals := s.arrivals.filter (fun a => a.home ≠ p),
    mesh := s.mesh.filter (fun m => epPkg m.ep ≠ p) }
  lost.foldl (fun (s : State) x => s.lose x) (s1.setPkg p (s.pkg p).afterReset)

/-! ## Writing BAR0 -/

/-- The homes of a package perform the held operations whose conditions the aperture has made hold, on the dwords that it has written (R180, R325, R326). -/
def State.serveHomes (s : State) (p : Pkg) : State :=
  let k := s.pkg p
  (k.touched.filter (fun a => s.waiters.any (fun w => dwordAt w.pa = a))).foldl State.serve (s.setPkg p { k with touched := [] })

/-- QREQ is written: set, the device stops; cleared, every unit goes on where it stopped, its homes with what the aperture has written, and teardowns, an
operation of MCMD and a PREEMPT to which what was written meanwhile gives its frames start (R326). In maintenance no unit goes on (R321, R328). -/
def State.setQreq (s : State) (p : Pkg) (q : Bool) : State :=
  let k := s.pkg p
  let s1 := s.setPkg p { k with qreq := q, qack := q && k.qack }
  if q || k.state = 4 then s1 else (((s1.serveHomes p).releaseTeardowns p).releaseMcmd p).retryPreempt p

/-- What the host has written of the frames may let a PREEMPT start that waits for some, when the units go on (R286, R321, R326). -/
def State.framesWritten (s : State) (p : Pkg) : State := if (s.pkg p).halted then s else s.retryPreempt p

/-- A write of DEVCTL: RST resets the device (R317, R320). -/
def State.writeDevctl (s : State) (p : Pkg) (x : Dword) (be : BitVec 8) : State :=
  if clearedBy x be 61 then s.resetPackage p
  else if be.getLsbD 7 then s.setQreq p (bitOf x 63) else s

/-- Two package numbers exchanged. -/
def swapPkg (p q x : Pkg) : Pkg := if x = p then q else if x = q then p else x

/-- An endpoint whose package's number is exchanged. -/
def swapEp (p q : Pkg) (ep : Ep) : Ep := mkEp (swapPkg p q (epPkg ep)) (epDie ep) (epUnit ep)

/-- A physical address whose package's number is exchanged. -/
def swapPa (p q : Pkg) (a : Nat) : Nat := (swapPkg p q (paPkg a)).toNat * 2 ^ 44 + paLocal a

/-- The memories of two packages under each other's addresses (R318). -/
def Memory.exchange (m : Memory) (p q : Pkg) : Memory :=
  let away (a : Nat) : Bool := decide (2 ^ 54 ≤ a) || (paPkg a ≠ p && paPkg a ≠ q)
  let moved (l : List Nat) : List Nat := ((l.filter (fun a => !away a)).map (swapPa p q)).foldl (fun l a => natSet l a true) (l.filter away)
  { cells := ((m.cells.filter (fun c => !away c.1)).map (fun c => (swapPa p q c.1, c.2))).foldr (fun c l => cellSet l c.1 c.2)
      (m.cells.filter (fun c => away c.1)),
    empty := moved m.empty, poison := moved m.poison }

/-- What stands under one endpoint's number stands under the other's. -/
def swapKeys {α : Type} (p q : Pkg) (l : List (Nat × α)) : List (Nat × α) :=
  l.foldr (fun x r => Assoc.set r (if 2 ^ 22 ≤ x.1 then x.1 else (swapEp p q (BitVec.ofNat 22 x.1)).toNat) x.2) []

/-- A package under another number: its ports know their partners by their new numbers, and it stays the package it is (R318). -/
def Package.renamed (k : Package) (p q at_ : Pkg) : Package :=
  let from_ := k.was.getD (swapPkg p q at_)
  { k with
    was := if from_ = at_ then none else some from_,
    touched := k.touched.map (swapPa p q),
    ports := k.ports.map (fun (w : Port) => { w with peer := w.peer.map (fun x => (swapPkg p q x.1, x.2)) }) }

/-- A package that SYSCFG gives number `q` answers to q from now on, its homes, cores, endpoints and places of packets with it; the one that stood there takes
the number it had (R318). (DESIGN CHOICE, notes/assumptions/66.md.) -/
def State.exchange (s : State) (p q : Pkg) : State :=
  let pkgs := s.pkgs.map (fun x => (x.1, x.2.renamed p q (swapPkg p q (BitVec.ofNat 10 x.1))))
  { s with
    mem := s.mem.exchange p q,
    cores := swapKeys p q s.cores,
    pkgs := Assoc.set (Assoc.set pkgs p.toNat ((s.pkg q).renamed p q p)) q.toNat ((s.pkg p).renamed p q q),
    tables := swapKeys p q s.tables,
    waiters := s.waiters.map (fun w => { w with pa := swapPa p q w.pa, ep := swapEp p q w.ep }),
    net := s.net.map (fun x => { x with at_ := swapPkg p q x.at_ }),
    spawns := s.spawns.map (fun r => { r with from_ := swapEp p q r.from_ }),
    mesh := s.mesh.map (fun m => { m with ep := swapEp p q m.ep }) }

/-- SYSCFG is written: ignored while a launch queue is enabled; a package whose number the write gives is that number's (R318). -/
def State.writeSyscfg (s : State) (p : Pkg) (x : Dword) (be : BitVec 8) : State :=
  let k := s.pkg p
  let k1 : Package := { k with syscfg := maskWrite 0x1F03FF03FF03FF k.syscfg x be }
  let s1 := s.setPkg p k1
  if k.queues.any (fun w => w.2.enabled) then s
  else if (fld be 0 2 : BitVec 2) = 0 || k1.number = p then s1
  else s1.exchange p k1.number

/-- A write of a device register (R317, R318). -/
def State.writeDevice (s : State) (p : Pkg) (off : Nat) (x : Dword) (be : BitVec 8) : State :=
  let k := s.pkg p
  match off with
  | 0x010 => s.writeDevctl p x be
  | 0x018 => s.setPkg p { k with pren := if be.getLsbD 7 then bitOf x 63 else k.pren }
  | 0x020 => s.setPkg p { k with artb := maskWrite 0xFFFFF80001 k.artb x be }
  | 0x028 => s.setPkg p { k with ftcfg := maskWrite 0xFF1F00 k.ftcfg x be }
  | 0x030 => (s.setPkg p { k with psbase := maskWrite 0x3FFFFFFFFFFFFF k.psbase x be }).framesWritten p
  | 0x038 => (s.setPkg p { k with psfsz := maskWrite 0xFFFFFF k.psfsz x be }).framesWritten p
  | 0x040 => s.setPkg p { k with pwrlim := maskWrite 0xFF07FF k.pwrlim x be }
  | 0x048 => s.setPkg p { k with throttled := k.throttled && !clearedBy x be 16 }
  | 0x050 => s.setPkg p { k with scrub := maskWrite 0x8000FFFF0000FFFF k.scrub x be }
  | 0x058 => s.setPkg p { k with mbxGo := k.mbxGo || clearedBy x be 63 }
  | 0x060 => s.setPkg p { k with rbsel := maskWrite 0xFFFFFF0000000000 k.rbsel x be }
  | 0x068 => s.setPkg p { k with rbstat := k.rbstat &&& ~~~((x &&& byteEnables be).setWidth 4) }
  | 0x070 => s.writeSyscfg p x be
  | _ => s

/-- A write of LQCFG: LOG2 and ASID keep their values while EN = 1, EN stays 0 while a teardown runs, TD = 1 starts one. A VF's write
changes EN, TD and LOG2 only (R259, R269, R315). -/
def State.writeLqcfg (s : State) (p : Pkg) (q : Nat) (x : Dword) (be : BitVec 8) (vf : Bool) : State :=
  let w := (s.pkg p).queue q
  let free : Dword := if vf then 0x8000000000000000 else 0xF400FFFF00000000
  let fixed : Dword := if w.enabled then 0 else if vf then 0x000F000000000000 else 0x000F00000000FFFF
  let mask := (free ||| fixed) &&& (if w.tearing then 0x7FFFFFFFFFFFFFFF else 0xFFFFFFFFFFFFFFFF)
  let s1 := s.setQ p q { w with cfg := maskWrite mask w.cfg x be }
  if clearedBy x be 59 && !w.tearing then s1.startTeardown p q else s1

/-- A write of a queue's register (R259, R260). -/
def State.writeQueue (s : State) (p : Pkg) (q n : Nat) (x : Dword) (be : BitVec 8) (vf : Bool) : State :=
  let w := (s.pkg p).queue q
  match n with
  | 0 => s.writeLqcfg p q x be vf
  | 1 => if w.enabled then s else s.setQ p q { w with base := maskWrite 0x7FFFFFFFFFFF80 w.base x be }
  | 2 => if be.toNat < 16 then s else s.writeTail p q (fld (maskWrite 0xFFFFFFFF00000000 (s.queueReg p q 2) x be) 32 32)
  | _ => s.setQ p q { w with ovf := w.ovf && !clearedBy x be 61 }

/-- A write of four entries of a route bank: those of the bank in force stay; a written entry may post a record of kind 12 again (R304,
R306). -/
def Package.writeRoutes (k : Package) (bank : BitVec 1) (n : Nat) (x : Dword) (be : BitVec 8) : Package :=
  if bank = k.rtAct then k
  else
    (List.range 4).foldl (fun (k : Package) i =>
      let dst : Pkg := BitVec.ofNat 10 (n + i)
      if (fld be (2 * i) 2 : BitVec 2) = 0 then k
      else
        let e : BitVec 16 := fld (maskWrite 0xC01FC01FC01FC01F (k.routeDword bank n) x be) (16 * i) 16
        let k1 : Package := { k with noRoute := k.noRoute.filter (fun r => !(r.1 = bank && r.2.1 = dst)) }
        if bank = 0 then { k1 with bankA := Assoc.set k1.bankA dst.toNat e } else { k1 with bankB := Assoc.set k1.bankB dst.toNat e }) k

/-- A write of a supervisor register: MCMD, MARG, the fault queue, RTCTL (R276, R278, R304). -/
def State.writeControl (s : State) (p : Pkg) (off : Nat) (x : Dword) (be : BitVec 8) : State :=
  let k := s.pkg p
  let whole : Dword := 0xFFFFFFFFFFFFFFFF
  match off with
  | 0x1000 => s.writeMcmd p (maskWrite whole k.mcmd x be)
  | 0x1008 => if k.busy then s else s.setPkg p { k with marg0 := maskWrite whole k.marg0 x be }
  | 0x1010 => if k.busy then s else s.setPkg p { k with marg1 := maskWrite whole k.marg1 x be }
  | 0x1018 => if k.busy then s else s.setPkg p { k with marg2 := maskWrite whole k.marg2 x be }
  | 0x1100 => s.setPkg p { k with sfqBase := maskWrite 0x3FFFFFFFFFFFC0 k.sfqBase x be }
  | 0x1108 =>
    let y := maskWrite 0xE00000000000F7FF k.sfqCfg x be
    s.setPkg p { k with sfqCfg := if clearedBy x be 60 then setFld y 60 1 0 else y }
  | 0x1110 => s.setPkg p { k with sfqSig := maskWrite 0x3FFFFFFFFFFFF8 k.sfqSig x be }
  | 0x1118 => s.setPkg p { k with sfqHead := (maskWrite 0xFFFFFFFF (k.sfqHead.setWidth 64) x be).setWidth 32 }
  | 0x1200 => if clearedBy x be 1 then s.startSwitch p else s
  | _ => s

/-- A write of a dword of the PF's BAR0 but for the readback aperture (R316). In maintenance only the device registers and the mailbox
take writes (R321). -/
def State.writeBar0 (s : State) (p : Pkg) (off : Nat) (x : Dword) (be : BitVec 8) : State :=
  let k := s.pkg p
  if off < 0x1000 then s.writeDevice p off x be
  else if 0x3000 ≤ off && off < 0x4000 then
    let n := (off - 0x3000) / 8
    s.setPkg p { k with mailbox := Assoc.set k.mailbox n (maskWrite 0xFFFFFFFFFFFFFFFF (Assoc.get k.mailbox n 0) x be) }
  else if k.state = 4 then s
  else if off < 0x2000 then s.writeControl p off x be
  else if off < 0x2800 then s.setPkg p (k.writeRoutes 0 ((off - 0x2000) / 2) x be)
  else if off < 0x3000 then s.setPkg p (k.writeRoutes 1 ((off - 0x2800) / 2) x be)
  else if 0x4000 ≤ off && off < 0x5000 then
    s.setPkg p ((List.range 8).foldl (fun (k : Package) i =>
      if be.getLsbD i then { k with qfn := Assoc.set k.qfn (off - 0x4000 + i) (fld x (8 * i) 8) } else k) k)
  else if 0x10000 ≤ off && off < 0x20000 then
    let f := (off - 0x10000) / 0x400
    let n := (off - 0x10000) % 0x400 / 8
    let w := k.fn f
    s.setPkg p (k.setFn f { w with segments := Assoc.set w.segments n (maskWrite segmentMask (Assoc.get w.segments n 0) x be) })
  else if 0x20000 ≤ off && off < 0x40000 then s.writeQueue p ((off - 0x20000) / 32) (off % 32 / 8) x be false
  else if 0x40000 ≤ off && off < 0x60000 then
    let ep := coreOfBlock p ((off - 0x40000) / 128)
    let c := s.core ep
    let i : BitVec 3 := BitVec.ofNat 3 (off % 128 / 16)
    let half := 64 * (off % 16 / 8)
    let y := maskWrite (if half = 0 then 0xFF03FFFF else 0xFFFFFFFFFFFFFFFF) (fld (vget i c.image) half 64) x be
    s.setCore ep { c with image := vset i (setFld (vget i c.image) half 64 y.toNat) c.image }
  else s

/-- The queues that QFN assigns to a function, in ascending order (R314, R315). -/
def Package.queuesOf (k : Package) (f : Nat) : List Nat :=
  (List.range 4096).filter (fun q => (Assoc.get k.qfn q 0).toNat = f)

/-- A write of BAR0 through a function: a VF reaches the blocks of its queues only, none in maintenance (R315, R321). -/
def State.writeRegister (s : State) (p : Pkg) (f off : Nat) (x : Dword) (be : BitVec 8) : State :=
  let k := s.pkg p
  if f = 0 then s.writeBar0 p off x be
  else
    match (k.queuesOf f)[off / 32]? with
    | some q => if k.state = 4 then s else s.writeQueue p q (off % 32 / 8) x be true
    | none => s

/-- A read of BAR0 through a function. -/
def State.readRegister (s : State) (p : Pkg) (f off : Nat) : Dword :=
  let k := s.pkg p
  if f = 0 then s.readBar0 p off
  else
    match (k.queuesOf f)[off / 32]? with
    | some q => if k.state = 4 then 0 else s.queueReg p q (off % 32 / 8)
    | none => 0

/-- The aligned offset that an event names. -/
def EvArgs.dwordOff (a : EvArgs) : Nat := a.off.toNat / 8 * 8

/-- REGISTER_WRITE: the host writes the dword at `ev.off` of function `ev.fn`'s BAR0 with `ev.value` and byte enables `ev.be` (R2, R316). The
readback aperture has events of its own. -/
def execRegisterWrite (s : State) : Out :=
  let a := s.ev
  .next (if 0x100000 ≤ a.dwordOff then s else s.writeRegister a.pkg a.fn.toNat a.dwordOff a.value a.be)

end Sys2Proof.Machine
end

