-- ==== Sys2Proof/Machine/LoadStore.lean ====
section
/-! DEFINITION. Loads and stores: majors LD, ST and VM (R170, R171, R174 to R176). -/

namespace Sys2Proof.Machine

/-- ea of a CM instruction: base plus the offset, widened by a pending EXT, in units of the size (R116, R170). -/
def State.cmAddress (s : State) (base : Dword) (off : BitVec 7) (size : Nat) : Dword :=
  base + BitVec.ofInt 64 (s.me.immediate off * size)

/-- What holds a load back before it issues: other pending results, but for a relaxed load behind relaxed loads (R39, R62). -/
def State.loadStall (s : State) (relaxed : Bool) : Option Stall := if relaxed then s.relaxedStall else s.shadowStall

/-- A load of `size` bytes to a destination, with the operands already read. `s` is the state before them, `s1` after. -/
def State.loadAt (s s1 : State) (va : Dword) (size : Nat) (relaxed : Bool) (la : BitVec 4) (dest : Dest) (port : Reg) : State :=
  match s.me.addressStop va size size with
  | some r => s.stopAtIssue r
  | none =>
    match s.reached s1 va .read dest with
    | .error s2 => s2
    | .ok (pa, s2) =>
      match s.ownStall pa size with
      | some s3 => s3
      | none =>
        match s2.reserve port with
        | .error e => s.stall e
        | .ok s3 =>
          let req : MemReq := { op := .load, va := va, pa := pa, size := size }
          let p := s3.pendingOf .access dest la.toNat [{ req := req, stage := startStage s.issue.ep pa }]
          s3.consumeExt.issueAccess { p with relaxed := relaxed }

/-- A load into a g register or a port (R174). -/
def State.load (s : State) (o : OpLoad) (relaxed : Bool) : State :=
  match s.loadStall relaxed with
  | some e => s.stall e
  | none =>
    match s.operands [o.b] [o.d] with
    | .error e => s.stall e
    | .ok (xs, s1) =>
      let size := 2 ^ o.sz.toNat
      s.loadAt s1 (s.cmAddress (xs.headD 0) o.off size) size relaxed o.la (s1.me.destOf o.d) o.d

/-- `ld` (R174). -/
def execLd (o : OpLoad) (s : State) : Out := .next (s.load o false)

/-- `ld.x` (R62, R174). -/
def execLdX (o : OpLoad) (s : State) : Out := .next (s.load o true)

/-- A load into a vector register (R176). -/
def State.vload (s : State) (o : OpVLoad) (relaxed : Bool) : State :=
  match s.loadStall relaxed with
  | some e => s.stall e
  | none =>
    match s.operandsV [o.b] [] [o.d] with
    | .error e => s.stall e
    | .ok (xs, s1) => s.loadAt s1 (s.cmAddress (xs.headD 0) o.off 64) 64 relaxed o.la (.vec o.d 64) 0

/-- `vld` (R176). -/
def execVld (o : OpVLoad) (s : State) : Out := .next (s.vload o false)

/-- `vld.x` (R62, R176). -/
def execVldX (o : OpVLoad) (s : State) : Out := .next (s.vload o true)

/-- A store of `size` bytes, ordinary or streamed, with the operands already read (R175). One of 64 bytes to an instruction store is eight stores of
a dword. (DESIGN CHOICE, notes/assumptions/60.md.) -/
def State.storeAt (s s1 : State) (va : Dword) (size data : Nat) (strm : BitVec 3) (la : BitVec 4) : State :=
  match s.me.addressStop va size size with
  | some r => s.stopAtIssue r
  | none =>
    match s.reached s1 va .write with
    | .error s2 => s2
    | .ok (pa, s2) =>
      if size < 4 && paRegion pa = .istore then s.homeFault va .write
      else if strm = 0 then
        match s.ownStall pa size with
        | some s3 => s3
        | none =>
          let req : MemReq := { op := .store, va := va, pa := pa, size := size, data := data }
          let lanes : List Lane := [{ req := req, stage := startStage s.issue.ep pa }]
          if s.closeStall lanes then s.park .fill .closeStore
          else s2.consumeExt.issueAccess (s2.pendingOf .access .none la.toNat lanes)
      else
        let joins := s.myCore.combine.any (fun e => e.ctx = s.issue.ctx && e.strm = strm && e.seg = pa / 256 * 256)
        match s.streamReady strm (homeEp pa) joins with
        | .error s3 => s3
        | .ok _ => ((s2.consumeExt.boundTo strm (homeEp pa)).combineStore s.issue.ep s.issue.ctx strm va pa size data).retire

/-- `st` (R175). -/
def execSt (o : OpStore) (s : State) : Out :=
  .next (match s.shadowStall with
    | some e => s.stall e
    | none =>
      match s.operands [o.b, o.d] [] with
      | .error e => s.stall e
      | .ok (xs, s1) =>
        let size := 2 ^ o.sz.toNat
        s.storeAt s1 (s.cmAddress (xs.headD 0) o.off size) size ((xs.getD 1 0).toNat % 2 ^ (8 * size)) o.strm o.la)

/-- `vst` (R176). -/
def execVst (o : OpVStore) (s : State) : Out :=
  .next (match s.shadowStall with
    | some e => s.stall e
    | none =>
      match s.operandsV [o.b] [] [o.d] with
      | .error e => s.stall e
      | .ok (xs, s1) => s.storeAt s1 (s.cmAddress (xs.headD 0) o.off 64) 64 (s.me.getV o.d).toNat o.strm o.la)

end Sys2Proof.Machine
end

