-- ==== Sys2Proof/Machine/Messages.lean ====
section
/-! DEFINITION. Messaging: major MSG (R187 to R194). -/

namespace Sys2Proof.Machine

/-- SEND's fields are illegal (R189). -/
def sendBad (o : OpSend) : Bool :=
  (o.kind = 1 && o.nr = 1) || 28 ≤ o.a.toNat || (o.a ≠ 0 && 27 < o.a.toNat + o.np.toNat)

/-- A SEND with its target read, a pop that may free a reply slot: the outbox and reply-slot tests on what that leaves, then the message (R189, R191). -/
def State.sendTo (s s1 : State) (o : OpSend) (t : Dword) (dst : Ep) : State :=
  let needSlot := o.kind = 0 && o.nr = 0
  let full := 64 ≤ s.myCore.outboxUsed o.ob
  if full || (needSlot && s1.myCore.freeSlot.isNone) then
    if s.me.stBit 23 then s.trap 6 (if full then o.ob.setWidth 64 else 2) t
    else s.park .message (.outbox o.ob (!full))
  else if s.behindOutbox o.ob && !s.me.stBit 23 then s.park .message (.outbox o.ob false)
  else
    let (s2, slot) : State × Nat := match needSlot, s1.myCore.freeSlot with
      | true, some i => (s1.setMyCore (s1.myCore.setSlot i { owner := some s.issue.ctx }), i)
      | _, _ => (s1, 0)
    let payload := if o.a = 0 then List.replicate (o.np.toNat + 1) 0 else (sendRegs o.a o.np).map s1.me.getG
    let h := msgHeader (fld t 48 16) o.np.toNat o.kind (if o.kind = 0 then o.nr else 0) slot s.issue.ctx s.issue.ep
    (s2.placeMessage o.ob dst h t payload).retire

/-- `send`; a target that names no core of the system faults with the access code 0 (R14, R189). (DESIGN CHOICE, notes/assumptions/61.md.) -/
def execSend (o : OpSend) (s : State) : Out :=
  .next (if sendBad o then s.illegal
    else
      match s.shadowStall with
      | some e => s.stall e
      | none =>
        match s.me.waitsOn (sendRegs o.a o.np) with
        | some r => s.park .fill (.reg r)
        | none =>
          match s.operands [o.t] [] with
          | .error e => s.stall e
          | .ok (xs, s1) =>
            let t := xs.headD 0
            match s.coreOf t with
            | none => s.stopAfterIssue (.fault { kind := 1 })
            | some dst => s.sendTo s1 o t dst)

/-- A target code that WAITQ and QLEN refuse, a count beyond its range, or a core queue without the engine set (R31, R194). -/
def State.targetBad (s : State) (code : BitVec 4) (count : Option (BitVec 6)) : Bool :=
  let queue := 1 ≤ code.toNat && code.toNat ≤ 8
  code = 0 || 13 ≤ code.toNat
    || (match count with
        | some n => n = 0 || (queue && 32 < n.toNat)
        | none => false)
    || (queue && !s.me.eset)

/-- `waitq`: the count at release goes to the destination; the wait is bounded (R45, R194). -/
def execWaitq (o : OpWaitq) (s : State) : Out :=
  .next (if s.targetBad o.code (some o.n) then s.illegal
    else
      match s.shadowStall with
      | some e => s.stall e
      | none =>
        match s.operands [o.a] [o.d] with
        | .error e => s.stall e
        | .ok (xs, s1) =>
          let limit := if (xs.headD 0).toNat % 2 ^ 32 = 0 then s.me.wlim.toNat % 2 ^ 32 else (xs.headD 0).toNat % 2 ^ 32
          let count := s1.targetCount s.issue.ep s.issue.ctx o.code
          if s.me.waitFrom ≠ 0 && o.n.toNat ≤ count then s1.completeHeld s.issue.ep s.issue.ctx (BitVec.ofNat 64 count)
          else if o.n.toNat ≤ count then
            match s1.writeReg o.d (BitVec.ofNat 64 count) with
            | .error e => s.stall e
            | .ok s2 => s2.retire
          else
            match (if s.me.waitFrom = 0 then s1.reserve o.d else .ok s1) with
            | .error e => s.stall e
            | .ok s2 =>
              s2.holdFor (if o.code.toNat ≤ 8 then .queue else .message) (.count o.code o.n.toNat) (s2.me.destOf o.d) limit)

/-- `qlen` (R194). -/
def execQlen (o : OpQlen) (s : State) : Out :=
  .next (if s.targetBad o.code none then s.illegal
    else
      match s.shadowStall with
      | some e => s.stall e
      | none =>
        match s.operands [] [o.d] with
        | .error e => s.stall e
        | .ok (_, s1) =>
          match s1.writeReg o.d (BitVec.ofNat 64 (s1.targetCount s.issue.ep s.issue.ctx o.code)) with
          | .error e => s.stall e
          | .ok s2 => s2.retire)

end Sys2Proof.Machine
end

