-- ==== Sys2Proof/Machine/Readback.lean ====
section
/-! DEFINITION. The readback aperture (R25, R169, R284, R288, R289, R324, R325). Layouts that R324 does not fix are named in
notes/assumptions/23.md. -/

namespace Sys2Proof.Machine

/-! ## What the aperture shows (R324) -/

/-- CLASS of RBSEL. -/
def Package.rbClass (k : Package) : Nat := (fld k.rbsel 60 4).toNat

/-- The endpoint RBSEL names. -/
def Package.rbEp (k : Package) (p : Pkg) : Ep := mkEp p (fld k.rbsel 59 1) (fld k.rbsel 48 11)

/-- The context RBSEL names. -/
def Package.rbCtx (k : Package) : Ctx := fld k.rbsel 44 4

/-- The byte of the object that an offset of the aperture shows. -/
def Package.rbByte (k : Package) (off : Nat) : Nat := (fld k.rbsel 40 4).toNat * 2 ^ 20 + off

/-- The device is quiesced, or counts as quiesced after the thermal trip (R326, R328). -/
def Package.quiet (k : Package) : Bool := k.qack || (k.state = 4 && k.reason = 5)

/-- Class 0: the thread record of a context, with the streams as they stand (R25); of a FREE one only CSTATE (R29, R288). -/
def State.threadDwords (s : State) (ep : Ep) (ctx : Ctx) : List Dword :=
  if (s.thr ep ctx).status = .free then List.replicate 324 0 ++ [0x9000000000000000] ++ List.replicate 11 0
  else s.recordWith Stream.reg ep ctx

/-- Class 1: the engine set (R289). -/
def Core.engineDwords (c : Core) : List Dword :=
  c.acc.toList.flatMap (fun a => a.toList.map (fun x => x.signExtend 64)) ++ c.ast.toList ++ c.apc.toList ++ c.rings.toList ++
    c.cq.toList.map (fun q => BitVec.ofNat 64 q.data.length) ++ c.cq.toList.flatMap CoreQueue.entries ++ List.replicate 40 0 ++
    ((c.copies.filter (fun (k : CopyCmd) => decide (k.phase = Phase.queued))).flatMap CopyCmd.saved ++ List.replicate 512 0).take 512 ++
    (c.mq.flatMap MxCmd.saved ++ List.replicate 192 0).take 192

/-- Class 2, dword n: a granary dword, or its full/empty bit, mark and syndrome. -/
def State.granaryDword (s : State) (ep : Ep) (n : Nat) : Dword :=
  let pa := granaryPa ep (n / 2 * 8)
  if n % 2 = 0 then s.peekDword pa
  else BitVec.ofNat 64 (b2n (s.mem.isFull pa) + b2n (s.mem.poisoned pa) * 2 + (Config.syndrome pa).toNat * 2 ^ 8)

/-- Class 4: an entry of a stream table in four dwords. -/
def Entry.dwords (e : Entry) : List Dword :=
  [BitVec.ofNat 64 (e.src.toNat + e.ctx.toNat * 2 ^ 22 + e.str.toNat * 2 ^ 26 + e.cqe.toNat * 2 ^ 30), e.expected.setWidth 64,
    BitVec.ofNat 64 (e.epoch.toNat + b2n e.isOpen * 2), BitVec.ofNat 64 e.held.length]

/-- Class 5: a leaf of the translation cache in two dwords; an empty way reads zero. -/
def TlbEntry.dwords (e : TlbEntry) : List Dword :=
  [BitVec.ofNat 64 (2 ^ 63 + e.vpn % 2 ^ 44 * 2 ^ 18 + e.level.toNat * 2 ^ 16 + e.asid.toNat), e.leaf]

/-- A way of a set: its leaves stand in the order in which they were cached. (DESIGN CHOICE, notes/assumptions/23.md.) -/
def Die.way (d : Die) (set way : Nat) : List Dword :=
  match (d.tlb.filter (fun e => e.set.toNat = set))[way]? with
  | some e => e.dwords
  | none => [0, 0]

/-- Class 6: a table slot in 160 dwords: 4-bit lengths, tag, histogram, reference count. -/
def TableSlot.dwords (w : TableSlot) : List Dword :=
  (unpackNats 64 16 (packNats 4 (w.lens.map (fun x => x.toNat)))).map (fun x => BitVec.ofNat 64 x) ++ [w.tag.setWidth 64] ++
    (unpackNats 64 128 (packNats 32 (w.hist.map (fun x => x.toNat)))).map (fun x => BitVec.ofNat 64 x) ++ [BitVec.ofNat 64 w.refs] ++
    List.replicate 14 0

/-- Some message of a store in six dwords: valid bit and owner, header, payload. -/
def messageDwords (valid : Bool) (owner : Nat) (h : Dword) (l : List Dword) : List Dword :=
  [BitVec.ofNat 64 (b2n valid * 2 ^ 63 + owner), h] ++ (l ++ List.replicate 4 0).take 4

/-- Class 7: 64 entries each of the request inbox, the reply inbox and the two outboxes, each message at its entry. -/
def Core.messageStores (c : Core) : List Dword :=
  let fill (l : List (Nat × List Dword)) : List Dword := (List.range 64).flatMap (fun i => Assoc.get l i (List.replicate 6 0))
  fill (c.inbox.map (fun m => (m.entry, messageDwords true ((m.holder.map (fun x => 16 + x.toNat)).getD 0) m.header m.payload))) ++
    fill (((List.range 64).zip c.replies.toList).map (fun (i, w) => (i, messageDwords w.msg.isSome ((w.owner.map (fun x => 16 + x.toNat)).getD 0)
      ((w.msg.map Prod.fst).getD 0) ((w.msg.map Prod.snd).getD [])))) ++
    fill (c.outbox0.map (fun m => (m.entry, messageDwords true (16 + m.ctx.toNat) m.header m.payload))) ++
    fill (c.outbox1.map (fun m => (m.entry, messageDwords true (16 + m.ctx.toNat) m.header m.payload)))

/-- Class 8: counters of a core or a home slice. -/
def State.counters (s : State) (ep : Ep) : List Dword :=
  if epIsCore ep then [BitVec.ofNat 64 (s.core ep).stall, (s.core ep).cyc] else [BitVec.ofNat 64 (s.dieCyc ep)]

/-- The dwords of an object. -/
inductive Shown where
  | dword (x : Dword)
  | beyond

/-- Dword n of a list, or beyond it. -/
def shownOf (l : List Dword) (n : Nat) : Shown :=
  match l[n]? with
  | some x => .dword x
  | none => .beyond

/-- Dword n of the object that RBSEL selects. -/
def State.shown (s : State) (p : Pkg) (n : Nat) : Shown :=
  let k := s.pkg p
  let ep := k.rbEp p
  let core := epIsCore ep
  match k.rbClass with
  | 0 => if core then shownOf (s.threadDwords ep k.rbCtx) n else .beyond
  | 1 => if core then shownOf (s.core ep).engineDwords n else .beyond
  | 2 => if core && n < 2 ^ 21 then .dword (s.granaryDword ep n) else .beyond
  | 3 => if core && n < 2 ^ 15 then .dword (s.peekDword (istorePa ep (8 * n))) else .beyond
  | 4 =>
    let room := (tableRoom ep).1
    if (core || epIsSlice ep) && n < 4 * room then
      .dword ((((s.table ep)[n / 4]?).map Entry.dwords |>.getD [0, 0, 0, 0]).getD (n % 4) 0) else .beyond
  | 5 => if n < 2 ^ 17 then .dword (((s.die p (fld k.rbsel 59 1)).way (n / 32) (n / 2 % 16)).getD (n % 2) 0) else .beyond
  | 6 => if core && n < 640 then .dword ((vget (BitVec.ofNat 2 (n / 160)) (s.core ep).slots).dwords.getD (n % 160) 0) else .beyond
  | 7 => if core then shownOf (s.core ep).messageStores n else .beyond
  | 8 => if core || epIsSlice ep then shownOf (s.counters ep) n else .beyond
  | _ => .dword 0

/-- A read that is exact without a quiesce: of a context that is not READY, of counters, of a reserved class (R324). -/
def State.exactNow (s : State) (p : Pkg) : Bool :=
  let k := s.pkg p
  k.quiet || k.rbClass = 8 || 9 ≤ k.rbClass || (k.rbClass = 0 && (s.thr (k.rbEp p) k.rbCtx).status ≠ .ready)

/-- Sets bits of RBSTAT: NQ 1, RNG 2, RO 4, WR 8. -/
def State.setRbstat (s : State) (p : Pkg) (bits : BitVec 4) : State :=
  let k := s.pkg p
  s.setPkg p { k with rbstat := k.rbstat ||| bits }

/-- The host receives data. -/
def State.reply (s : State) (p : Pkg) (r : HostReply) : State :=
  let k := s.pkg p
  s.setPkg p { k with replies := k.replies ++ [r] }

/-- The aperture is alive: not in maintenance but for a thermal trip (R321, R328). (DEDUCED, notes/assumptions/38.md.) -/
def Package.apertureAlive (k : Package) : Bool := k.state ≠ 4 || k.reason = 5

/-- READBACK_READ: the host reads the dword at `ev.off` of the PF's BAR0 through the aperture; of any other offset, the register there
(R316, R324). -/
def execReadbackRead (s : State) : Out :=
  let a := s.ev
  let k := s.pkg a.pkg
  let off := a.dwordOff
  .next (if off < 0x100000 || a.fn ≠ 0 then s.reply a.pkg (.data (s.readRegister a.pkg a.fn.toNat off).toNat false)
    else if 0x200000 ≤ off || !k.apertureAlive then s.reply a.pkg (.data 0 false)
    else if !s.exactNow a.pkg then (s.setRbstat a.pkg 1).reply a.pkg (.data (2 ^ 64 - 1) false)
    else
      match s.shown a.pkg (k.rbByte (off - 0x100000) / 8) with
      | .dword x => s.reply a.pkg (.data x.toNat false)
      | .beyond => (s.setRbstat a.pkg 2).reply a.pkg (.data (2 ^ 64 - 1) false))

/-! ## Writing (R169, R325) -/

/-- A register that a rewrite repairs carries no error any more (R284). -/
def State.mend (s : State) (ep : Ep) (ctx : Ctx) (code : BitVec 16) : State :=
  s.setCore ep ((s.core ep).mend (fun x y => x = ctx && y = code))

/-- A dword of a v register is rewritten: the register carries no error any more once all eight are (R284, R325). -/
def State.mendPart (s : State) (ep : Ep) (ctx : Ctx) (n : Nat) : State :=
  let c := s.core ep
  let fresh := if c.fresh.contains (ctx, n) then c.fresh else (ctx, n) :: c.fresh
  if (List.range 8).all (fun i => fresh.contains (ctx, n / 8 * 8 + i)) then
    (s.setCore ep { c with fresh := fresh.filter (fun x => !(x.1 = ctx && x.2 / 8 = n / 8)) }).mend ep ctx (regCode 1 (n / 8) 0)
  else s.setCore ep { c with fresh := fresh }

/-- A result of a thread is pending for a g register (R169). -/
def Thread.gPending (t : Thread) (n : Nat) : Bool :=
  t.pend.any (fun p => match p.dest with | .reg r => r.toNat = n | _ => false)

/-- STRMn written whole: every field but PEND, which counts what is not acknowledged (R65). -/
def Stream.putReg (st : Stream) (x : Dword) : Stream :=
  { st with err := bitOf x 63, bound := bitOf x 62, epoch := fld x 61 1, seq := fld x 37 16, ep := fld x 0 22 }

/-- A class-0 write of dword n of the thread record: a FAULTED context's registers; a v register in part; what is no register is refused
(R169, R325). (DEDUCED, notes/assumptions/50.md.) -/
def State.writeThread (s : State) (ep : Ep) (ctx : Ctx) (n : Nat) (x : Dword) : Option State :=
  let t := s.thr ep ctx
  if t.status ≠ .faulted then none
  else if n < 256 then
    let r : Reg := BitVec.ofNat 5 (n / 8)
    if t.vecPending r then none
    else some ((s.setThr ep ctx (t.setV r (setFld (t.getV r) (64 * (n % 8)) 64 x.toNat))).mendPart ep ctx n)
  else if n < 264 then
    let r : KReg := BitVec.ofNat 3 (n - 256)
    some ((s.setThr ep ctx (t.setK r x)).mend ep ctx (regCode 3 r.toNat 0))
  else if n < 291 then
    let r : Reg := BitVec.ofNat 5 (n - 263)
    if t.gPending r.toNat then none else some ((s.setThr ep ctx (t.setG r x)).mend ep ctx (regCode 0 r.toNat 0))
  else if 292 ≤ n && n < 311 then
    let i := recordSregs.getD (n - 292) 0
    some ((s.setThr ep ctx (t.putSreg i x)).mend ep ctx (regCode 4 0 i))
  else if 311 ≤ n && n < 319 then
    let i : BitVec 3 := BitVec.ofNat 3 (n - 311)
    some ((s.setThr ep ctx (t.setStream i ((t.stream i).putReg x))).mend ep ctx (regCode 4 0 (32 + (n - 311))))
  else none

/-- The fields of a CE word that a queued command keeps beside it: EOP, M and LA. -/
def wordEop (x : Dword) : BitVec 5 := fld x 21 5

/-- Registers of the operand block of an eop (R225). -/
def operandRegs (eop : Nat) : Nat := [3, 6, 3, 3, 3, 4, 4, 4, 5, 4, 3, 2, 5].getD eop 0

/-- The eops whose operands name a shape record (R233). -/
def CopyCmd.shaped (k : CopyCmd) : Bool := k.eop = 3 || k.eop = 4

/-- A queued command with dword i of its 16 written: the word, its PC, its operands and completion values, its base counter, and what follows from
them: its ring and its byte count. A TLD or TST with another record reads it when it starts (R225, R289, R325; notes/assumptions/50.md). -/
def CopyCmd.putSaved (k : CopyCmd) (i : Nat) (x : Dword) : CopyCmd :=
  let l := k.saved.set i x
  let d (j : Nat) : Dword := l.getD j 0
  let n := operandRegs (wordEop (d 0)).toNat
  let k1 : CopyCmd := { k with
    word := (d 0).setWidth 32, eop := wordEop (d 0), action := fld (d 0) 4 2, pc := BitVec.ofNat 18 ((d 1).toNat % 2 ^ 18 / 4 * 4),
    ops := (l.drop 2).take n, w := d (2 + n), value := d (3 + n), base := d 15 }
  let k2 := { k1 with record := if k1.shaped && k1.eop = k.eop && k1.op 1 = k.op 1 then k.record else [] }
  let bytes := if k2.shaped then (if k2.record.isEmpty then 0 else shapeBytes k2.record) else
    (copyPlan k2.eop.toNat (k2.ops.map (fun y => y.toNat)) none 1).bytes
  let k3 := { k2 with ring := if ringEop k2.eop.toNat then designated (k2.ops.headD 0) else none, bytes := bytes }
  { k3 with total := if k3.shaped && k3.record.isEmpty then 1 else k3.units }

/-- A queued command is rewritten: one that names another ring reserves its tiles there, and its table slots are counted anew (R232, R241, R325). -/
def State.putCopy (s : State) (ep : Ep) (k : CopyCmd) (i : Nat) (x : Dword) : State :=
  let c := (s.core ep).countRefs k.refs false
  let k1 := k.putSaved i x
  let before := c.copies.takeWhile (fun y => y.id ≠ k.id)
  let k2 := { k1 with after := (before.filter (fun (y : CopyCmd) => y.writesSlot && k1.named.contains y.slot)).map CopyCmd.id }
  let (c1, k3) : Core × CopyCmd := match k2.ring with
    | some r =>
      if k.ring = some r then (c, k2)
      else
        let n := tileBytes (vget r c.rings)
        ({ c with ringNext := vset r (vget r c.ringNext + k2.bytes / n) c.ringNext }, { k2 with tile := vget r c.ringNext, tileLen := n })
    | none => (c, k2)
  (s.setCore ep (c1.countRefs k3.refs true)).setCopy ep k3

/-- Dword i of a matrix command's 16 is written: the word, its PC with XD, the two operands, the base counter, FMT, and the scales of an MDR
(R289, R325). -/
def MxCmd.putSaved (m : MxCmd) (i : Nat) (x : Dword) : MxCmd :=
  if i = 0 then
    { m with word := x.setWidth 32, eop := wordEop x, acc := fld x 4 2, la := fld x 0 4,
             ringA := if 2 ≤ (wordEop x).toNat then 0 else fld x 11 3, ringB := if 2 ≤ (wordEop x).toNat then 0 else fld x 6 3 }
  else if i = 1 then { m with pc := BitVec.ofNat 18 (x.toNat % 2 ^ 18 / 4 * 4), xd := bitOf x 63 }
  else if i = 2 then { m with a := x }
  else if i = 3 then { m with c := x }
  else if i = 5 then { m with base := x }
  else if i = 6 then { m with fmt := x.setWidth 16 }
  else if 8 ≤ i && m.eop = 2 then { m with scale := setFld m.scale (64 * (i - 8)) 64 x.toNat }
  else m

/-- A class-1 write of dword n of the engine set. A ring whose TAIL it moves has no reservation any more, as after an MTS; an entry past a queue's count
is kept for the count to reach it (R157, R289, R325). -/
def State.writeEngine (s : State) (ep : Ep) (n : Nat) (x : Dword) : State :=
  let c := s.core ep
  let mendAll (code : BitVec 16) (c : Core) : Core := c.mend (fun _ y => y = code)
  if n < 1024 then
    let m : BitVec 2 := BitVec.ofNat 2 (n / 256)
    s.setCore ep (mendAll (regCode 2 m.toNat (n % 256)) { c with
      acc := vset m ((vget m c.acc).setIfInBounds (n % 256) (x.setWidth 48)) c.acc })
  else if n < 1028 then s.setCore ep (mendAll (regCode 4 0 (n - 1024 + 76)) { c with ast := vset (BitVec.ofNat 2 (n - 1024)) (x &&& astField) c.ast })
  else if n < 1032 then s.setCore ep (mendAll (regCode 4 0 (n - 1028 + 72)) { c with apc := vset (BitVec.ofNat 2 (n - 1028)) (x &&& apcField) c.apc })
  else if n < 1040 then
    let r : BitVec 3 := BitVec.ofNat 3 (n - 1032)
    let kept := ringTail x = ringTail (vget r c.rings)
    s.setCore ep (mendAll (regCode 4 0 (n - 1032 + 64)) (if kept then { c with rings := vset r x c.rings } else c.setSreg (n - 1032 + 64) x))
  else if n < 1048 then
    let i : BitVec 3 := BitVec.ofNat 3 (n - 1040)
    let q := vget i c.cq
    let kept := (List.range 32).map (fun j => ((q.head.toNat + j) % 32, q.entries.getD j 0))
    s.setCore ep { c with cq := vset i { q with data := q.entries.take (min 32 x.toNat), spare := kept } c.cq }
  else if n < 1304 then
    let i : BitVec 3 := BitVec.ofNat 3 ((n - 1048) / 32)
    let q := vget i c.cq
    let at_ := (n - 1048) % 32
    s.setCore ep (mendAll (regCode 5 i.toNat ((q.head.toNat + at_) % 32)) { c with cq := vset i (if at_ < q.data.length then { q with data := q.data.set at_ x }
      else { q with spare := ((q.head.toNat + at_) % 32, x) :: q.spare.filter (fun y => y.1 ≠ (q.head.toNat + at_) % 32) }) c.cq })
  else if 1344 ≤ n && n < 1856 then
    match (c.copies.filter (fun (k : CopyCmd) => decide (k.phase = Phase.queued)))[(n - 1344) / 16]? with
    | some k => s.putCopy ep k ((n - 1344) % 16) x
    | none => s
  else if 1856 ≤ n && n < 2048 then
    s.setCore ep { c with mq := c.mq.modify ((n - 1856) / 16) (fun m => m.putSaved ((n - 1856) % 16) x) }
  else s

/-- A class-2 write: a value as its own dword, or a dword's full/empty bit and mark (R325). The operations that wait for it are performed when the units
go on (R180, R326). -/
def State.writeGranary (s : State) (ep : Ep) (n : Nat) (x : Dword) : State :=
  let pa := granaryPa ep (n / 2 * 8)
  let k := s.pkg (epPkg ep)
  let s := s.setPkg (epPkg ep) { k with touched := natSet k.touched pa true }
  if n % 2 = 0 then { (s.noteRing pa 8) with mem := s.mem.write pa 8 x.toNat }
  else { s with mem := (s.mem.setFull pa (bitOf x 0)).setPoison pa (bitOf x 1) }

/-- A write through the aperture of dword n of the object: a class-0 write that is refused, one past the record too, sets WR; one of classes 4 on sets
RO wherever it falls; one of classes 1 to 3 past the object sets RNG (R169, R325). -/
def State.writeShown (s : State) (p : Pkg) (n : Nat) (x : Dword) : State :=
  let k := s.pkg p
  let ep := k.rbEp p
  if k.rbClass = 0 then
    (if epIsCore ep then s.writeThread ep k.rbCtx n x else none).getD (s.setRbstat p 8)
  else if 4 ≤ k.rbClass then s.setRbstat p 4
  else match s.shown p n with
  | .beyond => s.setRbstat p (if k.quiet then 2 else 1)
  | .dword _ =>
    match k.rbClass with
    | 1 => if k.quiet then s.writeEngine ep n x else s.setRbstat p 1
    | 2 => if k.quiet then s.writeGranary ep n x else s.setRbstat p 1
    | 3 =>
      if k.quiet then
        let pa := istorePa ep (8 * n)
        let s1 := (s.noteCode none pa 4).noteCode none (pa + 4) 4
        { s1 with mem := (s1.mem.write pa 8 x.toNat).setPoison pa false }
      else s.setRbstat p 1
    | _ => s.setRbstat p 4

/-- READBACK_WRITE: the host writes the dword at `ev.off` through the aperture, which takes no write in maintenance (R321). -/
def execReadbackWrite (s : State) : Out :=
  let a := s.ev
  let k := s.pkg a.pkg
  let off := a.dwordOff
  .next (if off < 0x100000 || 0x200000 ≤ off || a.fn ≠ 0 || k.state = 4 then s
    else s.writeShown a.pkg (k.rbByte (off - 0x100000) / 8) a.value)

end Sys2Proof.Machine
end

