-- ==== Sys2Proof/Machine/SourceSteps.lean ====
section
/-! DEFINITION. Packets back at their source: data, values, acknowledgements and refusals, and the timers of retransmission (R58, R61, R66,
R172, R186, R190, R285, R299, R302, R303). Timer events name a session by `ev.ep`, `ev.ctx`, `ev.n` (its STR code), `ev.id` (a copy
command), `ev.value` (its destination, where a source keeps one session for each) and an operation by `ev.seq`. -/

namespace Sys2Proof.Machine

/-! ## Results of accesses -/

/-- The lane a key names takes what came back, if it still waits for it. -/
def State.laneBack (s : State) (ep : Ep) (ctx : Ctx) (key : Nat) (f : Lane → Lane) : State :=
  if key = 0 || 2 ^ 64 ≤ key then s
  else
    let t := s.thr ep ctx
    (s.setThr ep ctx (t.setLane (keyOf key).1 (keyOf key).2 (fun l =>
      match l.stage with
      | .sent | .waiting | .withdrawing => f l
      | _ => l))).pump ep ctx

/-- A load with the data of its READ: the value, or the first dword that carries the mark (R172, R299). -/
def Lane.loaded (l : Lane) (p : Packet) : Lane :=
  let n := (l.req.pa % 8 + l.req.size + 7) / 8
  match (List.range n).find? (fun i => p.pmask.getLsbD i) with
  | some i => { l with req := { l.req with done := [i] }, stage := .poisoned }
  | none => { l with req := { l.req with got := p.payload / 2 ^ (8 * (l.req.pa % 8)) % 2 ^ (8 * l.req.size) }, stage := .performed }

/-- RDATA: the data of a READ reaches the load, or the copy command, that waits for it; other data is discarded (R61). -/
def execRdata (s : State) : Out :=
  .next (match s.arrived .rdata with
    | none => s
    | some p =>
      if p.malformed then s.reject p
      else if 2 ^ 64 ≤ p.note then (s.consumed p).copyData p.dst p.note p.payload (p.pmask.getLsbD 0)
      else (s.consumed p).laneBack p.dst p.ctx p.note (fun l => if l.req.op = .load then l.loaded p else l))

/-- AVAL: the value of an atomic or full/empty operation reaches its thread (R299). -/
def execAval (s : State) : Out :=
  .next (match s.arrived .aval with
    | none => s
    | some p =>
      if p.malformed then s.reject p
      else (s.consumed p).laneBack p.dst p.ctx p.note (fun l => l.performedWith p.payload (p.pmask ≠ 0)))

/-! ## The sessions of a source -/

/-- A session of a source: a thread's stream, a thread's messages, a copy command's hidden stream. -/
inductive Place where
  | stream (n : BitVec 3)
  | message (key : Nat)
  | copy (id dst : Nat)
  deriving DecidableEq, Repr

/-- The session at a place. -/
def State.session (s : State) (ep : Ep) (ctx : Ctx) : Place → Stream
  | .stream n => (s.thr ep ctx).stream n
  | .message key => Assoc.get (s.thr ep ctx).msgStreams key {}
  | .copy id dst => match (s.core ep).copy? id with
    | some k => Assoc.get k.streams dst {}
    | none => {}

/-- Replaces the session at a place. -/
def State.setSession (s : State) (ep : Ep) (ctx : Ctx) (w : Place) (x : Stream) : State :=
  match w with
  | .stream n => s.setThr ep ctx ((s.thr ep ctx).setStream n x)
  | .message key => let t := s.thr ep ctx; s.setThr ep ctx { t with msgStreams := Assoc.set t.msgStreams key x }
  | .copy id dst => match (s.core ep).copy? id with
    | some k => s.setCopy ep { k with streams := Assoc.set k.streams dst x }
    | none => s

/-- The session a source keeps under a stream code towards a destination; for code 8 that of a command (R297). -/
def placeOf (str : Nat) (id : Nat) (dst : Ep) : Option Place :=
  if str < 8 then some (.stream (BitVec.ofNat 3 str))
  else if str = 8 then some (.copy id dst.toNat)
  else if str ≤ 10 then some (.message (msgKey (BitVec.ofNat 1 (str - 9)) dst))
  else none

/-- The copy command of a context whose packets carry a CQE. -/
def Core.copyOfCqe (c : Core) (ctx : Ctx) (cqe : BitVec 5) : Nat :=
  match c.copies.find? (fun k => k.ctx = ctx && k.cqe = cqe) with
  | some k => k.id
  | none => c.nextCmd

/-- END has ended the thread of a stream: what it sent there is not sent again. Messages are no streamed operations and go on until they are acknowledged
(R63, R190, R280, R303). (DEDUCED, notes/assumptions/47.md.) -/
def State.dropped (s : State) (ep : Ep) (ctx : Ctx) : Place → Bool
  | .stream _ => (s.thr ep ctx).abandon
  | _ => false

/-- The session an answer belongs to: open, at the answerer, under the answer's epoch. -/
def State.answered (s : State) (p : Packet) : Option (Place × Stream) :=
  match placeOf p.str.toNat ((s.core p.dst).copyOfCqe p.ctx p.cqe) p.src with
  | none => none
  | some w =>
    let st := s.session p.dst p.ctx w
    if st.opened && st.wire = p.epoch && st.ep = p.src && !s.dropped p.dst p.ctx w then some (w, st) else none

/-! ## ACK (R66, R190, R299, R303) -/

/-- A sequence number is acknowledged by a number: it is that one or earlier. -/
def ackedBy (seq acked : BitVec 16) : Bool := decide (seqAhead acked seq < 2 ^ 15)

/-- Operations of a session are acknowledged: remote ordinary stores are performed, outbox entries are free (R61, R66, R190). -/
def State.acknowledge (s : State) (ep : Ep) (ctx : Ctx) (w : Place) (st : Stream) (acked : BitVec 16) : State :=
  let gone := st.unacked.filter (fun u => ackedBy u.pkt.seq acked)
  let s1 := s.setSession ep ctx w { st with unacked := st.unacked.filter (fun u => !ackedBy u.pkt.seq acked) }
  match w with
  | .stream _ =>
    gone.foldl (fun (s : State) u =>
      if u.pkt.type = .write then s.laneBack ep ctx (u.pkt.note / 2 ^ 32) (fun l => l.performedWith 0 false) else s) s1
  | .message _ =>
    let c := s1.core ep
    let keep (m : OutMsg) : Bool := !(m.dst = st.ep && m.ctx = ctx && ackedBy m.seq acked)
    let ob : BitVec 1 := match w with | .message key => BitVec.ofNat 1 (key / 2 ^ 22) | _ => 0
    s1.setCore ep (c.setOutbox ob ((c.outbox ob).filter keep))
  | .copy _ _ => s1

/-- The home's word on one access: performed, poisoned, or refused a waiter entry (R58, R172, R186). -/
def State.noteBack (s : State) (p : Packet) : State :=
  let now := (s.core p.dst).cyc.toNat
  s.laneBack p.dst p.ctx p.note (fun l =>
    if p.be ≠ 0 then { l with stage := .refused now } else l.performedWith 0 (p.pmask ≠ 0))

/-- An acknowledged CLOSE leaves the close store (R303). -/
def State.freeClose (s : State) (p : Packet) : State :=
  let c := s.core p.dst
  let is (u : Sent) : Bool :=
    u.pkt.ctx = p.ctx && u.pkt.str = p.str && u.pkt.cqe = p.cqe && u.pkt.dst = p.src && u.pkt.epoch = p.epoch && u.pkt.seq.setWidth 32 = p.auxf
  s.setCore p.dst { c with closes := c.closes.filter (fun u => !is u) }

/-- ACK. -/
def execAck (s : State) : Out :=
  .next (match s.arrived .ack with
    | none => s
    | some p =>
      if p.malformed then s.reject p
      else
        let s1 := (s.consumed p).freeClose p
        let s2 := match s1.answered p with
          | some (w, st) => s1.acknowledge p.dst p.ctx w st (p.auxf.setWidth 16)
          | none => s1
        (s2.noteBack p).pump p.dst p.ctx)

/-! ## Stream errors (R271, R285, R302) -/

/-- RLIM; 0 acts as 1 (R302). -/
def Package.rlim (k : Package) : Nat := max 1 (k.ftcfg.toNat / 2 ^ 16 % 256)

/-- The retransmit timeout in die cycles (R302). -/
def Package.timeout (k : Package) : Nat := 2 ^ (min 28 (max 16 (k.ftcfg.toNat / 2 ^ 8 % 32)))

/-- A fault of a thread in its context: at its next issue boundary, or at once when it is parked, FAULTED or ending (R271).
(DEDUCED, notes/assumptions/41.md.) -/
def State.postOwn (s : State) (ep : Ep) (ctx : Ctx) (r : FaultReq) : State :=
  let t := s.thr ep ctx
  if t.status = .ready && !t.quitting then s.setThr ep ctx { t with faultQ := t.faultQ ++ [r] } else s.enterFault ep ctx r

/-- A session reaches its limit: a thread's stream blocks and faults its thread, a copy fails; messages are sent for ever
(R285, R302; notes/assumptions/20.md). -/
def State.streamError (s : State) (ep : Ep) (ctx : Ctx) (w : Place) : State :=
  let st := { s.session ep ctx w with err := true }
  let first : Dword := match st.unacked with | u :: _ => u.pkt.seq.setWidth 64 | [] => st.seq.setWidth 64
  match w with
  | .stream n =>
    (s.setSession ep ctx w st).postOwn ep ctx
      { kind := 4, id := n.toNat, aux0 := n.setWidth 64, aux1 := st.reg, aux2 := first }
  | .copy id _ =>
    match ((s.setSession ep ctx w st).core ep).copy? id with
    | some k =>
      (s.setSession ep ctx w st).failCopy ep k { k.faultAt { kind := 4, aux0 := 8, aux1 := st.reg } 0 with aux2 := first }
    | none => s
  | .message _ => s

/-- Sends an unacknowledged operation again. -/
def Sent.again (u : Sent) (now : Nat) : Sent := { u with sentAt := now, backoff := none, resent := true }

/-- Changes the unacknowledged operation under a sequence number. -/
def Stream.change (st : Stream) (seq : BitVec 16) (f : Sent → Sent) : Stream :=
  { st with unacked := st.unacked.map (fun (u : Sent) => if u.pkt.seq = seq then f u else u) }

/-- The unacknowledged operation under a sequence number. -/
def Stream.sent? (st : Stream) (seq : BitVec 16) : Option Sent := st.unacked.find? (fun u => u.pkt.seq = seq)

/-- An operation of a session is sent again. A message is read from its outbox entry anew: one in error goes out with its dwords marked, and is a register
error of its thread (R190, R275, R283, R284). (DESIGN CHOICE, notes/assumptions/78.md.) -/
def State.sendAgain (s : State) (ep : Ep) (ctx : Ctx) (w : Place) (p : Packet) : State :=
  match w with
  | .message key =>
    let ob : BitVec 1 := BitVec.ofNat 1 (key / 2 ^ 22)
    let bad (m : OutMsg) : Bool := m.dst = p.dst && m.ctx = ctx && m.seq = p.seq &&
      (s.core ep).badRegs.any (fun b => b.2 = regCode 6 (2 + ob.toNat) m.entry)
    (match ((s.core ep).outbox ob).find? bad with
     | none => s.inject p
     | some m =>
       let t := s.thr ep ctx
       let s1 := s.inject { p with pmask := BitVec.ofNat 32 (2 ^ (p.len.toNat / 8) - 1) }
       if t.quitting || t.outstanding.any (fun o => o.kind = 7) || t.faultQ.any (fun r => r.kind = 7) then s1
       else s1.postOwn ep ctx (registerFault (regCode 6 (2 + ob.toNat) m.entry)))
  | _ => s.inject p

/-- A timeout, or a refusal that counts: the limit is reached, or the operation is sent again now, or after its timeout (R302). -/
def State.countTry (s : State) (ep : Ep) (ctx : Ctx) (w : Place) (u : Sent) (resend : Bool) : State :=
  let st := s.session ep ctx w
  let limit := (s.pkg (epPkg ep)).rlim
  let endless := match w with | .message _ => true | _ => false
  let s1 := s.setSession ep ctx w (st.change u.pkt.seq (fun u =>
    if resend then { u.again (s.dieCyc ep) with tries := u.tries + 1 } else { u with tries := u.tries + 1 }))
  if limit ≤ u.tries + 1 && !endless then s1.streamError ep ctx w
  else if resend then s1.sendAgain ep ctx w u.pkt
  else s1

/-! ## NACK (R302, R303) -/

/-- After a reclaimed entry, the session's first operation is sent again with OPN and the other epoch, and its later ones after it (R303). -/
def State.reopen (s : State) (ep : Ep) (ctx : Ctx) (w : Place) : State :=
  let st := s.session ep ctx w
  match st.unacked with
  | [] => s
  | u :: _ =>
    let wire := st.wire + 1
    let c := s.core ep
    let s1 := s.setCore ep { c with epochs := Assoc.set c.epochs (sessionKey u.pkt) wire.toNat }
    let now := s.dieCyc ep
    let anew := st.unacked.map (fun (x : Sent) => { x.again now with pkt := { x.pkt with epoch := wire, opn := x.pkt.seq = u.pkt.seq } })
    anew.foldl (fun (s : State) x => s.sendAgain ep ctx w x.pkt) (s1.setSession ep ctx w { st with wire := wire, epoch := st.epoch + 1, unacked := anew })

/-- A refusal of an operation of a session (R302). A streamed operation that met poison blocks its stream; an SCTA operand that did fails its
command (R172, R227). -/
def State.refused (s : State) (p : Packet) (w : Place) (st : Stream) (u : Sent) : State :=
  let now := s.dieCyc p.dst
  if p.pmask ≠ 0 then
    (if st.err then s
     else match w with
      | .copy id _ =>
        (match (s.core p.dst).copy? id with
         | some k =>
           let key := u.pkt.note / 2 ^ 32
           let s1 := s.setSession p.dst p.ctx w { st with err := true }
           (match (s1.core p.dst).copy? id with
            | some k1 => s1.failCopy p.dst k1 (k.poisonAt (dwordAt u.pkt.pa.toNat) (BitVec.ofNat 64 key) (key / 2 ^ 64 - 1))
            | none => s1)
         | none => s)
      | _ => s.streamError p.dst p.ctx w)
  else
    match p.op.toNat with
    | 1 | 2 | 4 => s.setSession p.dst p.ctx w (st.change u.pkt.seq (fun u => { u with backoff := some now }))
    | 3 => s.countTry p.dst p.ctx w u true
    | 6 =>
      if (st.unacked.head?.map Sent.pkt) = some u.pkt && !u.resent && u.tries = 0 then s.reopen p.dst p.ctx w
      else s.countTry p.dst p.ctx w u false
    | _ => s.countTry p.dst p.ctx w u false

/-- A refused CLOSE: backoff, or a try that counts; refused with reason 3 it is sent again at once (R302, R303). -/
def State.closeRefused (s : State) (p : Packet) : State :=
  let c := s.core p.dst
  let now := s.dieCyc p.dst
  let is (u : Sent) : Bool :=
    u.pkt.ctx = p.ctx && u.pkt.str = p.str && u.pkt.cqe = p.cqe && u.pkt.dst = p.src && u.pkt.epoch = p.epoch && u.pkt.seq.setWidth 32 = p.auxf
  if p.op.toNat = 1 || p.op.toNat = 2 || p.op.toNat = 4 then
    s.setCore p.dst { c with closes := c.closes.map (fun (u : Sent) => if is u then { u with backoff := some now } else u) }
  else
    let limit := (s.pkg (epPkg p.dst)).rlim
    let counted := c.closes.map (fun (u : Sent) =>
      if is u then (if p.op = 3 then { u.again now with tries := u.tries + 1 } else { u with tries := u.tries + 1 }) else u)
    let s1 := s.setCore p.dst { c with closes := counted.filter (fun u => !(is u && decide (limit ≤ u.tries))) }
    if p.op = 3 then s1.injectAll ((counted.filter (fun u => is u && decide (u.tries < limit))).map Sent.pkt) else s1

/-- A copy command's READ has been sent for the last time: the command fails (R227, R302). -/
def State.copyReadLimit (s : State) (ep : Ep) (k : CopyCmd) : State :=
  if k.phase = .failed then s.setCopy ep { k with spec := false } else s.failCopy ep k (k.faultAt { kind := 4, aux0 := 8 } 0)

/-- A try of the READ of a load, or of a copy command, that `note` names, which is sent again on its timeout: a timeout, or a refusal of reason 5;
at the limit its thread takes a stream error, or its command fails (R302). -/
def State.countRead (s : State) (ep : Ep) (ctx : Ctx) (note : Nat) : State :=
  let k := s.pkg (epPkg ep)
  if note = 0 then s
  else if 2 ^ 64 ≤ note then
    match (s.core ep).copy? (note / 2 ^ 64 - 1) with
    | none => s
    | some c =>
      let named (r : ReadOut) : Bool := r.n = note % 2 ^ 64
      let c1 := { c with reads := c.reads.map (fun (r : ReadOut) => if named r then { r with tries := r.tries + 1 } else r) }
      if c1.reads.any (fun r => named r && decide (k.rlim ≤ r.tries)) then s.copyReadLimit ep c1 else s.setCopy ep c1
  else
    let t := s.thr ep ctx
    let id := (keyOf note).1
    match (t.pend.find? (fun p => p.id = id)).bind (fun p => p.lanes.find? (fun l => l.lane = (keyOf note).2 && l.reading)) with
    | none => s
    | some l =>
      if l.spent then s
      else
        let s1 := s.setThr ep ctx (t.setLane id l.lane (fun l => l.count k.rlim))
        if k.rlim ≤ l.tries + 1 then s1.postOwn ep ctx { kind := 4, id := 10, aux0 := 10 } else s1

/-- NACK. A READ that found no route counts a try and is sent again on its timeout. -/
def execNack (s : State) : Out :=
  .next (match s.arrived .nack with
    | none => s
    | some p =>
      if p.malformed then s.reject p
      else if p.note ≠ 0 then (s.consumed p).countRead p.dst p.ctx p.note
      else
        let s1 := (s.consumed p).closeRefused p
        match s1.answered p with
        | none => s1
        | some (w, st) =>
          match st.sent? (p.auxf.setWidth 16) with
          | some u => if st.err then s1 else s1.refused p w st u
          | none => s1)

/-! ## Timers (R302, R303) -/

/-- An unacknowledged operation's timeout fires. -/
def State.opTimeout (s : State) (ep : Ep) (ctx : Ctx) (w : Place) (seq : BitVec 16) : State :=
  let st := s.session ep ctx w
  match st.sent? seq with
  | none => s
  | some u =>
    if st.err || u.backoff.isSome || s.dieCyc ep < u.sentAt + (s.pkg (epPkg ep)).timeout || s.dropped ep ctx w then s
    else s.countTry ep ctx w u true

/-- The CLOSE that an event names. -/
def EvArgs.closes (a : EvArgs) (u : Sent) : Bool := u.pkt.ctx = a.ctx && u.pkt.seq = a.seq && u.pkt.dst.setWidth 64 = a.value

/-- A CLOSE's timeout: it is sent again, or at the limit its entry is freed (R303). -/
def State.closeTimeout (s : State) (ep : Ep) : State :=
  let a := s.ev
  let c := s.core ep
  let now := s.dieCyc ep
  let k := s.pkg (epPkg ep)
  let due (u : Sent) : Bool := a.closes u && u.backoff.isNone && decide (u.sentAt + k.timeout ≤ now)
  let spent (u : Sent) : Bool := decide (k.rlim ≤ u.tries + 1)
  let s1 := s.setCore ep { c with closes := (c.closes.filter (fun u => !(due u && spent u))).map (fun (u : Sent) =>
    if due u then { u.again now with tries := u.tries + 1 } else u) }
  s1.injectAll ((c.closes.filter (fun u => due u && !spent u)).map Sent.pkt)

/-- READs of a pending load time out, each on its own timer: each is sent again, or at its limit its thread takes a stream error (R302). -/
def State.readTimeout (s : State) (ep : Ep) (ctx : Ctx) (id : Nat) : State :=
  let t := s.thr ep ctx
  let k := s.pkg (epPkg ep)
  let now := s.dieCyc ep
  match t.pend.find? (fun p => p.id = id) with
  | none => s
  | some p =>
    let due (l : Lane) : Bool := l.reading && !l.spent && decide (l.sentAt + k.timeout ≤ now)
    let lanes := p.lanes.filter due
    let s1 := s.setThr ep ctx (lanes.foldl (fun (t : Thread) l => t.setLane id l.lane (fun l => { l.count k.rlim with sentAt := now })) t)
    let s2 := s1.injectAll ((lanes.filter (fun l => l.tries + 1 < k.rlim)).map (fun l => l.req.readPacket ep ctx (laneKey id l.lane)))
    if lanes.any (fun l => decide (k.rlim ≤ l.tries + 1)) then s2.postOwn ep ctx { kind := 4, id := 10, aux0 := 10 } else s2

/-- A READ of a copy command times out: it is sent again, or at the limit its command fails (R302). -/
def State.copyReadTimeout (s : State) (ep : Ep) (id n : Nat) : State :=
  let now := s.dieCyc ep
  let p := s.pkg (epPkg ep)
  match (s.core ep).copy? id with
  | none => s
  | some k =>
    match k.reads.find? (fun r => r.n = n) with
    | none => s
    | some r =>
      if now < r.sentAt + p.timeout then s
      else
        let k1 := { k with reads := k.reads.map (fun (x : ReadOut) => if x.n = n then { x with tries := x.tries + 1, sentAt := now } else x) }
        if p.rlim ≤ r.tries + 1 then s.copyReadLimit ep k1 else (s.setCopy ep k1).inject (k1.readPacket ep r)

/-- RETRANSMIT_TIMEOUT: of an operation of a session (`ev.n` its STR code), of a CLOSE (11), of READ `ev.value` of copy command `ev.id` (14), of the
READs of a pending result (15). -/
def execRetransmitTimeout (s : State) : Out :=
  let a := s.ev
  .next (if (s.pkg (epPkg a.ep)).halted then s
    else if a.n = 11 then s.closeTimeout a.ep
    else if a.n = 14 then s.copyReadTimeout a.ep a.id a.value.toNat
    else if a.n = 15 then s.readTimeout a.ep a.ctx a.id
    else
      match placeOf a.n a.id (a.value.setWidth 22) with
      | some w => s.opTimeout a.ep a.ctx w a.seq
      | none => s)

/-- Backoff is over 1,024 cycles after the refusal. -/
def Sent.backedOff (u : Sent) (now : Nat) : Bool :=
  match u.backoff with
  | some since => since + 1024 ≤ now
  | none => false

/-- NACK_BACKOFF_EXPIRY: a refused operation, or a CLOSE (`ev.n` = 11), is sent again. -/
def execNackBackoffExpiry (s : State) : Out :=
  let a := s.ev
  let now := s.dieCyc a.ep
  let c := s.core a.ep
  .next (if (s.pkg (epPkg a.ep)).halted then s
    else if a.n = 11 then
      let due (u : Sent) : Bool := a.closes u && u.backedOff now
      (s.setCore a.ep { c with closes := c.closes.map (fun (u : Sent) => if due u then u.again now else u) }).injectAll
        ((c.closes.filter due).map Sent.pkt)
    else
      match placeOf a.n a.id (a.value.setWidth 22) with
      | none => s
      | some w =>
        let st := s.session a.ep a.ctx w
        match st.sent? a.seq with
        | some u =>
          if u.backedOff now && !st.err && !s.dropped a.ep a.ctx w then
            (s.setSession a.ep a.ctx w (st.change a.seq (fun u => u.again now))).sendAgain a.ep a.ctx w u.pkt
          else s
        | none => s)

end Sys2Proof.Machine
end

