-- ==== Sys2Proof/Machine/Platform.lean ====
section
/-! DEFINITION. The host port and the platform: BAR2, completions of device accesses, configuration, power and self-test, resets, the
mailbox and SPDM, quiesce, scrubbing, refresh, clocks (R270, R281 to R284, R310 to R315, R320 to R328). -/

namespace Sys2Proof.Machine

/-! ## BAR2 (R311 to R313, R321) -/

/-- Where an offset of a function's BAR2 lies, with WR of its segment; none outside the BAR, in a segment that is not valid, or in a package that the system
has not (R14, R312). (DEDUCED, notes/assumptions/98.md.) -/
def State.bar2Pa (s : State) (p : Pkg) (f off : Nat) : Option (Nat × Bool) :=
  let w := (s.pkg p).fn f
  let e := Assoc.get w.segments (off / 2 ^ 29) 0
  let pa := (fld e 52 10).toNat * 2 ^ 44 + (fld e 29 15).toNat * 2 ^ 29 + off % 2 ^ 29
  let first := pa - off % 2 ^ 29
  let region := paRegion first
  if off < 2 ^ w.bar2 && (f = 0 || w.enabled) && bitOf e 63 && (region = .secondTier || region = .granary) && paRegion (first + 2 ^ 29 - 1) = region &&
      decide ((fld e 52 10).toNat < (s.pkg p).npkg) then
    some (pa, bitOf e 62)
  else none

/-- A refused access is counted by its function, answered as Unsupported Request, and reported by AER as non-fatal (R313). -/
def State.refuseBar2 (s : State) (p : Pkg) (f : Nat) (answered : Bool) : State :=
  let k := s.pkg p
  let w := k.fn f
  let s1 := s.setPkg p (k.setFn f { w with errors := w.errors + 1 })
  (if answered then s1.reply p .unsupported else s1).reply p (.nonFatal f)

/-- BAR2_READ: the dword at `ev.off` of function `ev.fn`, performed at its home, once that package takes it (R313, R326). -/
def execBar2Read (s : State) : Out :=
  let a := s.ev
  .next (if (s.pkg a.pkg).state = 4 then s.reply a.pkg .unsupported
    else
      match s.bar2Pa a.pkg a.fn.toNat a.dwordOff with
      | none => s.refuseBar2 a.pkg a.fn.toNat true
      | some (pa, _) => if s.homeShut a.pkg pa then s else s.reply a.pkg (.data (s.mem.read pa 8) (s.mem.poisoned pa)))

/-- BAR2_WRITE: the enabled bytes of a dword as one event; full/empty bits stay, a dword written whole loses its mark (R173, R313). In a quiesce
the operations that wait for the dword are performed when the units go on, and a home in another package that takes nothing is waited for (R180, R326). -/
def execBar2Write (s : State) : Out :=
  let a := s.ev
  .next (if (s.pkg a.pkg).state = 4 then s
    else
      match s.bar2Pa a.pkg a.fn.toNat a.dwordOff with
      | some (pa, true) =>
        let mark : Option Bool := if a.be = 0xFF then some false else none
        let s1 := s.writeDword none pa (enabledCells pa 8 (a.be.setWidth 256) a.value.toNat pa) mark
        let k := s1.pkg a.pkg
        if s.homeShut a.pkg pa then s
        else if k.halted then s1.setPkg a.pkg { k with touched := natSet k.touched (dwordAt pa) true }
        else s1.serve pa
      | _ => s.refuseBar2 a.pkg a.fn.toNat false)

/-- BAR2_ATOMICOP: Unsupported Request (R313). -/
def execBar2Atomicop (s : State) : Out :=
  let a := s.ev
  .next (if (s.pkg a.pkg).state = 4 then s.reply a.pkg .unsupported else s.refuseBar2 a.pkg a.fn.toNat true)

/-! ## Device accesses to host memory (R314) -/

/-- A READ of host memory that fails returns poisoned dwords. -/
def Packet.poisonedData (p : Packet) : Packet :=
  { p.rdata with pmask := BitVec.ofNat 32 (2 ^ (p.auxf.toNat / 8) - 1), payload := 0 }

/-- The PCI Express root writes what an AtomicOp makes of the value it has read, as one event (R73). -/
def State.hostPerform (s : State) (r : HostReq) : State × Nat :=
  match r.pkt.req with
  | some q =>
    let old := r.old.getD (s.mem.read q.pa q.size)
    ({ s with mem := s.mem.write q.pa q.size (q.new old) }, old)
  | none => (s, 0)

/-- An AtomicOp that did not complete: the host has performed it or not, by a free bit. -/
def State.hostMaybe (s : State) (r : HostReq) : State :=
  let s1 : State := { s with free := s.free + 1 }
  if Config.freeBit s.free then (s1.hostPerform r).1 else s1

/-- Another AtomicOp on the same dword stands between its read and its write: the root performs them one at a time (R73). -/
def Package.rootBusy (k : Package) (r : HostReq) : Bool :=
  k.hostReqs.any (fun x => x.old.isSome && dwordAt x.pkt.pa.toNat = dwordAt r.pkt.pa.toNat)

/-- A device access to host memory ends: with data, or with a completion that gives none, `done` saying whether the host performed an
AtomicOp, none for not known (R314). (DESIGN CHOICE, notes/assumptions/48.md.) -/
def State.endHost (s : State) (r : HostReq) (good : Bool) (done : Option Bool) : State :=
  let p := r.pkt
  if p.type = .read then s.inject (if good then p.rdata else p.poisonedData)
  else
    match done with
    | some true => let w := s.hostPerform r; w.1.hostCommit p (if good then w.2 else 0) (!good)
    | some false => s.hostCommit p 0 true
    | none => (s.hostMaybe r).hostCommit p 0 true

/-- The access an event names leaves the list of those that await the host. -/
def State.takeHost (s : State) : Option (HostReq × State) :=
  let a := s.ev
  let k := s.pkg a.pkg
  if k.halted then none
  else (k.hostReqs[a.n]?).map (fun r => (r, s.setPkg a.pkg { k with hostReqs := k.hostReqs.eraseIdx a.n }))

/-- The dwords of a host read that an event performs, each as one event (R59). -/
def State.hostRead (s : State) (p : Packet) : Packet :=
  (s.ev.chosen (p.auxf.toNat / 8)).foldl (fun (p : Packet) i => p.readDword s.mem i) p

/-- PCIE_COMPLETION: `ev.status` 0 data, 1 Unsupported Request, 2 Completer Abort, 3 poisoned. Data performs the dwords that `ev.parts` names, all when it
names none, and the read ends with the last (R59). An AtomicOp that the host performs is read first and written, and answered, by a second such event
(R73). -/
def execPcieCompletion (s : State) : Out :=
  let a := s.ev
  let k := s.pkg a.pkg
  .next (match s.takeHost with
    | none => s
    | some (r, s1) =>
      if r.pkt.type ≠ .read && r.old.isNone && (a.status = 0 || a.status = 3) then
        (if k.rootBusy r then s
         else s.setPkg a.pkg { k with hostReqs := k.hostReqs.set a.n { r with old := r.pkt.req.map (fun q => s.mem.read q.pa q.size) } })
      else if r.pkt.type = .read && a.status = 0 then
        let r1 : HostReq := { r with pkt := s.hostRead r.pkt }
        if r1.pkt.allRead then s1.endHost r1 true none else s.setPkg a.pkg { k with hostReqs := k.hostReqs.set a.n r1 }
      else match s.ev.status.toNat with
      | 0 => s1.endHost r true (some true)
      | 1 => s1.endHost r false (some false)
      | 2 => s1.endHost r false none
      | _ => s1.endHost r false (some true))

/-- COMPLETION_TIMEOUT: a read returns poisoned dwords. -/
def execCompletionTimeout (s : State) : Out :=
  .next (match s.takeHost with
    | none => s
    | some (r, s1) => s1.endHost r false none)

/-! ## Configuration space (R310, R311, R314, R315) -/

/-- An MSI-X vector is masked, or unmasked, which sends it when it is pending (R315). -/
def Package.maskMsix (k : Package) (v : Nat) (opened : Bool) : Package :=
  let k1 : Package := { k with msixOpen := natSet k.msixOpen v opened }
  if opened && k.msixPending.contains v then ({ k1 with msixPending := natSet k1.msixPending v false }).sendMsix (BitVec.ofNat 11 v) else k1

/-- A VF's MSI-X vector is masked, or unmasked, which sends it when it is pending (R315). -/
def Package.maskVf (k : Package) (f v : Nat) (opened : Bool) : Package :=
  let w := k.fn f
  let sent := opened && w.vecPending.contains v
  let k1 := k.setFn f { w with vecOpen := natSet w.vecOpen v opened, vecPending := if sent then natSet w.vecPending v false else w.vecPending }
  if sent then { k1 with replies := k1.replies ++ [.vfMsix f v] } else k1

/-- CONFIGURATION_WRITE: `ev.n` 0 sets function `ev.fn`'s Bus Master Enable and AtomicOp Requester Enable, 1 enables the first `ev.id` VFs,
2 sizes `ev.fn`'s BAR2 to 2^`ev.id` bytes, 3 masks or (`ev.ok`) unmasks MSI-X vector `ev.id` of the PF's 2,048 or a VF's 32. -/
def execConfigurationWrite (s : State) : Out :=
  let a := s.ev
  let k := s.pkg a.pkg
  let f := a.fn.toNat
  let w := k.fn f
  .next (s.setPkg a.pkg (match a.n with
    | 0 => k.setFn f { w with busMaster := a.bme, atomicEn := a.atomicEn }
    | 1 => (List.range 63).foldl (fun (k : Package) i => k.setFn (i + 1) { k.fn (i + 1) with enabled := decide (i < a.id) }) k
    | 2 => if (if f = 0 then 30 else 28) ≤ a.id && a.id ≤ 36 then k.setFn f { w with bar2 := a.id } else k
    | 3 =>
      if f = 0 then (if a.id < 2048 then k.maskMsix a.id a.ok else k)
      else if a.id < 32 then k.maskVf f a.id a.ok else k
    | _ => k))

/-! ## Power, self-test and resets (R315, R320, R321) -/

/-- The device enters the maintenance state: its ports go down (R321). -/
def State.maintenance (s : State) (p : Pkg) (reason : Nat) : State :=
  let k := s.pkg p
  s.setPkg p { k with
    state := 4, reason := BitVec.ofNat 8 reason, ports := k.ports.map (fun (w : Port) => { w with up := false, retrainFrom := none }) }

/-- The boot ROM accepts an image: its key's digest is in a slot that is not revoked, its signature verifies, and its version is not below the fused
minimum (R322). -/
def Board.accepts (b : Board) (x : Image) : Bool := x.slot.toNat < 2 && !b.revoked.getLsbD x.slot.toNat && x.verifies && decide (b.minVersion ≤ x.version)

/-- The copy that the ROM boots: the valid one of higher version, the other when that one fails; of two of one version the first (R322).
(DESIGN CHOICE, notes/assumptions/65.md.) -/
def Board.boots (b : Board) : Option (BitVec 1) :=
  let x := vget (0 : BitVec 1) b.images
  let y := vget (1 : BitVec 1) b.images
  match b.accepts x, b.accepts y with
  | true, true => some (if x.version < y.version then 1 else 0)
  | true, false => some 0
  | false, true => some 1
  | false, false => none

/-- Step 3 of R320: memory is initialised and the table slots are emptied; the ports may train (R57, R241). -/
def State.initialised (s : State) (p : Pkg) : State :=
  let mine (ep : Nat) : Bool := epPkg (BitVec.ofNat 22 ep) = p
  let s1 := s.setPkg p { s.pkg p with ready := true }
  { s1 with
    mem := s1.mem.initialise p,
    cores := s1.cores.map (fun c => if mine c.1 then (c.1, { c.2 with slots := Vector.replicate 4 {} }) else c) }

/-- POWER_UP: one stage of R320: boot, self-test with initialisation, and the end of training; `ev.failure` 0 for success, else the REASON of the
stage's failure: 1 in boot, which the ROM finds itself when it accepts no image, 2 or 3 in the next, 4 in training. (DEDUCED, notes/assumptions/37.md.) -/
def execPowerUp (s : State) : Out :=
  let a := s.ev
  let k := s.pkg a.pkg
  let f := a.failure.toNat
  .next (match k.state.toNat with
    | 0 => ({ s with free := s.free + 1 }).setPkg a.pkg { k with state := 1, reason := 0, boot := s.free }
    | 1 =>
      if f = 0 then
        match k.board.boots with
        | some i => s.setPkg a.pkg { k with state := 2, active := i }
        | none => s.maintenance a.pkg 1
      else if f = 1 then s.maintenance a.pkg 1 else s
    | 2 =>
      if k.ready then (if f = 0 then s.setPkg a.pkg { k with state := 3 } else if f = 4 then s.maintenance a.pkg 4 else s)
      else if f = 0 then s.initialised a.pkg
      else if f = 2 || f = 3 then s.maintenance a.pkg f
      else s
    | _ => s)

/-- DEVICE_RESET: DEVCTL.RST is written (R317, R320). -/
def execDeviceReset (s : State) : Out := .next (s.resetPackage s.ev.pkg)

/-- PF_FLR: acts as a device reset (R315). -/
def execPfFlr (s : State) : Out := .next (s.resetPackage s.ev.pkg)

/-- POWER_REMOVAL: the package loses all architectural state (R320). -/
def execPowerRemoval (s : State) : Out := .next (s.resetPackage s.ev.pkg)

/-- VF_FLR: each queue of VF `ev.fn` is torn down, but one that is already; it ends with the last teardown (R269, R315). -/
def execVfFlr (s : State) : Out :=
  let a := s.ev
  let k := s.pkg a.pkg
  let f := a.fn.toNat
  .next (if f = 0 || k.state = 4 then s
    else
      let qs := (k.queuesOf f).filter (fun q => k.queueNumbers.contains q)
      let s1 := s.setPkg a.pkg (k.setFn f { k.fn f with flr := !qs.isEmpty })
      qs.foldl (fun (s : State) q => s.startTeardown a.pkg q) s1)

/-! ## Mailbox and attestation (R322, R323) -/

/-- MAILBOX_GO: MBXDB.GO is written. -/
def execMailboxGo (s : State) : Out :=
  let k := s.pkg s.ev.pkg
  .next (s.setPkg s.ev.pkg { k with mbxGo := true })

/-- The inactive image copy is written; it takes effect at the next reset (R322). -/
def Package.updateImage (k : Package) (x : Image) : Package :=
  { k with board := { k.board with images := vset (k.active + 1) x k.board.images } }

/-- The image that an update brings, as an event describes it: whether its signature verifies, the slot of its key, its version, its content. -/
def EvArgs.image (a : EvArgs) : Image := { slot := a.status, verifies := a.ok, version := a.id, content := a.value.toNat }

/-- MAILBOX_ANSWER: firmware leaves its answer, whose contents no rule fixes, in the mailbox and clears GO; with `ev.n` = 1 the request was an update,
which has written the inactive copy before the answer (R322). -/
def execMailboxAnswer (s : State) : Out :=
  let k := if s.ev.n = 1 then (s.pkg s.ev.pkg).updateImage s.ev.image else s.pkg s.ev.pkg
  .next (if k.mbxGo then
      ({ s with free := s.free + 512 }).setPkg s.ev.pkg { k with
        mbxGo := false, mailbox := (List.range 512).map (fun i => (i, Config.freeDword (s.free + i))) }
    else s)

/-- An SPDM request is answered through the DOE mailbox of the PF, which stays alive in maintenance (R321, R323). -/
def State.spdm (s : State) (code : Nat) (fields : List Nat) : State :=
  if 3 ≤ (s.pkg s.ev.pkg).state.toNat then s.reply s.ev.pkg (.spdm code fields) else s

/-- A signature, over a transcript that is new each time. -/
def State.signed (s : State) (code : Nat) (fields : List Nat) : State :=
  ({ s with free := s.free + 1 }).spdm code (fields ++ [(Config.signature ((s.pkg s.ev.pkg).physical s.ev.pkg) s.free).toNat])

/-- The fuses of key slots, revocation and minimum version, as one content. -/
def Package.fuses (k : Package) (p : Pkg) : Nat :=
  packNats 512 [(Config.keySlot (k.physical p) 0).toNat, (Config.keySlot (k.physical p) 1).toNat, k.board.revoked.toNat, k.board.minVersion]

/-- The self-test report, as one content. -/
def Package.testReport (k : Package) (p : Pkg) : Nat :=
  packNats 64 ((List.range (1 + 2 * k.testCount p)).map (fun n => (k.selfTestDword p n).toNat))

/-- What measurement block n is the digest of: the boot ROM, the running image, the fuses, the self-test report; for n = 0 the certificate chain. -/
def Package.measured (k : Package) (p : Pkg) (n : Nat) : Nat :=
  match n with
  | 0 => (Config.certificate (k.physical p)).toNat
  | 1 => Config.bootRom (k.physical p)
  | 2 => (vget k.active k.board.images).content
  | 3 => k.fuses p
  | _ => k.testReport p

/-- Measurement block n of a package, or the digest of its certificate chain for n = 0 (R323; notes/assumptions/65.md). -/
def State.measurement (s : State) (n : Nat) : Nat := (Config.sha512 ((s.pkg s.ev.pkg).measured s.ev.pkg n)).toNat

/-- GET_VERSION: SPDM 1.3 and 1.2. -/
def execGetVersion (s : State) : Out := .next (s.spdm 0x04 [0x13, 0x12])

/-- GET_CAPABILITIES: certificates, challenge, signed measurements; no key exchange (notes/assumptions/24.md). -/
def execGetCapabilities (s : State) : Out := .next (s.spdm 0x61 [0x16])

/-- NEGOTIATE_ALGORITHMS: RSASSA-PSS of 4,096 bits, SHA-512 (notes/assumptions/24.md). -/
def execNegotiateAlgorithms (s : State) : Out := .next (s.spdm 0x63 [0x40, 0x04])

/-- GET_DIGESTS: slot 0. -/
def execGetDigests (s : State) : Out := .next (s.spdm 0x01 [1, s.measurement 0])

/-- GET_CERTIFICATE: slot 0. -/
def execGetCertificate (s : State) : Out := .next (s.spdm 0x02 [(Config.certificate ((s.pkg s.ev.pkg).physical s.ev.pkg)).toNat])

/-- CHALLENGE. -/
def execChallenge (s : State) : Out := .next (s.signed 0x03 [s.measurement 0])

/-- GET_MEASUREMENTS: the four blocks, signed. -/
def execGetMeasurements (s : State) : Out := .next (s.signed 0x60 ((List.range 4).map (fun i => s.measurement (i + 1))))

/-! ## Quiesce (R326) -/

/-- QUIESCE_REQUEST: QREQ is set. -/
def execQuiesceRequest (s : State) : Out := .next (s.setQreq s.ev.pkg true)

/-- QUIESCE_ACK: every unit has stopped. -/
def execQuiesceAck (s : State) : Out :=
  let k := s.pkg s.ev.pkg
  .next (if k.qreq then s.setPkg s.ev.pkg { k with qack := true } else s)

/-- QUIESCE_RELEASE: QREQ is cleared, and every unit goes on where it stopped. -/
def execQuiesceRelease (s : State) : Out := .next (s.setQreq s.ev.pkg false)

/-! ## Scrubbing and refresh (R270, R284, R327) -/

/-- SCRUBCFG: EN, TINT and GINT, of which 0 acts as 1. -/
def Package.scrubs (k : Package) : Bool := bitOf k.scrub 63

/-- The interval at a bit of SCRUBCFG. -/
def Package.interval (k : Package) (bit : Nat) : Nat := max 1 (fld k.scrub bit 16).toNat

/-- A scrub read finds a dword uncorrectable: it is marked poisoned, once, and reported by its home (R284). -/
def State.scrubbed (s : State) (pa : Nat) (uncorrectable : Bool) : State :=
  if uncorrectable && !s.mem.poisoned pa then
    ({ s with mem := s.mem.setPoison pa true }).postNoThread (homeEp pa) { kind := 9, src := 4, aux0 := BitVec.ofNat 64 pa }
  else s

/-- An instruction word that cannot be corrected marks its dword and posts kind 8 (R284, R327; notes/assumptions/103.md). -/
def State.scrubbedWord (s : State) (ep : Ep) (off : Nat) (uncorrectable : Bool) : State :=
  let c := s.core ep
  if uncorrectable && !c.badWords.contains off then
    (({ s with mem := s.mem.setPoison (istorePa ep off) true } : State).setCore ep { c with badWords := natSet c.badWords off true }).postNoThread ep
      { kind := 8, src := 4, aux0 := BitVec.ofNat 64 off, aux1 := (Config.syndrome (istorePa ep off)).setWidth 64 }
  else s

/-- SCRUB_BANK_READ: bank `ev.bank` of a granary reads its next dword every GINT core cycles, with `ev.n` = 1 the instruction store its
next word; `ev.ok` says that it was good or could be corrected. With `ev.n` = 2 a check finds the entry of register code `ev.id` in error
(R284; notes/assumptions/25.md). Both sweeps wait while the holding store has no room for a record (R277). -/
def execScrubBankRead (s : State) : Out :=
  let a := s.ev
  let k := s.pkg (epPkg a.ep)
  let c := s.core a.ep
  let bank := if a.n = 1 then 64 else a.bank.toNat
  let (row, at_) := Assoc.get c.bankScrub bank (0, 0)
  .next (if !epIsCore a.ep then s
    else if a.n = 2 then s.setCore a.ep { c with
      badRegs := (a.ctx, BitVec.ofNat 16 a.id) :: c.badRegs,
      fresh := c.fresh.filter (fun x => !(x.1 = a.ctx && codeFile (BitVec.ofNat 16 a.id) = 1 && x.2 / 8 = a.id % 32)) }
    else if !k.scrubs || c.cyc.toNat < at_ + k.interval 0 || !k.recordRoom then s
    else
      let next := (row + 1) % (if a.n = 1 then 65536 else 16384)
      let s1 := s.setCore a.ep { c with bankScrub := Assoc.set c.bankScrub bank (next, c.cyc.toNat) }
      if a.n = 1 then s1.scrubbedWord a.ep (4 * row) (!a.ok)
      else s1.scrubbed (granaryPa a.ep (512 * row + 8 * bank)) (!a.ok))

/-- The second-tier address of a 64-byte burst. -/
def secondTierPa (p : Pkg) (off : BitVec 36) : Nat := p.toNat * 2 ^ 44 + off.toNat * 64 % 0x10000000000

/-- A channel of a die holds a burst: its slice owns channels 4h to 4h + 3 of the die's 64 and is the burst's home (R11); which of the four holds it no
rule says, and the model takes burst b to channel b mod 4. (DESIGN CHOICE, notes/assumptions/25.md.) -/
def channelHolds (die : BitVec 1) (ch : Nat) (p : Pkg) (off : BitVec 36) : Bool :=
  homeEp (secondTierPa p off) = mkEp p die (BitVec.ofNat 11 (1024 + ch / 4)) && off.toNat % 4 = ch % 4

/-- A sweep of a channel with one more burst read; after 2^27 the next begins (R327). -/
def Die.sweepOn (d : Die) (ch b : Nat) : Die :=
  let (n, _) := Assoc.get d.channelScrub ch (0, 0)
  { d with
    channelScrub := Assoc.set d.channelScrub ch ((n + 1) % 2 ^ 27, d.cyc),
    sweptBursts := Assoc.set d.sweptBursts ch (if n + 1 = 2 ^ 27 then [] else b :: Assoc.get d.sweptBursts ch []) }

/-- SCRUB_CHANNEL_READ: every TINT die cycles channel `ev.n` of a die reads a 64-byte burst that it has not read in its present sweep, number `ev.off`;
`ev.parts` are its uncorrectable dwords (R327). -/
def execScrubChannelRead (s : State) : Out :=
  let a := s.ev
  let k := s.pkg a.pkg
  let d := s.die a.pkg a.die
  let (_, at_) := Assoc.get d.channelScrub a.n (0, 0)
  let pa := secondTierPa a.pkg a.off
  let b := a.off.toNat % 2 ^ 34
  .next (if !k.scrubs || 64 ≤ a.n || d.cyc < at_ + k.interval 32 || d.cyc < Assoc.get d.refresh a.n 0 || !channelHolds a.die a.n a.pkg a.off ||
      (Assoc.get d.sweptBursts a.n []).contains b || !k.recordRoom then s
    else
      let s1 := s.setDie a.pkg a.die (d.sweepOn a.n b)
      (a.parts.filter (fun i => i < 8)).foldl (fun (s : State) i => s.scrubbed (pa + 8 * i) true) s1)

/-- REFRESH_FORCED: a refresh holds channel `ev.n` for 700 die cycles (R270). -/
def execRefreshForced (s : State) : Out :=
  let a := s.ev
  let d := s.die a.pkg a.die
  .next (if 64 ≤ a.n then s else s.setDie a.pkg a.die { d with refresh := Assoc.set d.refresh a.n (d.cyc + 700) })

/-! ## Power and clocks (R328) -/

/-- WATTS of PWRLIM, 600 to 1,500. -/
def Package.watts (k : Package) : Nat := min 1500 (max 600 (k.pwrlim.toNat % 2048))

/-- TLIM of PWRLIM, at most 105. -/
def Package.tlim (k : Package) : Nat := min 105 (k.pwrlim.toNat / 2 ^ 16 % 256)

/-- CLOCK_STEP: every 2^20 die cycles a die moves by one step at most, by the power `ev.watts` over the interval and its temperature
`ev.temp`. -/
def execClockStep (s : State) : Out :=
  let a := s.ev
  let k := s.pkg a.pkg
  let d := s.die a.pkg a.die
  .next (if d.cyc < d.stepAt + 2 ^ 20 then s
    else
      let slower := k.watts < a.watts || k.tlim < a.temp
      let faster := a.watts * 100 < k.watts * 95 && a.temp + 5 < k.tlim
      let step : BitVec 4 := if slower && d.step < 9 then d.step + 1 else if !slower && faster && 0 < d.step then d.step - 1 else d.step
      let s1 := s.setDie a.pkg a.die { d with step := step, stepAt := d.cyc }
      if d.step < step then s1.setPkg a.pkg { s1.pkg a.pkg with throttled := true } else s1)

/-- THERMAL_TRIP: at 115 °C the device enters the maintenance state with REASON 5. -/
def execThermalTrip (s : State) : Out :=
  .next (if 115 ≤ s.ev.temp then s.maintenance s.ev.pkg 5 else s)

/-! ## Words that no instruction has (R110, R123) -/

/-- ILLEGAL_INSTRUCTION: a word of a reserved encoding at issue takes its trap, an illegal bundle where P is misused. -/
def execIllegalInstruction (s : State) : Out :=
  .next (if wordP s.issue.word && s.issue.pc.toNat % 8 = 4 then s.illegalBundle 1 s.wordVal
    else if wordP s.issue.word && !wordIsC s.issue.word then s.illegalBundle 2 s.wordVal
    else s.illegal)

end Sys2Proof.Machine
end

