-- ==== Sys2Proof/Machine/Prefix.lean ====
section
/-! DEFINITION. The prefixes FMT and EXT (R113 to R115). -/

namespace Sys2Proof.Machine

/-- PFX after an FMT: its fields replace those of any FMT before it (R114, R115). -/
def pfxWithFmt (p : Dword) (o : OpFmt) : Dword :=
  setFld p 0 16 (o.va.toNat * 2 ^ 15 + o.vb.toNat * 2 ^ 14 + o.vr.toNat * 2 ^ 13 + o.fa.toNat * 2 ^ 8 + o.fb.toNat * 2 ^ 3 + o.rm.toNat)

/-- The code an FMT names that no format or mode has, with its TVAL1 (R81, R89, R115). -/
def fmtBadCode (o : OpFmt) : Option Nat :=
  if o.va = 1 && 29 ≤ o.fa.toNat then some o.fa.toNat
  else if o.vb = 1 && 29 ≤ o.fb.toNat then some o.fb.toNat
  else if o.vr = 1 && o.rm.toNat = 6 then some 6
  else none

/-- A field whose valid bit is 0 must be zero (R115). -/
def fmtStray (o : OpFmt) : Bool := (o.va = 0 && o.fa ≠ 0) || (o.vb = 0 && o.fb ≠ 0) || (o.vr = 0 && o.rm ≠ 0)

/-- `fmt` (R113, R115). -/
def execFmt (o : OpFmt) (s : State) : Out :=
  if fmtStray o then .next s.illegal
  else
    match fmtBadCode o with
    | some c => .next (s.trap 1 s.majorVal (BitVec.ofNat 64 c))
    | none =>
      let t := s.me
      .next (s.setMe ({ t with pfx := pfxWithFmt t.pfx o }.setStBit 20 true)).retire

/-- `ext` (R113, R115). -/
def execExt (o : OpExt) (s : State) : Out :=
  let t := s.me
  .next (s.setMe ({ t with pfx := setFld t.pfx 40 24 o.extv.toNat }.setStBit 21 true)).retire

end Sys2Proof.Machine
end

