-- ==== Sys2Proof/Machine/Dispatch.lean ====
section
/-! DEFINITION. The dispatch: one arm per instruction, each one call of its meaning. -/

namespace Sys2Proof.Machine

/-- The meaning of each instruction and of each step of the part. -/
def exec (i : Instr) (s : State) : Host.Outcome State Fault Refusal :=
  match i with
  | .ld o => Sys2Proof.Machine.execLd o s
  | .ldX o => Sys2Proof.Machine.execLdX o s
  | .st o => Sys2Proof.Machine.execSt o s
  | .vld o => Sys2Proof.Machine.execVld o s
  | .vldX o => Sys2Proof.Machine.execVldX o s
  | .vst o => Sys2Proof.Machine.execVst o s
  | .ldf o => Sys2Proof.Machine.execLdf o s
  | .ldff o => Sys2Proof.Machine.execLdff o s
  | .stf o => Sys2Proof.Machine.execStf o s
  | .stff o => Sys2Proof.Machine.execStff o s
  | .sete o => Sys2Proof.Machine.execSete o s
  | .qfe o => Sys2Proof.Machine.execQfe o s
  | .waita o => Sys2Proof.Machine.execWaita o s
  | .aadd o => Sys2Proof.Machine.execAadd o s
  | .aand o => Sys2Proof.Machine.execAand o s
  | .aor o => Sys2Proof.Machine.execAor o s
  | .axor o => Sys2Proof.Machine.execAxor o s
  | .amin o => Sys2Proof.Machine.execAmin o s
  | .amax o => Sys2Proof.Machine.execAmax o s
  | .aminn o => Sys2Proof.Machine.execAminn o s
  | .amaxn o => Sys2Proof.Machine.execAmaxn o s
  | .aswp o => Sys2Proof.Machine.execAswp o s
  | .acas o => Sys2Proof.Machine.execAcas o s
  | .afadd o => Sys2Proof.Machine.execAfadd o s
  | .afadd2 o => Sys2Proof.Machine.execAfadd2 o s
  | .afmax o => Sys2Proof.Machine.execAfmax o s
  | .afmin o => Sys2Proof.Machine.execAfmin o s
  | .sig o => Sys2Proof.Machine.execSig o s
  | .send o => Sys2Proof.Machine.execSend o s
  | .waitq o => Sys2Proof.Machine.execWaitq o s
  | .qlen o => Sys2Proof.Machine.execQlen o s
  | .beq o => Sys2Proof.Machine.execBeq o s
  | .bne o => Sys2Proof.Machine.execBne o s
  | .blt o => Sys2Proof.Machine.execBlt o s
  | .bge o => Sys2Proof.Machine.execBge o s
  | .bltu o => Sys2Proof.Machine.execBltu o s
  | .bgeu o => Sys2Proof.Machine.execBgeu o s
  | .bbs o => Sys2Proof.Machine.execBbs o s
  | .bbc o => Sys2Proof.Machine.execBbc o s
  | .jal o => Sys2Proof.Machine.execJal o s
  | .mfs o => Sys2Proof.Machine.execMfs o s
  | .mts o => Sys2Proof.Machine.execMts o s
  | .jalr o => Sys2Proof.Machine.execJalr o s
  | .trap o => Sys2Proof.Machine.execTrap o s
  | .bkpt o => Sys2Proof.Machine.execBkpt o s
  | .spawn o => Sys2Proof.Machine.execSpawn o s
  | .fns o => Sys2Proof.Machine.execFns o s
  | .enq o => Sys2Proof.Machine.execEnq o s
  | .bar o => Sys2Proof.Machine.execBar o s
  | .bara o => Sys2Proof.Machine.execBara o s
  | .barw o => Sys2Proof.Machine.execBarw o s
  | .barq o => Sys2Proof.Machine.execBarq o s
  | .cpy o => Sys2Proof.Machine.execCpy o s
  | .cpys o => Sys2Proof.Machine.execCpys o s
  | .cpf o => Sys2Proof.Machine.execCpf o s
  | .tld o => Sys2Proof.Machine.execTld o s
  | .tst o => Sys2Proof.Machine.execTst o s
  | .gth o => Sys2Proof.Machine.execGth o s
  | .sct o => Sys2Proof.Machine.execSct o s
  | .scta o => Sys2Proof.Machine.execScta o s
  | .cpz o => Sys2Proof.Machine.execCpz o s
  | .cpx o => Sys2Proof.Machine.execCpx o s
  | .hist o => Sys2Proof.Machine.execHist o s
  | .tbld o => Sys2Proof.Machine.execTbld o s
  | .tern o => Sys2Proof.Machine.execTern o s
  | .mmt o => Sys2Proof.Machine.execMmt o s
  | .mmtz o => Sys2Proof.Machine.execMmtz o s
  | .mdr o => Sys2Proof.Machine.execMdr o s
  | .mld o => Sys2Proof.Machine.execMld o s
  | .mst o => Sys2Proof.Machine.execMst o s
  | .mclr o => Sys2Proof.Machine.execMclr o s
  | .mwait o => Sys2Proof.Machine.execMwait o s
  | .vgldW o => Sys2Proof.Machine.execVgldW o s
  | .vgldD o => Sys2Proof.Machine.execVgldD o s
  | .vgstW o => Sys2Proof.Machine.execVgstW o s
  | .vgstD o => Sys2Proof.Machine.execVgstD o s
  | .add o => Sys2Proof.Machine.execAdd o s
  | .sub o => Sys2Proof.Machine.execSub o s
  | .andR o => Sys2Proof.Machine.execAndR o s
  | .orR o => Sys2Proof.Machine.execOrR o s
  | .xorR o => Sys2Proof.Machine.execXorR o s
  | .andn o => Sys2Proof.Machine.execAndn o s
  | .orn o => Sys2Proof.Machine.execOrn o s
  | .minR o => Sys2Proof.Machine.execMinR o s
  | .maxR o => Sys2Proof.Machine.execMaxR o s
  | .minu o => Sys2Proof.Machine.execMinu o s
  | .maxu o => Sys2Proof.Machine.execMaxu o s
  | .adds o => Sys2Proof.Machine.execAdds o s
  | .subs o => Sys2Proof.Machine.execSubs o s
  | .addus o => Sys2Proof.Machine.execAddus o s
  | .subus o => Sys2Proof.Machine.execSubus o s
  | .sll o => Sys2Proof.Machine.execSll o s
  | .srl o => Sys2Proof.Machine.execSrl o s
  | .sra o => Sys2Proof.Machine.execSra o s
  | .rol o => Sys2Proof.Machine.execRol o s
  | .ror o => Sys2Proof.Machine.execRor o s
  | .slli o => Sys2Proof.Machine.execSlli o s
  | .srli o => Sys2Proof.Machine.execSrli o s
  | .srai o => Sys2Proof.Machine.execSrai o s
  | .rori o => Sys2Proof.Machine.execRori o s
  | .addi o => Sys2Proof.Machine.execAddi o s
  | .mul o => Sys2Proof.Machine.execMul o s
  | .mulh o => Sys2Proof.Machine.execMulh o s
  | .mulhu o => Sys2Proof.Machine.execMulhu o s
  | .mulhsu o => Sys2Proof.Machine.execMulhsu o s
  | .div o => Sys2Proof.Machine.execDiv o s
  | .divu o => Sys2Proof.Machine.execDivu o s
  | .rem o => Sys2Proof.Machine.execRem o s
  | .remu o => Sys2Proof.Machine.execRemu o s
  | .clz o => Sys2Proof.Machine.execClz o s
  | .ctz o => Sys2Proof.Machine.execCtz o s
  | .popc o => Sys2Proof.Machine.execPopc o s
  | .brev o => Sys2Proof.Machine.execBrev o s
  | .bswap o => Sys2Proof.Machine.execBswap o s
  | .sxb o => Sys2Proof.Machine.execSxb o s
  | .sxh o => Sys2Proof.Machine.execSxh o s
  | .sxw o => Sys2Proof.Machine.execSxw o s
  | .zxb o => Sys2Proof.Machine.execZxb o s
  | .zxh o => Sys2Proof.Machine.execZxh o s
  | .zxw o => Sys2Proof.Machine.execZxw o s
  | .bfx o => Sys2Proof.Machine.execBfx o s
  | .bfxu o => Sys2Proof.Machine.execBfxu o s
  | .bfi o => Sys2Proof.Machine.execBfi o s
  | .lea o => Sys2Proof.Machine.execLea o s
  | .leal o => Sys2Proof.Machine.execLeal o s
  | .seq o => Sys2Proof.Machine.execSeq o s
  | .sne o => Sys2Proof.Machine.execSne o s
  | .slt o => Sys2Proof.Machine.execSlt o s
  | .sltu o => Sys2Proof.Machine.execSltu o s
  | .sle o => Sys2Proof.Machine.execSle o s
  | .sleu o => Sys2Proof.Machine.execSleu o s
  | .seqi o => Sys2Proof.Machine.execSeqi o s
  | .snei o => Sys2Proof.Machine.execSnei o s
  | .slti o => Sys2Proof.Machine.execSlti o s
  | .sltui o => Sys2Proof.Machine.execSltui o s
  | .slei o => Sys2Proof.Machine.execSlei o s
  | .sleui o => Sys2Proof.Machine.execSleui o s
  | .sgti o => Sys2Proof.Machine.execSgti o s
  | .sgtui o => Sys2Proof.Machine.execSgtui o s
  | .sel o => Sys2Proof.Machine.execSel o s
  | .movvsD o => Sys2Proof.Machine.execMovvsD o s
  | .movvsW o => Sys2Proof.Machine.execMovvsW o s
  | .movsvD o => Sys2Proof.Machine.execMovsvD o s
  | .movsvW o => Sys2Proof.Machine.execMovsvW o s
  | .vbcastD o => Sys2Proof.Machine.execVbcastD o s
  | .vbcastW o => Sys2Proof.Machine.execVbcastW o s
  | .vbcastH o => Sys2Proof.Machine.execVbcastH o s
  | .vbcastB o => Sys2Proof.Machine.execVbcastB o s
  | .mvgk o => Sys2Proof.Machine.execMvgk o s
  | .mvkg o => Sys2Proof.Machine.execMvkg o s
  | .kand o => Sys2Proof.Machine.execKand o s
  | .kor o => Sys2Proof.Machine.execKor o s
  | .kxor o => Sys2Proof.Machine.execKxor o s
  | .kandn o => Sys2Proof.Machine.execKandn o s
  | .knot o => Sys2Proof.Machine.execKnot o s
  | .kpop o => Sys2Proof.Machine.execKpop o s
  | .kfirst o => Sys2Proof.Machine.execKfirst o s
  | .li o => Sys2Proof.Machine.execLi o s
  | .fmt o => Sys2Proof.Machine.execFmt o s
  | .ext o => Sys2Proof.Machine.execExt o s
  | .vadd o => Sys2Proof.Machine.execVadd o s
  | .vsub o => Sys2Proof.Machine.execVsub o s
  | .vadds o => Sys2Proof.Machine.execVadds o s
  | .vsubs o => Sys2Proof.Machine.execVsubs o s
  | .vaddus o => Sys2Proof.Machine.execVaddus o s
  | .vsubus o => Sys2Proof.Machine.execVsubus o s
  | .vmul o => Sys2Proof.Machine.execVmul o s
  | .vmulh o => Sys2Proof.Machine.execVmulh o s
  | .vmulhu o => Sys2Proof.Machine.execVmulhu o s
  | .vmin o => Sys2Proof.Machine.execVmin o s
  | .vmax o => Sys2Proof.Machine.execVmax o s
  | .vminu o => Sys2Proof.Machine.execVminu o s
  | .vmaxu o => Sys2Proof.Machine.execVmaxu o s
  | .vand o => Sys2Proof.Machine.execVand o s
  | .vor o => Sys2Proof.Machine.execVor o s
  | .vxor o => Sys2Proof.Machine.execVxor o s
  | .vandn o => Sys2Proof.Machine.execVandn o s
  | .vsll o => Sys2Proof.Machine.execVsll o s
  | .vsrl o => Sys2Proof.Machine.execVsrl o s
  | .vsra o => Sys2Proof.Machine.execVsra o s
  | .vcmpeq o => Sys2Proof.Machine.execVcmpeq o s
  | .vcmplt o => Sys2Proof.Machine.execVcmplt o s
  | .vcmpltu o => Sys2Proof.Machine.execVcmpltu o s
  | .vcmple o => Sys2Proof.Machine.execVcmple o s
  | .vcmpleu o => Sys2Proof.Machine.execVcmpleu o s
  | .vsel o => Sys2Proof.Machine.execVsel o s
  | .vfadd o => Sys2Proof.Machine.execVfadd o s
  | .vfsub o => Sys2Proof.Machine.execVfsub o s
  | .vfmul o => Sys2Proof.Machine.execVfmul o s
  | .vfdiv o => Sys2Proof.Machine.execVfdiv o s
  | .vfmin o => Sys2Proof.Machine.execVfmin o s
  | .vfmax o => Sys2Proof.Machine.execVfmax o s
  | .vfsqrt o => Sys2Proof.Machine.execVfsqrt o s
  | .vrcp o => Sys2Proof.Machine.execVrcp o s
  | .vrsq o => Sys2Proof.Machine.execVrsq o s
  | .vexp2 o => Sys2Proof.Machine.execVexp2 o s
  | .vlog2 o => Sys2Proof.Machine.execVlog2 o s
  | .vfabs o => Sys2Proof.Machine.execVfabs o s
  | .vfneg o => Sys2Proof.Machine.execVfneg o s
  | .vfcmpeq o => Sys2Proof.Machine.execVfcmpeq o s
  | .vfcmplt o => Sys2Proof.Machine.execVfcmplt o s
  | .vfcmple o => Sys2Proof.Machine.execVfcmple o s
  | .vfcmpun o => Sys2Proof.Machine.execVfcmpun o s
  | .vfmaW o => Sys2Proof.Machine.execVfmaW o s
  | .vfmsW o => Sys2Proof.Machine.execVfmsW o s
  | .vfnmaW o => Sys2Proof.Machine.execVfnmaW o s
  | .vfnmsW o => Sys2Proof.Machine.execVfnmsW o s
  | .vfmaH o => Sys2Proof.Machine.execVfmaH o s
  | .vfmsH o => Sys2Proof.Machine.execVfmsH o s
  | .vfnmaH o => Sys2Proof.Machine.execVfnmaH o s
  | .vfnmsH o => Sys2Proof.Machine.execVfnmsH o s
  | .vdp2 o => Sys2Proof.Machine.execVdp2 o s
  | .vdp4 o => Sys2Proof.Machine.execVdp4 o s
  | .vdp4s o => Sys2Proof.Machine.execVdp4s o s
  | .vdp4u o => Sys2Proof.Machine.execVdp4u o s
  | .vcvt o => Sys2Proof.Machine.execVcvt o s
  | .vqnt o => Sys2Proof.Machine.execVqnt o s
  | .vqnts o => Sys2Proof.Machine.execVqnts o s
  | .vdqt o => Sys2Proof.Machine.execVdqt o s
  | .vpk o => Sys2Proof.Machine.execVpk o s
  | .vunp o => Sys2Proof.Machine.execVunp o s
  | .vtpk o => Sys2Proof.Machine.execVtpk o s
  | .vtun o => Sys2Proof.Machine.execVtun o s
  | .vperm o => Sys2Proof.Machine.execVperm o s
  | .vsldu o => Sys2Proof.Machine.execVsldu o s
  | .vsldd o => Sys2Proof.Machine.execVsldd o s
  | .vcmpr o => Sys2Proof.Machine.execVcmpr o s
  | .vexpd o => Sys2Proof.Machine.execVexpd o s
  | .vredi o => Sys2Proof.Machine.execVredi o s
  | .vredmax o => Sys2Proof.Machine.execVredmax o s
  | .vredmin o => Sys2Proof.Machine.execVredmin o s
  | .vredmaxu o => Sys2Proof.Machine.execVredmaxu o s
  | .vredminu o => Sys2Proof.Machine.execVredminu o s
  | .vredor o => Sys2Proof.Machine.execVredor o s
  | .vred o => Sys2Proof.Machine.execVred o s
  | .vfredmax o => Sys2Proof.Machine.execVfredmax o s
  | .vfredmin o => Sys2Proof.Machine.execVfredmin o s
  | .vscani o => Sys2Proof.Machine.execVscani o s
  | .vfscan o => Sys2Proof.Machine.execVfscan o s
  | .draw o => Sys2Proof.Machine.execDraw o s
  | .vdraw o => Sys2Proof.Machine.execVdraw o s
  | .rett => Sys2Proof.Machine.execRett s
  | .yield => Sys2Proof.Machine.execYield s
  | .quit => Sys2Proof.Machine.execQuit s
  | .fnc => Sys2Proof.Machine.execFnc s
  | .ifnc => Sys2Proof.Machine.execIfnc s
  | .resultReturn => Sys2Proof.Machine.execResultReturn s
  | .systemFault => Sys2Proof.Machine.execSystemFault s
  | .waitLimitExpiry => Sys2Proof.Machine.execWaitLimitExpiry s
  | .ldfWithdrawConfirm => Sys2Proof.Machine.execLdfWithdrawConfirm s
  | .feWaitRetry => Sys2Proof.Machine.execFeWaitRetry s
  | .combineTimeout => Sys2Proof.Machine.execCombineTimeout s
  | .contextFree => Sys2Proof.Machine.execContextFree s
  | .crewRelease => Sys2Proof.Machine.execCrewRelease s
  | .walkComplete => Sys2Proof.Machine.execWalkComplete s
  | .walkRetry => Sys2Proof.Machine.execWalkRetry s
  | .spawnRequest => Sys2Proof.Machine.execSpawnRequest s
  | .spawnPlace => Sys2Proof.Machine.execSpawnPlace s
  | .barrierArrival => Sys2Proof.Machine.execBarrierArrival s
  | .meshInterrupt => Sys2Proof.Machine.execMeshInterrupt s
  | .crewSave => Sys2Proof.Machine.execCrewSave s
  | .copyStart => Sys2Proof.Machine.execCopyStart s
  | .ringPush => Sys2Proof.Machine.execRingPush s
  | .copyComplete => Sys2Proof.Machine.execCopyComplete s
  | .copyFail => Sys2Proof.Machine.execCopyFail s
  | .matrixStart => Sys2Proof.Machine.execMatrixStart s
  | .matrixStep => Sys2Proof.Machine.execMatrixStep s
  | .lqptrTailWrite => Sys2Proof.Machine.execLqptrTailWrite s
  | .headRecordCheck => Sys2Proof.Machine.execHeadRecordCheck s
  | .dependencePoll => Sys2Proof.Machine.execDependencePoll s
  | .launchComplete => Sys2Proof.Machine.execLaunchComplete s
  | .rotationBoundary => Sys2Proof.Machine.execRotationBoundary s
  | .coresidentHold => Sys2Proof.Machine.execCoresidentHold s
  | .priorityPreempt => Sys2Proof.Machine.execPriorityPreempt s
  | .teardownStart => Sys2Proof.Machine.execTeardownStart s
  | .teardownEnd => Sys2Proof.Machine.execTeardownEnd s
  | .faultRecordPost => Sys2Proof.Machine.execFaultRecordPost s
  | .resolveResume => Sys2Proof.Machine.execResolveResume s
  | .resolveAbort => Sys2Proof.Machine.execResolveAbort s
  | .resolveEnd => Sys2Proof.Machine.execResolveEnd s
  | .invalPage => Sys2Proof.Machine.execInvalPage s
  | .invalAsid => Sys2Proof.Machine.execInvalAsid s
  | .invalAll => Sys2Proof.Machine.execInvalAll s
  | .invalComplete => Sys2Proof.Machine.execInvalComplete s
  | .moveMem => Sys2Proof.Machine.execMoveMem s
  | .preemptPark => Sys2Proof.Machine.execPreemptPark s
  | .preemptEvict => Sys2Proof.Machine.execPreemptEvict s
  | .residentSet => Sys2Proof.Machine.execResidentSet s
  | .residentClear => Sys2Proof.Machine.execResidentClear s
  | .flitReceive => Sys2Proof.Machine.execFlitReceive s
  | .linkReplay => Sys2Proof.Machine.execLinkReplay s
  | .keepalive => Sys2Proof.Machine.execKeepalive s
  | .linkDown => Sys2Proof.Machine.execLinkDown s
  | .retrainEnd => Sys2Proof.Machine.execRetrainEnd s
  | .packetForward => Sys2Proof.Machine.execPacketForward s
  | .read => Sys2Proof.Machine.execRead s
  | .rdata => Sys2Proof.Machine.execRdata s
  | .write => Sys2Proof.Machine.execWrite s
  | .atomic => Sys2Proof.Machine.execAtomic s
  | .signal => Sys2Proof.Machine.execSignal s
  | .aval => Sys2Proof.Machine.execAval s
  | .msg => Sys2Proof.Machine.execMsg s
  | .ack => Sys2Proof.Machine.execAck s
  | .nack => Sys2Proof.Machine.execNack s
  | .close => Sys2Proof.Machine.execClose s
  | .drain => Sys2Proof.Machine.execDrain s
  | .mgmt => Sys2Proof.Machine.execMgmt s
  | .retransmitTimeout => Sys2Proof.Machine.execRetransmitTimeout s
  | .nackBackoffExpiry => Sys2Proof.Machine.execNackBackoffExpiry s
  | .sessionReclaim => Sys2Proof.Machine.execSessionReclaim s
  | .routeSwitch => Sys2Proof.Machine.execRouteSwitch s
  | .bar2Read => Sys2Proof.Machine.execBar2Read s
  | .bar2Write => Sys2Proof.Machine.execBar2Write s
  | .bar2Atomicop => Sys2Proof.Machine.execBar2Atomicop s
  | .powerUp => Sys2Proof.Machine.execPowerUp s
  | .deviceReset => Sys2Proof.Machine.execDeviceReset s
  | .pfFlr => Sys2Proof.Machine.execPfFlr s
  | .vfFlr => Sys2Proof.Machine.execVfFlr s
  | .mailboxGo => Sys2Proof.Machine.execMailboxGo s
  | .mailboxAnswer => Sys2Proof.Machine.execMailboxAnswer s
  | .getVersion => Sys2Proof.Machine.execGetVersion s
  | .getCapabilities => Sys2Proof.Machine.execGetCapabilities s
  | .negotiateAlgorithms => Sys2Proof.Machine.execNegotiateAlgorithms s
  | .getDigests => Sys2Proof.Machine.execGetDigests s
  | .getCertificate => Sys2Proof.Machine.execGetCertificate s
  | .challenge => Sys2Proof.Machine.execChallenge s
  | .getMeasurements => Sys2Proof.Machine.execGetMeasurements s
  | .readbackRead => Sys2Proof.Machine.execReadbackRead s
  | .readbackWrite => Sys2Proof.Machine.execReadbackWrite s
  | .quiesceRequest => Sys2Proof.Machine.execQuiesceRequest s
  | .quiesceAck => Sys2Proof.Machine.execQuiesceAck s
  | .quiesceRelease => Sys2Proof.Machine.execQuiesceRelease s
  | .scrubBankRead => Sys2Proof.Machine.execScrubBankRead s
  | .scrubChannelRead => Sys2Proof.Machine.execScrubChannelRead s
  | .refreshForced => Sys2Proof.Machine.execRefreshForced s
  | .clockStep => Sys2Proof.Machine.execClockStep s
  | .thermalTrip => Sys2Proof.Machine.execThermalTrip s
  | .registerWrite => Sys2Proof.Machine.execRegisterWrite s
  | .illegalInstruction => Sys2Proof.Machine.execIllegalInstruction s
  | .pcieCompletion => Sys2Proof.Machine.execPcieCompletion s
  | .completionTimeout => Sys2Proof.Machine.execCompletionTimeout s
  | .configurationWrite => Sys2Proof.Machine.execConfigurationWrite s
  | .portTraining => Sys2Proof.Machine.execPortTraining s
  | .powerRemoval => Sys2Proof.Machine.execPowerRemoval s

end Sys2Proof.Machine
end

