-- ==== Sys2Proof/Machine/Turns.lean ====
section
/-! DEFINITION. Turns: what one item of the agenda does, who moves when the agenda is empty, and how a word is laid where the
next step fetches it (notes/assumptions/4.md, notes/assumptions/5.md). -/

namespace Sys2Proof.Machine

/-- A step of a part of the machine that no word encodes; the traps of undecodable words come only from issue. -/
def isStep (i : Instr) : Bool := (encode i).isNone && (match i with | .illegalInstruction => false | _ => true)

/-- The compute clocks of a package stand in maintenance (R321). -/
def State.stopped (s : State) (p : Pkg) : Bool := (s.pkg p).state = 4

/-- The package whose units a step belongs to, of the steps that no unit of a quiesced package takes: its threads, crews, engines, schedulers, walkers,
timers and homes. The host port's steps, scrubbing, power and clocks go on (R326, R327). (DEDUCED, notes/assumptions/68.md.) -/
def State.unitOf (s : State) (i : Instr) (a : EvArgs) : Option Pkg :=
  match i with
  | .resultReturn | .systemFault | .waitLimitExpiry | .ldfWithdrawConfirm | .feWaitRetry | .combineTimeout | .contextFree | .crewRelease | .walkRetry
  | .spawnPlace | .crewSave | .copyStart | .ringPush | .copyComplete | .copyFail | .matrixStart | .matrixStep | .rotationBoundary
  | .retransmitTimeout | .nackBackoffExpiry | .sessionReclaim => some (epPkg a.ep)
  | .walkComplete | .headRecordCheck | .dependencePoll | .launchComplete | .coresidentHold | .priorityPreempt | .teardownEnd | .faultRecordPost
  | .invalComplete | .completionTimeout => some a.pkg
  | .spawnRequest => (s.spawns[a.n]?).map (fun r => epPkg r.tgt)
  | .barrierArrival => (s.arrivals[a.n]?).map Arrival.home
  | .meshInterrupt => (s.mesh[a.n]?).map (fun m => epPkg m.ep)
  | _ => none

/-- The package whose clocks a step counts on, of the steps that go on in a quiesce and not in maintenance: scrubbing, refresh, the dies' power steps
(R321, R327, R328). -/
def State.clockOf (i : Instr) (a : EvArgs) : Option Pkg :=
  match i with
  | .scrubBankRead => some (epPkg a.ep)
  | .scrubChannelRead | .refreshForced | .clockStep => some a.pkg
  | _ => none

/-- A step is held back by a quiesce or by the maintenance state (R321, R326, R328). -/
def State.quiesced (s : State) (i : Instr) (a : EvArgs) : Bool :=
  (s.unitOf i a).any (fun p => (s.pkg p).still) || (State.clockOf i a).any s.stopped

/-- One turn. (DESIGN CHOICE, notes/assumptions/13.md.) -/
def runTurn (run : Run) (t : Turn) (s : State) : Host.Outcome State Fault Refusal :=
  match t with
  | .issue ep => coreCycle run ep s
  | .event i a => if isStep i && !s.quiesced i a then run i { s with ev := a } else .next s
  | .coreCycles ep n =>
    if s.stopped (epPkg ep) then .next s
    else if (s.pkg (epPkg ep)).still then .next (s.setCore ep { s.core ep with cyc := (s.core ep).cyc + BitVec.ofNat 64 n })
    else
    let s := s.wakeAll ep
    let c := s.core ep
    if allCtx.any (fun x => (vget x c.threads).status = .ready && !(vget x c.threads).quitting) then coreCycle run ep s
    else .next (s.setCore ep (c.idleCycles n))
  | .dieCycles p d n => .next (if s.stopped p then s else (s.noteWaits p d n).setDie p d { s.die p d with cyc := (s.die p d).cyc + n })
  | .portCycles p q n =>
    let k := s.pkg p
    .next (s.setPkg p (k.setPort q { k.port q with cyc := (k.port q).cyc + n }))
  | .hostStore p a v =>
    let pa := p.toNat * 2 ^ 44 + a
    .next (if paRegion pa = .host then { s with mem := s.mem.setByte pa v } else s)

/-! ## Who moves when the agenda is empty (notes/assumptions/4.md) -/

/-- The event that handles a packet: at its destination by its type, else forwarding, which discards it when its lifetime is over. -/
def State.packetEvent (s : State) (p : Packet) : Instr :=
  if p.via.isSome || (!s.isHome p && p.type ≠ .drain) || s.expired p then .packetForward
  else match p.type with
  | .read => .read
  | .rdata => .rdata
  | .write => .write
  | .atomic => .atomic
  | .signal => .signal
  | .aval => .aval
  | .msg => .msg
  | .ack => .ack
  | .nack => .nack
  | .close => .close
  | .drain => .drain
  | .mgmt => .mgmt

/-- The timers of a session: of each operation it has sent, the timeout and the end of a backoff (R302). -/
def Stream.turns (x : Stream) (a : EvArgs) : List Turn :=
  x.unacked.flatMap (fun u => [.event .nackBackoffExpiry { a with seq := u.pkt.seq }, .event .retransmitTimeout { a with seq := u.pkt.seq }])

/-- What a context of a core may do beside issue. -/
def Thread.turns (t : Thread) (ep : Ep) (ctx : Ctx) : List Turn :=
  if t.status = .free then []
  else
    t.pend.flatMap (fun p => [.event .resultReturn { ep := ep, ctx := ctx, id := p.id }, .event .feWaitRetry { ep := ep, ctx := ctx, id := p.id },
      .event .ldfWithdrawConfirm { ep := ep, ctx := ctx, id := p.id }, .event .retransmitTimeout { ep := ep, ctx := ctx, n := 15, id := p.id }]) ++
    (List.finRange 8).flatMap (fun i => t.streams[i].turns { ep := ep, ctx := ctx, n := i.val }) ++
    t.msgStreams.flatMap (fun w => w.2.turns { ep := ep, ctx := ctx, n := 9 + w.1 / 2 ^ 22, value := BitVec.ofNat 64 (w.1 % 2 ^ 22) }) ++
    [.event .waitLimitExpiry { ep := ep, ctx := ctx }, .event .walkRetry { ep := ep, ctx := ctx }, .event .contextFree { ep := ep, ctx := ctx }] ++
    (if t.faultQ.isEmpty || t.status = .ready then [] else [.event .systemFault { ep := ep, ctx := ctx }])

/-- What a copy command of a core may do. -/
def CopyCmd.turns (k : CopyCmd) (ep : Ep) : List Turn :=
  [.event .copyStart { ep := ep, id := k.id }, .event .ringPush { ep := ep, id := k.id }, .event .copyComplete { ep := ep, id := k.id },
    .event .copyFail { ep := ep, id := k.id }] ++
    k.reads.map (fun r => .event .retransmitTimeout { ep := ep, id := k.id, n := 14, value := BitVec.ofNat 64 r.n }) ++
    k.streams.flatMap (fun w => w.2.turns { ep := ep, ctx := k.ctx, n := 8, id := k.id, value := BitVec.ofNat 64 w.1 })

/-- What a core may do. -/
def Core.turns (c : Core) (ep : Ep) : List Turn :=
  [.issue ep, .event .matrixStart { ep := ep }, .event .matrixStep { ep := ep }, .event .rotationBoundary { ep := ep }, .event .spawnPlace { ep := ep }] ++
    (List.range c.combine.length).map (fun i => .event .combineTimeout { ep := ep, n := i }) ++
    allCtx.flatMap (fun x => (vget x c.threads).turns ep x) ++
    c.copies.flatMap (fun k => k.turns ep) ++
    c.closes.flatMap (fun u => [Instr.nackBackoffExpiry, .retransmitTimeout].map
      (fun i => .event i { ep := ep, ctx := u.pkt.ctx, n := 11, id := u.pkt.str.toNat, seq := u.pkt.seq, value := u.pkt.dst.setWidth 64 })) ++
    c.crews.flatMap (fun w => [.event .crewRelease { pkg := w.home, ep := ep, lid := w.lid }, .event .crewSave { ep := ep, lid := w.lid }])

/-- What a port of a package may do. -/
def Port.turns (w : Port) (p : Pkg) (q : BitVec 4) : List Turn :=
  if w.up then [.portCycles p q 1, .event .flitReceive { pkg := p, port := q }, .event .linkReplay { pkg := p, port := q }, .event .keepalive { pkg := p, port := q }]
  else []

/-- What a package may do beside its cores. -/
def Package.turns (k : Package) (p : Pkg) : List Turn :=
  (if k.moving.isSome then [.event .moveMem { pkg := p }] else []) ++
  [.dieCycles p 0 1, .dieCycles p 1 1, .event .faultRecordPost { pkg := p }, .event .invalComplete { pkg := p }, .event .quiesceAck { pkg := p }] ++
    ([0, 1] : List (BitVec 1)).flatMap (fun d => (List.range (vget d k.dies).walks.length).map (fun i => .event .walkComplete { pkg := p, die := d, n := i })) ++
    k.queues.flatMap (fun w => [Instr.headRecordCheck, .dependencePoll, .coresidentHold, .priorityPreempt, .teardownEnd].map
      (fun i => Turn.event i { pkg := p, q := BitVec.ofNat 12 w.1 })) ++
    (List.finRange 14).flatMap (fun i => k.ports[i].turns p (BitVec.ofNat 4 i.val))

/-- Every agent's next move; one that cannot move leaves the state as it is. -/
def State.turns (s : State) : List Turn :=
  [.issue s.focus] ++ s.cores.flatMap (fun c => c.2.turns (BitVec.ofNat 22 c.1)) ++
    s.pkgs.flatMap (fun k => k.2.turns (BitVec.ofNat 10 k.1)) ++
    s.launches.map (fun (l : Launch) => .event .launchComplete { pkg := l.home, lid := l.lid }) ++
    (List.range s.net.length).map (fun i => .event (s.packetEvent (s.net.getD i {})) { n := i }) ++
    (List.range s.spawns.length).map (fun i => .event .spawnRequest { n := i }) ++
    (List.range s.arrivals.length).map (fun i => .event .barrierArrival { n := i }) ++
    (List.range s.mesh.length).map (fun i => .event .meshInterrupt { n := i }) ++
    s.tables.flatMap (fun t => (List.range t.2.length).map (fun i => .event .sessionReclaim { ep := BitVec.ofNat 22 t.1, n := i }))

/-- The turn when the agenda names none: each agent's in rotation. -/
def State.nextTurn (s : State) : Turn := (s.turns)[s.tick % s.turns.length]?.getD (.issue s.focus)

/-- One step of the system: the first turn of the agenda, or the default one. -/
def runStep (run : Run) (s : State) : Host.Outcome State Fault Refusal :=
  match s.agenda with
  | [] => runTurn run s.nextTurn { s with tick := s.tick + 1 }
  | t :: r => runTurn run t { s with agenda := r }

/-- A thread in context 0 of core 0 of package 0, READY, with a word at its PC in the core's instruction store, and nothing
before it: what a driver's placement and load do (notes/assumptions/5.md). -/
def State.placeWord (s : State) (w : Nat) : State :=
  let ep : Ep := 0
  let c := s.core ep
  let t := vget (0 : Ctx) c.threads
  let t := { t with
    status := .ready, wait := .none, lastIssue := none, yielded := false, stepTrap := false, quitting := false, abandon := false,
    faultQ := [], st := putBit t.st 22 false }
  let c := { c with
    last := 15, stale := [], badWords := [], badRegs := [], fresh := [], crews := c.crews.map (fun (x : Crew) => { x with preempt := none, tearing := false }) }
  let s := s.setCore ep (c.setThr 0 t)
  let k := s.pkg 0
  let s := s.setPkg 0 { k with qreq := false, qack := false, state := if k.state = 4 then 3 else k.state }
  { s with agenda := [.issue ep], focus := ep, mem := s.mem.write (istorePa ep t.pc.toNat) 4 w }

end Sys2Proof.Machine
end

