-- ==== Sys2Proof/Machine/Step.lean ====
section
/-! DEFINITION. The step of the system and the placing of a word for it. -/

namespace Sys2Proof.Machine

/-- One step. -/
def step (s : State) : Host.Outcome State Fault Refusal := runStep exec s

/-- The state with an instruction's bits laid where the next step fetches (notes/assumptions/5.md). -/
def State.withFetchWord (s : State) (nbits w : Nat) : State := s.placeWord (w % 2 ^ nbits)

end Sys2Proof.Machine
end

