-- ==== Sys2Proof/Safety.lean ====
section
/-! DEFINITION. What counts as a safe state, in the terms the statements use: what every step keeps. -/

namespace Sys2Proof.Machine

/-- The memory is in its canonical form, so that equal memories are equal data. -/
def State.Canonical (s : State) : Prop := s.mem.wf = true

end Sys2Proof.Machine
end

