-- ==== Sys2Proof/Spec/Codec.lean ====
section
/-! DEFINITION. The terms of the statements about the codec and ternarisation: the canonical code and the stream of a coded block, the
table that a histogram gives, and one group of TERN (R239, R240, R243, R247). -/

namespace Sys2Proof.Spec

open Sys2Proof.Machine

/-! ## Coded blocks (R239, R240) -/

/-- The canonical code of byte value `s` under lengths `l`: the codes of each shorter length, extended to that of `s`, and those of its own length at
lower values come before it (R240). -/
def codeOf (l : Nat → Nat) (s : Nat) : Nat :=
  (∑ t ∈ (Finset.range 256).filter (fun t => 0 < l t ∧ l t < l s), 2 ^ (l s - l t)) + ((Finset.range s).filter (fun t => l t = l s)).card

/-- A number is the stream of the codes of some bytes, each most significant bit first, with zero bits after it (R240). -/
def CodesFor (l : Nat → Nat) (raw : List Nat) (x : Nat) : Prop :=
  let len := fun (n : Nat) => l (raw.getD n 0)
  let start := fun (n : Nat) => ∑ m ∈ Finset.range n, len m
  (∀ n < raw.length, ∀ j < len n, x.testBit (start n + j) = (codeOf l (raw.getD n 0)).testBit (len n - 1 - j)) ∧ x < 2 ^ start raw.length

/-- A code table that TBLD accepts: lengths of at most 12, whose codes fit (R240, R243). -/
def TableFits (l : Nat → Nat) : Prop :=
  (∀ s < 256, l s ≤ 12) ∧ ∑ s ∈ (Finset.range 256).filter (fun s => 0 < l s), 2 ^ (12 - l s) ≤ 2 ^ 12

/-! ## The table of a histogram (R243) -/

/-- The lengths that a histogram asks for, before they are made to fit (R243). -/
def askedLength (count : Nat → Nat) (s : Nat) : Nat :=
  let total := ∑ t ∈ Finset.range 256, count t
  if count s = 0 then 0 else min 12 (max 1 (Nat.clog 2 ((total + count s - 1) / count s)))

/-- One step of the loop: the symbol with a length of 1 to 11 and the smallest count, the lowest on ties, gets a longer code (R243). -/
def Lengthens (count l l' : Nat → Nat) : Prop :=
  let able := fun (s : Nat) => s < 256 ∧ 1 ≤ l s ∧ l s ≤ 11
  ¬TableFits l ∧ ∃ s, able s ∧ (∀ t, able t → count s < count t ∨ (count s = count t ∧ s ≤ t)) ∧ l' = fun t => if t = s then l s + 1 else l t

/-- The table that TBLD mode 0 builds (R243). -/
def BuiltFrom (count l : Nat → Nat) : Prop :=
  ∃ (n : Nat) (f : Nat → Nat → Nat), f 0 = askedLength count ∧ (∀ i < n, Lengthens count (f i) (f (i + 1))) ∧ f n = l ∧ TableFits l

/-! ## TERN (R247) -/

/-- The magnitude of a BF16 number, in units of 2^-133 (R78). -/
def bf16Mag (w : Nat) : Nat :=
  let exp := w / 2 ^ 7 % 2 ^ 8
  if exp = 0 then w % 2 ^ 7 else (2 ^ 7 + w % 2 ^ 7) * 2 ^ (exp - 1)

/-- The E8M0 scale of a mean of `sum` × 2^-140 under RNE, with its flags (R94, R247; OF: notes/assumptions/34.md). -/
def meanScale (sum : Nat) : Nat × Flags :=
  let n := Nat.log 2 sum
  let up := if 3 * 2 ^ n ≤ 2 * sum then n + 1 else n
  if sum = 0 then (0x7F, {}) else if sum < 2 ^ 13 then (0, { uf := true }) else if 268 ≤ up then (0xFE, { of_ := true }) else (up - 13, {})

/-- A group of 128 weights under a control word, with the random words `u`: its trits as 0, 1 or 2 for -1, 0 or 1, its scale byte and its flags
(R93, R247). -/
def ternOf (ctl : Nat) (u : Nat → Nat) (w : Nat → Nat) : List Nat × Nat × Flags :=
  if ∃ e < 128, w e / 2 ^ 7 % 2 ^ 8 = 255 then (List.replicate 128 1, 0xFF, { nv := true })
  else
    let (x, fl) := meanScale (∑ e ∈ Finset.range 128, bf16Mag (w e))
    let random : Bool := decide (ctl / 2 ^ 16 % 2 = 1)
    let theta := if ctl % 2 ^ 16 = 0 then 0x3F00 else ctl % 2 ^ 16
    let keeps := fun (e : Nat) =>
      if random then 2 ^ (x + 6) ≤ bf16Mag (w e) ∨ 2 ^ 32 ≤ bf16Mag (w e) * 2 ^ 32 / 2 ^ (x + 6) + u e
      else theta / 2 ^ 15 = 1 ∨ (theta / 2 ^ 7 ≠ 255 ∧ bf16Mag theta * 2 ^ x ≤ bf16Mag (w e) * 2 ^ 127)
    ((List.range 128).map (fun e => if bf16Mag (w e) = 0 ∨ ¬keeps e then 1 else if w e / 2 ^ 15 = 1 then 0 else 2), x,
      { fl with nx := random && (List.range 128).any (fun e => decide (0 < bf16Mag (w e) ∧ bf16Mag (w e) < 2 ^ (x + 6))) })

end Sys2Proof.Spec
end

