-- ==== Sys2Proof/Spec/Scalar.lean ====
section
/-! DEFINITION. The terms of the statements: what it means that a word completes, and the results of the scalar instructions,
branches and immediates as the rules R109 and R138 to R151 give them, written apart from the meanings. -/

namespace Sys2Proof.Spec

open Sys2Proof.Machine

/-! ## Completing an instruction -/

/-- The state in which the issuing thread's word has ended: its thread is `u` with the PC moved on as R39 and R112 say
(`Thread.retire`), it has left its core's order of parked threads, and nothing else of the system has changed. -/
def ended (s : State) (u : Thread) (next : BitVec 18) : State :=
  s.setMyCore { s.myCore with
    threads := vset s.issue.ctx (u.retire next) s.myCore.threads
    parkOrder := s.myCore.parkOrder.filter (fun x => x.1 ≠ s.issue.ctx) }

/-- The word completes with its effect on its thread alone, and the PC at the next unit. -/
def Completes (i : Instr) (s : State) (u : Thread) : Prop := exec i s = .next (ended s u s.issue.next)

/-- Register fields that name no port and whose registers are full (R24). -/
def Ready (s : State) (rs : List Reg) : Prop := ∀ r ∈ rs, isPort r = false ∧ s.me.isFull r = true

/-- Register fields, ports among them, that an instruction may read and write: no port traps, and every register is full. The sources are read in
order, each port popped: their values, and the state after the reads (R24, R27, R28). -/
def ReadsThrough (s : State) (srcs dsts : List Reg) (xs : List Dword) (s1 : State) : Prop :=
  s.portStops srcs dsts = none ∧ (∀ r ∈ srcs ++ dsts, s.me.isFull r = true) ∧ s.readRegs srcs = .ok (xs, s1)

/-- Vector registers that no pending result will write (R148). -/
def VecReady (s : State) (vs : List Reg) : Prop := ∀ r ∈ vs, s.me.vecPending r = false

/-- A jump that links: its link register, the registers it reads, and where it goes (R150, R151). -/
def linking (s : State) : Instr → Option (Reg × List Reg × BitVec 18)
  | .jal o => some (o.d, [], BitVec.ofInt 18 (s.issue.pc.toNat + 4 * o.off.toInt))
  | .jalr o =>
    let x := (s.me.getG o.a).toInt + 4 * o.imm.toInt
    if x % 4 = 0 then some (o.d, [o.a], BitVec.ofInt 18 x) else none
  | _ => none

/-! ## Scalar results (R139 to R146) -/

/-- A whole number cut to 32 bits and sign-extended to a dword (R139). -/
def sx32 (x : Int) : Dword := BitVec.ofInt 64 (Int.bmod x (2 ^ 32))

/-- The low 32 bits of a dword as a signed number. -/
def low32 (x : Dword) : Int := Int.bmod x.toNat (2 ^ 32)

/-- A truth value as a dword (R146). -/
def bool (c : Prop) [Decidable c] : Dword := if c then 1 else 0

/-- Position and width of the field that b names (R145). -/
def fieldAt (b : Dword) : Nat × Nat := (b.toNat % 64, min (min (b.toNat / 256 % 128) 64) (64 - b.toNat % 64))

/-- The fields of a scalar instruction of formats XR and XV4: sources in the order they are read, destination, result (R139 to R146). -/
def scalar : Instr → Option (List Reg × Reg × (List Dword → Dword))
  | .add o => two o.d o.a o.b fun a b => if o.w = 1 then sx32 (a.toInt + b.toInt) else a + b
  | .sub o => two o.d o.a o.b fun a b => if o.w = 1 then sx32 (a.toInt - b.toInt) else a - b
  | .andR o => two o.d o.a o.b fun a b => a &&& b
  | .orR o => two o.d o.a o.b fun a b => a ||| b
  | .xorR o => two o.d o.a o.b fun a b => a ^^^ b
  | .andn o => two o.d o.a o.b fun a b => a &&& ~~~b
  | .orn o => two o.d o.a o.b fun a b => a ||| ~~~b
  | .minR o => two o.d o.a o.b fun a b => BitVec.ofInt 64 (min a.toInt b.toInt)
  | .maxR o => two o.d o.a o.b fun a b => BitVec.ofInt 64 (max a.toInt b.toInt)
  | .minu o => two o.d o.a o.b fun a b => BitVec.ofNat 64 (min a.toNat b.toNat)
  | .maxu o => two o.d o.a o.b fun a b => BitVec.ofNat 64 (max a.toNat b.toNat)
  | .sll o => two o.d o.a o.b fun a b =>
      if o.w = 1 then sx32 (a.toNat * 2 ^ (b.toNat % 32)) else BitVec.ofNat 64 (a.toNat * 2 ^ (b.toNat % 64))
  | .srl o => two o.d o.a o.b fun a b =>
      if o.w = 1 then sx32 ((a.toNat % 2 ^ 32 / 2 ^ (b.toNat % 32) : Nat)) else BitVec.ofNat 64 (a.toNat / 2 ^ (b.toNat % 64))
  | .sra o => two o.d o.a o.b fun a b =>
      if o.w = 1 then sx32 (low32 a / 2 ^ (b.toNat % 32)) else BitVec.ofInt 64 (a.toInt / 2 ^ (b.toNat % 64))
  | .rol o => two o.d o.a o.b fun a b => BitVec.ofNat 64 (a.toNat * 2 ^ (b.toNat % 64) + a.toNat / 2 ^ (64 - b.toNat % 64))
  | .ror o => two o.d o.a o.b fun a b => BitVec.ofNat 64 (a.toNat / 2 ^ (b.toNat % 64) + a.toNat * 2 ^ (64 - b.toNat % 64))
  | .slli o => one o.d o.a fun a => BitVec.ofNat 64 (a.toNat * 2 ^ o.n.toNat)
  | .srli o => one o.d o.a fun a => BitVec.ofNat 64 (a.toNat / 2 ^ o.n.toNat)
  | .srai o => one o.d o.a fun a => BitVec.ofInt 64 (a.toInt / 2 ^ o.n.toNat)
  | .rori o => one o.d o.a fun a => BitVec.ofNat 64 (a.toNat / 2 ^ o.n.toNat + a.toNat * 2 ^ (64 - o.n.toNat))
  | .mul o => two o.d o.a o.b fun a b => if o.w = 1 then sx32 (a.toInt * b.toInt) else BitVec.ofInt 64 (a.toInt * b.toInt)
  | .mulh o => two o.d o.a o.b fun a b => BitVec.ofInt 64 (a.toInt * b.toInt / 2 ^ 64)
  | .mulhu o => two o.d o.a o.b fun a b => BitVec.ofNat 64 (a.toNat * b.toNat / 2 ^ 64)
  | .mulhsu o => two o.d o.a o.b fun a b => BitVec.ofInt 64 (a.toInt * b.toNat / 2 ^ 64)
  | .div o => two o.d o.a o.b fun a b =>
      if o.w = 1 then (if low32 b = 0 then BitVec.ofInt 64 (-1) else sx32 ((low32 a).tdiv (low32 b)))
      else (if b = 0 then BitVec.ofInt 64 (-1) else BitVec.ofInt 64 (a.toInt.tdiv b.toInt))
  | .divu o => two o.d o.a o.b fun a b =>
      if o.w = 1 then (if low32 b = 0 then BitVec.ofInt 64 (-1) else sx32 ((a.toNat % 2 ^ 32 / (b.toNat % 2 ^ 32) : Nat)))
      else (if b = 0 then BitVec.ofInt 64 (-1) else BitVec.ofNat 64 (a.toNat / b.toNat))
  | .rem o => two o.d o.a o.b fun a b =>
      if o.w = 1 then (if low32 b = 0 then sx32 (low32 a) else sx32 ((low32 a).tmod (low32 b)))
      else (if b = 0 then a else BitVec.ofInt 64 (a.toInt.tmod b.toInt))
  | .remu o => two o.d o.a o.b fun a b =>
      if o.w = 1 then (if low32 b = 0 then sx32 (low32 a) else sx32 ((a.toNat % 2 ^ 32 % (b.toNat % 2 ^ 32) : Nat)))
      else (if b = 0 then a else BitVec.ofNat 64 (a.toNat % b.toNat))
  | .clz o => one o.d o.a fun a => BitVec.ofNat 64 (if a = 0 then 64 else 63 - a.toNat.log2)
  | .ctz o => one o.d o.a fun a => BitVec.ofNat 64 (((List.range 64).find? (fun i => a.getLsbD i)).getD 64)
  | .popc o => one o.d o.a fun a => BitVec.ofNat 64 ((List.range 64).filter (fun i => a.getLsbD i)).length
  | .brev o => one o.d o.a fun a => a.reverse
  | .bswap o => one o.d o.a fun a =>
      a.extractLsb' 0 8 ++ a.extractLsb' 8 8 ++ a.extractLsb' 16 8 ++ a.extractLsb' 24 8 ++
        a.extractLsb' 32 8 ++ a.extractLsb' 40 8 ++ a.extractLsb' 48 8 ++ a.extractLsb' 56 8
  | .sxb o => one o.d o.a fun a => BitVec.ofInt 64 (Int.bmod a.toNat (2 ^ 8))
  | .sxh o => one o.d o.a fun a => BitVec.ofInt 64 (Int.bmod a.toNat (2 ^ 16))
  | .sxw o => one o.d o.a fun a => sx32 a.toNat
  | .zxb o => one o.d o.a fun a => BitVec.ofNat 64 (a.toNat % 2 ^ 8)
  | .zxh o => one o.d o.a fun a => BitVec.ofNat 64 (a.toNat % 2 ^ 16)
  | .zxw o => one o.d o.a fun a => BitVec.ofNat 64 (a.toNat % 2 ^ 32)
  | .bfx o => two o.d o.a o.b fun a b =>
      if (fieldAt b).2 = 0 then 0 else BitVec.ofInt 64 (Int.bmod (a.toNat / 2 ^ (fieldAt b).1 : Nat) (2 ^ (fieldAt b).2))
  | .bfxu o => two o.d o.a o.b fun a b => BitVec.ofNat 64 (a.toNat / 2 ^ (fieldAt b).1 % 2 ^ (fieldAt b).2)
  | .bfi o => some ([o.a, o.b, o.d], o.d, fun xs =>
      let a := xs.getD 0 0
      let (p, n) := fieldAt (xs.getD 1 0)
      let d := xs.getD 2 0
      BitVec.ofNat 64 (d.toNat % 2 ^ p + a.toNat % 2 ^ n * 2 ^ p + d.toNat / 2 ^ (p + n) * 2 ^ (p + n)))
  | .lea o => two o.d o.a o.b fun a b => a + b <<< o.sh.toNat
  | .leal o => two o.d o.a o.b fun a b => BitVec.ofNat 64 (2 ^ 63 + (a.toNat + b.toNat * 2 ^ o.sh.toNat) % 2 ^ 63)
  | .seq o => two o.d o.a o.b fun a b => bool (a = b)
  | .sne o => two o.d o.a o.b fun a b => bool (a ≠ b)
  | .slt o => two o.d o.a o.b fun a b => bool (a.toInt < b.toInt)
  | .sltu o => two o.d o.a o.b fun a b => bool (a.toNat < b.toNat)
  | .sle o => two o.d o.a o.b fun a b => bool (a.toInt ≤ b.toInt)
  | .sleu o => two o.d o.a o.b fun a b => bool (a.toNat ≤ b.toNat)
  | .seqi o => one o.d o.a fun a => bool (a.toInt = o.imm.toInt)
  | .snei o => one o.d o.a fun a => bool (a.toInt ≠ o.imm.toInt)
  | .slti o => one o.d o.a fun a => bool (a.toInt < o.imm.toInt)
  | .sltui o => one o.d o.a fun a => bool (a.toNat < (BitVec.ofInt 64 o.imm.toInt).toNat)
  | .slei o => one o.d o.a fun a => bool (a.toInt ≤ o.imm.toInt)
  | .sleui o => one o.d o.a fun a => bool (a.toNat ≤ (BitVec.ofInt 64 o.imm.toInt).toNat)
  | .sgti o => one o.d o.a fun a => bool (o.imm.toInt < a.toInt)
  | .sgtui o => one o.d o.a fun a => bool ((BitVec.ofInt 64 o.imm.toInt).toNat < a.toNat)
  | .sel o => some ([o.a, o.b, o.c], o.d, fun xs => if xs.getD 2 0 ≠ 0 then xs.getD 0 0 else xs.getD 1 0)
  | _ => none
where
  two (d a b : Reg) (f : Dword → Dword → Dword) : Option (List Reg × Reg × (List Dword → Dword)) :=
    some ([a, b], d, fun xs => f (xs.getD 0 0) (xs.getD 1 0))
  one (d a : Reg) (f : Dword → Dword) : Option (List Reg × Reg × (List Dword → Dword)) :=
    some ([a], d, fun xs => f (xs.getD 0 0))

/-- The exact result and the bounds of a saturating scalar instruction (R140). -/
def saturating : Instr → Option (OpRr × (Dword → Dword → Int) × Int × Int)
  | .adds o => some (o, fun a b => a.toInt + b.toInt, -2 ^ 63, 2 ^ 63 - 1)
  | .subs o => some (o, fun a b => a.toInt - b.toInt, -2 ^ 63, 2 ^ 63 - 1)
  | .addus o => some (o, fun a b => a.toNat + b.toNat, 0, 2 ^ 64 - 1)
  | .subus o => some (o, fun a b => a.toNat - b.toNat, 0, 2 ^ 64 - 1)
  | _ => none

/-- An immediate under a pending EXT: EXTV above it, the whole sign-extended (R116). -/
def extended (t : Thread) {n : Nat} (imm : BitVec n) : Int :=
  if t.st.getLsbD 21 then Int.bmod ((t.pfx.toNat / 2 ^ 40 % 2 ^ 24) * 2 ^ n + imm.toNat) (2 ^ (n + 24)) else imm.toInt

/-- The condition of a conditional branch (R149). -/
def branch : Instr → Option (OpBranch × (Dword → Dword → Bool))
  | .beq o => some (o, fun x y => decide (x = y))
  | .bne o => some (o, fun x y => decide (x ≠ y))
  | .blt o => some (o, fun x y => decide (x.toInt < y.toInt))
  | .bge o => some (o, fun x y => decide (y.toInt ≤ x.toInt))
  | .bltu o => some (o, fun x y => decide (x.toNat < y.toNat))
  | .bgeu o => some (o, fun x y => decide (y.toNat ≤ x.toNat))
  | .bbs o => some (o, fun x y => x.getLsbD (y.toNat % 64))
  | .bbc o => some (o, fun x y => !x.getLsbD (y.toNat % 64))
  | _ => none

/-- The branching word's address plus four times a signed offset, modulo 2^18 (R109). -/
def target (pc : BitVec 18) (off : Int) : BitVec 18 := BitVec.ofInt 18 (pc.toNat + 4 * off)

end Sys2Proof.Spec
end

