-- ==== Sys2Proof/Spec/Machine.lean ====
section
/-! DEFINITION. The terms of the statements about the machine as a whole: what a step of a core prepares for its word, the words
written out from the encoding tables, and what a packet, a wait or a record leaves unchanged. -/

namespace Sys2Proof.Spec

open Sys2Proof.Machine

/-- The state in which a word runs alone: at its thread's PC, with the PC of the next unit four bytes on (R109). -/
def alone (s : State) (ep : Ep) (ctx : Ctx) (w : Word) : State :=
  let pc := (s.thr ep ctx).pc
  { s with issue := { ep := ep, ctx := ctx, pc := pc, next := pc + 4, word := w, fate := .issued } }

/-- The system registers of R154, each number with the value it reads as. -/
def sregMap (s : State) : List (Nat × Dword) :=
  [(0, s.issue.pc.setWidth 64), (1, s.me.st), (2, s.me.pfx), (8, s.me.tvec), (9, s.me.tepc), (10, s.me.tst), (11, s.me.tcause), (12, s.me.tval0),
    (13, s.me.tval1), (16, s.me.lti.setWidth 64), (17, s.me.lid.setWidth 64), (18, s.me.asid.setWidth 64), (19, s.me.did), (20, s.me.dkey0),
    (21, s.me.dkey1), (22, s.me.dctr), (24, s.me.qbind), (25, s.me.gms), (26, s.me.wlim), (80, s.me.cgb.setWidth 64),
    (81, s.me.cgl.setWidth 64), (96, s.issue.ep.setWidth 64), (97, s.myCore.cyc)] ++
    (List.finRange 8).map (fun i => (32 + i.val, s.me.streams[i].reg)) ++ (List.finRange 8).map (fun i => (64 + i.val, s.myCore.rings[i])) ++
    (List.finRange 4).map (fun i => (72 + i.val, s.myCore.apc[i])) ++ (List.finRange 4).map (fun i => (76 + i.val, s.myCore.ast[i]))

/-- Everything but the cores and the issue record is the same. -/
def SameOutside (s t : State) : Prop :=
  t.mem = s.mem ∧ t.pkgs = s.pkgs ∧ t.tables = s.tables ∧ t.waiters = s.waiters ∧ t.launches = s.launches ∧ t.net = s.net ∧
    t.spawns = s.spawns ∧ t.arrivals = s.arrivals ∧ t.mesh = s.mesh ∧ t.stamp = s.stamp ∧ t.free = s.free

/-- Every thread but one is the same. -/
def OtherThreadsSame (s t : State) (ep : Ep) (ctx : Ctx) : Prop :=
  ∀ e x, (e, x) ≠ (ep, ctx) → t.thr e x = s.thr e x

/-- Words that the manual writes out beside their instruction (R121, R129 to R131, R142, R149, R150, R174 to R197, R207 to R222, R247,
R263), and some written out from the tables of R119 to R122, so that every format has one. -/
def words : List (Nat × Instr) :=
  [(0x04C7FFB0, .st ⟨6, 7, 0x7F, 3, 3, 0⟩),
   (0x44000000, .addi ⟨0, 0, 0⟩),
   (0x709FFFFF, .li ⟨4, 0x1FFFFF⟩),
   (0x1C060005, .beq ⟨3, 0, 5⟩),
   (0x237FFFF0, .jal ⟨27, 0x1FFFF0⟩),
   (0x24E4A800, .spawn ⟨9, 10⟩),
   (0x00A60500, .ld ⟨5, 6, 2, 2, 0⟩),
   (0x00A40180, .ld ⟨5, 4, 0, 3, 0⟩),
   (0x08640410, .vldX ⟨3, 4, 2, 0⟩),
   (0x34242980, .vgldD ⟨4, 5, 6, 0, 0⟩),
   (0x342429A0, .vgldD ⟨4, 5, 6, 2, 0⟩),
   (0x0C0531C0, .ldf ⟨5, 6, 7, 0⟩),
   (0x0CC531C0, .waita ⟨5, 6, 7, 0⟩),
   (0x10A63881, .aadd ⟨5, 6, 7, 8, 0, 1⟩),
   (0x14063E17, .sig ⟨6, 7, 1, 3⟩),
   (0x18042801, .send ⟨8, 10, 0, 0, 0, 1⟩),
   (0x18128029, .waitq ⟨5, 0, 2, 9⟩),
   (0x28029903, .bar ⟨5, 6, 1, 3⟩),
   (0x2500000A, .fns ⟨5⟩),
   (0x2542A000, .enq ⟨5, 8⟩),
   (0x30050040, .mmt ⟨5, 0, 1, 0, 0⟩),
   (0x3026192F, .mmtz ⟨6, 3, 4, 2, 15⟩),
   (0x304849D0, .mdr ⟨8, 9, 7, 1, 0⟩),
   (0x30640030, .mld ⟨4, 3, 0⟩),
   (0x30A00010, .mclr ⟨1, 0⟩),
   (0x30C00000, .mwait ⟨0⟩),
   (0x59110442, .vfcmplt ⟨2, 1, 2, 0, 2⟩),
   (0x58018442, .vfadd ⟨3, 1, 2, 0, 2⟩),
   (0x5C020443, .vfmaW ⟨4, 1, 2, 3⟩),
   (0x5C942548, .vdp4 ⟨8, 9, 10, 8⟩),
   (0x65038C06, .vred ⟨7, 3, 1, 2⟩),
   (0x600104AD, .vcvt ⟨2, 1, 5, 3, 1⟩),
   (0x600104E0, .vcvt ⟨2, 1, 7, 0, 0⟩),
   (0x60612460, .vtpk ⟨2, 9, 3, 0⟩),
   (0x68028000, .draw ⟨5⟩),
   (0x68130000, .vdraw ⟨6, 0, 0⟩),
   (0x79000004, .ext ⟨4⟩),
   (0x78B52F00, .fmt ⟨22, 20, 5, 1, 1, 1⟩),
   (0b0_10000_000000_00101_00110_00111_00000, .add ⟨5, 6, 7, 0⟩),
   (0b0_10010_000100_00001_00010_00011_00001, .div ⟨1, 2, 3, 1⟩),
   (0b0_10011_000010_00001_00010_00000_00000, .popc ⟨1, 2⟩),
   (0b0_10100_000010_00001_00010_00011_00000, .slt ⟨1, 2, 3⟩),
   (0b0_10101_000000_00001_00010_00011_000_10, .vadd ⟨1, 2, 3, 0, 2⟩),
   (0b0_01001_000000_00011_00000_0000000001, .mfs ⟨3, 1⟩),
   (0b0_01001_000001_00000_00011_0000001000, .mts ⟨3, 8⟩),
   (0b0_01001_001000_00000_00111_0000000101, .trap ⟨7, 5⟩),
   (0b0_01011_00000_00001_00000_00000_00_0000, .cpy ⟨1, 0, 0, 0, 0⟩)]

end Sys2Proof.Spec
end

