-- ==== Sys2Proof/Spec/Vector.lean ====
section
/-! DEFINITION. The terms of the statements about vectors: lanes, and the results of the vector instructions lane by lane as the rules
R147, R148 and R199 to R222 give them. -/

namespace Sys2Proof.Spec

open Sys2Proof.Machine

/-- Lane `i` of width `w` of a vector register (R200). -/
def laneAt (w : Nat) (x : VReg) (i : Nat) : BitVec w := x.extractLsb' (w * i) w

/-- Bits of a lane whose width field is `w` (R200). -/
def bitsOf (w : BitVec 2) : Nat := 8 * 2 ^ w.toNat

/-- The lane computes: no mask is named, or its bit is set (R200). -/
def Active (t : Thread) (k : KReg) (i : Nat) : Prop := k = 0 ∨ (vget k t.k).getLsbD i = true

/-- The lanes of a register whose mask bit is set, in ascending order. -/
def actives (t : Thread) (k : KReg) (n : Nat) : List Nat := (List.range n).filter (fun i => k = 0 ∨ (vget k t.k).getLsbD i = true)

/-- The thread differs in one vector register, its status flags and its draw counter alone. -/
def VecFrame (t u : Thread) (d : Reg) : Prop := u = { t with v := vset d (vget d u.v) t.v, st := u.st, dctr := u.dctr }

/-- An integer instruction whose lanes neither saturate nor meet (R203). -/
def laneOp : Instr → Option (OpVv × ((w : Nat) → BitVec w → BitVec w → BitVec w))
  | .vadd o => some (o, fun _ a b => a + b)
  | .vsub o => some (o, fun _ a b => a - b)
  | .vmul o => some (o, fun _ a b => a * b)
  | .vmulh o => some (o, fun w a b => BitVec.ofInt w (a.toInt * b.toInt / 2 ^ w))
  | .vmulhu o => some (o, fun w a b => BitVec.ofNat w (a.toNat * b.toNat / 2 ^ w))
  | .vmin o => some (o, fun _ a b => if a.toInt ≤ b.toInt then a else b)
  | .vmax o => some (o, fun _ a b => if a.toInt ≤ b.toInt then b else a)
  | .vminu o => some (o, fun _ a b => if a.toNat ≤ b.toNat then a else b)
  | .vmaxu o => some (o, fun _ a b => if a.toNat ≤ b.toNat then b else a)
  | .vand o => some (o, fun _ a b => a &&& b)
  | .vor o => some (o, fun _ a b => a ||| b)
  | .vxor o => some (o, fun _ a b => a ^^^ b)
  | .vandn o => some (o, fun _ a b => a &&& ~~~b)
  | .vsll o => some (o, fun w a b => a <<< (b.toNat % w))
  | .vsrl o => some (o, fun w a b => a >>> (b.toNat % w))
  | .vsra o => some (o, fun w a b => a.sshiftRight (b.toNat % w))
  | _ => none

/-- A saturating lane instruction: the exact sum, and the bounds of a lane (R203). -/
def laneSat : Instr → Option (OpVv × ((w : Nat) → BitVec w → BitVec w → Int) × (Nat → Int) × (Nat → Int))
  | .vadds o => some (o, fun _ a b => a.toInt + b.toInt, fun w => -2 ^ (w - 1), fun w => 2 ^ (w - 1) - 1)
  | .vsubs o => some (o, fun _ a b => a.toInt - b.toInt, fun w => -2 ^ (w - 1), fun w => 2 ^ (w - 1) - 1)
  | .vaddus o => some (o, fun _ a b => a.toNat + b.toNat, fun _ => 0, fun w => 2 ^ w - 1)
  | .vsubus o => some (o, fun _ a b => a.toNat - b.toNat, fun _ => 0, fun w => 2 ^ w - 1)
  | _ => none

/-- A lane compare (R204). -/
def laneCmp : Instr → Option (OpVv × ((w : Nat) → BitVec w → BitVec w → Bool))
  | .vcmpeq o => some (o, fun _ a b => decide (a = b))
  | .vcmplt o => some (o, fun _ a b => decide (a.toInt < b.toInt))
  | .vcmpltu o => some (o, fun _ a b => decide (a.toNat < b.toNat))
  | .vcmple o => some (o, fun _ a b => decide (a.toInt ≤ b.toInt))
  | .vcmpleu o => some (o, fun _ a b => decide (a.toNat ≤ b.toNat))
  | _ => none

/-- The four bytes' products of a lane added to its addend, signed or not (R209). -/
def byteDots : Instr → Option (OpR4 × Bool × Bool)
  | .vdp4 o => some (o, true, false)
  | .vdp4u o => some (o, false, false)
  | .vdp4s o => some (o, true, true)
  | _ => none

/-- The exact value of lane `i` of a byte dot product (R209). -/
def dotOf (signed : Bool) (a b c : VReg) (i : Nat) : Int :=
  let byte (x : VReg) (j : Nat) : Int := if signed then (laneAt 8 x (4 * i + j)).toInt else (laneAt 8 x (4 * i + j)).toNat
  (if signed then (laneAt 32 c i).toInt else ((laneAt 32 c i).toNat : Int)) +
    byte a 0 * byte b 0 + byte a 1 * byte b 1 + byte a 2 * byte b 2 + byte a 3 * byte b 3

/-- A move whose result is a scalar register: the vector or mask register it reads, and its value (R148). -/
def toScalar : Instr → Option (Reg × (Reg ⊕ KReg) × (Thread → Dword))
  | .movvsD o => some (o.d, .inl o.a, fun t => laneAt 64 (vget o.a t.v) o.lane.toNat)
  | .movvsW o => some (o.d, .inl o.a, fun t => (laneAt 32 (vget o.a t.v) o.lane.toNat).setWidth 64)
  | .mvkg o => some (o.d, .inr (o.a.setWidth 3), fun t => vget (o.a.setWidth 3) t.k)
  | .kpop o => some (o.d, .inr (o.a.setWidth 3), fun t =>
      BitVec.ofNat 64 ((List.range 64).filter (fun i => (vget (o.a.setWidth 3 : KReg) t.k).getLsbD i)).length)
  | .kfirst o => some (o.d, .inr (o.a.setWidth 3), fun t =>
      BitVec.ofNat 64 (((List.range 64).find? (fun i => (vget (o.a.setWidth 3 : KReg) t.k).getLsbD i)).getD 64))
  | _ => none

/-- A move from a scalar register into lanes: their width, the lanes written (R148). -/
def toLanes : Instr → Option (Reg × Reg × Nat × (Nat → Bool))
  | .movsvD o => some (o.d, o.a, 64, fun i => i = o.lane.toNat)
  | .movsvW o => some (o.d, o.a, 32, fun i => i = o.lane.toNat)
  | .vbcastD o => some (o.d, o.a, 64, fun _ => true)
  | .vbcastW o => some (o.d, o.a, 32, fun _ => true)
  | .vbcastH o => some (o.d, o.a, 16, fun _ => true)
  | .vbcastB o => some (o.d, o.a, 8, fun _ => true)
  | _ => none

/-- A mask result from mask registers (R148). -/
def maskResult : Instr → Option (KReg × (Thread → Dword))
  | .kand o => some (o.d.setWidth 3, fun t => vget (o.a.setWidth 3) t.k &&& vget (o.b.setWidth 3) t.k)
  | .kor o => some (o.d.setWidth 3, fun t => vget (o.a.setWidth 3) t.k ||| vget (o.b.setWidth 3) t.k)
  | .kxor o => some (o.d.setWidth 3, fun t => vget (o.a.setWidth 3) t.k ^^^ vget (o.b.setWidth 3) t.k)
  | .kandn o => some (o.d.setWidth 3, fun t => vget (o.a.setWidth 3) t.k &&& ~~~(vget (o.b.setWidth 3) t.k))
  | .knot o => some (o.d.setWidth 3, fun t => ~~~(vget (o.a.setWidth 3 : KReg) t.k))
  | _ => none

/-! ## Floating lanes (R202, R205 to R208) -/

/-- The element format of a floating entry, none where its width or the FA given is not one of R202. -/
def formatOf (t : Thread) (w : BitVec 2) : Option FFmt :=
  match w.toNat, t.fmt.fa.map (·.toNat) with
  | 2, none | 2, some 22 => some fp32
  | 1, none | 1, some 20 => some bf16
  | 1, some 21 => some fp16
  | _, _ => none

/-- The rounding mode: the FMT's when it gives one, code 7 and no FMT meaning ST.RM (R89, R117, R202). -/
def modeOf (t : Thread) : RMode :=
  match t.fmt.rm with
  | some c => if c = 7 then RMode.ofCode (t.st.extractLsb' 16 3) else RMode.ofCode c
  | none => RMode.ofCode (t.st.extractLsb' 16 3)

/-- A floating lane instruction: destination, mask, width, sources, whether it rounds, and a lane's result with its flags from the
bits `y` and the values `x` of the lane of each register. -/
structure FloatOp where
  d : Reg
  k : KReg
  w : BitVec 2
  srcs : List Reg
  rounds : Bool
  val : FFmt → RMode → Word → (Reg → Nat) → (Reg → Machine.Num) → Nat × Flags

/-- The rounded results (R205, R206, R208). -/
def floatOp : Instr → Option FloatOp
  | .vfadd o => two o fun m x y => x.add m y
  | .vfsub o => two o fun m x y => x.add m y.negate
  | .vfmul o => two o fun _ x y => x.mul y
  | .vfdiv o => two o fun _ x y => x.div y
  | .vfmin o => bits2 o fun f x y => f.minNum x y
  | .vfmax o => bits2 o fun f x y => f.maxNum x y
  | .vfsqrt o => one o Machine.Num.sqrt
  | .vrcp o => one o fun x => (Machine.Num.ofInt 1).div x
  | .vrsq o => one o Machine.Num.rsqrt
  | .vexp2 o => one o Machine.Num.exp2
  | .vlog2 o => one o Machine.Num.log2
  | .vfabs o => sign o fun _ => false
  | .vfneg o => sign o fun n => !n
  | .vfmaW o => fused o 2 false false
  | .vfmsW o => fused o 2 false true
  | .vfnmaW o => fused o 2 true false
  | .vfnmsW o => fused o 2 true true
  | .vfmaH o => fused o 1 false false
  | .vfmsH o => fused o 1 false true
  | .vfnmaH o => fused o 1 true false
  | .vfnmsH o => fused o 1 true true
  | _ => none
where
  two (o : OpVv) (f : RMode → Machine.Num → Machine.Num → Machine.Num × Flags) : Option FloatOp :=
    some ⟨o.d, o.k, o.w, [o.a, o.b], true, fun fmt m u _ x => fmt.result m u (f m (x o.a) (x o.b))⟩
  bits2 (o : OpVv) (f : FFmt → Nat → Nat → Nat × Flags) : Option FloatOp :=
    some ⟨o.d, o.k, o.w, [o.a, o.b], false, fun fmt _ _ y _ => f fmt (y o.a) (y o.b)⟩
  one (o : OpVu) (f : Machine.Num → Machine.Num × Flags) : Option FloatOp :=
    some ⟨o.d, o.k, o.w, [o.a], true, fun fmt m u _ x => fmt.result m u (f (x o.a))⟩
  sign (o : OpVu) (f : Bool → Bool) : Option FloatOp :=
    some ⟨o.d, o.k, o.w, [o.a], false, fun fmt _ _ y x =>
      match x o.a with
      | .nan s => (fmt.nan, { nv := s })
      | v => (y o.a % 2 ^ (fmt.width - 1) + (if f v.neg then 2 ^ (fmt.width - 1) else 0), {})⟩
  fused (o : OpR4) (w : BitVec 2) (np nc : Bool) : Option FloatOp :=
    some ⟨o.d, 0, w, [o.a, o.b, o.c], true, fun fmt m u _ x =>
      fmt.result m u (Machine.Num.fma m (if np then (x o.a).negate else x o.a) (x o.b) (if nc then (x o.c).negate else x o.c))⟩

/-- A floating compare: its condition on values that are not NaN, what it gives when one is, and whether a quiet NaN raises NV (R207). -/
def floatCmp : Instr → Option (OpVv × (Machine.Num → Machine.Num → Bool) × Bool × Bool)
  | .vfcmpeq o => some (o, fun x y => x.eqv y, false, false)
  | .vfcmplt o => some (o, fun x y => x.lt y, false, true)
  | .vfcmple o => some (o, fun x y => x.lt y || x.eqv y, false, true)
  | .vfcmpun o => some (o, fun _ _ => false, true, false)
  | _ => none

/-- Flags of a list of lanes together (R92, R200). -/
def allFlags (l : List Flags) : Flags := l.foldl Flags.or Flags.none

/-- ST and DCTR after flags are raised and `n` draws are consumed: DW when the counter wraps (R92, R105). -/
def raised (t : Thread) (fl : Flags) (n : Nat) : Dword × Dword :=
  (t.st ||| fl.bits ||| (if 2 ^ 64 ≤ t.dctr.toNat + n then 0x80 else 0), t.dctr + BitVec.ofNat 64 n)

/-! ## Permutes, reductions and scans (R211 to R214) -/

/-- A permute: destination, source register fields, mask, width, and lane `i` of its result, for active lanes (R211, R212). -/
def permuted : Instr → Option (Reg × List Reg × KReg × BitVec 2 × (Thread → Nat → Nat))
  | .vperm o => some (o.d, [o.a, o.b], o.k, o.w, fun t i =>
      (laneAt (bitsOf o.w) (vget o.a t.v) ((laneAt (bitsOf o.w) (vget o.b t.v) i).toNat % (512 / bitsOf o.w))).toNat)
  | .vsldu o => some (o.d, [o.a], o.k, o.w, fun t i =>
      if o.b.toNat ≤ i then (laneAt (bitsOf o.w) (vget o.a t.v) (i - o.b.toNat)).toNat else 0)
  | .vsldd o => some (o.d, [o.a], o.k, o.w, fun t i =>
      if i + o.b.toNat < 512 / bitsOf o.w then (laneAt (bitsOf o.w) (vget o.a t.v) (i + o.b.toNat)).toNat else 0)
  | .vexpd o => some (o.d, [o.a], o.k, o.w, fun t i =>
      (laneAt (bitsOf o.w) (vget o.a t.v) (actives t o.k i).length).toNat)
  | .vscani o => some (o.d, [o.a], o.k, o.w, fun t i =>
      ((actives t o.k (i + 1)).map (fun j => (laneAt (bitsOf o.w) (vget o.a t.v) j).toNat)).sum % 2 ^ bitsOf o.w)
  | _ => none

/-- An integer reduction: the identity and the fold over the active lanes (R212). -/
def reduced : Instr → Option (OpVu × ((w : Nat) → List (BitVec w) → BitVec w))
  | .vredi o => some (o, fun w l => BitVec.ofNat w (l.map (·.toNat)).sum)
  | .vredmax o => some (o, fun w l => BitVec.ofInt w ((l.map (·.toInt)).foldl max (-2 ^ (w - 1))))
  | .vredmin o => some (o, fun w l => BitVec.ofInt w ((l.map (·.toInt)).foldl min (2 ^ (w - 1) - 1)))
  | .vredmaxu o => some (o, fun w l => BitVec.ofNat w ((l.map (·.toNat)).foldl max 0))
  | .vredminu o => some (o, fun w l => BitVec.ofNat w ((l.map (·.toNat)).foldl min (2 ^ w - 1)))
  | .vredor o => some (o, fun _ l => l.foldl (fun a b => a ||| b) 0)
  | _ => none

/-- Node `j` of level `l` of the pairwise tree over 2^k leaves, and the flags of its sums: a node with one child present is that child (R213). -/
def treeNode (add : Nat → Nat → Nat → Nat × Flags) (n : Nat) (leaf : Nat → Option Nat) : Nat → Nat → Option Nat × Flags
  | 0, j => (leaf j, Flags.none)
  | l + 1, j =>
    let x := treeNode add n leaf l (2 * j)
    let y := treeNode add n leaf l (2 * j + 1)
    match x.1, y.1 with
    | some a, some b =>
      let r := add (n - n / 2 ^ l + j) a b
      (some r.1, (x.2.or y.2).or r.2)
    | some a, none => (some a, x.2.or y.2)
    | none, some b => (some b, x.2.or y.2)
    | none, none => (none, x.2.or y.2)

/-- One lane more of a running sum: its value so far and its flags (R214). -/
def scanStep (fmt : FFmt) (mode : RMode) (t : Thread) (a : Reg) (acc : Option Nat × Flags) (i : Nat) : Option Nat × Flags :=
  let x := (laneAt fmt.width (vget a t.v) i).toNat
  match acc.1 with
  | none => (some (if (fmt.decode x).isNan then fmt.nan else x), acc.2.or { nv := (fmt.decode x).snan })
  | some y =>
    let r := fmt.result mode (if mode = .sr then t.word (i - 1) else 0) ((fmt.decode y).add mode (fmt.decode x))
    (some r.1, acc.2.or r.2)

/-- The running sum of the active lanes among the first `n`, in lane order, with its flags (R214). -/
def scanned (fmt : FFmt) (mode : RMode) (t : Thread) (a : Reg) (k : KReg) (n : Nat) : Option Nat × Flags :=
  (actives t k n).foldl (scanStep fmt mode t a) (none, Flags.none)

/-! ## Conversions, packing and quantisation (R215 to R221) -/

/-- The FMT's formats, FA then FB, when both are given. -/
def formats (t : Thread) : Option (Nat × Nat) :=
  match t.fmt.fa, t.fmt.fb with
  | some a, some b => some (a.toNat, b.toNat)
  | _, _ => none

/-- The mode of a conversion with a rounding field of its own, which the FMT's overrides (R215). -/
def modeOr (t : Thread) (own : BitVec 3) : RMode :=
  match t.fmt.rm with
  | some _ => modeOf t
  | none => if own = 7 then RMode.ofCode (t.st.extractLsb' 16 3) else RMode.ofCode own

/-- A packing instruction: its fields, the format code it packs to or from, and whether it unpacks (R218). -/
def packing (t : Thread) : Instr → Option (OpVp × Nat × Bool)
  | .vpk o => t.fmt.fb.map (fun c => (o, c.toNat, false))
  | .vunp o => t.fmt.fa.map (fun c => (o, c.toNat, true))
  | .vtpk o => some (o, 12, false)
  | .vtun o => some (o, 12, true)
  | _ => none

/-- The blocks of slot `p` of a scaled format: first element, elements, scale byte (R219). -/
def blocks (code p : Nat) : List (Nat × Nat × Nat) :=
  if code = 10 ∨ code = 11 then [(0, 16, 2 * p), (16, 16, 2 * p + 1)] else [(0, 32, p)]

/-- Element `e` of the 32 floating elements that start at a register: a pair of registers for FP32 (R219). -/
def floatElem (t : Thread) (code : Nat) (r : Reg) (e : Nat) : Machine.Num :=
  if code = 22 then fp32.decode (laneAt 32 (vget (if e < 16 then r else r + 1) t.v) (e % 16)).toNat
  else (if code = 21 then fp16 else bf16).decode (laneAt 16 (vget r t.v) e).toNat

end Sys2Proof.Spec
end

