-- ==== Sys2Proof/Spec/Memory.lean ====
section
/-! DEFINITION. The terms of the statements about memory instructions: a thread with nothing under way, local addresses, what a
result that returned leaves, the full/empty operations and the atomic functions as the rules R170 to R186 give them. -/

namespace Sys2Proof.Spec

open Sys2Proof.Machine

/-! ## Where an instruction starts -/

/-- A READY thread of a core with no result pending, no store combining and no streamed operation unacknowledged, and no wait held at
any home. -/
def Calm (s : State) : Prop :=
  s.me.status = .ready ∧ s.me.pend = [] ∧ s.me.quitting = false ∧ s.me.waitFrom = 0 ∧ s.myCore.combine = [] ∧
    (∀ n, (s.me.stream n).unacked = []) ∧ s.waiters = [] ∧ (epUnit s.issue.ep).toNat < 512

/-- An aligned address of the thread's crew allocation, and the physical address of the core's granary bank that it names (R15, R32,
R49, R170). -/
def LocalAt (s : State) (va : Dword) (size pa : Nat) : Prop :=
  va.getLsbD 63 = true ∧ va.toNat % size = 0 ∧ s.me.cgb.toNat + va.toNat % 2 ^ 63 + size ≤ s.me.cgl.toNat ∧ s.me.cgl.toNat ≤ 2 ^ 23 ∧
    s.me.cgb.toNat % 128 = 0 ∧
    pa = (epPkg s.issue.ep).toNat * 2 ^ 44 + 2 ^ 40 + (epDie s.issue.ep).toNat * 2 ^ 32 + (epUnit s.issue.ep).toNat * 2 ^ 23 +
      s.me.cgb.toNat + va.toNat % 2 ^ 63

/-- The address that a cached leaf gives (R53). -/
def leafGives (e : TlbEntry) (va : Dword) : Nat :=
  let pkg := (e.leaf.extractLsb' 52 10).toNat
  if e.level = 3 then (pkg + (va.extractLsb' 40 2).toNat) * 2 ^ 44 + va.toNat % 2 ^ 40
  else pkg * 2 ^ 44 + (e.leaf.extractLsb' 16 28).toNat * 2 ^ 16 + va.toNat % (if e.level = 2 then 2 ^ 29 else 2 ^ 16)

/-- An aligned global address that a leaf in the cache of the thread's die maps and permits, in a package that exists and at another home than the
thread's own core; the function of its launch takes an access to host memory (R14, R49, R53, R55, R314). -/
def GlobalAt (s : State) (va : Dword) (size : Nat) (a : Access) (pa : Nat) : Prop :=
  let need := match a with | .read => 1 | .write => 2 | .atomic => 7
  va.extractLsb' 55 9 = 0 ∧ va.toNat % size = 0 ∧ (paPkg pa).toNat < (s.pkg (epPkg s.issue.ep)).npkg ∧ homeEp pa ≠ s.issue.ep ∧
    s.hostBars (lidQueue s.me.lid) pa a = false ∧
    ∃ e, (s.die (epPkg s.issue.ep) (epDie s.issue.ep)).lookup s.me.asid va = some e ∧ Nat.land need (e.leaf.extractLsb' 2 3).toNat = need ∧ pa = leafGives e va

/-- A stream of the issuing thread that no session uses. -/
def FreshStream (s : State) (n : BitVec 3) : Prop :=
  (s.me.stream n).opened = false ∧ (s.me.stream n).bound = false ∧ (s.me.stream n).err = false

/-- The word leaves one packet for an address's home on the way, and memory and the registers as they were (R51, R61). -/
def SendsHome (i : Instr) (s t : State) (p : Packet) (pa : Nat) : Prop :=
  exec i s = .next t ∧ t.me.pc = s.issue.next ∧ t.net = s.net ++ [p] ∧ p.dst = homeEp pa ∧ p.src = s.issue.ep ∧ p.ctx = s.issue.ctx ∧ t.mem = s.mem ∧
    (∀ r, t.me.getG r = s.me.getG r) ∧ t.me.v = s.me.v ∧ t.waiters = s.waiters ∧ OtherThreadsSame s t s.issue.ep s.issue.ctx

/-- No dword of a range carries the poison mark. -/
def Clean (m : Memory) (pa size : Nat) : Prop := ∀ i < size, m.poisoned (pa + i) = false

/-- The effective address of a CM instruction: base plus its offset, widened by a pending EXT, in units of `size` (R116, R170). -/
def address (s : State) (b : Reg) (off : BitVec 7) (size : Nat) : Dword := s.me.getG b + BitVec.ofInt 64 (extended s.me off * size)

/-! ## Where a long-latency instruction ends -/

/-- A thread whose instruction left a result pending that has returned: the PC moved on, XD clear, the shadow count its LA, and the
thread parked since issue when that was 0 (R39, R40). `u` has the register the result went to. -/
def longEnded (s : State) (la : Nat) (why : ParkReason) (u : Thread) : Thread :=
  { u with
    pc := s.issue.next, st := u.st &&& ~~~0x400000#64, shadow := la, nextId := s.me.nextId + 1, walkFault := none, pend := [],
    status := if la = 0 then .parked why else .ready, wait := if la = 0 then .pendingAll else .none }

/-- The event in which the result that the thread's word left pending is performed at its core's own bank, or cluster unit, and
returns (R24, R59, R71). -/
def returns (s t : State) : Out := exec .resultReturn { t with ev := { ep := s.issue.ep, ctx := s.issue.ctx, id := s.me.nextId } }

/-- The word issues, and its result returns with nothing between: the last state. -/
def IssuesAndReturns (i : Instr) (s u : State) : Prop := ∃ t, exec i s = .next t ∧ t.me.pc = s.issue.next ∧ returns s t = .next u

/-- The record that the word's thread has read at an address, and that has returned (R234, R268). -/
def HasRecord (s : State) (va : Dword) (r : List Dword) : Prop := s.me.record = some { pc := s.issue.pc, va := va, dwords := r }

/-- The word first reads a record of `n` dwords: it does not issue, its thread parks with reason fill until the read, performed at the core's own
bank, has returned, and the thread then has the record; nothing else has changed (R39, R234, R268). -/
def ReadsRecord (i : Instr) (s : State) (va : Dword) (src n : Nat) : Prop :=
  ∃ t u, exec i s = .next t ∧ t.issue.fate = .parked ∧ t.me.pc = s.me.pc ∧ t.me.status = .parked .fill ∧ returns s t = .next u ∧
    u.me = { s.me with
      status := .parked .fill, wait := .pendingAll, nextId := s.me.nextId + 1
      record := some { pc := s.issue.pc, va := va, dwords := (List.range n).map (fun i => BitVec.ofNat 64 (s.mem.read (src + 8 * i) 8)) } } ∧
    SameOutside s u ∧ OtherThreadsSame s u s.issue.ep s.issue.ctx

/-- Every byte, full/empty bit and poison mark outside a range of bytes is as it was. -/
def OnlyBytes (m m' : Memory) (pa size : Nat) : Prop :=
  (∀ a, a < pa ∨ pa + size ≤ a → m'.byte a = m.byte a) ∧
    (∀ a, a / 8 < pa / 8 ∨ (pa + size - 1) / 8 < a / 8 → m'.isFull a = m.isFull a ∧ m'.poisoned a = m.poisoned a)

/-- Nothing outside memory and the issuing core has changed. -/
def SameBeside (s t : State) : Prop :=
  t.pkgs = s.pkgs ∧ t.tables = s.tables ∧ t.waiters = s.waiters ∧ t.launches = s.launches ∧ t.net = s.net ∧ t.spawns = s.spawns ∧
    t.arrivals = s.arrivals ∧ t.mesh = s.mesh ∧ t.stamp = s.stamp ∧ t.free = s.free

/-! ## Loads and stores (R174 to R178) -/

/-- A load of a scalar or of a vector: base register and offset, size, LA, the registers that must be ready, and the thread with the
loaded bytes in its destination (R174, R176). -/
def loadOf : Instr → Option (Reg × BitVec 7 × Nat × BitVec 4 × List Reg × List Reg × (Thread → Nat → Thread))
  | .ld o | .ldX o => some (o.b, o.off, 2 ^ o.sz.toNat, o.la, [o.b, o.d], [], fun t x => t.setG o.d (BitVec.ofNat 64 x))
  | .vld o | .vldX o => some (o.b, o.off, 64, o.la, [o.b], [o.d], fun t x => t.setV o.d (BitVec.ofNat 512 x))
  | _ => none

/-- A store: base register and offset, size, stream, LA, registers, and the bytes it stores (R175, R176). -/
def storeOf : Instr → Option (Reg × BitVec 7 × Nat × BitVec 3 × BitVec 4 × List Reg × List Reg × (Thread → Nat))
  | .st o => some (o.b, o.off, 2 ^ o.sz.toNat, o.strm, o.la, [o.b, o.d], [], fun t => (t.getG o.d).toNat % 2 ^ (8 * 2 ^ o.sz.toNat))
  | .vst o => some (o.b, o.off, 64, o.strm, o.la, [o.b], [o.d], fun t => (vget o.d t.v).toNat)
  | _ => none

/-- A gather or scatter: its fields, lanes, element bytes and whether it stores (R177). -/
def gatherOf : Instr → Option (OpGs × Nat × Nat × Bool)
  | .vgldW o => some (o, 16, 4, false)
  | .vgldD o => some (o, 8, 8, false)
  | .vgstW o => some (o, 16, 4, true)
  | .vgstD o => some (o, 8, 8, true)
  | _ => none

/-- The address of lane `l` of a gather or scatter (R178). -/
def laneAddress (s : State) (o : OpGs) (size l : Nat) : Dword :=
  s.me.getG o.b + BitVec.ofInt 64 ((laneAt 32 (vget o.i s.me.v) l).toInt * size)

/-! ## Full/empty operations (R180) -/

/-- A full/empty operation: its address register, LA, register fields, destination, and what it does to a dword with its bit: whether its
condition holds, the value read, the dword and the bit after (R180). -/
def feOf : Instr → Option (Reg × BitVec 4 × List Reg × Reg × (Thread → Bool → Dword → Bool × Dword × Dword × Bool))
  | .ldf o => some (o.b, o.la, [o.b, o.c, o.d], o.d, fun _ f v => (f, v, v, false))
  | .ldff o => some (o.b, o.la, [o.b, o.c, o.d], o.d, fun _ f v => (f, v, v, f))
  | .waita o => some (o.b, o.la, [o.b, o.c, o.d], o.d, fun t f v => (f && decide ((t.getG o.c).toInt ≤ v.toInt), v, v, f))
  | .stf o => some (o.b, o.la, [o.d, o.b], 0, fun t f _ => (!f, 0, t.getG o.d, true))
  | .stff o => some (o.b, o.la, [o.d, o.b], 0, fun t _ _ => (true, 0, t.getG o.d, true))
  | .sete o => some (o.b, o.la, [o.b], 0, fun _ _ v => (true, 0, v, false))
  | .qfe o => some (o.b, o.la, [o.b, o.d], o.d, fun _ f v => (true, if f then 1 else 0, v, f))
  | _ => none

/-! ## Atomics (R182 to R186) -/

/-- The sum of two binary32 or bfloat16 numbers to nearest even (R184). -/
def sumOf (f : FFmt) (x y : Nat) : Nat := (f.result .rne 0 ((f.decode x).add .rne (f.decode y))).1

/-- The sum of each half (R184). -/
def sumPair (f : FFmt) (x y : Nat) : Nat :=
  sumOf f (x % 2 ^ f.width) (y % 2 ^ f.width) + 2 ^ f.width * sumOf f (x / 2 ^ f.width) (y / 2 ^ f.width)

/-- The greater or the smaller number of two binary32 values, +0 above −0; a NaN gives way to a number, and two give the canonical NaN
(R87, R184). -/
def extremeOf (greater : Bool) (x y : Nat) : Nat :=
  let a := fp32.decode x
  let b := fp32.decode y
  let below : Bool := a.lt b || (a.eqv b && a.neg)
  if a.isNan && b.isNan then fp32.nan
  else if a.isNan then y
  else if b.isNan then x
  else if below = greater then y
  else x

/-- A package of the issuing thread's ring, as SYSCFG names it (R71, R318). -/
def InRing (s : State) (p : Pkg) : Prop :=
  let x := (s.pkg (epPkg s.issue.ep)).syscfg
  (x.extractLsb' 32 10).toNat ≤ p.toNat ∧ p.toNat ≤ (x.extractLsb' 32 10).toNat + (x.extractLsb' 48 5).toNat

/-- The issuing thread is of a co-resident launch and slot 0 of its GMS names a group of it that is neither empty nor 255 (R42, R71, R72). -/
def HasGroup (s : State) : Prop :=
  s.me.corun = true ∧ s.me.gms.getLsbD 32 = true ∧ s.me.gms.extractLsb' 0 8 ≠ 255 ∧
    ∃ l, s.launch? s.me.home s.me.lid = some l ∧ l.counts.getD (s.me.gms.extractLsb' 0 8).toNat 0 ≠ 0

/-- An atomic: destination, address and operand registers, scope, stream, bytes, and the new value from the old one and the operand as
unsigned numbers; `e` is the expected value (R182 to R185). -/
def atomicOf : Instr → Option (Reg × Reg × Reg × BitVec 4 × BitVec 3 × Nat × (Nat → Nat → Nat → Nat))
  | .aadd o => int o fun n old x => (old + x) % 2 ^ n
  | .aand o => int o fun _ old x => old &&& x
  | .aor o => int o fun _ old x => old ||| x
  | .axor o => int o fun _ old x => old ^^^ x
  | .amin o => int o fun n old x => if Int.bmod x (2 ^ n) < Int.bmod old (2 ^ n) then x else old
  | .amax o => int o fun n old x => if Int.bmod old (2 ^ n) < Int.bmod x (2 ^ n) then x else old
  | .aminn o => int o fun _ old x => min old x
  | .amaxn o => int o fun _ old x => max old x
  | .aswp o => int o fun _ _ x => x
  | .acas o => some (o.d, o.b, o.a, o.sc, o.strm, width o.w, fun old x e => if old = e % 2 ^ (8 * width o.w) then x else old)
  | .afadd o => float o fun old x => sumOf fp32 old x
  | .afadd2 o => int o fun n old x => if n = 32 then sumPair bf16 old x else sumPair fp32 old x
  | .afmax o => float o fun old x => extremeOf true old x
  | .afmin o => float o fun old x => extremeOf false old x
  | .sig o => some (0, o.b, o.a, o.sc, o.strm, 8, fun old x _ => (old + x) % 2 ^ 64)
  | _ => none
where
  width (w : BitVec 1) : Nat := if w = 0 then 4 else 8
  int (o : OpAtomic) (f : Nat → Nat → Nat → Nat) : Option (Reg × Reg × Reg × BitVec 4 × BitVec 3 × Nat × (Nat → Nat → Nat → Nat)) :=
    some (o.d, o.b, o.a, o.sc, o.strm, width o.w, fun old x _ => f (8 * width o.w) old x)
  float (o : OpAtomicF) (f : Nat → Nat → Nat) : Option (Reg × Reg × Reg × BitVec 4 × BitVec 3 × Nat × (Nat → Nat → Nat → Nat)) :=
    some (o.d, o.b, o.a, o.sc, o.strm, 4, fun old x _ => f old x)

end Sys2Proof.Spec
end

