-- ==== Sys2Proof/Spec/Engines.lean ====
section
/-! DEFINITION. The terms of the statements about the copy and matrix engines: the commands of majors CPE and MXE, and the exact sum
of one K-step (R98, R99, R223, R248). -/

namespace Sys2Proof.Spec

open Sys2Proof.Machine

/-- A copy command: its fields, its eop and the registers of its operand block (R223). -/
def copyOf : Instr → Option (OpCopy × Nat × Nat)
  | .cpy o => some (o, 0, 3)
  | .cpys o => some (o, 1, 6)
  | .cpf o => some (o, 2, 3)
  | .tld o => some (o, 3, 3)
  | .tst o => some (o, 4, 3)
  | .gth o => some (o, 5, 4)
  | .sct o => some (o, 6, 4)
  | .scta o => some (o, 7, 4)
  | .cpz o => some (o, 8, 5)
  | .cpx o => some (o, 9, 4)
  | .hist o => some (o, 10, 3)
  | .tbld o => some (o, 11, 2)
  | .tern o => some (o, 12, 5)
  | _ => none

/-- The values of a copy command's operand block. -/
def blockOf (s : State) (o : OpCopy) (n : Nat) : List Dword := (List.range n).map (fun j => s.me.getG (o.o1 + BitVec.ofNat 5 j))

/-- A matrix command: its eop, accumulator, LA, the scalar registers it reads, and the values it takes at issue as address or step count
and as control word (R248, R251, R254, R255). -/
def matrixOf : Instr → Option (Nat × BitVec 2 × BitVec 4 × List Reg × (Thread → Dword × Dword))
  | .mmt o => some (0, o.m, o.la, [o.o1], fun t => (t.getG o.o1, 0))
  | .mmtz o => some (1, o.m, o.la, [o.o1], fun t => (t.getG o.o1, 0))
  | .mdr o => some (2, o.m, o.la, [o.o1, o.o3], fun t => (t.getG o.o1, t.getG o.o3))
  | .mld o => some (3, o.m, o.la, [o.b], fun t => (t.getG o.b, 0))
  | .mst o => some (4, o.m, o.la, [o.b], fun t => (t.getG o.b, 0))
  | .mclr o => some (5, o.m, o.la, [], fun _ => (0, 0))
  | _ => none

/-- What R251, R254 and R255 check of a matrix command before it is queued. -/
def matrixFits (s : State) : Instr → Bool
  | .mmt o | .mmtz o => decide (o.o2.toNat < 8) && decide (o.o3.toNat < 8) && (s.mmtStop (fld o.o2 0 3) (fld o.o3 0 3)).isNone
  | .mdr o => s.mdrStop.isNone &&
      (s.drainStop (s.me.getG o.o1) (s.me.getG o.o3) ((drainBits (s.me.fmt.fb.getD 0).toNat).getD 8)).isNone
  | .mld o | .mst o => (s.tileStop (s.me.getG o.b)).isNone
  | _ => true

/-! ## Commands at work -/

/-- A command's own crew holds its allocation of the core, and nothing stops it (R32, R36, R257). -/
def OwnCrew (s : State) (ep : Ep) (home : Pkg) (lid : Lid) (base limit : BitVec 24) : Prop :=
  ∃ w, (s.core ep).crews = [w] ∧ w.home = home ∧ w.lid = lid ∧ w.base = base ∧ w.limit = limit ∧ w.preempt = none ∧ w.parkedIn = false ∧
    w.owed = []

/-- A core's one copy command, of the crew there, with no session, read or write under way and no unit done out of order. -/
def OnlyCopy (s : State) (ep : Ep) (k : CopyCmd) : Prop :=
  (s.core ep).copies = [k] ∧ OwnCrew s ep k.home k.lid k.cgb k.cgl ∧ k.ahead = [] ∧ k.streams = [] ∧ k.buf = [] ∧ k.reads = [] ∧ k.puts = [] ∧ k.tail = [] ∧
    (s.pkg (epPkg ep)).halted = false ∧ s.waiters = [] ∧ (epUnit ep).toNat < 512 ∧ k.cgl.toNat ≤ 2 ^ 23 ∧ k.cgb.toNat % 128 = 0 ∧ k.total < 2 ^ 40

/-- Such a command to memory that waits in its queue, with nothing done (R224). -/
def LoneCopy (s : State) (ep : Ep) (k : CopyCmd) : Prop :=
  OnlyCopy s ep k ∧ k.phase = .queued ∧ k.next = 0 ∧ k.got = [] ∧ k.after = [] ∧ k.ring = none ∧ k.ended = false ∧ k.flags = 0 ∧ (s.core ep).closes = []

/-- Such a command to memory at one of its units, a TLD or TST with its shape record (R225, R228, R234). -/
def LoneRunning (s : State) (ep : Ep) (k : CopyCmd) : Prop :=
  OnlyCopy s ep k ∧ k.phase = .running ∧ k.ring = none ∧ k.next < k.total ∧ (k.eop = 3 ∨ k.eop = 4 → k.record ≠ [])

/-- A range of bytes at a local address of a command's crew, and where it lies in the core's bank (R32, R226). -/
def CrewAt (ep : Ep) (k : CopyCmd) (va size pa : Nat) : Prop :=
  2 ^ 63 ≤ va ∧ va < 2 ^ 64 ∧ k.cgb.toNat + (va - 2 ^ 63) + size ≤ k.cgl.toNat ∧ pa = granaryPa ep (k.cgb.toNat + (va - 2 ^ 63))

/-- The state in which an event names a core's command. -/
def naming (s : State) (ep : Ep) (id n : Nat) : State := { s with ev := { ep := ep, id := id, n := n } }

/-- The state in which an event names actions of a core's command: a unit by its number, a write yet to make from 2^60 on (log 9). -/
def acting (s : State) (ep : Ep) (id : Nat) (parts : List Nat) : State := { s with ev := { ep := ep, id := id, parts := parts } }

/-- A lone command starts, does its units in order, of each a read, the work and a write, and completes. -/
def CopyRuns (s : State) (ep : Ep) (k : CopyCmd) (u : State) : Prop :=
  ∃ t1 t2, exec .copyStart (naming s ep k.id 0) = .next t1 ∧ exec .copyStart (naming t1 ep k.id (3 * k.total - 1)) = .next t2 ∧
    exec .copyComplete (naming t2 ep k.id 0) = .next u

/-- Operand `i` of a command's block, as a number. -/
def opOf (k : CopyCmd) (i : Nat) : Nat := (k.ops.getD i 0).toNat

/-- For a unit, a command has read `n` bytes at an address, none of them marked: as one number, `x` (R59, R227). -/
def Fetched (k : CopyCmd) (key va n x : Nat) : Prop :=
  x < 2 ^ (8 * n) ∧ ∀ j < n, ∃ f, k.fetched key ((va + j) / 8 * 8 % 2 ^ 64) = some f ∧ f.marked = false ∧ f.value < 2 ^ 64 ∧
    x / 2 ^ (8 * j) % 256 = f.value / 2 ^ (8 * ((va + j) % 8)) % 256

/-- A command does its next unit and makes the writes of it, at most `c`: the state then, in which nothing has gone to the network. -/
def UnitDone (s : State) (ep : Ep) (k : CopyCmd) (c : Nat) (p : State → CopyCmd → Prop) : Prop :=
  ∃ u k', exec .copyStart (acting s ep k.id (k.next :: List.replicate c (2 ^ 60))) = .next u ∧ (u.core ep).copies = [k'] ∧ k'.next = k.next + 1 ∧
    k'.puts = [] ∧ k'.phase = .running ∧ u.net = s.net ∧ p u k'

/-- Where row `i` of a tile lies in the tensor, and the row's scale bytes, when the tensor has it (R233, R235, R236). -/
def tensorRow (k : CopyCmd) (i : Nat) : Option (Nat × Nat) :=
  let r := fun (j : Nat) => (k.record.getD j 0).toNat
  let row := opOf k 2 % 2 ^ 32 + i
  let c := opOf k 2 / 2 ^ 32
  if row < r 1 / 2 ^ 32 ∧ c < r 1 % 2 ^ 32 then
    some (r 0 + row * (r 2 % 2 ^ 40) + 128 * c, r 4 + row * (r 5 % 2 ^ 40) + c * (r 3 / 2 ^ 16 % 2 ^ 8))
  else none

/-- Where TST writes scale byte `q` of a tile, when it does (R233, R236). -/
def scaleByte (k : CopyCmd) (q : Nat) : Option Nat :=
  let nb := (k.record.getD 3 0).toNat / 2 ^ 16 % 2 ^ 8
  if q < 16 * nb then (tensorRow k (q / nb)).map (fun a => (a.2 + q % nb) % 2 ^ 64) else none

/-- Scale byte `q` is the last of the tile's that TST writes at an address, in the order of R236. -/
def LastScale (k : CopyCmd) (q a : Nat) : Prop := scaleByte k q = some a ∧ ∀ m, q < m → scaleByte k m ≠ some a

/-- The addresses a unit of CPY, CPYS, TLD or TST moves a dword from and to, where it moves one (R228, R236). -/
def moved (k : CopyCmd) (i : Nat) : Option (Nat × Nat) :=
  match k.eop.toNat with
  | 0 => some (opOf k 1 + 8 * i, opOf k 0 + 8 * i)
  | 1 => some (opOf k 1 + 8 * i / opOf k 2 * opOf k 5 + 8 * i % opOf k 2, opOf k 0 + 8 * i / opOf k 2 * opOf k 4 + 8 * i % opOf k 2)
  | 3 => if i < 256 then (tensorRow k (i / 16)).map (fun a => (a.1 + 8 * (i % 16), opOf k 0 + 8 * i)) else none
  | 4 => if i < 256 then (tensorRow k (i / 16)).map (fun a => (opOf k 0 + 8 * i, a.1 + 8 * (i % 16))) else none
  | _ => none

/-- The key under which such a unit's dwords are read: its own, or one that the units share of whose dwords several take a part (R74; log 79). -/
def movedKey (k : CopyCmd) (i : Nat) : Nat :=
  match k.eop.toNat with
  | 3 => k.total + 1
  | 4 => k.total
  | _ => i

/-- The command fails at a block with a codec check's reason, and has written nothing (R227, R245, R274). -/
def FailsCheck (s : State) (ep : Ep) (k : CopyCmd) (block reason : Nat) : Prop :=
  ∃ u k' r, exec .copyStart (acting s ep k.id [k.next]) = .next u ∧ (u.core ep).copies = [k'] ∧ k'.phase = .failed ∧ k'.fault = some r ∧ r.kind = 5 ∧
    r.aux0 = BitVec.ofNat 64 block ∧ r.aux1 = BitVec.ofNat 64 reason ∧ u.mem = s.mem

/-- The sum an SCTA operand leaves, by OP (R184, R238). -/
def scatterSum (op old x : Nat) : Nat :=
  match op with
  | 0 => (old + x) % 2 ^ 32
  | 1 => (old + x) % 2 ^ 64
  | 2 => sumOf fp32 old x
  | _ => sumPair bf16 old x

/-- A range of bytes holds a list of bytes. -/
def HoldsBytes (m : Memory) (pa : Nat) (l : List Nat) : Prop := ∀ j < l.length, m.byte (pa + j) = BitVec.ofNat 8 (l.getD j 0)

/-- A core's one matrix command, of the crew there, with no damaged entry and no dword of it performed (R249, R257, R284). -/
def OnlyMatrix (s : State) (ep : Ep) (m : MxCmd) (b l : BitVec 24) : Prop :=
  (s.core ep).mq = [m] ∧ OwnCrew s ep m.home m.lid b l ∧ m.units = [] ∧ m.got = [] ∧ m.ended = false ∧ (s.core ep).badRegs = [] ∧
    (s.pkg (epPkg ep)).halted = false ∧ s.waiters = [] ∧ (epUnit ep).toNat < 512 ∧ b.toNat % 128 = 0 ∧ l.toNat ≤ 2 ^ 23 ∧ s.ev.ep = ep ∧ s.ev.parts = []

/-- MATRIX_START makes a command run, with nothing else changed, and MATRIX_STEP performs all its dwords and takes it from the queue
(R249, R255, R256). -/
def TileRuns (s : State) (ep : Ep) (m : MxCmd) (u : State) : Prop :=
  ∃ t, exec .matrixStart s = .next t ∧ (t.core ep).mq = [{ m with phase := .running }] ∧ t.mem = s.mem ∧ (t.core ep).acc = (s.core ep).acc ∧
    exec .matrixStep t = .next u ∧ (u.core ep).mq = []

/-- Elements of a 128-byte row of a matrix operand, and of one of its scale blocks, 0 for a format without scales (R82, R83). -/
def rowShape (code : Nat) : Nat × Nat :=
  match code with
  | 0 | 1 => (128, 0)
  | 2 => (64, 0)
  | 3 => (160, 0)
  | 4 | 5 | 16 => (256, 0)
  | 6 | 13 => (512, 0)
  | 7 => (128, 32)
  | 8 => (160, 32)
  | 9 | 18 => (256, 32)
  | 10 => (128, 16)
  | 11 => (256, 16)
  | 12 => (640, 128)
  | 14 => (1024, 0)
  | 15 => (336, 0)
  | 17 => (192, 0)
  | _ => (192, 32)

/-- A value rounded once to a whole number and limited to a range: the number, whether rounding changed it, whether the limit did (R90, R94, R96). -/
def wholeIn (mode : RMode) (u : Word) (lo hi : Int) (neg : Bool) (m : Nat) (e : Int) (more : Bool) : Int × Bool × Bool :=
  let r := roundTo mode neg m e 0 more u
  let v : Int := if neg then -(r.1 : Int) else r.1
  let c := max lo (min hi v)
  (c, r.2, decide (c ≠ v))

/-- Width and fraction shift of a scaled output format (R81, R96). -/
def scaledShape (code : Nat) : Nat × Nat :=
  match code with
  | 7 => (8, 6)
  | 8 => (6, 4)
  | 9 => (4, 2)
  | 10 => (8, 0)
  | _ => (4, 0)

/-- The floating output format of a code (R81, R87). -/
def floatCode (code : Nat) : Option FFmt :=
  match code with
  | 20 => some bf16
  | 21 => some fp16
  | 22 => some fp32
  | 23 => some e4m3
  | 24 => some e5m2
  | _ => none

/-- What a drain writes for an accumulator element of value `x` × 2^-16, with its flags: the exact product with its column's scale, an FP32 value or 1, rounded
once, to a scaled format under the block scale `block`, to a floating format, or to an integer format of `w` bits (R94, R96, R102, R254). A finite product
outside an integer format saturates with SA (notes/assumptions/85.md). -/
def drained (code w : Nat) (mode : RMode) (u : Word) (x : BitVec 48) (scale : Option Nat) (block : Nat) : Nat × Flags :=
  let p := (Machine.Num.fin (decide (x.toInt < 0)) x.toInt.natAbs (-16) false).mul (match scale with | some y => fp32.decode y | none => .fin false 1 0 false)
  if 7 ≤ code ∧ code ≤ 11 then
    let (n, f) := scaledShape code
    match p.1 with
    | .fin neg m e more =>
      if block = 0xFF then (0, { nv := true })
      else
        let (c, nx, sa) := wholeIn mode u (-(2 ^ (n - 1) - 1)) (2 ^ (n - 1) - 1) neg m (e + f + 127 - block) more
        ((c % 2 ^ n).toNat, { nx := nx, sa := sa })
    | _ => (0, { nv := true })
  else match floatCode code with
    | some g => g.result mode u p
    | none =>
      let unsigned := code = 1 ∨ code = 5
      let lo : Int := if unsigned then 0 else -2 ^ (w - 1)
      let hi : Int := if unsigned then 2 ^ w - 1 else 2 ^ (w - 1) - 1
      match p.1 with
      | .nan _ => (0, { nv := true })
      | .inf neg => ((if neg then lo % 2 ^ w else hi % 2 ^ w).toNat, { nv := true })
      | .fin neg m e more =>
        let (c, nx, sa) := wholeIn mode u lo hi neg m e more
        ((c % 2 ^ w).toNat, { nx := nx, sa := sa })

/-- A field of `w` bits as a signed number. -/
def signedAt (row w pos : Nat) : Int :=
  let x := row / 2 ^ pos % 2 ^ w
  if x < 2 ^ (w - 1) then x else (x : Int) - 2 ^ w

/-- A field of `w` bits as a sign above a logarithmic magnitude (R84). -/
def logAt (row w pos : Nat) : Int :=
  let x := row / 2 ^ pos % 2 ^ w
  let m := x % 2 ^ (w - 1)
  if m = 0 then 0 else if x < 2 ^ (w - 1) then 2 ^ (m - 1) else -(2 ^ (m - 1))

/-- Element `n` of a row read as an integer (R81, R82, R84, R85). -/
def rowValue (code row n : Nat) : Int :=
  match code with
  | 0 | 7 | 10 => signedAt row 8 (8 * n)
  | 1 => (row / 2 ^ (8 * n) % 2 ^ 8 : Nat)
  | 2 => signedAt row 16 (16 * n)
  | 3 | 8 => signedAt row 6 (6 * n)
  | 4 | 9 | 11 => signedAt row 4 (4 * n)
  | 5 => (row / 2 ^ (4 * n) % 2 ^ 4 : Nat)
  | 6 => signedAt row 2 (2 * n)
  | 12 =>
    let v := row / 2 ^ (8 * (n / 5)) % 2 ^ 8
    if v < 243 then ((v / 3 ^ (n % 5) % 3 : Nat) : Int) - 1 else 0
  | 13 => if row / 2 ^ (2 * n) % 4 = 1 then 1 else if row / 2 ^ (2 * n) % 4 = 3 then -1 else 0
  | 14 => if row / 2 ^ n % 2 = 0 then 1 else -1
  | 15 => logAt row 3 (64 * (n / 21) + 3 * (n % 21))
  | 16 | 18 => logAt row 4 (4 * n)
  | _ => logAt row 5 (64 * (n / 12) + 5 * (n % 12))

/-- Element `n` of a row is an invalid code of T5 or T2 (R84, R85). -/
def rowInvalid (code row n : Nat) : Prop :=
  (code = 12 ∧ 243 ≤ row / 2 ^ (8 * (n / 5)) % 2 ^ 8) ∨ (code = 13 ∧ row / 2 ^ (2 * n) % 4 = 2)

/-- One side of a K-step: its format, whether its ring has scales, where tile `t` from its HEAD lies, and the step's first element there (R251). -/
structure Side where
  code : Nat
  scaled : Bool
  tile : Nat → Nat
  pos : Nat

/-- A ring as one side of a step (R230). -/
def sideOf (ep : Ep) (base : BitVec 24) (ring : Dword) (pos : Nat) : Side :=
  { code := ringFmt ring, scaled := ringSc ring, pos := pos, tile := fun t => granaryPa ep (base.toNat + tileOffset ring (ringHead ring + t) 0) }

/-- The address of the tile that holds the step's element `n`, and which element of its rows it is (R98). -/
def Side.place (w : Side) (n : Nat) : Nat × Nat :=
  let len := (rowShape w.code).1
  (w.tile ((w.pos + n) / len), (w.pos + n) % len)

/-- Row `i` of that tile as one number (R82). -/
def Side.row (w : Side) (m : Memory) (i n : Nat) : Nat := m.read ((w.place n).1 + 128 * i) 128

/-- The step's element `n` in row `i` (R98, R99). -/
def Side.value (w : Side) (m : Memory) (i n : Nat) : Int := rowValue w.code (w.row m i n) (w.place n).2

/-- It is an invalid code. -/
def Side.invalid (w : Side) (m : Memory) (i n : Nat) : Prop := rowInvalid w.code (w.row m i n) (w.place n).2

/-- The scale exponent over it, less the fraction shift; none for a NaN scale (R86, R96, R99). -/
def Side.scale (w : Side) (m : Memory) (i n : Nat) : Option Int :=
  let (len, blk) := rowShape w.code
  if blk = 0 then some 0
  else
    let x := if w.scaled then (m.byte ((w.place n).1 + 2048 + len / blk * i + (w.place n).2 / blk)).toNat else 0x7F
    if x = 0xFF then none else some ((x : Int) - 127 - (if w.code = 7 then 6 else if w.code = 8 then 4 else if w.code = 9 then 2 else 0))

/-- The combined block of the step's element `n`: an interval of the smaller of the two block sizes, or the whole step (R99). -/
def combined (d e : Side) (n : Nat) : Nat :=
  let bd := (rowShape d.code).2
  let be := (rowShape e.code).2
  if bd = 0 ∧ be = 0 then 0 else if be = 0 ∨ (bd ≠ 0 ∧ bd ≤ be) then (d.pos + n) / bd else (e.pos + n) / be

/-- The contribution of a step of `kd` elements to the element of row `i` of the dense side and row `j` of the other: over its combined blocks,
each named by its first element, the exact sum of products scaled and cut toward -∞ (R99). -/
def stepTotal (m : Memory) (d e : Side) (i j kd : Nat) : Int :=
  ∑ n ∈ (Finset.range kd).filter (fun n => n = 0 ∨ combined d e n ≠ combined d e (n - 1)),
    match d.scale m i n, e.scale m j n with
    | some x, some y =>
      let p := ∑ k ∈ (Finset.range kd).filter (fun k => combined d e k = combined d e n), d.value m i k * e.value m j k
      if 0 ≤ x + y + 16 then p * 2 ^ (x + y + 16).toNat else p / 2 ^ (-(x + y + 16)).toNat
    | _, _ => 0

end Sys2Proof.Spec
end

