-- ==== Sys2Proof/Spec/Network.lean ====
section
/-! DEFINITION. The terms of the statements about packets, sessions and links: a packet at its destination, the answers of a home, an
operation that is next in its session (R66, R298, R299, R303, R304). -/

namespace Sys2Proof.Spec

open Sys2Proof.Machine

/-- A packet that its destination takes: in the network at the destination's package, under that package's number, queued at no port, within its
lifetime, past the bridge or first there, and no packet that its receiver does not use (R8, R299, R302, R318, R326). -/
def Arrives (s : State) (p : Packet) : Prop :=
  s.net[s.ev.n]? = some p ∧ p.via = none ∧ epPkg p.dst = p.at_ ∧ (s.pkg p.at_).number = p.at_ ∧ (s.pkg p.at_).halted = false ∧
    p.malformed = false ∧ (p.type = .drain ∨ s.dieTime p.dst < p.born + 2 ^ 29) ∧ s.mayCross s.ev.n p = true

/-- A packet as its source's package puts it on its mesh: under the bank in force, on the VN of its type, at the time when
it is sent (R298, R302, R304). -/
def sentFrom (s : State) (q : Packet) : Packet :=
  let k := s.pkg (epPkg q.src)
  { q with bank := k.rtAct, hops := 0, at_ := epPkg q.src, via := none, vn := packetVn k q, born := s.dieTime q.dst }

/-- The event's packet has left the network, and some packets were sent. -/
def Sends (s t : State) (qs : List Packet) : Prop := t.net = s.net.eraseIdx s.ev.n ++ qs.map (sentFrom s)

/-- The acknowledgement of an operation (R299). -/
def ackFor (p : Packet) : Packet :=
  { type := .ack, dst := p.src, src := p.dst, ctx := p.ctx, str := p.str, cqe := p.cqe, epoch := p.epoch, auxf := p.seq.setWidth 32 }

/-- A refusal with a reason (R299, R302). -/
def nackFor (p : Packet) (reason : BitVec 7) : Packet :=
  { type := .nack, dst := p.src, src := p.dst, ctx := p.ctx, str := p.str, cqe := p.cqe, epoch := p.epoch, op := reason,
    auxf := p.seq.setWidth 32 }

/-- The value an ATOMIC returns (R299). -/
def valueFor (p : Packet) (x : Nat) : Packet :=
  { type := .aval, dst := p.src, src := p.dst, ctx := p.ctx, len := 8, payload := x, note := p.note / 2 ^ 32 }

/-- The step at which an operation of a session arrives. -/
def operationEvent : PType → Option Instr
  | .write => some .write
  | .atomic => some .atomic
  | .signal => some .signal
  | .msg => some .msg
  | _ => none

/-- An operation is the next of its session, which is open with nothing held, or is opened by it; `e` is the session's entry (R66, R303). -/
def NextOn (s : State) (p : Packet) (e : Entry) : Prop :=
  (s.entry? p = some e ∧ e.isOpen = true ∧ e.epoch = p.epoch ∧ e.expected = p.seq ∧ e.held = [] ∧ e.done = [] ∧ e.busy = false) ∨
    (s.entry? p = none ∧ p.opn = true ∧ (s.table p.dst).length < (tableRoom p.dst).1 ∧
      e = { src := p.src, ctx := p.ctx, str := p.str, cqe := p.cqe, epoch := p.epoch, expected := p.seq })

/-- The entry once the operation has committed. -/
def committed (s : State) (p : Packet) (e : Entry) : Entry := { e with expected := p.seq + 1, lastRx := s.dieCyc p.dst }

/-- Times an unacknowledged operation is sent before its session fails, and how long each try waits, as FTCFG gives them (R302). -/
def tryLimit (k : Package) : Nat := max 1 (k.ftcfg.extractLsb' 16 8).toNat

/-- The retransmit timeout in die cycles (R302). -/
def tryTime (k : Package) : Nat := 2 ^ min 28 (max 16 (k.ftcfg.extractLsb' 8 5).toNat)

/-- An operation sent again. -/
def sentAgain (u : Sent) (now tries : Nat) : Sent := { u with sentAt := now, backoff := none, resent := true, tries := tries }

/-- A stream of a thread has failed: it is blocked, and a READY thread has the fault of kind 4 before it (R271, R285). -/
def StreamFails (s t : State) (ep : Ep) (ctx : Ctx) (n : BitVec 3) (first : BitVec 16) : Prop :=
  ((t.thr ep ctx).stream n).err = true ∧ (t.thr ep ctx).status = .ready ∧ t.mem = s.mem ∧
    ∃ r, (t.thr ep ctx).faultQ = (s.thr ep ctx).faultQ ++ [r] ∧ r.kind = 4 ∧ r.aux0 = n.setWidth 64 ∧ r.aux2 = first.setWidth 64

end Sys2Proof.Spec
end

