-- ==== Sys2Proof/Spec/System.lean ====
section
/-! DEFINITION. The terms of the statements about launches, pre-emption and the supervisor: the checks of a head record, a launch of which
nothing is left, a crew whose one thread is saved (R34, R46, R261, R262, R288). -/

namespace Sys2Proof.Spec

open Sys2Proof.Machine

/-- The reason for which a head record is aborted: a reserved bit, a foreign ASID, an allocation above the granary's size, a bad group
table, too few places for a co-resident launch (R261, R262). -/
def recordReason (p : Pkg) (lid : Lid) (asid : Asid) (r : List Dword) : Option Nat :=
  let w := fun i => r.getD i 0
  let l : Launch := { home := p, lid := lid, record := r }
  if (w 2).extractLsb' 62 2 ≠ 0 ∨ [12, 13, 14, 15].any (fun i => (w i).extractLsb' 55 9 ≠ 0 || (w i).getLsbD 2) = true then some 1
  else if (w 0).extractLsb' 48 16 ≠ asid then some 2
  else if 0x800000 < ((w 2).extractLsb' 32 24).toNat then some 3
  else if w 4 = 0 ∨ (w 4).toNat % 8 ≠ 0 then some 4
  else if (w 2).getLsbD 60 = true ∧ (((w 2).extractLsb' 56 4).toNat + 1) * l.cores.length < l.threads then some 5
  else none

/-- Nothing of a launch is left: no thread resident, saved or to be spawned, and no crew (R34). -/
def NothingLeft (s : State) (l : Launch) : Prop :=
  l.live = 0 ∧ l.spawning = 0 ∧ l.saved = [] ∧ l.evicted = [] ∧ ∀ c ∈ s.cores, c.2.crew? l.home l.lid = none

/-- A queue whose head may be looked at: enabled, not being torn down, waiting for no supervisor, its package's schedulers at work. -/
def QueueWorks (s : State) (p : Pkg) (q : Nat) : Prop :=
  ((s.pkg p).queue q).enabled = true ∧ ((s.pkg p).queue q).tearing = false ∧ ((s.pkg p).queue q).blocked = false ∧ (s.pkg p).halted = false

/-- A queue waits for the supervisor: a record of kind 10 was posted, and HEAD stays (R262, R263). -/
def QueueFaults (s t : State) (p : Pkg) (q : Nat) (reason object : Nat) : Prop :=
  ((t.pkg p).queue q).faults.map (fun f => (f.reason, f.object)) = ((s.pkg p).queue q).faults.map (fun f => (f.reason, f.object)) ++ [(reason, object)] ∧
    ((t.pkg p).queue q).head = ((s.pkg p).queue q).head ∧ (t.pkg p).records.length = (s.pkg p).records.length + 1 ∧ t.mem = s.mem

/-- A FAULTED thread whose oldest record is the one that RESOLVE names in MCMD's fields (R279, R280). -/
def Faulted (s : State) (o : Outstanding) : Prop :=
  (s.pkg s.ev.pkg).busy = false ∧ (s.pkg s.ev.pkg).qreq = false ∧ (s.pkg s.ev.pkg).state ≠ 4 ∧ epPkg s.ev.ep = s.ev.pkg ∧ (s.thr s.ev.ep s.ev.ctx).status = .faulted ∧
    (s.thr s.ev.ep s.ev.ctx).outstanding = [o] ∧ (o.ep, o.ctx, o.seq) = (s.ev.ep, s.ev.ctx, s.ev.seq) ∧ o.gone = false

/-- No FAULTED thread's oldest record is the one that RESOLVE names (R280). -/
def NoneFaulted (s : State) : Prop :=
  ∀ c ∈ s.cores, ∀ x : Ctx, (vget x c.2.threads).status = .faulted → ∀ o ∈ (vget x c.2.threads).outstanding.head?,
    (o.ep, o.ctx, o.seq) ≠ (s.ev.ep, s.ev.ctx, s.ev.seq)

/-- MSTAT shows that an operation is over with a result (R278). -/
def Ends (t : State) (p : Pkg) (res : BitVec 3) : Prop := (t.pkg p).busy = false ∧ (t.pkg p).res = res

end Sys2Proof.Spec
end

