-- ==== Sys2Proof/Certificates/Slice0/Obligations.lean ====
section
/-! DEFINITION. The statements about the model, for the provers. The rules each rests on are named in its docstring; what rests on a choice
of the model's own names the log entry. -/

open Sys2Proof Sys2Proof.Machine Sys2Proof.Spec

/-- R138 to R146: every scalar instruction writes the stated function of its sources to g[d] and changes nothing else but what ending an instruction
changes; a write to zr is discarded (`Thread.setG`, `Obligations.RegistersAndRetirement`). -/
def Obligations.ScalarResult : Prop :=
  ∀ (i : Instr) (srcs : List Reg) (d : Reg) (f : List Dword → Dword) (s : State),
    scalar i = some (srcs, d, f) → Ready s (srcs ++ [d]) → Completes i s (s.me.setG d (f (srcs.map s.me.getG)))

/-- The scalar instructions of ScalarResult with ports among their fields: the sources are read in order, each port popped, and the result is written, or
pushed (R28). So too the saturating and the immediate instructions, branches and jumps, the moves between register files, mfs and mts. No other
instruction is covered here. -/
def Obligations.ScalarThroughPorts : Prop :=
  (∀ (i : Instr) (srcs : List Reg) (d : Reg) (f : List Dword → Dword) (s s1 s2 : State) (xs : List Dword),
    scalar i = some (srcs, d, f) → s.portStops srcs [d] = none → (∀ r ∈ srcs ++ [d], s.me.isFull r = true) →
    s.readRegs srcs = .ok (xs, s1) → s1.writeReg d (f xs) = .ok s2 →
    xs.length = srcs.length ∧ exec i s = .next (ended s2 s2.me s2.issue.next)) ∧
  (∀ (i : Instr) (o : OpRr) (f : Dword → Dword → Int) (lo hi : Int) (s s1 s2 : State) (x y : Dword),
    saturating i = some (o, f, lo, hi) → ReadsThrough s [o.a, o.b] [o.d] [x, y] s1 →
    let clamped := max lo (min (f x y) hi)
    s1.writeReg o.d (BitVec.ofInt 64 clamped) = .ok s2 →
    exec i s = .next (ended s2 (if clamped = f x y then s2.me else { s2.me with st := s2.me.st ||| 0x20 }) s2.issue.next)) ∧
  (∀ (o : OpAddI) (s s1 s2 : State) (x : Dword), ReadsThrough s [o.a] [o.d] [x] s1 →
    s1.writeReg o.d (x + BitVec.ofInt 64 (extended s.me o.imm)) = .ok s2 →
    exec (.addi o) s = .next (ended s2 (s2.me.setStBit 21 false) s2.issue.next)) ∧
  (∀ (o : OpLiI) (s s2 : State), ReadsThrough s [] [o.d] [] s → s.writeReg o.d (BitVec.ofInt 64 (extended s.me o.imm)) = .ok s2 →
    exec (.li o) s = .next (ended s2 (s2.me.setStBit 21 false) s2.issue.next)) ∧
  (∀ (i : Instr) (o : OpBranch) (p : Dword → Dword → Bool) (s s1 : State) (x y : Dword),
    branch i = some (o, p) → ReadsThrough s [o.a, o.b] [] [x, y] s1 →
    ∃ t, exec i s = .next t ∧ t.me = s1.me.retire (if p x y then target s.issue.pc o.off.toInt else s.issue.next) ∧ t.myCore.cq = s1.myCore.cq ∧
      t.myCore.inbox = s1.myCore.inbox ∧ t.mem = s1.mem ∧ t.net = s1.net) ∧
  (∀ (s : State),
    (∀ (o : OpJump) (s2 : State), ReadsThrough s [] [o.d] [] s → s.writeReg o.d (s.issue.next.setWidth 64) = .ok s2 →
      ∃ t, exec (.jal o) s = .next t ∧ t.me = s2.me.retire (target s.issue.pc o.off.toInt) ∧ t.myCore.cq = s2.myCore.cq ∧ t.net = s2.net) ∧
    (∀ (o : OpJalr) (s1 : State) (a : Dword), ReadsThrough s [o.a] [o.d] [a] s1 →
      let x := a.toInt + 4 * o.imm.toInt
      (x % 4 ≠ 0 → exec (.jalr o) s = .next (s.trap 3 (BitVec.ofInt 64 x) 4)) ∧
      (∀ s2, x % 4 = 0 → s1.writeReg o.d (s.issue.next.setWidth 64) = .ok s2 →
        ∃ t, exec (.jalr o) s = .next t ∧ t.me = s2.me.retire (BitVec.ofInt 18 x) ∧ t.myCore.cq = s2.myCore.cq ∧ t.net = s2.net))) ∧
  (∀ (i : Instr) (s : State),
    (∀ d r f s2, toScalar i = some (d, r, f) → ReadsThrough s [] [d] [] s → (∀ v, r = .inl v → VecReady s [v]) → s.writeReg d (f s.me) = .ok s2 →
      exec i s = .next (ended s2 s2.me s2.issue.next)) ∧
    (∀ d a w p x s1, toLanes i = some (d, a, w, p) → i.wellFormed = true → ReadsThrough s [a] [] [x] s1 → VecReady s [d] →
      ∃ v, exec i s = .next (ended s1 (s1.me.setV d v) s1.issue.next) ∧
        ∀ L, L < 512 / w → laneAt w v L = if p L then x.setWidth w else laneAt w (s.me.getV d) L) ∧
    (∀ o x s1, i = .mvgk o → ReadsThrough s [o.a] [] [x] s1 →
      exec i s = .next (ended s1 (s1.me.setK (o.d.setWidth 3) x) s1.issue.next))) ∧
  (∀ (s : State),
    (∀ (o : OpMfs) (x : Dword) (s2 : State), s.sreg o.sreg.toNat = some x → (sregOfSet o.sreg.toNat = true → s.me.eset = true) →
      (∀ m : BitVec 2, o.sreg.toNat = 72 + m.toNat ∨ o.sreg.toNat = 76 + m.toNat → s.accBusy m = false) →
      ReadsThrough s [] [o.d] [] s → s.writeReg o.d x = .ok s2 → exec (.mfs o) s = .next (ended s2 s2.me s2.issue.next)) ∧
    (∀ (o : OpMts) (x : Dword) (s1 : State), sregWritable o.imm.toNat = true → o.imm.toNat < 64 → ReadsThrough s [o.a] [] [x] s1 →
      ∃ t, exec (.mts o) s = .next t ∧ t.me = (s1.me.setSreg o.imm.toNat x).retire s.issue.next ∧ t.myCore.cq = s1.myCore.cq))

/-- R140: adds, subs, addus, subus clamp the exact result and raise SA when clamping changed it. R116, R141, R142: addi and li take their immediate
under a pending EXT and consume it. -/
def Obligations.SaturatingAndImmediateResults : Prop :=
  (∀ (i : Instr) (o : OpRr) (f : Dword → Dword → Int) (lo hi : Int) (s : State),
      saturating i = some (o, f, lo, hi) → Ready s [o.a, o.b, o.d] →
      let exact := f (s.me.getG o.a) (s.me.getG o.b)
      let clamped := max lo (min exact hi)
      let t := s.me.setG o.d (BitVec.ofInt 64 clamped)
      Completes i s (if clamped = exact then t else { t with st := t.st ||| 0x20 })) ∧
  (∀ (s : State),
      (∀ (o : OpAddI), Ready s [o.a, o.d] →
        Completes (.addi o) s ((s.me.setG o.d (s.me.getG o.a + BitVec.ofInt 64 (extended s.me o.imm))).setStBit 21 false)) ∧
      (∀ (o : OpLiI), Ready s [o.d] →
        Completes (.li o) s ((s.me.setG o.d (BitVec.ofInt 64 (extended s.me o.imm))).setStBit 21 false)))

/-- R149: a branch goes to its target when its condition holds and on to the next unit otherwise; it writes no register. R150, R151: jal and jalr
write the address of the next unit to g[d] and go to their target; jalr reads g[a] first, so d may be a, and traps with code 3 when the target is no
multiple of 4. -/
def Obligations.BranchesAndJumps : Prop :=
  (∀ (i : Instr) (o : OpBranch) (p : Dword → Dword → Bool) (s : State),
      branch i = some (o, p) → Ready s [o.a, o.b] →
      ∃ t, exec i s = .next t ∧ t.me = s.me.retire (if p (s.me.getG o.a) (s.me.getG o.b) then target s.issue.pc o.off.toInt else s.issue.next) ∧
        t.mem = s.mem ∧ (∀ ep ctx, (ep, ctx) ≠ (s.issue.ep, s.issue.ctx) → t.thr ep ctx = s.thr ep ctx) ∧ t.pkgs = s.pkgs ∧
        t.net = s.net ∧ t.tables = s.tables ∧ t.waiters = s.waiters ∧ t.launches = s.launches) ∧
  (∀ (s : State),
      (∀ (o : OpJump), Ready s [o.d] → ∃ t, exec (.jal o) s = .next t ∧ t.mem = s.mem ∧ t.pkgs = s.pkgs ∧ t.net = s.net ∧
        t.me = (s.me.setG o.d (s.issue.next.setWidth 64)).retire (target s.issue.pc o.off.toInt)) ∧
      (∀ (o : OpJalr), Ready s [o.a, o.d] →
        let x := (s.me.getG o.a).toInt + 4 * o.imm.toInt
        (x % 4 = 0 → ∃ t, exec (.jalr o) s = .next t ∧ t.mem = s.mem ∧ t.pkgs = s.pkgs ∧ t.net = s.net ∧
          t.me = (s.me.setG o.d (s.issue.next.setWidth 64)).retire (BitVec.ofInt 18 x)) ∧
        (x % 4 ≠ 0 → exec (.jalr o) s = .next (s.trap 3 (BitVec.ofInt 64 x) 4))))

/-- R23, R24: zr reads 0 and discards writes; another general register holds what was last written to it, and a write sets its full bit and touches no
other register. R39, R109, R112: what ending an instruction leaves: the PC at the given address, XD clear, one less in the shadow count while a result
is pending, and the thread parked once that count is 0; every other register of the thread is as it was. -/
def Obligations.RegistersAndRetirement : Prop :=
  (∀ (t : Thread) (d r : Reg) (x : Dword),
      t.getG 0 = 0 ∧ t.isFull 0 = true ∧ t.setG 0 x = t ∧
      (isPort d = false → d ≠ 0 → (t.setG d x).getG d = x ∧ (t.setG d x).isFull d = true ∧ (t.clearFull d).isFull d = false) ∧
      (r ≠ d → (t.setG d x).getG r = t.getG r ∧ (t.setG d x).isFull r = t.isFull r ∧ (t.clearFull d).isFull r = t.isFull r) ∧
      (t.setG d x).v = t.v ∧ (t.setG d x).k = t.k ∧ (t.setG d x).st = t.st ∧ (t.setG d x).pc = t.pc ∧ (t.setG d x).pend = t.pend) ∧
  (∀ (t : Thread) (n : BitVec 18),
      (t.retire n).pc = n ∧ (t.retire n).st = putBit t.st 22 false ∧
      (t.retire n).shadow = (if t.pend = [] then t.shadow else t.shadow - 1) ∧
      (t.status = .ready → (t.retire n).status = if t.pend ≠ [] ∧ t.shadow ≤ 1 then .parked t.pendReason else .ready) ∧
      (t.retire n).g = t.g ∧ (t.retire n).full = t.full ∧ (t.retire n).v = t.v ∧ (t.retire n).k = t.k ∧ (t.retire n).pfx = t.pfx ∧
      (t.retire n).tvec = t.tvec ∧ (t.retire n).tepc = t.tepc ∧ (t.retire n).tst = t.tst ∧ (t.retire n).tcause = t.tcause ∧
      (t.retire n).tval0 = t.tval0 ∧ (t.retire n).tval1 = t.tval1 ∧ (t.retire n).dctr = t.dctr ∧ (t.retire n).qbind = t.qbind ∧
      (t.retire n).wlim = t.wlim ∧ (t.retire n).pend = t.pend ∧ (t.retire n).streams = t.streams ∧ (t.retire n).faultQ = t.faultQ)

/-- R24: a scalar instruction or a branch with a register whose full bit is clear does not issue: its thread parks with reason fill, and no register,
no queue and no memory changes. -/
def Obligations.PendingOperandParks : Prop :=
  ∀ (i : Instr) (s : State) (rs : List Reg),
    (match scalar i, Spec.branch i with
      | some (srcs, d, _), _ => rs = srcs ++ [d]
      | none, some (o, _) => rs = [o.a, o.b]
      | none, none => False) →
    (∀ r ∈ rs, isPort r = false) → (∃ r ∈ rs, s.me.isFull r = false) →
    ∃ t, exec i s = .next t ∧ t.issue.fate = .parked ∧ t.me.status = .parked .fill ∧
      (∃ r ∈ rs, s.me.isFull r = false ∧ t.me.wait = .reg r) ∧
      t.me = { s.me with status := .parked .fill, wait := t.me.wait } ∧
      t = { s.setMe t.me with issue := { s.issue with fate := .parked } }

/-- R28: reading a port bound to a core queue pops its oldest dword, in the order of the fields; an empty queue parks the thread with reason queue;
writing one pushes at its tail, and a queue with no room left by pushes already reserved parks the thread. R27, R31: a port bound to no target, or a
core queue's port of a thread whose crew holds no engine set, traps with code 1 before any effect, whatever scalar instruction names it as a source.
R191: a read of a port bound to the request inbox takes the header of the earliest message for the thread's launch, which the thread then holds, and
then its dwords, the last of which frees it; one bound to the reply inbox takes the earliest reply of the thread's own slots so. R192: a write of a
port bound to an outbox sends one dword as the reply to the request whose header the thread remembers; where there is none, or it wants no reply, the
port traps, and one whose header names no core of the system faults (R14; that the fault is SEND's is log 61). -/
def Obligations.QueuePorts : Prop :=
  (∀ (s : State) (r : Reg) (x : Dword), isPort r = true → 1 ≤ (s.me.portCode r).toNat → (s.me.portCode r).toNat ≤ 8 →
      let code := s.me.portCode r
      let q := s.myCore.queue code
      (∀ y ys, q.data = y :: ys → s.behind code false = false →
        s.readReg r = .ok (y, s.setMyCore (s.myCore.setQueue code { q with data := ys, head := q.head + 1 }))) ∧
      (q.data = [] → s.readReg r = .error (.park .queue (.queue code false))) ∧
      (q.data.length + q.reserved < 32 → s.behind code true = false → s.me.owesPush code = false →
        s.writeReg r x = .ok (s.setMyCore (s.myCore.setQueue code { q with data := q.data ++ [x] }))) ∧
      (32 ≤ q.data.length + q.reserved → s.writeReg r x = .error (.park .queue (.queue code true)))) ∧
  (∀ (i : Instr) (srcs : List Reg) (d r : Reg) (f : List Dword → Dword) (s : State),
      scalar i = some (r :: srcs, d, f) → isPort r = true →
      ((s.me.portCode r).toNat = 0 ∨ 11 ≤ (s.me.portCode r).toNat →
        exec i s = .next (s.trap 1 (BitVec.ofNat 64 (r.toNat - 28)) ((s.me.portCode r).setWidth 64))) ∧
      (1 ≤ (s.me.portCode r).toNat → (s.me.portCode r).toNat ≤ 8 → s.me.eset = false →
        exec i s = .next (s.trap 1 (BitVec.ofNat 64 (s.issue.word.toNat / 2 ^ 26 % 32)) (s.issue.word.setWidth 64)))) ∧
  (∀ (s : State) (r : Reg), isPort r = true → s.me.portCode r = 9 → s.me.restMsg = [] →
      let box := s.myCore.inbox
      let mine := fun (m : InMsg) => decide (m.lid = launchKey s.me.home s.me.lid) && m.holder.isNone
      (∀ m, s.me.heldReq = none → box.find? mine = some m → ∃ t, s.readReg r = .ok (m.header, t) ∧
        t.myCore.inbox = box.map (fun w => if w.id = m.id then { w with holder := some s.issue.ctx } else w) ∧
        t.me = { s.me with heldReq := some m.id, header := some m.header } ∧ SameOutside s t) ∧
      (s.me.heldReq = none → box.find? mine = none → s.readReg r = .error (.park .message (.queue 9 false))) ∧
      (∀ id m, s.me.heldReq = some id → box.find? (fun w => decide (w.id = id)) = some m →
        ∃ t, s.readReg r = .ok (m.payload.getD m.read 0, t) ∧ SameOutside s t ∧
          (m.read + 1 < m.payload.length → t.me = s.me ∧
            t.myCore.inbox = box.map (fun w => if w.id = id then { w with read := w.read + 1 } else w)) ∧
          (m.payload.length ≤ m.read + 1 → t.me = { s.me with heldReq := none } ∧ t.myCore.inbox = box.filter (fun w => decide (w.id ≠ id))))) ∧
  (∀ (s : State) (r : Reg), isPort r = true → s.me.portCode r = 10 → s.me.restReply = [] →
      let full := fun (i : Fin 64) => s.myCore.replies[i].owner = some s.issue.ctx ∧ s.myCore.replies[i].msg.isSome = true
      (∀ (i : Fin 64) (h : Dword) (l : List Dword), s.me.replyPos = none → full i → s.myCore.replies[i].msg = some (h, l) →
        (∀ j, full j → j ≠ i → s.myCore.replies[i].order < s.myCore.replies[j].order) →
        s.readReg r = .ok (h, s.setMe { s.me with replyPos := some (i.val, 0) })) ∧
      (s.me.replyPos = none → (∀ i, ¬full i) → s.readReg r = .error (.park .message (.queue 10 false))) ∧
      (∀ (i : Fin 64) (pos : Nat) (h : Dword) (l : List Dword), s.me.replyPos = some (i.val, pos) → s.myCore.replies[i].msg = some (h, l) →
        ∃ t, s.readReg r = .ok (l.getD pos 0, t) ∧ SameOutside s t ∧
          (pos + 1 < l.length → t = s.setMe { s.me with replyPos := some (i.val, pos + 1) }) ∧
          (l.length ≤ pos + 1 → t.me = { s.me with replyPos := none } ∧ t.myCore.replies = s.myCore.replies.setIfInBounds i.val {}))) ∧
  (∀ (s : State) (r : Reg) (x : Dword) (ob : BitVec 1), isPort r = true → (s.me.portCode r).toNat = 11 + ob.toNat →
      (∀ h, s.me.header = some h → h.getLsbD 32 = false →
        let names := (epUnit (h.extractLsb' 0 22)).toNat < 512 ∧ (epPkg (h.extractLsb' 0 22)).toNat < (s.pkg (epPkg s.issue.ep)).npkg
        (¬names → s.writeReg r x = .error (.stop (.fault { kind := 1 }))) ∧
        (names → s.myCore.outboxUsed ob < 64 → s.behindOutbox ob = false → s.me.owesPush (s.me.portCode r) = false → s.me.msgStreams = [] →
          ∃ t p m, s.writeReg r x = .ok t ∧ t.myCore.outbox ob = s.myCore.outbox ob ++ [m] ∧ m.payload = [x] ∧ t.net = s.net ++ [p] ∧
            p.type = .msg ∧ p.dst = h.extractLsb' 0 22 ∧ p.message = (m.header, [x]) ∧ m.header.extractLsb' 48 16 = h.extractLsb' 48 16 ∧
            m.header.extractLsb' 32 4 = 2 ∧ t.me.g = s.me.g ∧ t.me.header = some h ∧ t.mem = s.mem) ∧
        (names → 64 ≤ s.myCore.outboxUsed ob → s.writeReg r x =
          .error (if s.me.st.getLsbD 23 = true then .stop (.trap 6 (ob.setWidth 64) h) else .park .message (.outbox ob false)))) ∧
      (∀ (i : Instr) (srcs : List Reg) (f : List Dword → Dword), scalar i = some (srcs, r, f) → (∀ y ∈ srcs, isPort y = false) →
        (∀ h, s.me.header = some h → h.getLsbD 32 = true) →
        exec i s = .next (s.trap 1 (BitVec.ofNat 64 (r.toNat - 28)) ((s.me.portCode r).setWidth 64))))

/-- R159: taking a user trap. R284: the entry writes TEPC, TST, TCAUSE, TVAL0 and TVAL1 whole, so that they carry no error after it; where TVEC, ST or PC,
which it reads, carries one, the thread is FAULTED with kind 7 at the PC that the trap would have saved. -/
def Obligations.TrapEntry : Prop :=
  ∀ (s : State) (ep : Ep) (ctx : Ctx) (cause : BitVec 8) (v0 v1 : Dword) (pc : BitVec 18),
    let t := s.thr ep ctx
    let s' := s.trapThread ep ctx cause v0 v1 pc
    let bad := (s.core ep).badRegs
    let sound := ∀ n ∈ [0, 1, 8], (ctx, regCode 4 0 n) ∉ bad
    (sound → t.tvec.getLsbD 0 = true → t.st.getLsbD 24 = false →
      let u : Thread := { t with
        tepc := pc.setWidth 64, tst := t.st, tcause := cause.setWidth 64, tval0 := v0, tval1 := v1
        st := (t.st &&& ~~~0x2700000#64) ||| 0x1000000#64
        pc := (t.tvec.extractLsb' 2 16).setWidth 18 <<< 2
        status := .ready, wait := .none, walkFault := none, record := none, waitFrom := 0 }
      s' = s.setCore ep { (s.core ep).setThr ctx u with badRegs := bad.filter (fun b => decide (b ∉ [9, 10, 11, 12, 13].map (fun n => (ctx, regCode 4 0 n)))) }) ∧
    (∀ n, bad = [(ctx, regCode 4 0 n)] → n ∈ [0, 1, 8] → (s'.thr ep ctx).status = .faulted ∧ (s'.thr ep ctx).pc = pc ∧ (s'.thr ep ctx).st = t.st ∧
      (s'.thr ep ctx).tepc = t.tepc ∧ ∃ r, (s'.pkg (epPkg ep)).records = (s.pkg (epPkg ep)).records ++ [r] ∧
        (r.dwords.getD 0 0).toNat % 2 ^ (8 : Nat) = 7 ∧ r.dwords.getD 4 0 = (regCode 4 0 n).setWidth 64) ∧
    (sound → t.tvec.getLsbD 0 = false ∨ t.st.getLsbD 24 = true →
      (s'.thr ep ctx).status = .faulted ∧ (s'.thr ep ctx).pc = pc ∧ (s'.thr ep ctx).st = t.st ∧ (s'.thr ep ctx).g = t.g ∧
      (s'.thr ep ctx).v = t.v ∧ (s'.thr ep ctx).k = t.k ∧ (s'.thr ep ctx).dctr = t.dctr ∧
      (let r : FaultReq := { kind := 6, aux0 := cause.setWidth 64, aux1 := v0, aux2 := v1, aux3 := t.st }
        let q := (s.pkg (epPkg ep)).recSeq
        (s'.pkg (epPkg ep)).records =
          (s.pkg (epPkg ep)).records ++ [{ ep := ep, dwords := recordDwords ep ctx t.asid t.lid t.xd true q pc r }])) ∧
    s'.mem = s.mem ∧ s'.net = s.net ∧ s'.tables = s.tables ∧ s'.launches = s.launches ∧
    (∀ e x, (e, x) ≠ (ep, ctx) → s'.thr e x = s.thr e x)

/-- R163: trap is a user trap of code 8, TVAL0 its immediate and TVAL1 g[a], whose saved PC is the word after it. -/
def Obligations.TrapInstruction : Prop :=
  ∀ (o : OpMts) (s : State),
    (Ready s [o.a] → ∃ t, exec (.trap o) s = .next t ∧
      t = { (s.leaveOrder.trapThread s.issue.ep s.issue.ctx 8 (o.imm.setWidth 64) (s.me.getG o.a) (s.issue.pc + 4)) with
        issue := { s.issue with fate := .trapped (.trap 8 (o.imm.setWidth 64) (s.me.getG o.a)) } } ∧
      (s.me.handles = true → s.myCore.badRegs = [] → t.me.tcause = 8 ∧ t.me.tval0 = o.imm.setWidth 64 ∧ t.me.tval1 = s.me.getG o.a ∧
        t.me.tepc = (s.issue.pc + 4).setWidth 64)) ∧
    (isPort o.a = false → s.me.isFull o.a = false → ∃ t, exec (.trap o) s = .next t ∧ t.me.status = .parked .fill ∧ t.me.wait = .reg o.a)

/-- R162, R164, R165: rett restores PC and ST from TEPC and TST in one step; bkpt is a user trap of code 9 at its own address; yield lets the other
contexts go first once, and changes nothing else. -/
def Obligations.ReturnBreakpointYield : Prop :=
  ∀ (s : State),
    (∃ t, exec .rett s = .next t ∧ t.me.pc = (s.me.tepc.extractLsb' 2 16).setWidth 18 <<< 2 ∧ t.me.st = s.me.tst ∧
      t.me.g = s.me.g ∧ t.me.v = s.me.v ∧ t.me.k = s.me.k ∧ t.me.tepc = s.me.tepc ∧ t.me.tst = s.me.tst ∧ t.me.pfx = s.me.pfx ∧
      SameOutside s t ∧ OtherThreadsSame s t s.issue.ep s.issue.ctx) ∧
    (∀ o : OpImm10, exec (.bkpt o) s = .next (s.trap 9 (o.imm.setWidth 64) 0)) ∧
    (∃ t, exec .yield s = .next t ∧ t.me = { s.me.retire s.issue.next with yielded := true } ∧
      SameOutside s t ∧ OtherThreadsSame s t s.issue.ep s.issue.ctx)

/-- R153: mfs writes the register's value to g[d]; mts changes the writable bits of the register and leaves the others. Registers of the engine set
need it (R31), and an mts to a ring register parks while a queued or running command names its ring (R157). R40: one that names an accumulator's
register parks while a matrix command of its thread on that accumulator is not complete. R154: which number reads which register; an mfs of a number
that is not assigned is an illegal instruction. -/
def Obligations.SystemRegisters : Prop :=
  ∀ (s : State),
    (∀ p ∈ sregMap s, s.sreg p.1 = some p.2) ∧
    (∀ (o : OpMfs), (∀ p ∈ sregMap s, p.1 ≠ o.sreg.toNat) →
      exec (.mfs o) s = .next (s.trap 1 (BitVec.ofNat 64 (s.issue.word.toNat / 2 ^ 26 % 32)) (s.issue.word.setWidth 64))) ∧
    (∀ (o : OpMfs) (x : Dword), s.sreg o.sreg.toNat = some x → (sregOfSet o.sreg.toNat = true → s.me.eset = true) → Ready s [o.d] →
      (∀ m : BitVec 2, o.sreg.toNat = 72 + m.toNat ∨ o.sreg.toNat = 76 + m.toNat → s.accBusy m = false) →
      Completes (.mfs o) s (s.me.setG o.d x)) ∧
    (s.me.eset = false →
      (∀ o : OpMfs, 64 ≤ o.sreg.toNat → o.sreg.toNat < 80 →
        exec (.mfs o) s = .next (s.trap 1 (BitVec.ofNat 64 (s.issue.word.toNat / 2 ^ 26 % 32)) (s.issue.word.setWidth 64))) ∧
      (∀ o : OpMts, 64 ≤ o.imm.toNat → o.imm.toNat < 80 →
        exec (.mts o) s = .next (s.trap 1 (BitVec.ofNat 64 (s.issue.word.toNat / 2 ^ 26 % 32)) (s.issue.word.setWidth 64)))) ∧
    (∀ (o : OpMts) (r : BitVec 3), o.imm.toNat = 64 + r.toNat → s.me.eset = true →
      (∃ q ∈ s.myCore.mq, (q.ringA = r ∨ q.ringB = r) ∧ q.eop.toNat ≤ 1 ∧ (q.phase = .queued ∨ q.phase = .running)) ∨
        (∃ k ∈ s.myCore.copies, k.ring = some r ∧ (k.phase = .queued ∨ k.phase = .running)) →
      ∃ t, exec (.mts o) s = .next t ∧ t.issue.fate = .parked ∧ t.me = { s.me with status := .parked .matrix, wait := .ringIdle r } ∧ SameOutside s t) ∧
    (∀ (m : BitVec 2), s.me.eset = true → s.accBusy m = true →
      let parks := fun (i : Instr) => ∃ t, exec i s = .next t ∧ t.issue.fate = .parked ∧ t.me = { s.me with status := .parked .matrix, wait := .acc m } ∧
        SameOutside s t
      (∀ o : OpMfs, o.sreg.toNat = 72 + m.toNat ∨ o.sreg.toNat = 76 + m.toNat → parks (.mfs o)) ∧
      (∀ o : OpMts, o.imm.toNat = 76 + m.toNat → parks (.mts o))) ∧
    (∀ (o : OpMts), sregWritable o.imm.toNat = true → o.imm.toNat < 64 → Ready s [o.a] →
      ∃ t, exec (.mts o) s = .next t ∧ t.me = (s.me.setSreg o.imm.toNat (s.me.getG o.a)).retire s.issue.next ∧
        (∀ m, t.sreg m = (s.sreg m).map (fun old =>
          let new := if m = o.imm.toNat then (old &&& ~~~sregMask m) ||| (s.me.getG o.a &&& sregMask m) else old
          if m = 1 then new &&& ~~~0x400000#64 else new)) ∧
        SameOutside s t ∧ OtherThreadsSame s t s.issue.ep s.issue.ctx) ∧
    (∀ (o : OpMts) (r : BitVec 3), o.imm.toNat = 64 + r.toNat → s.me.eset = true → s.myCore.ringBusy r = false → Ready s [o.a] →
      ∃ t, exec (.mts o) s = .next t ∧ t.myCore.rings = vset r (s.me.getG o.a) s.myCore.rings ∧
        t.myCore.acc = s.myCore.acc ∧ t.myCore.cq = s.myCore.cq ∧ t.me = s.me.retire s.issue.next ∧ SameOutside s t) ∧
    (∀ (o : OpMts) (m : BitVec 2), o.imm.toNat = 76 + m.toNat → s.me.eset = true → s.accBusy m = false → Ready s [o.a] →
      ∃ t, exec (.mts o) s = .next t ∧ t.myCore.ast = vset m (vget m s.myCore.ast &&& ~~~(s.me.getG o.a)) s.myCore.ast ∧
        t.myCore.rings = s.myCore.rings ∧ t.me = s.me.retire s.issue.next ∧ SameOutside s t) ∧
    (∀ (o : OpMts), sregWritable o.imm.toNat = false → exec (.mts o) s = .next s.illegal)

/-- R108, R119 to R122: words the manual writes out decode to the instructions they stand for. -/
def Obligations.WordsDecode : Prop :=
  ∀ p ∈ words, decodeTableWord 32 p.1 = some p.2

/-- R108 to R122: every field of every well-formed word is kept: decoding the encoding of an instruction gives it back. -/
def Obligations.DecodeEncode : Prop :=
  ∀ (i : Instr) (w : Word), encode i = some w → i.wellFormed = true → decodeWord w = .ok i

/-- R108, R123: a word that decodes is the encoding of its instruction, but for P: no bit of it is ignored, and no two words with P = 0 mean the same.
-/
def Obligations.EncodeDecode : Prop :=
  ∀ (w : Word) (i : Instr), decodeWord w = .ok i → encode i = some (w &&& 0x7FFFFFFF) ∧ i.wellFormed = true

/-- R123: a word alone that decodes to nothing takes an illegal-instruction trap before any effect, with the major opcode and the word as its values:
that trap is all the effect such a word has. -/
def Obligations.ReservedWordTraps : Prop :=
  (∀ (s : State) (e : DecodeError), decodeWord s.issue.word = .error e → s.issue.word.getLsbD 31 = false →
    exec (instrOf s.issue.word) s =
      .next (s.trap 1 (BitVec.ofNat 64 (s.issue.word.toNat / 2 ^ 26 % 32)) (s.issue.word.setWidth 64))) ∧
  (∀ (s : State), s.me.handles = true → s.myCore.badRegs = [] → ∃ t, exec .illegalInstruction s = .next t ∧ t.me.tcause = 1 ∧
    t.me.tval0 = BitVec.ofNat 64 (s.issue.word.toNat / 2 ^ 26 % 32) ∧ t.me.tval1 = s.issue.word.setWidth 64 ∧
    t.me.tepc = s.issue.pc.setWidth 64 ∧ t.me.tst = s.me.st ∧ t.me.pc = (s.me.tvec.extractLsb' 2 16).setWidth 18 <<< 2 ∧ t.me.g = s.me.g ∧
    SameOutside s t ∧ OtherThreadsSame s t s.issue.ep s.issue.ctx)

/-- R20, R37, R44, R109, R272: when a core's turn comes, its clock advances, its threads wake, the first eligible context in the rotation takes its
boundary, and the word at its PC that decodes to an instruction runs it. An item of the agenda that names a step of the part runs that step with the
arguments it carries, unless a quiesce holds that part's unit back (R326). That the turns come from an agenda, and that an item of it runs its step,
is the model's own choice: log entries 4 and 68. -/
def Obligations.StepRunsTheTurn : Prop :=
  (∀ (s : State) (r : List Turn) (ep : Ep) (ctx : Ctx) (c : Core) (i : Instr),
      s.agenda = .issue ep :: r → (s.pkg (epPkg ep)).halted = false →
      let s1 := State.clocked { s with agenda := r } ep
      (s1.pkg (epPkg ep)).halted = false → (s1.core ep).pick (s1.core ep).rotation = (c, some ctx) →
      let s2 := s1.setCore ep c
      let t := vget ctx c.threads
      let w := BitVec.ofNat 32 (s2.mem.read (istorePa ep t.pc.toNat) 4)
      t.faultQ = [] → t.stepTrap = false → c.badWords = [] → c.badRegs = [] → c.stale = [] →
      w.getLsbD 31 = false → t.st.getLsbD 22 = false → decodeWord w = .ok i →
      step s = andThen (exec i (alone s2 ep ctx w)) (fun s' => .next ((s'.closed (alone s2 ep ctx w).me [i]).afterUnit (s2.thr ep ctx)))) ∧
  (∀ (s : State) (r : List Turn) (i : Instr) (a : EvArgs),
      s.agenda = .event i a :: r → encode i = none → i ≠ .illegalInstruction → State.quiesced { s with agenda := r } i a = false →
      step s = exec i { s with agenda := r, ev := a })

/-- R110 to R112: both words of a bundle read their registers before either writes: a branch beside a scalar instruction takes its condition from the
registers as they stood, the scalar result is computed from them too, and each has its effect; so too a jump that links, beside a scalar instruction that
reads the link register as it stood. R112: a trap that either word of a bundle raises at
issue keeps both from taking effect, and saves the bundle's address. Here the trap is that of a jump to a misaligned address. -/
def Obligations.BundlesReadFirstAndTrapWhole : Prop :=
  (∀ (iC iX : Instr) (o : OpBranch) (p : Dword → Dword → Bool) (srcs : List Reg) (d : Reg) (f : List Dword → Dword) (wC wX : Word) (s : State),
      Spec.branch iC = some (o, p) → scalar iX = some (srcs, d, f) → Ready s [o.a, o.b] → Ready s (srcs ++ [d]) →
      s.me.status = .ready → s.me.pend = [] →
      ∃ t, issueBundle exec iC iX wC wX s = .next t ∧ t.issue.fate = .issued ∧
        t.me.pc = (if p (s.me.getG o.a) (s.me.getG o.b) then target s.issue.pc o.off.toInt else s.issue.next) ∧
        t.me.getG d = (s.me.setG d (f (srcs.map s.me.getG))).getG d ∧ (∀ r, r ≠ d → t.me.getG r = s.me.getG r) ∧
        t.me.v = s.me.v ∧ t.me.k = s.me.k ∧ t.me.status = .ready ∧ SameOutside s t ∧ OtherThreadsSame s t s.issue.ep s.issue.ctx) ∧
  (∀ (iC iX : Instr) (link d : Reg) (reads srcs : List Reg) (goal : BitVec 18) (f : List Dword → Dword) (wC wX : Word) (s : State),
      linking s iC = some (link, reads, goal) → scalar iX = some (srcs, d, f) → d ≠ link ∨ d = 0 → Ready s (reads ++ [link]) → Ready s (srcs ++ [d]) →
      s.me.status = .ready → s.me.pend = [] →
      ∃ t, issueBundle exec iC iX wC wX s = .next t ∧ t.issue.fate = .issued ∧ t.me.pc = goal ∧
        t.me.getG link = (s.me.setG link (s.issue.next.setWidth 64)).getG link ∧ t.me.getG d = (s.me.setG d (f (srcs.map s.me.getG))).getG d ∧
        (∀ r, r ≠ d → r ≠ link → t.me.getG r = s.me.getG r) ∧ t.me.v = s.me.v ∧ t.me.k = s.me.k ∧ t.me.status = .ready ∧ SameOutside s t ∧
        OtherThreadsSame s t s.issue.ep s.issue.ctx) ∧
  (∀ (iX : Instr) (o : OpJalr) (srcs : List Reg) (d : Reg) (f : List Dword → Dword) (wC wX : Word) (s : State),
      scalar iX = some (srcs, d, f) → Ready s [o.a, o.d] → Ready s (srcs ++ [d]) → s.me.handles = true → s.myCore.badRegs = [] → s.me.pend = [] →
      ((s.me.getG o.a).toInt + 4 * o.imm.toInt) % 4 ≠ 0 →
      ∃ t, issueBundle exec (.jalr o) iX wC wX s = .next t ∧ t.me.tcause = 3 ∧ t.me.tepc = s.issue.pc.setWidth 64 ∧
        t.me.g = s.me.g ∧ t.me.v = s.me.v ∧ t.me.k = s.me.k ∧ t.me.tst = s.me.st ∧ SameOutside s t)

/-- R3, R57, R59: reading what was written gives the number written; every other byte, every full/empty bit and every poison mark is unchanged by a
write of bytes. -/
def Obligations.MemoryReadAfterWrite : Prop :=
  ∀ (m : Memory) (a n x b k : Nat),
    (m.write a n x).read a n = x % 2 ^ (8 * n) ∧ (b + k ≤ a ∨ a + n ≤ b → (m.write a n x).read b k = m.read b k) ∧
    (∀ i, (m.write a n x).isFull i = m.isFull i ∧ (m.write a n x).poisoned i = m.poisoned i) ∧
    (∀ i f, ((m.setFull a f).isFull i = if i / 8 = a / 8 then f else m.isFull i) ∧ (m.setFull a f).read b k = m.read b k)

/-- The state after reset has its memory in canonical form, every package in STATE 0 of its power-on sequence, no thread in any context, every general
register full, and nothing in flight (R320). The model's choices here: the value 0 of the registers (log 1), and that every byte of every memory, instruction
stores and host memory among them, reads 0, full and unmarked before anything has written it, before R320's initialisation too (log 2). -/
def Obligations.ResetState : Prop :=
  State.reset.Canonical ∧ (∀ a, State.reset.mem.byte a = 0 ∧ State.reset.mem.isFull a = true ∧ State.reset.mem.poisoned a = false) ∧
  (∀ p, (State.reset.pkg p).state = 0 ∧ (State.reset.pkg p).queues = [] ∧ (State.reset.pkg p).records = [] ∧
    (State.reset.pkg p).ftcfg = 0x401600 ∧ (State.reset.pkg p).pwrlim = 0x6905DC) ∧
  (∀ ep ctx, (State.reset.thr ep ctx).status = .free ∧ (State.reset.thr ep ctx).full = 0xFFFFFFFF ∧ (State.reset.thr ep ctx).st = 0 ∧
    (State.reset.thr ep ctx).pend = []) ∧
  State.reset.net = [] ∧ State.reset.launches = [] ∧ State.reset.waiters = []

/-- Equal memories are equal data along every run: from any state whose memory is in canonical form, every step of every agent leaves it so. -/
def Obligations.StepKeepsCanonicalMemory : Prop :=
  ∀ (s s' : State), s.Canonical → step s = .next s' → s'.Canonical

/-- R148: moves between the register files and mask operations: the scalar, vector or mask register named takes the stated value, every other lane and
register stays. -/
def Obligations.MoveResult : Prop :=
  ∀ (i : Instr) (s : State),
    (∀ d r f, toScalar i = some (d, r, f) → Ready s [d] → (∀ v, r = .inl v → VecReady s [v]) → Completes i s (s.me.setG d (f s.me))) ∧
    (∀ d a w p, toLanes i = some (d, a, w, p) → i.wellFormed = true → Ready s [a] → VecReady s [d] →
      ∃ x, Completes i s (s.me.setV d x) ∧ ∀ L, L < 512 / w →
        laneAt w x L = if p L then (s.me.getG a).setWidth w else laneAt w (s.me.getV d) L) ∧
    (∀ k f, maskResult i = some (k, f) → Completes i s (s.me.setK k (f s.me))) ∧
    (∀ o, i = .mvgk o → Ready s [o.a] → Completes i s (s.me.setK (o.d.setWidth 3) (s.me.getG o.a)))

/-- R200, R203: each active lane of the destination takes the operation's value of the lanes of its sources, an inactive one keeps its own; nothing
else changes but that a pending FMT is consumed (R117). R203: the saturating lane instructions clamp each active lane's exact result and raise SA when
clamping changed any. -/
def Obligations.VectorIntegerLanes : Prop :=
  (∀ (i : Instr) (o : OpVv) (f : (w : Nat) → BitVec w → BitVec w → BitVec w) (s : State),
      laneOp i = some (o, f) → VecReady s [o.a, o.b, o.d] →
      ∃ x, Completes i s ((s.me.setV o.d x).setStBit 20 false) ∧ ∀ L, L < 512 / bitsOf o.w →
        (Active s.me o.k L → laneAt (bitsOf o.w) x L = f _ (laneAt _ (s.me.getV o.a) L) (laneAt _ (s.me.getV o.b) L)) ∧
        (¬Active s.me o.k L → laneAt (bitsOf o.w) x L = laneAt _ (s.me.getV o.d) L)) ∧
  (∀ (i : Instr) (o : OpVv) (f : (w : Nat) → BitVec w → BitVec w → Int) (lo hi : Nat → Int) (s : State),
      laneSat i = some (o, f, lo, hi) → VecReady s [o.a, o.b, o.d] →
      let w := bitsOf o.w
      let exact := fun L => f w (laneAt w (s.me.getV o.a) L) (laneAt w (s.me.getV o.b) L)
      let clamp := fun L => max (lo w) (min (exact L) (hi w))
      ∃ x t, Completes i s t ∧ (∀ L, L < 512 / w →
          laneAt w x L = if L ∈ actives s.me o.k (512 / w) then BitVec.ofInt w (clamp L) else laneAt w (s.me.getV o.d) L) ∧
        t = (({ s.me.setV o.d x with
          st := s.me.st ||| (if (actives s.me o.k (512 / w)).any (fun L => clamp L ≠ exact L) then 0x20 else 0) } : Thread).setStBit 20 false))

/-- R204, R207: a compare sets the bit of each active lane for which its condition holds and clears every other bit of the mask; a floating compare is
false on a NaN (vfcmpun true), and NV is raised for a signalling NaN, or for any NaN where R207 says so. -/
def Obligations.CompareMasks : Prop :=
  ∀ (i : Instr) (s : State),
    (∀ o f, laneCmp i = some (o, f) → VecReady s [o.a, o.b] →
      ∃ m : Dword, Completes i s ((s.me.setK (o.d.setWidth 3) m).setStBit 20 false) ∧ ∀ L, L < 64 →
        (m.getLsbD L = true ↔ L < 512 / bitsOf o.w ∧ Active s.me o.k L ∧
          f _ (laneAt (bitsOf o.w) (s.me.getV o.a) L) (laneAt (bitsOf o.w) (s.me.getV o.b) L) = true)) ∧
    (∀ o f un q fmt, floatCmp i = some (o, f, un, q) → VecReady s [o.a, o.b] → formatOf s.me o.w = some fmt → s.me.fmt.rm ≠ some 6 →
      let x := fun L => fmt.decode (laneAt (bitsOf o.w) (s.me.getV o.a) L).toNat
      let y := fun L => fmt.decode (laneAt (bitsOf o.w) (s.me.getV o.b) L).toNat
      let nv := ∃ L ∈ actives s.me o.k (512 / bitsOf o.w),
        (x L).snan = true ∨ (y L).snan = true ∨ (q = true ∧ ((x L).isNan = true ∨ (y L).isNan = true))
      ∃ (m : Dword) (t : Thread), Completes i s t ∧ (∀ L, L < 64 →
          (m.getLsbD L = true ↔ L < 512 / bitsOf o.w ∧ Active s.me o.k L ∧
            (if (x L).isNan = true ∨ (y L).isNan = true then un = true else f (x L) (y L) = true))) ∧
        (nv → t = ({ s.me.setK (o.d.setWidth 3) m with st := s.me.st ||| 1 } : Thread).setStBit 20 false) ∧
        (¬nv → t = (s.me.setK (o.d.setWidth 3) m).setStBit 20 false))

/-- R204, R209: vsel takes each lane of a or b by its selector bit; the byte dot products add four exact products to each 32-bit lane of c, modulo
2^32 or, for vdp4s, clamped with SA. -/
def Obligations.SelectAndByteDot : Prop :=
  ∀ (s : State),
    (∀ o : OpVv, VecReady s [o.a, o.b, o.d] → ∃ x, Completes (.vsel o) s ((s.me.setV o.d x).setStBit 20 false) ∧
      ∀ L, L < 512 / bitsOf o.w → laneAt (bitsOf o.w) x L =
        if (s.me.getK o.k).getLsbD L then laneAt _ (s.me.getV o.a) L else laneAt _ (s.me.getV o.b) L) ∧
    (∀ i o sg sat, byteDots i = some (o, sg, sat) → VecReady s [o.a, o.b, o.c, o.d] →
      let e := dotOf sg (s.me.getV o.a) (s.me.getV o.b) (s.me.getV o.c)
      let c := fun L => if sat then max (-2 ^ 31) (min (e L) (2 ^ 31 - 1)) else e L
      ∃ x t, Completes i s t ∧ (∀ L, L < 16 → laneAt 32 x L = BitVec.ofInt 32 (c L)) ∧
        t = (({ s.me.setV o.d x with st := s.me.st ||| (if (List.range 16).any (fun L => c L ≠ e L) then 0x20 else 0) } : Thread).setStBit 20 false))

/-- R106, R199 to R202, R205 to R208: a floating instruction gives each active lane its exact result rounded once, keeps the others, raises the flags
of its active lanes, and under SR consumes one draw for every four lanes, lane L using word L. R81, R89, R123, R202: a floating instruction whose
width and format are none of R202's, or whose FMT gives rounding code 6, takes an illegal-instruction trap before any effect. How the exact results of
vexp2 and vlog2 are evaluated is the model's (log entry 12), and so is which value the format trap gives, so TVAL1 is left open here (log entry 42). -/
def Obligations.FloatLanes : Prop :=
  (∀ (i : Instr) (o : FloatOp) (fmt : FFmt) (s : State),
      floatOp i = some o → VecReady s (o.srcs ++ [o.d]) → formatOf s.me o.w = some fmt → s.me.fmt.rm ≠ some 6 →
      let w := bitsOf o.w
      let n := 512 / w
      let mode := modeOf s.me
      let bits := fun L r => (laneAt w (s.me.getV r) L).toNat
      let one := fun L => o.val fmt mode (if o.rounds ∧ mode = .sr then s.me.word L else 0) (bits L) (fun r => fmt.decode (bits L r))
      let act := actives s.me o.k n
      ∃ x t, Completes i s t ∧ (∀ L, L < n → laneAt w x L = if L ∈ act then BitVec.ofNat w (one L).1 else laneAt w (s.me.getV o.d) L) ∧
        (let r := raised s.me (allFlags (act.map (fun L => (one L).2))) (if o.rounds ∧ mode = .sr then n / 4 else 0);
          t = (({ s.me.setV o.d x with st := r.1, dctr := r.2 } : Thread).setStBit 20 false))) ∧
  (∀ (i : Instr) (o : FloatOp) (s : State), floatOp i = some o → (formatOf s.me o.w = none ∨ s.me.fmt.rm = some 6) →
      ∃ v, exec i s = .next (s.trap 1 (BitVec.ofNat 64 (s.issue.word.toNat / 2 ^ 26 % 32)) v))

/-- R90: rounding to nearest, ties to even: the result is within half a unit of the exact value, and even when it is exactly half way. R87, R91, R92:
a value that its format holds exactly is rounded to its own bits under every mode, and raises no flag. -/
def Obligations.RoundingAndExactValues : Prop :=
  (∀ (neg : Bool) (m d : Nat) (u : Word),
      let q := (roundTo .rne neg m 0 d false u).1
      2 * q * 2 ^ d ≤ 2 * m + 2 ^ d ∧ 2 * m ≤ 2 * q * 2 ^ d + 2 ^ d ∧
        (0 < d → (2 * q * 2 ^ d = 2 * m + 2 ^ d ∨ 2 * m = 2 * q * 2 ^ d + 2 ^ d) → q % 2 = 0) ∧
        ((roundTo .rne neg m 0 d false u).2 = true ↔ q * 2 ^ d ≠ m)) ∧
  (∀ (f : FFmt) (mode : RMode) (u : Word) (x : Nat), f ∈ [fp32, fp16, bf16, e5m2, e4m3] → x < 2 ^ f.width →
      (f.decode x).isNan = false → f.round mode u (f.decode x) = (x, {}))

/-- R211, R212: vperm, vsldu, vsldd, vexpd and vscani give each active lane its value and keep the others; vcmpr closes up the active lanes of a and
clears the rest. -/
def Obligations.PermuteLanes : Prop :=
  ∀ (s : State),
    (∀ i d srcs k w f, permuted i = some (d, srcs, k, w, f) → VecReady s (srcs ++ [d]) →
      ∃ x, Completes i s ((s.me.setV d x).setStBit 20 false) ∧ ∀ L, L < 512 / bitsOf w →
        (laneAt (bitsOf w) x L).toNat = if L ∈ actives s.me k (512 / bitsOf w) then f s.me L else (laneAt (bitsOf w) (s.me.getV d) L).toNat) ∧
    (∀ o : OpVu, VecReady s [o.a, o.d] → ∃ x, Completes (.vcmpr o) s ((s.me.setV o.d x).setStBit 20 false) ∧
      ∀ L, L < 512 / bitsOf o.w → laneAt (bitsOf o.w) x L =
        (((actives s.me o.k (512 / bitsOf o.w)).map (fun j => laneAt (bitsOf o.w) (s.me.getV o.a) j)).getD L 0))

/-- R212, R213: a reduction leaves its value in lane 0 and clears every other lane: the integer ones fold the active lanes, vfredmax and vfredmin take
the extreme of those that are no NaN, a signalling NaN giving the canonical NaN and NV. R105, R106, R213: vred sums its active lanes in the fixed
pairwise tree, rounding each sum, and clears the other lanes. R202, R208, R214: vfscan gives each active lane the running sum of the active lanes up
to it, rounded at each addition; vdp2 gives each of sixteen lanes the exact sum of two products of halves and an addend, rounded once. -/
def Obligations.ReductionsAndScans : Prop :=
  (∀ (s : State),
      (∀ i o f, reduced i = some (o, f) → VecReady s [o.a, o.d] →
        Completes i s ((s.me.setV o.d ((f (bitsOf o.w)
          ((actives s.me o.k (512 / bitsOf o.w)).map (fun j => laneAt _ (s.me.getV o.a) j))).setWidth 512)).setStBit 20 false)) ∧
      (∀ (o : OpVu) (mx : Bool) (fmt : FFmt), VecReady s [o.a, o.d] → formatOf s.me o.w = some fmt → s.me.fmt.rm ≠ some 6 →
        let xs := (actives s.me o.k (512 / bitsOf o.w)).map (fun j => (laneAt (bitsOf o.w) (s.me.getV o.a) j).toNat)
        let ys := xs.filter (fun x => !(fmt.decode x).isNan)
        let r := if xs.any (fun x => (fmt.decode x).snan) then fmt.nan
          else match ys with
            | [] => if xs = [] then fmt.inf mx else fmt.nan
            | y :: ys => ys.foldl (fun a b => (if mx then fmt.maxNum a b else fmt.minNum a b).1) y
        let st := if xs.any (fun x => (fmt.decode x).snan) then s.me.st ||| 1 else s.me.st
        Completes (if mx then .vfredmax o else .vfredmin o) s
          (({ s.me.setV o.d (BitVec.ofNat 512 r) with st := st } : Thread).setStBit 20 false))) ∧
  (∀ (o : OpVu) (fmt : FFmt) (s : State), VecReady s [o.a, o.d] → formatOf s.me o.w = some fmt → s.me.fmt.rm ≠ some 6 →
      let n := 512 / bitsOf o.w
      let mode := modeOf s.me
      let leaf := fun j => if j ∈ actives s.me o.k n then some (laneAt (bitsOf o.w) (s.me.getV o.a) j).toNat else none
      let add := fun e a b => fmt.result mode (if mode = .sr then s.me.word e else 0) ((fmt.decode a).add mode (fmt.decode b))
      let root := treeNode add n leaf (if o.w = 2 then 4 else 5) 0
      let v := match root.1 with
        | some a => if (fmt.decode a).isNan then fmt.nan else a
        | none => 0
      let nv : Bool := (actives s.me o.k n).any (fun j => (fmt.decode (laneAt (bitsOf o.w) (s.me.getV o.a) j).toNat).snan)
      let r := raised s.me (root.2.or { nv := nv }) (if mode = .sr then n / 4 else 0)
      Completes (.vred o) s (({ s.me.setV o.d (BitVec.ofNat 512 v) with st := r.1, dctr := r.2 } : Thread).setStBit 20 false)) ∧
  (∀ (s : State), s.me.fmt.rm ≠ some 6 →
      (∀ (o : OpVu) (fmt : FFmt), VecReady s [o.a, o.d] → formatOf s.me o.w = some fmt →
        let n := 512 / bitsOf o.w
        let sum := scanned fmt (modeOf s.me) s.me o.a o.k
        let r := raised s.me (sum n).2 (if modeOf s.me = .sr then (n - 1 + 3) / 4 else 0)
        ∃ x, Completes (.vfscan o) s (({ s.me.setV o.d x with st := r.1, dctr := r.2 } : Thread).setStBit 20 false) ∧
          ∀ L, L < n → (laneAt fmt.width x L).toNat =
            if L ∈ actives s.me o.k n then (sum (L + 1)).1.getD 0 else (laneAt fmt.width (s.me.getV o.d) L).toNat) ∧
      (∀ (o : OpR4) (h : FFmt), VecReady s [o.a, o.b, o.c, o.d] →
        (match s.me.fmt.fa with | none => h = bf16 | some c => (c = 20 ∧ h = bf16) ∨ (c = 21 ∧ h = fp16)) →
        let half := fun (r : Reg) i => h.decode (laneAt 16 (s.me.getV r) i).toNat
        let one := fun L => fp32.result (modeOf s.me) (if modeOf s.me = .sr then s.me.word L else 0)
          (dot2 (modeOf s.me) (half o.a (2 * L)) (half o.b (2 * L)) (half o.a (2 * L + 1)) (half o.b (2 * L + 1))
            (fp32.decode (laneAt 32 (s.me.getV o.c) L).toNat))
        let r := raised s.me (allFlags ((List.range 16).map (fun L => (one L).2))) (if modeOf s.me = .sr then 4 else 0)
        ∃ x, Completes (.vdp2 o) s (({ s.me.setV o.d x with st := r.1, dctr := r.2 } : Thread).setStBit 20 false) ∧
          ∀ L, L < 16 → laneAt 32 x L = BitVec.ofNat 32 (one L).1))

/-- R94, R215, R216: vcvt converts each active element of the source part and leaves every other lane of the destination; two formats given that
are no pair of R94 trap with both codes, and formats that are not both given trap too. R94, R217, R218: packing writes the active elements
of its part of the image and leaves every other element; unpacking writes the active byte lanes of its part and leaves the others (a value beyond I8
is the model's choice, log entry 16, and which flags an unpacking or a ternary packing raises is left open here). -/
def Obligations.ConversionsAndPacking : Prop :=
  (∀ (o : OpVcvt) (s : State) (a b ws wd : Nat) (ca cb : FClass),
      formats s.me = some (a, b) → a < 29 → b < 29 → s.me.fmt.rm ≠ some 6 → o.rm ≠ 6 → VecReady s [o.a, o.d] →
      laneFmtWidth a = some ws → laneFmtWidth b = some wd → fclass a = some ca → fclass b = some cb →
      (convertible ca cb = true → o.part.toNat < max ws wd / min ws wd →
        let n := 512 / max ws wd
        let mode := modeOr s.me o.rm
        let srcAt := fun i => if ws < wd then o.part.toNat * n + i else i
        let dstAt := fun i => if wd < ws then o.part.toNat * n + i else i
        let one := fun i => convertElem ca cb mode (if mode = .sr then s.me.word i else 0) (laneAt ws (s.me.getV o.a) (srcAt i)).toNat
        let act := actives s.me o.k n
        let r := raised s.me (allFlags (act.map (fun i => (one i).2))) (if mode = .sr then (n + 3) / 4 else 0)
        ∃ x, Completes (.vcvt o) s (({ s.me.setV o.d x with st := r.1, dctr := r.2 } : Thread).setStBit 20 false) ∧
          (∀ i, i ∈ act → laneAt wd x (dstAt i) = BitVec.ofNat wd (one i).1) ∧
          (∀ j, j < 512 / wd → (∀ i ∈ act, dstAt i ≠ j) → laneAt wd x j = laneAt wd (s.me.getV o.d) j)) ∧
      (convertible ca cb = false → exec (.vcvt o) s =
        .next (s.trap 1 (BitVec.ofNat 64 (s.issue.word.toNat / 2 ^ (26 : Nat) % 32)) (BitVec.ofNat 64 (a * 256 + b))))) ∧
  (∀ (o : OpVcvt) (s : State),
      (formats s.me = none → ∃ v, exec (.vcvt o) s = .next (s.trap 1 (BitVec.ofNat 64 (s.issue.word.toNat / 2 ^ (26 : Nat) % 32)) v)) ∧
      (∀ a b, formats s.me = some (a, b) → a < 29 → b < 29 → s.me.fmt.rm ≠ some 6 → o.rm ≠ 6 →
        laneFmtWidth a = none ∨ laneFmtWidth b = none ∨ fclass a = none ∨ fclass b = none →
        exec (.vcvt o) s = .next (s.trap 1 (BitVec.ofNat 64 (s.issue.word.toNat / 2 ^ (26 : Nat) % 32)) (BitVec.ofNat 64 (a * 256 + b))))) ∧
  (∀ (o : OpVp) (s : State),
      (s.me.fmt.fb = none → ∃ v, exec (.vpk o) s = .next (s.trap 1 (BitVec.ofNat 64 (s.issue.word.toNat / 2 ^ (26 : Nat) % 32)) v)) ∧
      (s.me.fmt.fa = none → ∃ v, exec (.vunp o) s = .next (s.trap 1 (BitVec.ofNat 64 (s.issue.word.toNat / 2 ^ (26 : Nat) % 32)) v))) ∧
  (∀ (i : Instr) (o : OpVp) (code : Nat) (unpack : Bool) (s : State),
      packing s.me i = some (o, code, unpack) → packable code = true → 64 * o.part.toNat < imageCap code → VecReady s [o.a, o.d] →
      let p := 64 * o.part.toNat
      let act := (actives s.me o.k 64).filter (fun L => p + L < imageCap code)
      ∃ x st, Completes i s (({ s.me.setV o.d x with st := st } : Thread).setStBit 20 false) ∧
        (unpack = false → ∀ n, n < imageCap code → elemGet code x.toNat n =
          if p ≤ n ∧ n - p ∈ act then (packElem code (laneAt 8 (s.me.getV o.a) (n - p)).toInt).1 else elemGet code (s.me.getV o.d).toNat n) ∧
        (unpack = false → code ≠ 12 → st = s.me.st ||| (allFlags (act.map (fun L => (packElem code (laneAt 8 (s.me.getV o.a) L).toInt).2))).bits) ∧
        (unpack = true → ∀ L, L < 64 → laneAt 8 x L =
          if L ∈ act then BitVec.ofInt 8 (max (-128) (min 127 (elemInt code (elemGet code (s.me.getV o.a).toNat (p + L)))))
          else laneAt 8 (s.me.getV o.d) L))

/-- R96, R219, R220: vqnt and vqnts write the 32 elements of a slot of the image, quantised block by block with one scale for each block, computed and
stored in the scale register by vqnt, read there by vqnts; every other element stays. R81, R221: vdqt writes the 32 values of a slot, each its
element's exact value under its block's scale rounded once. Where one register is named as image and as scale register, the order of the two writes is
the model's reading (log entry 17), as is that a clamped ML element raises NX (log entry 75). -/
def Obligations.QuantisedSlots : Prop :=
  (∀ (o : OpVq) (supplied : Bool) (s : State) (fl sc : Nat),
      formats s.me = some (fl, sc) → (fl = 20 ∨ fl = 21 ∨ fl = 22) → isScaledDest sc = true → s.me.fmt.rm ≠ some 6 →
      32 * o.part.toNat + 31 < imageCap sc → (fl = 22 → o.a ≠ 31) → VecReady s ((if fl = 22 then [o.a, o.a + 1] else [o.a]) ++ [o.x, o.d]) →
      let p := o.part.toNat
      let mode := modeOf s.me
      let block := fun (b : Nat × Nat × Nat) => quantBlock sc mode (fun i => if mode = .sr then s.me.word (b.1 + i) else 0)
        (if supplied then some (laneAt 8 (s.me.getV o.x) b.2.2).toNat else none) ((List.range b.2.1).map (fun i => floatElem s.me fl o.a (b.1 + i)))
      let r := raised s.me (allFlags ((blocks sc p).map (fun b => (block b).2.2))) (if mode = .sr then 8 else 0)
      ∃ img scales, Completes (if supplied then .vqnts o else .vqnt o) s
          (({ (s.me.setV o.d img).setV o.x scales with st := r.1, dctr := r.2 } : Thread).setStBit 20 false) ∧
        (∀ b ∈ blocks sc p, ∀ i, i < b.2.1 → elemGet sc img.toNat (32 * p + b.1 + i) = ((block b).2.1.getD i 0) % 2 ^ elemBits sc) ∧
        (∀ n, n < imageCap sc → (n < 32 * p ∨ 32 * p + 32 ≤ n) → elemGet sc img.toNat n = elemGet sc (s.me.getV o.d).toNat n) ∧
        (∀ j, j < 64 → laneAt 8 scales j =
          match supplied, (blocks sc p).find? (fun b => b.2.2 = j) with
          | false, some b => BitVec.ofNat 8 (block b).1
          | _, _ => laneAt 8 ((s.me.setV o.d img).getV o.x) j)) ∧
  (∀ (o : OpVq) (s : State) (sc fl : Nat),
      formats s.me = some (sc, fl) → (fl = 20 ∨ fl = 21 ∨ fl = 22) → isScaledDest sc = true → s.me.fmt.rm ≠ some 6 →
      32 * o.part.toNat + 31 < imageCap sc → (fl = 22 → o.d ≠ 31) → VecReady s ((if fl = 22 then [o.d, o.d + 1] else [o.d]) ++ [o.a, o.x]) →
      let p := o.part.toNat
      let mode := modeOf s.me
      let f := if fl = 22 then fp32 else if fl = 21 then fp16 else bf16
      let one := fun e => f.round mode (if mode = .sr then s.me.word e else 0)
        (scaledValue sc (elemGet sc (s.me.getV o.a).toNat (32 * p + e))
          (laneAt 8 (s.me.getV o.x) (if sc = 10 ∨ sc = 11 then 2 * p + e / 16 else p)).toNat)
      let r := raised s.me (allFlags ((List.range 32).map (fun e => (one e).2))) (if mode = .sr then 8 else 0)
      ∃ x y, Completes (.vdqt o) s (({ (if fl = 22 then (s.me.setV o.d x).setV (o.d + 1) y else s.me.setV o.d x) with st := r.1, dctr := r.2 } :
          Thread).setStBit 20 false) ∧
        ∀ e, e < 32 → (if fl = 22 then laneAt 32 (if e < 16 then x else y) (e % 16) = BitVec.ofNat 32 (one e).1
          else laneAt 16 x e = BitVec.ofNat 16 (one e).1))

/-- R103, R105, R222: draw returns words 1 and 0 of one draw under the thread's key, identity and counter, and consumes it; vdraw fills the active
lanes from four draws in order. R113 to R115: fmt and ext write their fields into PFX and set their bit of ST.PP; every other field of PFX stays. -/
def Obligations.DrawsAndPrefixes : Prop :=
  (∀ (s : State),
      (∀ o : OpD, Ready s [o.d] →
        let r := raised s.me Flags.none 1
        Completes (.draw o) s (({ s.me.setG o.d ((draw s.me.key s.me.did s.me.dctr).setWidth 64) with st := r.1, dctr := r.2 } :
          Thread).setStBit 20 false)) ∧
      (∀ o : OpVdraw, VecReady s [o.d] →
        let r := raised s.me Flags.none 4
        let src : VReg := draw s.me.key s.me.did (s.me.dctr + 3) ++ draw s.me.key s.me.did (s.me.dctr + 2) ++
          draw s.me.key s.me.did (s.me.dctr + 1) ++ draw s.me.key s.me.did s.me.dctr
        ∃ x, Completes (.vdraw o) s (({ s.me.setV o.d x with st := r.1, dctr := r.2 } : Thread).setStBit 20 false) ∧
          ∀ L, L < 512 / bitsOf o.w → laneAt (bitsOf o.w) x L =
            if L ∈ actives s.me o.k (512 / bitsOf o.w) then laneAt (bitsOf o.w) src L else laneAt (bitsOf o.w) (s.me.getV o.d) L)) ∧
  (∀ (s : State),
      (∀ o : OpFmt, o.ok = true → (o.va = 1 → o.fa.toNat < 29) → (o.vb = 1 → o.fb.toNat < 29) → (o.vr = 1 → o.rm ≠ 6) →
        ∃ t, Completes (.fmt o) s t ∧ t = { s.me with pfx := t.pfx, st := s.me.st ||| 0x100000 } ∧
          t.pfx = (s.me.pfx.extractLsb' 16 48) ++ o.va ++ o.vb ++ o.vr ++ o.fa ++ o.fb ++ o.rm) ∧
      (∀ o : OpExt, ∃ t, Completes (.ext o) s t ∧ t = { s.me with pfx := t.pfx, st := s.me.st ||| 0x200000 } ∧
        t.pfx = o.extv ++ s.me.pfx.extractLsb' 0 40))

/-- R24, R39, R170, R174, R176: a load of the crew's allocation leaves its destination empty, and its return writes the bytes there, zero-extended;
nothing else changes. A port takes the value as a push. Poison makes the thread FAULTED with kind 3 and its destination as it was, a scalar register
empty (R172). R3, R32, R59, R170, R173, R175, R176: an ordinary store to the crew's allocation writes the low bytes of its data register, and no other
byte, full/empty bit or register; a whole dword loses its poison mark, a part keeps it. A load or store of a misaligned address traps with code 3, of
one beyond the allocation with code 4, before any effect. -/
def Obligations.LocalLoadsAndStores : Prop :=
  (∀ (i : Instr) (s : State) (b : Reg) (off : BitVec 7) (size pa : Nat) (la : BitVec 4) (gs vs : List Reg) (wr : Thread → Nat → Thread),
      loadOf i = some (b, off, size, la, gs, vs, wr) → Calm s → LocalAt s (address s b off size) size pa →
      (Ready s gs → Clean s.mem pa size → ∃ u, IssuesAndReturns i s u ∧
        u.me = longEnded s la.toNat .fill ((wr s.me (s.mem.read pa size)).setStBit 21 false) ∧
        SameOutside s u ∧ OtherThreadsSame s u s.issue.ep s.issue.ctx) ∧
      (Ready s gs → (s.mem.poisoned pa = true) → ∃ u, IssuesAndReturns i s u ∧ u.me.status = .faulted ∧ u.me.v = s.me.v ∧
        (∀ r, u.me.getG r = s.me.getG r) ∧ u.mem = s.mem ∧ u.me.outstanding = s.me.outstanding ++
          [{ ep := s.issue.ep, ctx := s.issue.ctx, seq := (s.pkg (epPkg s.issue.ep)).recSeq, kind := 3 }] ∧
        (∀ o : OpLoad, (i = .ld o ∨ i = .ldX o) → o.d ≠ 0 → u.me.isFull o.d = false)) ∧
      (∀ o : OpLoad, (i = .ld o ∨ i = .ldX o) → Ready s [o.b] → isPort o.d = true → 1 ≤ (s.me.portCode o.d).toNat → (s.me.portCode o.d).toNat ≤ 8 →
        s.me.eset = true → s.behind (s.me.portCode o.d) true = false →
        (s.myCore.queue (s.me.portCode o.d)).data.length + (s.myCore.queue (s.me.portCode o.d)).reserved < 32 → Clean s.mem pa size →
        ∃ u, IssuesAndReturns i s u ∧ (u.myCore.queue (s.me.portCode o.d)).data =
            (s.myCore.queue (s.me.portCode o.d)).data ++ [BitVec.ofNat 64 (s.mem.read pa size)] ∧
          (u.myCore.queue (s.me.portCode o.d)).reserved = (s.myCore.queue (s.me.portCode o.d)).reserved ∧
          u.me.g = s.me.g ∧ u.me.v = s.me.v ∧ u.mem = s.mem)) ∧
  (∀ (i : Instr) (s : State) (b : Reg) (off : BitVec 7) (size : Nat) (la : BitVec 4) (gs vs : List Reg) (wr : Thread → Nat → Thread),
      loadOf i = some (b, off, size, la, gs, vs, wr) → Calm s → Ready s gs →
      ((address s b off size).toNat % size ≠ 0 →
        exec i s = .next (s.trap 3 (address s b off size) (BitVec.ofNat 64 size))) ∧
      ((address s b off size).toNat % size = 0 → (address s b off size).getLsbD 63 = true →
        s.me.cgl.toNat - s.me.cgb.toNat < (address s b off size).toNat % 2 ^ 63 + size →
        exec i s = .next (s.trap 4 (address s b off size) (BitVec.ofNat 64 (s.me.cgl.toNat - s.me.cgb.toNat))))) ∧
  (∀ (i : Instr) (s : State) (b : Reg) (off : BitVec 7) (size pa : Nat) (strm : BitVec 3) (la : BitVec 4) (gs vs : List Reg) (data : Thread → Nat),
      storeOf i = some (b, off, size, strm, la, gs, vs, data) → Calm s → Ready s gs →
      (strm = 0 → LocalAt s (address s b off size) size pa → ∃ u, IssuesAndReturns i s u ∧
        u.me = longEnded s la.toNat .fill (s.me.setStBit 21 false) ∧ u.mem.read pa size = data s.me ∧ OnlyBytes s.mem u.mem pa size ∧
        (∀ a, u.mem.isFull a = s.mem.isFull a) ∧
        (∀ a, u.mem.poisoned a = if a / 8 * 8 ∈ wholeDwords pa size then false else s.mem.poisoned a) ∧
        SameBeside s u ∧ OtherThreadsSame s u s.issue.ep s.issue.ctx) ∧
      ((address s b off size).toNat % size ≠ 0 →
        exec i s = .next (s.trap 3 (address s b off size) (BitVec.ofNat 64 size))) ∧
      ((address s b off size).toNat % size = 0 → (address s b off size).getLsbD 63 = true →
        s.me.cgl.toNat - s.me.cgb.toNat < (address s b off size).toNat % 2 ^ 63 + size →
        exec i s = .next (s.trap 4 (address s b off size) (BitVec.ofNat 64 (s.me.cgl.toNat - s.me.cgb.toNat)))))

/-- R63, R65 to R67: a streamed store ends at once and opens an entry of the combining buffer, whatever its LA; 64 cycles without another store send
it as the first WRITE of the stream's session, kept until acknowledged. Memory is not written before it is performed. R51, R59, R61, R66, R174 to
R176, R299: an ordinary load or store of a global address that the die's cache maps leaves as one READ, or as one WRITE of stream 0's session, for the
address's home, with its result pending and its scalar destination empty. -/
def Obligations.StreamedStores : Prop :=
  (∀ (i : Instr) (s : State) (b : Reg) (off : BitVec 7) (size pa : Nat) (strm : BitVec 3) (la : BitVec 4) (gs vs : List Reg) (data : Thread → Nat),
    storeOf i = some (b, off, size, strm, la, gs, vs, data) → strm ≠ 0 → Calm s → Ready s gs →
    LocalAt s (address s b off size) size pa → (s.me.stream strm).opened = false → (s.me.stream strm).bound = false →
    (s.me.stream strm).err = false →
    ∃ t, exec i s = .next t ∧ t.me.pc = s.issue.next ∧ t.me.pend = [] ∧ t.me.g = s.me.g ∧ t.me.v = s.me.v ∧ t.mem = s.mem ∧ t.net = s.net ∧
      t.me.stream strm = { s.me.stream strm with bound := true, ep := s.issue.ep } ∧
      t.myCore.combine = [{ ctx := s.issue.ctx, strm := strm, seg := pa / 256 * 256, bytes := cellsOf pa size (data s.me),
                            whole := wholeDwords pa size, last := s.myCore.cyc.toNat, vas := [address s b off size] }] ∧
      (let late := t.setMyCore { t.myCore with cyc := s.myCore.cyc + 64 };
        s.myCore.cyc.toNat + 64 < 2 ^ 64 → ∃ u p, exec .combineTimeout { late with ev := { ep := s.issue.ep, n := 0 } } = .next u ∧
          u.net = s.net ++ [p] ∧ p.type = .write ∧ p.dst = s.issue.ep ∧ p.str = strm.setWidth 4 ∧ p.pa = BitVec.ofNat 54 (pa / 256 * 256) ∧
          p.seq = (s.me.stream strm).seq ∧ p.opn = true ∧ p.len = 256 ∧
          (∀ a < 256, p.be.getLsbD a = decide (pa % 256 ≤ a ∧ a < pa % 256 + size)) ∧
          p.payload / 2 ^ (8 * (pa % 256)) % 2 ^ (8 * size) = data s.me ∧
          (u.me.stream strm).unacked.length = 1 ∧ (u.me.stream strm).opened = true ∧
          (u.me.stream strm).seq = (s.me.stream strm).seq + 1 ∧ u.myCore.combine = [] ∧ u.mem = s.mem)) ∧
  (∀ (i : Instr) (s : State) (b : Reg) (off : BitVec 7) (size pa : Nat) (la : BitVec 4) (gs vs : List Reg) (wr : Thread → Nat → Thread),
    loadOf i = some (b, off, size, la, gs, vs, wr) → Calm s → Ready s gs → GlobalAt s (address s b off size) size .read pa →
    ∃ t p, SendsHome i s t p pa ∧ p.type = .read ∧ p.pa = BitVec.ofNat 54 (pa / 8 * 8) ∧ p.auxf = BitVec.ofNat 32 ((pa % 8 + size + 7) / 8 * 8) ∧
      t.me.pend.length = 1 ∧ (∀ o : OpLoad, (i = .ld o ∨ i = .ldX o) → o.d ≠ 0 → t.me.isFull o.d = false)) ∧
  (∀ (i : Instr) (s : State) (b : Reg) (off : BitVec 7) (size pa : Nat) (la : BitVec 4) (gs vs : List Reg) (data : Thread → Nat),
    storeOf i = some (b, off, size, 0, la, gs, vs, data) → Calm s → Ready s gs → FreshStream s 0 → GlobalAt s (address s b off size) size .write pa →
    paRegion pa ≠ .istore →
    ∃ t p, SendsHome i s t p pa ∧ p.type = .write ∧ p.pa = BitVec.ofNat 54 (pa / 8 * 8) ∧ p.len = BitVec.ofNat 9 ((pa % 8 + size + 7) / 8 * 8) ∧
      (∀ a < 256, p.be.getLsbD a = decide (pa % 8 ≤ a ∧ a < pa % 8 + size)) ∧ p.payload / 2 ^ (8 * (pa % 8)) % 2 ^ (8 * size) = data s.me ∧
      p.str = 0 ∧ p.seq = (s.me.stream 0).seq ∧ p.opn = true ∧ t.me.pend.length = 1 ∧ (t.me.stream 0).unacked.length = 1)

/-- R59, R177, R178: a gather replaces each active lane by the element at its own address and keeps the others; a scatter stores each active lane, the
highest last where lanes meet, and nothing else. Addresses of inactive lanes are not checked. -/
def Obligations.GathersAndScatters : Prop :=
  ∀ (i : Instr) (o : OpGs) (n size : Nat) (store : Bool) (s : State) (pa : Nat → Nat),
    gatherOf i = some (o, n, size, store) → Calm s → Ready s [o.b] →
    let act := actives s.me (o.m.setWidth 3) n
    (∀ L ∈ act, LocalAt s (laneAddress s o size L) size (pa L)) →
    (store = false → (∀ L ∈ act, Clean s.mem (pa L) size) → ∃ u x, IssuesAndReturns i s u ∧
      u.me = longEnded s o.la.toNat .fill (s.me.setV o.v x) ∧
      (∀ L < n, laneAt (8 * size) x L = if L ∈ act then BitVec.ofNat _ (s.mem.read (pa L) size) else laneAt _ (s.me.getV o.v) L) ∧
      SameOutside s u ∧ OtherThreadsSame s u s.issue.ep s.issue.ctx) ∧
    (store = true → ∃ u, IssuesAndReturns i s u ∧ u.me = longEnded s o.la.toNat .fill s.me ∧
      (∀ L ∈ act, (∀ M ∈ act, L < M → pa M ≠ pa L) → u.mem.read (pa L) size = (laneAt (8 * size) (s.me.getV o.v) L).toNat) ∧
      (∀ a, (∀ L ∈ act, a < pa L ∨ pa L + size ≤ a) → u.mem.byte a = s.mem.byte a) ∧
      (∀ a, u.mem.isFull a = s.mem.isFull a) ∧ SameBeside s u ∧ OtherThreadsSame s u s.issue.ep s.issue.ctx)

/-- R24, R45, R57, R58, R180: a full/empty operation whose condition holds reads its dword, or writes it and its bit; a waiting one joins the waiter
list and leaves memory and its destination as they are. One on a global address that the die's cache maps leaves as one ATOMIC of stream 0's session for
the dword's home, with its result pending (R51, R61, R297, R299). -/
def Obligations.FullEmptyOperations : Prop :=
  (∀ (i : Instr) (s : State) (b d : Reg) (la : BitVec 4) (gs : List Reg) (f : Thread → Bool → Dword → Bool × Dword × Dword × Bool) (pa : Nat),
    feOf i = some (b, la, gs, d, f) → Calm s → Ready s gs → LocalAt s (s.me.getG b) 8 pa → Clean s.mem pa 8 →
    let r := f s.me (s.mem.isFull pa) (BitVec.ofNat 64 (s.mem.read pa 8))
    ∃ u, IssuesAndReturns i s u ∧ OtherThreadsSame s u s.issue.ep s.issue.ctx ∧ OnlyBytes s.mem u.mem pa 8 ∧ u.net = s.net ∧
      (r.1 = true → u.me = longEnded s la.toNat .fill (s.me.setG d r.2.1) ∧
        u.mem.read pa 8 = r.2.2.1.toNat ∧ u.mem.isFull pa = r.2.2.2 ∧ u.waiters = []) ∧
      (r.1 = false → u.mem = s.mem ∧ (∀ g, u.me.getG g = s.me.getG g) ∧ u.me.pend.length = 1 ∧ (d ≠ 0 → u.me.isFull d = false) ∧
        (∃ w, u.waiters = [w] ∧ w.pa = pa ∧ w.ep = s.issue.ep ∧ w.ctx = s.issue.ctx ∧ w.pkt = none))) ∧
  (∀ (i : Instr) (s : State) (b d : Reg) (la : BitVec 4) (gs : List Reg) (f : Thread → Bool → Dword → Bool × Dword × Dword × Bool) (pa : Nat),
    feOf i = some (b, la, gs, d, f) → Calm s → Ready s gs → FreshStream s 0 → GlobalAt s (s.me.getG b) 8 .atomic pa → paHasFe pa = true →
    ∃ t p, SendsHome i s t p pa ∧ p.type = .atomic ∧ p.pa = BitVec.ofNat 54 pa ∧ p.op.extractLsb' 5 2 = 2 ∧ p.str = 0 ∧ p.opn = true ∧
      p.payload = (match i with | .stf o | .stff o => (s.me.getG o.d).toNat | .waita o => (s.me.getG o.c).toNat | _ => 0) ∧
      t.me.pend.length = 1 ∧ (d ≠ 0 → t.me.isFull d = false))

/-- R71, R182 to R186: an atomic at the core's own bank writes its function of the old value and the operand, returns the old value, zero-extended,
and touches no byte beside its own; sig also sets the dword full. A streamed atomic returns nothing and is sent on its stream. A read that meets
poison writes nothing back. So too in cluster scope, and in group scope for a thread that has its group, where the atomic may be performed at the cluster
unit, and in ring scope within the ring. One on a global address in its scope leaves as one ATOMIC or SIGNAL for the address's home, in host scope for the
host; in cluster scope it is performed at the dword from the cluster unit. Ports among the sources are popped, and a port takes the old value as a push. -/
def Obligations.Atomics : Prop :=
  (∀ (i : Instr) (s : State) (d b a : Reg) (sc : BitVec 4) (strm : BitVec 3) (n pa : Nat) (f : Nat → Nat → Nat → Nat),
    atomicOf i = some (d, b, a, sc, strm, n, f) → Calm s → Ready s [a, b, d] → LocalAt s (s.me.getG b) n pa →
    let ring := InRing s (epPkg s.issue.ep)
    (strm = 0 → sc = 0 ∨ sc = 2 ∨ sc = 5 ∨ sc = 6 ∨ sc = 8 ∨ (sc = 7 ∧ ring) ∨
        ((sc = 4 ∨ (sc = 3 ∧ HasGroup s)) ∧ s.unitBusy s.issue.ep pa = false) → Clean s.mem pa n →
      ∃ u, IssuesAndReturns i s u ∧ u.me = longEnded s 0 .fill (s.me.setG d (BitVec.ofNat 64 (s.mem.read pa n))) ∧
        u.mem.read pa n = f (s.mem.read pa n) ((s.me.getG a).toNat % 2 ^ (8 * n)) (s.me.getG d).toNat ∧ OnlyBytes s.mem u.mem pa n ∧
        (u.mem.isFull pa = (s.mem.isFull pa || (match i with | .sig _ => true | _ => false))) ∧
        (∀ x, u.mem.poisoned x = s.mem.poisoned x) ∧ SameBeside s u ∧ OtherThreadsSame s u s.issue.ep s.issue.ctx) ∧
    (strm = 0 → sc = 2 → s.mem.poisoned pa = true → ∃ u, IssuesAndReturns i s u ∧ u.me.status = .faulted ∧ u.mem = s.mem ∧
      (∀ r, u.me.getG r = s.me.getG r)) ∧
    (strm ≠ 0 → i.wellFormed = true → sc = 1 ∨ sc = 2 ∨ sc = 5 ∨ sc = 6 ∨ sc = 8 ∨ (sc = 7 ∧ ring) →
      (s.me.stream strm).opened = false → (s.me.stream strm).bound = false → (s.me.stream strm).err = false →
      ∃ t p, exec i s = .next t ∧ t.me.pc = s.issue.next ∧ t.me.pend = [] ∧ t.me.g = s.me.g ∧ t.mem = s.mem ∧ t.net = s.net ++ [p] ∧
        (p.type = if (match i with | .sig _ => true | _ => false) then .signal else .atomic) ∧ p.pa = BitVec.ofNat 54 pa ∧
        p.dst = s.issue.ep ∧ p.opn = true ∧ p.seq = (s.me.stream strm).seq ∧ (t.me.stream strm).unacked.length = 1) ∧
    (10 ≤ sc.toNat ∨ (sc = 1 ∧ strm = 0) ∨ (sc = 0 ∧ strm ≠ 0) → i.wellFormed = true →
      exec i s = .next (s.trap 1 (BitVec.ofNat 64 (s.issue.word.toNat / 2 ^ 26 % 32)) (sc.setWidth 64)))) ∧
  (∀ (i : Instr) (s : State) (d b a : Reg) (sc : BitVec 4) (strm : BitVec 3) (n pa : Nat) (f : Nat → Nat → Nat → Nat),
    atomicOf i = some (d, b, a, sc, strm, n, f) → Calm s → Ready s [a, b, d] → i.wellFormed = true → GlobalAt s (s.me.getG b) n .atomic pa →
    (FreshStream s strm → (paHasFe pa = true ∧ ((sc = 1 ∧ strm ≠ 0) ∨ sc = 8 ∨ (sc = 7 ∧ InRing s (paPkg pa)) ∨ (sc = 6 ∧ paPkg pa = epPkg s.issue.ep) ∨
          (sc = 5 ∧ epPkg (homeEp pa) = epPkg s.issue.ep ∧ epDie (homeEp pa) = epDie s.issue.ep))) ∨
        (sc = 9 ∧ strm = 0 ∧ paRegion pa = .host ∧ ∃ o, i = .aadd o ∨ i = .aswp o ∨ i = .acas o) →
      ∃ t p, SendsHome i s t p pa ∧ (p.type = if (match i with | .sig _ => true | _ => false) then .signal else .atomic) ∧ p.pa = BitVec.ofNat 54 pa ∧
        p.payload = (match i with | .acas o => (s.me.getG o.d).toNat + (s.me.getG a).toNat * 2 ^ (64 : Nat) | _ => (s.me.getG a).toNat) ∧
        p.str = strm.setWidth 4 ∧ p.seq = (s.me.stream strm).seq ∧ p.opn = true ∧ (t.me.stream strm).unacked.length = 1 ∧
        t.me.pend.length = (if strm = 0 then 1 else 0)) ∧
    (sc = 4 → strm = 0 → paHasFe pa = true → s.unitBusy s.issue.ep pa = false → Clean s.mem pa n →
      paPkg pa = epPkg s.issue.ep ∨ (s.pkg (paPkg pa)).halted = false →
      ∃ u, IssuesAndReturns i s u ∧ u.me = longEnded s 0 .fill (s.me.setG d (BitVec.ofNat 64 (s.mem.read pa n))) ∧ u.net = s.net ∧
        u.mem.read pa n = f (s.mem.read pa n) ((s.me.getG a).toNat % 2 ^ (8 * n)) (s.me.getG d).toNat ∧ OnlyBytes s.mem u.mem pa n)) ∧
  (∀ (i : Instr) (s : State) (d b a : Reg) (n pa : Nat) (f : Nat → Nat → Nat → Nat), atomicOf i = some (d, b, a, 2, 0, n, f) → Calm s → Clean s.mem pa n →
    (∀ (s1 : State) (x y e : Dword), isPort d = false →
      ReadsThrough s ([a, b] ++ (match i with | .acas _ => [d] | _ => [])) [d] ([x, y] ++ (match i with | .acas _ => [e] | _ => [])) s1 → LocalAt s y n pa →
      ∃ u, IssuesAndReturns i s u ∧ u.me = longEnded s 0 .fill (s1.me.setG d (BitVec.ofNat 64 (s.mem.read pa n))) ∧
        u.mem.read pa n = f (s.mem.read pa n) (x.toNat % 2 ^ (8 * n)) e.toNat ∧ OnlyBytes s.mem u.mem pa n ∧
        u.myCore.cq = s1.myCore.cq ∧ u.myCore.inbox = s1.myCore.inbox) ∧
    (∀ (code : BitVec 4), code = s.me.portCode d → isPort d = true → (∀ o, i ≠ .acas o) → Ready s [a, b] → LocalAt s (s.me.getG b) n pa →
      1 ≤ code.toNat → code.toNat ≤ 8 → s.me.eset = true → s.behind code true = false → (s.myCore.queue code).data.length + (s.myCore.queue code).reserved < 32 →
      ∃ u, IssuesAndReturns i s u ∧ (u.myCore.queue code).data = (s.myCore.queue code).data ++ [BitVec.ofNat 64 (s.mem.read pa n)] ∧
        (u.myCore.queue code).reserved = (s.myCore.queue code).reserved ∧ u.me.g = s.me.g ∧
        u.mem.read pa n = f (s.mem.read pa n) ((s.me.getG a).toNat % 2 ^ (8 * n)) 0 ∧ OnlyBytes s.mem u.mem pa n))

/-- R187 to R190, R194: send places its message in the outbox and sends it on its session, reserving a reply slot for a request that wants a reply; a
full outbox parks it, or traps when ST.SQT is set. waitq and qlen give the count of their target; waitq waits at its PC while the count is too small.
-/
def Obligations.MessageInstructions : Prop :=
  ∀ (s : State), Calm s → s.myCore.parkOrder = [] → s.me.msgStreams = [] →
    (∀ (o : OpSend) (dst : Ep), (Instr.send o).wellFormed = true → Ready s [o.t] → Ready s (sendRegs o.a o.np) →
      dst = (s.me.getG o.t).setWidth 22 → (epUnit dst).toNat < 512 → (epPkg dst).toNat < (s.pkg (epPkg s.issue.ep)).npkg →
      let needs : Bool := o.kind = 0 && o.nr = 0
      let payload := if o.a = 0 then List.replicate (o.np.toNat + 1) 0 else (sendRegs o.a o.np).map s.me.getG
      (s.myCore.outboxUsed o.ob < 64 → (needs = true → s.myCore.freeSlot.isSome = true) →
        ∃ t p m, exec (.send o) s = .next t ∧ t.me.pc = s.issue.next ∧ t.me.g = s.me.g ∧ t.me.pend = [] ∧ t.mem = s.mem ∧
          t.myCore.outbox o.ob = s.myCore.outbox o.ob ++ [m] ∧ m.dst = dst ∧ m.payload = payload ∧ t.net = s.net ++ [p] ∧ p.type = .msg ∧
          p.dst = dst ∧ p.message = (m.header, payload) ∧ m.header.extractLsb' 48 16 = (s.me.getG o.t).extractLsb' 48 16 ∧
          m.header.extractLsb' 34 2 = o.np ∧ m.header.extractLsb' 33 1 = o.kind ∧ m.header.extractLsb' 32 1 = o.nr ∧
          m.header.extractLsb' 22 4 = s.issue.ctx ∧ m.header.extractLsb' 0 22 = s.issue.ep ∧
          (∀ i, needs = true → s.myCore.freeSlot = some i → m.header.extractLsb' 26 6 = BitVec.ofNat 6 i ∧
            t.myCore.replies = s.myCore.replies.setIfInBounds i { owner := some s.issue.ctx }) ∧
          (needs = false → t.myCore.replies = s.myCore.replies)) ∧
      (64 ≤ s.myCore.outboxUsed o.ob → s.me.st.getLsbD 23 = true →
        exec (.send o) s = .next (s.trap 6 (o.ob.setWidth 64) (s.me.getG o.t))) ∧
      (64 ≤ s.myCore.outboxUsed o.ob → s.me.st.getLsbD 23 = false →
        ∃ t, exec (.send o) s = .next t ∧ t.me.status = .parked .message ∧ t.me.pc = s.me.pc ∧ t.net = s.net)) ∧
    (∀ (o : OpWaitq), (Instr.waitq o).wellFormed = true → Ready s [o.a, o.d] → (o.code.toNat ≤ 8 → s.me.eset = true) →
      let count := s.targetCount s.issue.ep s.issue.ctx o.code
      (o.n.toNat ≤ count → Completes (.waitq o) s (s.me.setG o.d (BitVec.ofNat 64 count))) ∧
      (count < o.n.toNat → ∃ t, exec (.waitq o) s = .next t ∧ t.me.pc = s.me.pc ∧ (∃ r, t.me.status = .parked r) ∧
        t.me.wait = .count o.code o.n.toNat ∧ t.me.heldDest = .reg o.d ∧ t.me.g = s.me.g ∧ SameOutside s t ∧
        t.me.waitLimit = (if (s.me.getG o.a).toNat % 2 ^ (32 : Nat) = 0 then s.me.wlim.toNat % 2 ^ (32 : Nat) else (s.me.getG o.a).toNat % 2 ^ (32 : Nat)))) ∧
    (∀ (o : OpQlen), (Instr.qlen o).wellFormed = true → Ready s [o.d] → (o.code.toNat ≤ 8 → s.me.eset = true) →
      Completes (.qlen o) s (s.me.setG o.d (BitVec.ofNat 64 (s.targetCount s.issue.ep s.issue.ctx o.code))) ∧
      (o.code.toNat ≤ 8 → s.targetCount s.issue.ep s.issue.ctx o.code = (s.myCore.queue o.code).data.length))

/-- R41 to R43, R195, R196: a barrier instruction of a member notes its arrival, once in an episode; bar and barw wait at their PC, barw within WLIM,
bara goes on; barq reads the group's state; a thread that is no member traps at any of the four. The arrival of the last member at the root releases the
episode: every waiting member's BAR completes with the combined value. That the trap's TVAL1 is the word, and that arrivals on their way to the root count
in barq, are the model's readings (log entries 28 and 89). -/
def Obligations.Barriers : Prop :=
  (∀ (s : State) (l : Launch) (g : BitVec 8), Calm s → s.launch? s.me.home s.me.lid = some l → s.me.memberOf l g = true →
    let old := s.me.hasArrived l g
    let noted := fun (op : BitVec 2) (x : Dword) =>
      if old = true then s.arrivals else s.arrivals ++ [({ home := s.me.home, lid := s.me.lid, group := g, op := op, value := x } : Arrival)]
    let underWay := (s.arrivals.filter (fun a => decide (a.home = l.home ∧ a.lid = l.lid ∧ a.group = g))).length
    (∀ (o : OpBar) (w : Bool), o.group = g → Ready s [o.a, o.d] →
      ∃ t, exec (if w then .barw o else .bar o) s = .next t ∧ t.me.pc = s.me.pc ∧ t.me.status = .parked .barrier ∧ t.me.wait = .barrier g ∧
        t.me.heldDest = .reg o.d ∧ t.me.hasArrived l g = true ∧ t.me.waitLimit = (if w then s.me.wlim.toNat % 2 ^ (32 : Nat) else 0) ∧
        t.arrivals = noted o.op (s.me.getG o.a) ∧ t.me.g = s.me.g ∧ t.mem = s.mem) ∧
    (∀ (o : OpBara), o.group = g → Ready s [o.a] → ∃ t, exec (.bara o) s = .next t ∧ t.me.pc = s.issue.next ∧ t.me.status = .ready ∧
      t.me.hasArrived l g = true ∧ t.arrivals = noted o.op (s.me.getG o.a) ∧ t.me.g = s.me.g ∧ t.mem = s.mem) ∧
    (∀ (o : OpBarq), o.group = g → Ready s [o.d] → Completes (.barq o) s (s.me.setG o.d
      (BitVec.ofNat 64 ((if old = true then 2 ^ (63 : Nat) else 0) + (l.members g) % 2 ^ (24 : Nat) * 2 ^ (24 : Nat) +
        ((l.episode g).arrivals + underWay) % 2 ^ (24 : Nat)))))) ∧
  (∀ (s : State) (g : BitVec 8), s.groupOf g = none →
    (∀ (o : OpBar) (w : Bool), o.group = g → s.portStops [o.a] [o.d] = none →
      exec (if w then .barw o else .bar o) s = .next (s.trap 1 (g.setWidth 64) (s.issue.word.setWidth 64))) ∧
    (∀ (o : OpBara), o.group = g → s.portStops [o.a] [] = none → exec (.bara o) s = .next (s.trap 1 (g.setWidth 64) (s.issue.word.setWidth 64))) ∧
    (∀ (o : OpBarq), o.group = g → s.portStops [] [o.d] = none → exec (.barq o) s = .next (s.trap 1 (g.setWidth 64) (s.issue.word.setWidth 64)))) ∧
  (∀ (s : State) (a : Arrival) (l : Launch), s.ev.n = 0 → s.arrivals = [a] → s.launch? a.home a.lid = some l → l.saved = [] →
    let e := (l.episode a.group).join a
    (e.arrivals < l.members a.group → ∃ t, exec .barrierArrival s = .next t ∧ t.arrivals = [] ∧ t.cores = s.cores ∧ t.mem = s.mem ∧
      ∃ l', t.launch? a.home a.lid = some l' ∧ l'.episode a.group = e) ∧
    (l.members a.group ≤ e.arrivals → s.contexts.Nodup → ∃ t, exec .barrierArrival s = .next t ∧ t.arrivals = [] ∧ t.mem = s.mem ∧
      (∃ l', t.launch? a.home a.lid = some l' ∧ (l'.episode a.group).arrivals = 0 ∧ (l'.episode a.group).number = e.number + 1) ∧
      ∀ ep ctx r, (ep, ctx) ∈ s.contexts → (s.thr ep ctx).status = .parked .barrier → (s.thr ep ctx).wait = .barrier a.group →
        (s.thr ep ctx).waitFrom ≠ 0 → (s.thr ep ctx).home = a.home → (s.thr ep ctx).lid = a.lid → (s.thr ep ctx).hasArrived l a.group = true →
        (s.thr ep ctx).pend = [] → (s.thr ep ctx).heldDest = .reg r → isPort r = false →
        (t.thr ep ctx).status = .ready ∧ (t.thr ep ctx).pc = (s.thr ep ctx).heldNext ∧ (t.thr ep ctx).hasArrived l a.group = false ∧
        (t.thr ep ctx).getG r = ((s.thr ep ctx).setG r e.value).getG r))

/-- R36, R69, R166, R197, R198: a fence ends once what it names is over and waits before; quit ends its thread, whose context is FREE once its
operations are acknowledged, with one thread less in its launch; a crew with nothing left gives its allocation back, cleared (R32). -/
def Obligations.FencesAndEnds : Prop :=
  (∀ (s : State), Calm s →
    (∀ o : OpFns, Completes (.fns o) s s.me) ∧
    (s.myCore.copies = [] → Completes .fnc s s.me) ∧
    (∃ t, exec .ifnc s = .next t ∧ t.me = s.me.retire s.issue.next ∧ t.mem = s.mem ∧
      (∀ x ∈ t.myCore.stale, x ∈ s.myCore.stale ∧ x.2.2 ≠ s.me.nameKey) ∧
      (∀ x ∈ s.myCore.stale, (∀ y ∈ s.myCore.stale, y.1 = x.1 → y.2.2 ≠ s.me.nameKey) → x ∈ t.myCore.stale))) ∧
  (∀ (s : State) (o : OpFns) (n : BitVec 3), s.me.pend = [] → s.myCore.combine = [] → (s.me.stream n).unacked ≠ [] → 1 ≤ n.toNat →
    o.streams.getLsbD (n.toNat - 1) = true → ∃ t, exec (.fns o) s = .next t ∧ t.me.pc = s.me.pc ∧ t.me.status = .parked .fill ∧ t.me.g = s.me.g) ∧
  (∀ (s : State), s.me.pend = [] → s.myCore.combine = [] →
    (∃ k ∈ s.myCore.copies, k.ended = false ∧ s.me.owns k.home k.lid k.lti = true ∧ k.phase ≠ .done) ∨ (∃ n, (s.me.stream n).unacked ≠ []) →
    ∃ t, exec .fnc s = .next t ∧ t.me.pc = s.me.pc ∧ t.me.status = .parked .fill ∧ t.me.g = s.me.g ∧ t.mem = s.mem) ∧
  (∀ (s : State) (l : Launch), Calm s → (∀ n, (s.me.stream n).opened = false) → s.me.msgStreams = [] → s.me.outstanding = [] →
    s.myCore.mq = [] → s.launch? s.me.home s.me.lid = some l → s.me.heldReq = none → s.myCore.closes = [] →
    ∃ t u, exec .quit s = .next t ∧ t.me.quitting = true ∧ t.me.g = s.me.g ∧ t.mem = s.mem ∧ t.net = s.net ∧
      (∀ w ∈ t.myCore.replies.toList, w.owner ≠ some s.issue.ctx) ∧
      exec .contextFree { t with ev := { ep := s.issue.ep, ctx := s.issue.ctx } } = .next u ∧
      u.me.status = .free ∧ u.me.full = 0xFFFFFFFF ∧ u.me.g = Vector.replicate 32 0 ∧
      (u.launch? s.me.home s.me.lid).map Launch.live = some (l.live - 1)) ∧
  (∀ (s : State) (ep : Ep) (w : Crew), (s.core ep).crews = [w] → s.ev.ep = ep → s.ev.pkg = w.home → s.ev.lid = w.lid → s.crewIdle ep w = true →
    ∃ t, exec .crewRelease s = .next t ∧ (t.core ep).crews = [] ∧
      (∀ a, granaryPa ep w.base.toNat ≤ a → a < granaryPa ep w.base.toNat + (w.limit.toNat - w.base.toNat) →
        t.mem.byte a = 0 ∧ t.mem.isFull (a / 8 * 8) = (if granaryPa ep w.base.toNat ≤ a / 8 * 8 then true else s.mem.isFull a)) ∧
      (∀ a, a < granaryPa ep w.base.toNat ∨ granaryPa ep w.base.toNat + (w.limit.toNat - w.base.toNat) ≤ a → t.mem.byte a = s.mem.byte a))

/-- R35, R104, R167, R168: spawn sends a request with its arguments, draws the child's key and leaves its destination empty; the cluster unit answers
with the launch's next thread index, with 2^63 + 2 for a target outside the launch's mask, or with 2^63 + 1 when the launch's thread indices are exhausted;
and the request it holds takes a FREE context at a rotation boundary, with its arguments in g1 to g4. That a target outside the mask is answered so even
where the indices are exhausted too is the model's (log 62). -/
def Obligations.Spawning : Prop :=
  (∀ (s : State) (o : OpDA) (c : Dword), Calm s → (Instr.spawn o).wellFormed = true → Ready s ([o.a, o.a + 1, o.a + 2, o.a + 3, o.a + 4] ++ [o.d]) →
    c = s.me.getG o.a → c.extractLsb' 40 23 = 0 → (c.getLsbD 63 = true → c.extractLsb' 23 6 = 0) →
    (c.toNat % 4 ≠ 0 → exec (.spawn o) s = .next (s.trap 3 ((c.extractLsb' 0 18).setWidth 64) 4)) ∧
    (c.toNat % 4 = 0 → s.spawnTargetOk c = true → ∃ t r, exec (.spawn o) s = .next t ∧ t.me.pc = s.issue.next ∧ t.me.dctr = s.me.dctr + 1 ∧
      t.spawns = s.spawns ++ [r] ∧ r.entry = c.extractLsb' 0 18 ∧ r.tgt = c.extractLsb' 18 22 ∧ r.cluster = c.getLsbD 63 ∧
      r.args = [s.me.getG (o.a + 1), s.me.getG (o.a + 2), s.me.getG (o.a + 3), s.me.getG (o.a + 4)] ∧
      r.key = draw s.me.key s.me.did s.me.dctr ∧ r.did = s.me.did ∧ r.lid = s.me.lid ∧ r.asid = s.me.asid ∧ r.stored = false ∧ t.me.pend.length = 1 ∧
      (o.d ≠ 0 → t.me.isFull o.d = false) ∧ (∀ q, t.me.getG q = s.me.getG q) ∧ t.mem = s.mem)) ∧
  (∀ (s : State) (r : SpawnReq) (l : Launch) (p : Pending) (d : Reg), s.ev.n = 0 → s.spawns = [r] → r.stored = false →
    s.launch? r.home r.lid = some l → (s.thr r.from_ r.ctx).pend = [p] → p.kind = .spawn → p.dest = .reg d → isPort d = false →
    (s.thr r.from_ r.ctx).quitting = false →
    (r.targets.any l.selects = true → l.threads + l.nextChild < 2 ^ 24 → ∃ t r', exec .spawnRequest s = .next t ∧ t.spawns = [r'] ∧
      r'.stored = true ∧ r'.lti = BitVec.ofNat 24 (l.threads + l.nextChild) ∧ (t.thr r.from_ r.ctx).pend = [] ∧
      (t.thr r.from_ r.ctx).getG d = ((s.thr r.from_ r.ctx).setG d (BitVec.ofNat 64 (l.threads + l.nextChild))).getG d ∧
      (t.launch? r.home r.lid).map Launch.nextChild = some (l.nextChild + 1)) ∧
    (r.targets.any l.selects = true → 2 ^ 24 ≤ l.threads + l.nextChild → ∃ t, exec .spawnRequest s = .next t ∧ t.spawns = [] ∧
      (t.thr r.from_ r.ctx).getG d = ((s.thr r.from_ r.ctx).setG d 0x8000000000000001).getG d) ∧
    (r.targets.any l.selects = false → ∃ t, exec .spawnRequest s = .next t ∧ t.spawns = [] ∧
      (t.thr r.from_ r.ctx).getG d = ((s.thr r.from_ r.ctx).setG d 0x8000000000000002).getG d)) ∧
  (∀ (s : State) (r : SpawnReq) (l : Launch) (ctx : Ctx) (rest : List Ctx), s.spawns = [r] → r.stored = true →
    spawnUnit r.cluster r.tgt = spawnUnit false s.ev.ep → s.launch? r.home r.lid = some l → (s.core s.ev.ep).freeCtx = ctx :: rest →
    (s.core s.ev.ep).cyc.toNat % 16 = 0 → (s.pkg (epPkg s.ev.ep)).halted = false → s.ev.ep ∈ r.targets → s.admits s.ev.ep l = true →
    s.heldFrom s.ev.ep l.queue ((s.pkg r.home).queue l.queue).pri = false →
    ∃ t, exec .spawnPlace s = .next t ∧ t.spawns = [] ∧ (t.thr s.ev.ep ctx).status = .ready ∧ (t.thr s.ev.ep ctx).pc = r.entry ∧
      (t.thr s.ev.ep ctx).lti = r.lti ∧ (t.thr s.ev.ep ctx).lid = l.lid ∧ (t.thr s.ev.ep ctx).asid = r.asid ∧ (t.thr s.ev.ep ctx).did = r.did ∧
      (t.thr s.ev.ep ctx).dctr = 0 ∧ (t.thr s.ev.ep ctx).st = 0 ∧
      (∀ i < 4, (t.thr s.ev.ep ctx).getG (BitVec.ofNat 5 (i + 1)) = r.args.getD i 0) ∧
      (t.launch? r.home r.lid).map Launch.live = some (l.live + 1))

/-- R259, R260, R268: enq reads its record, for which its thread parks, and then copies it, under its own ASID, as one access into the slot that it
takes in an enabled device queue of its ASID; TAIL advances in slot order once the record is written, and the launch's identity is the answer. A
queue it may not use answers 2^63 + 2, a full one 2^63 + 1 with OVF set. A host write of TAIL enqueues what lies below it, unless it would pass HEAD
by more than the ring holds; R264: one that leaves the queue idle sets both its deficits to 0. The model's choices here: that a queue with HEAD = TAIL and no
launch left is the idle one (log 29), that the record is two accesses of 64 bytes (log 10), and that several ENQs may be under way, whose
slots TAIL passes in slot order, a later one's record waiting for the earlier ones, in a teardown too (log 63). -/
def Obligations.Enqueueing : Prop :=
  (∀ (s : State) (o : OpDA) (src : Nat), Calm s → (Instr.enq o).wellFormed = true → Ready s [o.a, o.a + 1, o.d] →
    LocalAt s (s.me.getG o.a) 128 src →
    let p := epPkg s.issue.ep
    let qn := (s.me.getG (o.a + 1)).toNat
    let q := (s.pkg p).queue qn
    let me := { s.me with record := none }
    (s.me.record = none → Clean s.mem src 128 → ReadsRecord (.enq o) s (s.me.getG o.a) src 16) ∧
    (∀ r : List Dword, HasRecord s (s.me.getG o.a) r → r.length = 16 →
      (4095 < qn ∨ q.enabled = false ∨ q.device = false ∨ q.tearing = true ∨ q.asid ≠ s.me.asid →
        Completes (.enq o) s (me.setG o.d 0x8000000000000002)) ∧
      (qn ≤ 4095 → q.enabled = true → q.device = true → q.tearing = false → q.asid = s.me.asid →
        (q.filled + q.claimed = q.slots → ∃ t, exec (.enq o) s = .next t ∧ t.me = (me.setG o.d 0x8000000000000001).retire s.issue.next ∧
          t.mem = s.mem ∧ ((t.pkg p).queue qn) = { q with ovf := true }) ∧
        (q.filled + q.claimed ≠ q.slots → ∀ pa s2, s.reach (q.slotVa (q.tail + BitVec.ofNat 32 q.claimed)) .write = .ok pa s2 → pa % 128 = 0 →
          (homeEp pa = s.issue.ep → paRegion pa = .granary → q.claimed = 0 → q.written = [] → ∃ u, IssuesAndReturns (.enq o) s u ∧
            (o.d ≠ 0 → u.me.getG o.d = BitVec.ofNat 64 (qn * 2 ^ (32 : Nat) + q.tail.toNat)) ∧ (∀ g, g ≠ o.d → u.me.getG g = s.me.getG g) ∧
            ((u.pkg p).queue qn) = { q with tail := q.tail + 1 } ∧
            u.mem.read pa 8 = (r.getD 0 0).toNat % 2 ^ (48 : Nat) + s.me.asid.toNat * 2 ^ (48 : Nat) ∧
            (∀ i, 1 ≤ i → i < 16 → u.mem.read (pa + 8 * i) 8 = (r.getD i 0).toNat) ∧ OnlyBytes s.mem u.mem pa 128 ∧
            (∀ a, u.mem.isFull a = s.mem.isFull a)) ∧
          (paRegion pa = .secondTier → (s.me.stream 0).opened = false → (s.me.stream 0).bound = false → (s.me.stream 0).err = false →
            ∃ t p1 p2, exec (.enq o) s = .next t ∧ t.me.pc = s.issue.next ∧ (o.d ≠ 0 → t.me.isFull o.d = false) ∧ t.mem = s.mem ∧
              ((t.pkg p).queue qn) = { q with claimed := q.claimed + 1 } ∧ t.net = s.net ++ [p1, p2] ∧
              (∀ x ∈ [p1, p2], x.type = .write ∧ x.dst = homeEp pa ∧ x.len = 64 ∧ x.str = 0 ∧ x.be = BitVec.ofNat 256 (2 ^ (64 : Nat) - 1)) ∧
              p1.pa = BitVec.ofNat 54 pa ∧ p2.pa = BitVec.ofNat 54 (pa + 64) ∧
              p1.payload % 2 ^ (64 : Nat) = (r.getD 0 0).toNat % 2 ^ (48 : Nat) + s.me.asid.toNat * 2 ^ (48 : Nat) ∧
              (∀ i, 1 ≤ i → i < 8 → p1.payload / 2 ^ (64 * i) % 2 ^ (64 : Nat) = (r.getD i 0).toNat) ∧
              (∀ i < 8, p2.payload / 2 ^ (64 * i) % 2 ^ (64 : Nat) = (r.getD (8 + i) 0).toNat)))))) ∧
  (∀ (s : State) (x : Pending) (d : Reg) (p : Pkg) (qn : Nat) (n : Word),
    let u := s.thr s.ev.ep s.ev.ctx
    let q := (s.pkg p).queue qn
    u.pend = [x] → x.id = s.ev.id → x.kind = .enq p qn n → x.dest = .reg d → isPort d = false → u.quitting = false → s.ev.parts = [] →
    (∀ l ∈ x.lanes, l.stage = .performed) → q.written = [] →
    ∃ t, exec .resultReturn s = .next t ∧ t.mem = s.mem ∧ t.net = s.net ∧ (t.thr s.ev.ep s.ev.ctx).pend = [] ∧
      (t.thr s.ev.ep s.ev.ctx).getG d = (u.setG d (BitVec.ofNat 64 (qn % 2 ^ (12 : Nat) * 2 ^ (32 : Nat) + n.toNat))).getG d ∧
      ((t.pkg p).queue qn) = (if n = q.tail then { q with tail := q.tail + 1, claimed := q.claimed - 1 } else { q with written := [n] })) ∧
  (∀ (s : State), let w := (s.pkg s.ev.pkg).queue s.ev.q.toNat; w.device = false → w.tearing = false → (s.pkg s.ev.pkg).state ≠ 4 →
    let idle := w.head = s.ev.tail ∧ (s.launchesOf s.ev.pkg s.ev.q.toNat).isEmpty = true
    ∃ t, exec .lqptrTailWrite s = .next t ∧ t.mem = s.mem ∧ t.cores = s.cores ∧ (t.pkg s.ev.pkg).queue s.ev.q.toNat =
      (if w.slots < (s.ev.tail - w.head).toNat then { w with ovf := true }
        else { w with tail := s.ev.tail, def0 := if idle then 0 else w.def0, def1 := if idle then 0 else w.def1 }))

/-- R40, R223 to R226: a copy command whose checks pass is queued at the tail with its operands, its draw base and the place of its word, and its
thread goes on, with the command as a pending result unless LA = 15. Its word moves no byte. R234: tld and tst first read their shape record, for
which the thread parks, and trap on a reserved bit in it. R31, R226: what a copy command traps on before it is queued: a misaligned operand with code
3, an operand out of its range with code 1, reason 11 and the block register, a local range beyond the allocation with code 4, and a ring it may not
use: without the engine set an illegal instruction, an unusable one the granary-bound trap (R231). R232: one with a ring destination that passes
reserves its tiles. -/
def Obligations.CopyCommandsQueue : Prop :=
  (∀ (i : Instr) (o : OpCopy) (eop n : Nat) (s : State) (record : List Dword),
      copyOf i = some (o, eop, n) → i.wellFormed = true → Calm s → Ready s (copyRegs o n) → s.myCore.copies.length < 32 →
      (∀ m : BitVec 2, (vget m s.myCore.slots).refs = 0) → designated (s.me.getG o.o1) = none →
      let ops := blockOf s o n
      let b := ops.map (fun (x : Dword) => x.toNat)
      s.copyStop (copyPlan eop b none 1) (if o.m = 0 then none else some (s.me.getG o.o2).toNat) none = none →
      (if eop = 3 ∨ eop = 4 then s.shapeRecord b none 1 = .ok record else record = []) →
      ∃ t k, exec i s = .next t ∧ t.myCore.copies = s.myCore.copies ++ [k] ∧ k.eop = BitVec.ofNat 5 eop ∧ k.ops = ops ∧ k.record = record ∧
        k.action = o.m ∧ (o.m ≠ 0 → k.w = s.me.getG o.o2) ∧ (o.m = 1 → k.value = s.me.getG o.o3) ∧ k.base = s.me.dctr ∧
        k.pc = s.issue.pc ∧ k.ctx = s.issue.ctx ∧ k.phase = .queued ∧ k.next = 0 ∧ t.me.pc = s.issue.next ∧ t.me.g = s.me.g ∧ t.me.v = s.me.v ∧
        t.mem = s.mem ∧ t.net = s.net ∧ OtherThreadsSame s t s.issue.ep s.issue.ctx ∧
        (o.la = 15 → t.me.pend = []) ∧ (o.la ≠ 15 → t.me.pend.map (fun p => (p.kind, p.dest)) = [(.copy k.id, .none)])) ∧
  (∀ (i : Instr) (o : OpCopy) (eop : Nat) (s : State) (src : Nat), copyOf i = some (o, eop, 3) → eop = 3 ∨ eop = 4 → i.wellFormed = true → Calm s →
      Ready s (copyRegs o 3) → s.myCore.copies.length < 32 → designated (s.me.getG o.o1) = none →
      s.copyStop (copyPlan eop ((blockOf s o 3).map (fun (x : Dword) => x.toNat)) none 1) (if o.m = 0 then none else some (s.me.getG o.o2).toNat) none = none →
      let va := s.me.getG (o.o1 + 1)
      (s.me.record = none → LocalAt s va 64 src → Clean s.mem src 64 → ReadsRecord i s va src 8) ∧
      (∀ r, HasRecord s va r → r.length = 8 → (r.getD 2 0).extractLsb' 40 24 ≠ 0 ∨ (r.getD 3 0).extractLsb' 24 40 ≠ 0 ∨
        (r.getD 5 0).extractLsb' 40 24 ≠ 0 ∨ r.getD 6 0 ≠ 0 ∨ r.getD 7 0 ≠ 0 ∨ 16 < ((r.getD 3 0).extractLsb' 16 8).toNat →
        exec i s = .next (State.trap (s.setMe { s.me with record := none }) 1 11 1))) ∧
  (∀ (o : OpCopy) (s : State), (Instr.cpy o).wellFormed = true → Calm s → Ready s (copyRegs o 3) → designated (s.me.getG o.o1) = none → o.m = 0 →
      let d := s.me.getG o.o1
      let a := s.me.getG (o.o1 + 1)
      let n := s.me.getG (o.o1 + 2)
      (2 ^ (36 : Nat) < n.toNat → exec (.cpy o) s = .next (s.trap 1 11 2)) ∧
      (n.toNat ≤ 2 ^ (36 : Nat) → d.toNat % 8 ≠ 0 → exec (.cpy o) s = .next (s.trap 3 d 8)) ∧
      (n.toNat ≤ 2 ^ (36 : Nat) → d.toNat % 8 = 0 → a.toNat % 8 ≠ 0 → exec (.cpy o) s = .next (s.trap 3 a 8)) ∧
      (n.toNat ≤ 2 ^ (36 : Nat) → d.toNat % 8 = 0 → a.toNat % 8 = 0 → n.toNat % 8 = 0 → 0 < n.toNat → d.getLsbD 63 = true →
        s.me.cgl.toNat - s.me.cgb.toNat < d.toNat % 2 ^ (63 : Nat) + n.toNat →
        exec (.cpy o) s = .next (s.trap 4 d (BitVec.ofNat 64 (s.me.cgl.toNat - s.me.cgb.toNat))))) ∧
  (∀ (i : Instr) (o : OpCopy) (eop n : Nat) (s : State) (record : List Dword) (r : BitVec 3),
      copyOf i = some (o, eop, n) → i.wellFormed = true → Calm s → Ready s (copyRegs o n) → s.myCore.copies.length < 32 → eop ≤ 3 ∨ eop = 9 →
      s.me.getG o.o1 = ringDesignator r →
      let d := vget r s.myCore.rings
      let b := (blockOf s o n).map (fun (x : Dword) => x.toNat)
      let w := if o.m = 0 then none else some (s.me.getG o.o2).toNat
      let plan := copyPlan eop b (some r) (tileBytes d)
      let room := s.me.cgl.toNat - s.me.cgb.toNat
      let usable := 1 ≤ (d.extractLsb' 16 5).toNat ∧ (d.extractLsb' 16 5).toNat ≤ 13 ∧
        (d.extractLsb' 0 16).toNat * 128 + 2 ^ ((d.extractLsb' 16 5).toNat - 1) * tileBytes d ≤ room
      (s.me.eset = false → exec i s = .next (s.trap 1 (BitVec.ofNat 64 (s.issue.word.toNat / 2 ^ 26 % 32)) (s.issue.word.setWidth 64))) ∧
      (s.me.eset = true → s.copyStop plan w none = none →
        (¬usable → exec i s = .next (s.trap 4 (0xC000000000000000 + r.setWidth 64) (BitVec.ofNat 64 room))) ∧
        (usable → (if eop = 3 then s.shapeRecord b (some r) (tileBytes d) = .ok record else record = []) →
          ∃ t k, exec i s = .next t ∧ t.myCore.copies = s.myCore.copies ++ [k] ∧ k.eop = BitVec.ofNat 5 eop ∧ k.ops = blockOf s o n ∧ k.record = record ∧
            k.action = o.m ∧ k.ring = some r ∧ k.phase = .queued ∧ k.tile = vget r s.myCore.ringNext ∧ k.tileLen = tileBytes d ∧
            vget r t.myCore.ringNext = vget r s.myCore.ringNext + k.bytes / tileBytes d ∧ (eop ≠ 3 → k.bytes = plan.bytes) ∧ t.myCore.rings = s.myCore.rings ∧
            t.me.pc = s.issue.next ∧ t.me.g = s.me.g ∧ t.mem = s.mem ∧ t.net = s.net ∧ OtherThreadsSame s t s.issue.ep s.issue.ctx))) ∧
  (∀ (o : OpCopy) (s : State), Calm s → s.myCore.copies.length < 32 → designated (s.me.getG o.o1) = none →
      ((Instr.cpys o).wellFormed = true → Ready s (copyRegs o 6) →
        (2 ^ (24 : Nat) < (s.me.getG (o.o1 + 2)).toNat → exec (.cpys o) s = .next (s.trap 1 11 2)) ∧
        ((s.me.getG (o.o1 + 2)).toNat ≤ 2 ^ (24 : Nat) → 2 ^ (24 : Nat) < (s.me.getG (o.o1 + 3)).toNat → exec (.cpys o) s = .next (s.trap 1 11 3))) ∧
      ((Instr.cpx o).wellFormed = true → Ready s (copyRegs o 4) → (s.me.getG (o.o1 + 3)).toNat < 16 → (s.me.getG (o.o1 + 1)).toNat % 16 ≠ 0 →
        exec (.cpx o) s = .next (s.trap 3 (s.me.getG (o.o1 + 1)) 16)) ∧
      ((Instr.hist o).wellFormed = true → Ready s (copyRegs o 3) → o.m ≠ 0 → (s.me.getG (o.o1 + 1)).toNat ≤ 2 ^ (36 : Nat) →
        (s.me.getG (o.o1 + 2)).toNat < 4 → (s.me.getG o.o2).toNat % 8 ≠ 0 → exec (.hist o) s = .next (s.trap 3 (s.me.getG o.o2) 8)))

/-- R74, R75, R224, R227, R228, R281: a copy within the crew's allocation leaves every destination byte as its source byte was, with its poison mark,
a fill leaves every dword its value; then the completion word is set, the queue entry is free, and nothing else has changed. A failed command leaves
its queue and posts its fault against its thread. R76, R229, R230, R232: a push writes the next dword of its source at its place in its tile when the
tile fits, and waits otherwise; the dword that ends a tile moves TAIL past it. R59, R228, R233, R236 to R247: a unit of a running command reads the
dwords it wants; with these read it writes what each command's rule says: a dword moved, fill, the scale bytes of one dword, an element gathered,
scattered or added, a histogram, a table, a coded block and the length, an expanded block, trits and scales. A block is coded when all its bytes have
codes and these fit, each code canonical and most significant bit first, else raw; expanding it gives its bytes back. That a completion acts at its
home at once, and how an event names reads and writes, is the model's (log 9), and so is which units share a dword that they read or write (log 79);
the flags of a tern are read as log 34 says. -/
def Obligations.CopiesRunAndPush : Prop :=
  ((∀ (s : State) (ep : Ep) (k : CopyCmd) (d a n dpa spa : Nat), LoneCopy s ep k → k.eop = 0 → k.ops.map (fun (x : Dword) => x.toNat) = [d, a, n] →
      d % 8 = 0 → a % 8 = 0 → n % 8 = 0 → 0 < n → k.total = n / 8 → k.action = 0 → CrewAt ep k d n dpa → CrewAt ep k a n spa →
      dpa + n ≤ spa ∨ spa + n ≤ dpa →
      ∃ u, CopyRuns s ep k u ∧ (u.core ep).copies = [] ∧ u.net = s.net ∧
        (∀ j < n, u.mem.byte (dpa + j) = s.mem.byte (spa + j)) ∧ (∀ j < n, u.mem.poisoned (dpa + j) = s.mem.poisoned (spa + j)) ∧
        OnlyBytes s.mem u.mem dpa n ∧ (∀ x, u.mem.isFull x = s.mem.isFull x) ∧ (∀ x, (u.thr ep x).g = (s.thr ep x).g)) ∧
    (∀ (s : State) (ep : Ep) (k : CopyCmd) (d n dpa wpa : Nat) (x : Dword), LoneCopy s ep k → k.eop = 2 → k.ops = [BitVec.ofNat 64 d, x, BitVec.ofNat 64 n] →
      d % 8 = 0 → n % 8 = 0 → 0 < n → n < 2 ^ (37 : Nat) → k.total = n / 8 → k.action = 1 → CrewAt ep k d n dpa → CrewAt ep k k.w.toNat 8 wpa → k.w.toNat % 8 = 0 →
      dpa + n ≤ wpa ∨ wpa + 8 ≤ dpa →
      ∃ u, CopyRuns s ep k u ∧ (u.core ep).copies = [] ∧ (∀ j < n / 8, u.mem.read (dpa + 8 * j) 8 = x.toNat) ∧
        u.mem.read wpa 8 = k.value.toNat ∧ u.mem.isFull wpa = true ∧ (∀ b, b < dpa ∨ dpa + n ≤ b → b < wpa ∨ wpa + 8 ≤ b → u.mem.byte b = s.mem.byte b)) ∧
    (∀ (s : State) (ep : Ep) (k : CopyCmd) (r : FaultReq) (ctx : Ctx), (s.core ep).copies = [k] → k.phase = .failed → k.fault = some r → k.streams = [] →
      k.puts = [] → k.buf = [] → k.tail = [] → k.ended = false → (s.core ep).ctxOf k.home k.lid k.lti = some ctx → (s.core ep).closes = [] →
      ∃ t, exec .copyFail (naming s ep k.id 0) = .next t ∧ (t.core ep).copies = [] ∧ t.mem = s.mem ∧
        ((s.thr ep ctx).status = .ready → (t.thr ep ctx).faultQ = (s.thr ep ctx).faultQ ++ [r] ∧ (t.thr ep ctx).status = .ready) ∧
        ((∃ w, (s.thr ep ctx).status = .parked w) → (t.thr ep ctx).status = .faulted ∧
          (t.pkg (epPkg ep)).records.length = (s.pkg (epPkg ep)).records.length + 1))) ∧
  (∀ (s : State) (ep : Ep) (k : CopyCmd) (r : BitVec 3) (a n spa : Nat) (d : Dword), OnlyCopy s ep k → k.phase = .running → k.ring = some r →
      k.got = [] → k.eop = 0 → k.ops.map (fun (x : Dword) => x.toNat) = [(ringDesignator r).toNat, a, n] →
      d = vget r (s.core ep).rings → k.total = n / 8 → 8 * k.next + 8 ≤ n → a % 8 = 0 → CrewAt ep k a n spa → (s.core ep).ringDone = [] → (s.core ep).badRegs = [] →
      ringUsable d (k.cgl.toNat - k.cgb.toNat) = true → k.tileLen = tileBytes d → vget r (s.core ep).ringTails % 8192 = ringTail d →
      let t := k.tile + 8 * k.next / tileBytes d
      let first := vget r (s.core ep).ringTails
      let at_ := granaryPa ep (k.cgb.toNat + ringBase d + t % ringSlots d * tileBytes d + 8 * k.next % tileBytes d)
      (first + ringSlots d ≤ t + ringCount d → exec .ringPush (naming s ep k.id 1) = .next (naming s ep k.id 1)) ∧
      (t + ringCount d < first + ringSlots d → ∃ u, exec .ringPush (naming s ep k.id 1) = .next u ∧
        u.mem.read at_ 8 = s.mem.read (spa + 8 * k.next) 8 ∧ u.mem.poisoned at_ = s.mem.poisoned (spa + 8 * k.next) ∧ OnlyBytes s.mem u.mem at_ 8 ∧
        (u.core ep).copies.map CopyCmd.next = [k.next + 1] ∧
        ringTail (vget r (u.core ep).rings) = (if (8 * k.next + 8) % tileBytes d = 0 ∧ t = first then (ringTail d + 1) % 8192 else ringTail d) ∧
        ringHead (vget r (u.core ep).rings) = ringHead d)) ∧
  (∀ (s : State) (ep : Ep) (k : CopyCmd), LoneRunning s ep k →
    let done := fun (c : Nat) (p : State → CopyCmd → Prop) => UnitDone s ep k c p
    let i := k.next
    (∀ w l pa, k.unitStep (s.core ep).slots i = .want (w :: l) → CrewAt ep k w.at_ 1 pa → w.at_ / 8 = w.va / 8 → w.va % 8 = 0 →
      ∃ t, exec .copyStart (acting s ep k.id [i]) = .next t ∧ t.mem = s.mem ∧ t.net = s.net ∧ (t.core ep).copies =
        [{ k with got := k.got ++
          [{ key := w.key, va := w.va, pa := pa / 8 * 8, value := s.mem.read (pa / 8 * 8) 8, marked := s.mem.poisoned (pa / 8 * 8) }] }]) ∧
    (∀ a d dpa x, moved k i = some (a, d) → Fetched k (movedKey k i) a 8 x → CrewAt ep k d 8 dpa → dpa % 8 = 0 →
      done 1 (fun u _ => u.mem.read dpa 8 = x ∧ u.mem.poisoned dpa = false ∧ OnlyBytes s.mem u.mem dpa 8)) ∧
    (let fill := (k.record.getD 3 0).extractLsb' 0 8
     let sfill := (k.record.getD 3 0).extractLsb' 8 8
     let nb := ((k.record.getD 3 0).extractLsb' 16 8).toNat
     (∀ dpa, k.eop = 3 → CrewAt ep k (opOf k 0 + 8 * i) 8 dpa → dpa % 8 = 0 →
       (i < 256 → tensorRow k (i / 16) = none → done 1 (fun u _ => (∀ j < 8, u.mem.byte (dpa + j) = fill) ∧ OnlyBytes s.mem u.mem dpa 8)) ∧
       (∀ bs : Nat → Nat, 256 ≤ i → (∀ j < 8, let q := 8 * (i - 256) + j
          match (if q < 16 * nb then tensorRow k (q / nb) else none) with
          | some a => Fetched k k.total (a.2 + q % nb) 1 (bs j)
          | none => bs j = sfill.toNat) →
         done 1 (fun u _ => (∀ j < 8, u.mem.byte (dpa + j) = BitVec.ofNat 8 (bs j)) ∧ OnlyBytes s.mem u.mem dpa 8))) ∧
     (k.eop = 4 →
       (i < 256 → tensorRow k (i / 16) = none → done 1 (fun u _ => u.mem = s.mem)) ∧
       (∀ q, i = 256 + q → scaleByte k q = none → done 0 (fun u _ => u.mem = s.mem)) ∧
       (∀ q a m b, i = 256 + q → scaleByte k q = some a → m < q → scaleByte k m = some b → b / 8 = a / 8 → done 0 (fun u _ => u.mem = s.mem)) ∧
       (∀ q a dpa (bs : Nat → Nat), i = 256 + q → scaleByte k q = some a → (∀ m < q, ∀ b, scaleByte k m = some b → b / 8 ≠ a / 8) →
         (∀ j < 8, ∀ m, LastScale k m (a / 8 * 8 + j) → Fetched k k.total (opOf k 0 + 2048 + m) 1 (bs j)) → CrewAt ep k (a / 8 * 8) 8 dpa →
         done 1 (fun u _ => OnlyBytes s.mem u.mem dpa 8 ∧ ∀ j < 8, (∀ m, LastScale k m (a / 8 * 8 + j) → u.mem.byte (dpa + j) = BitVec.ofNat 8 (bs j)) ∧
           ((∀ m, scaleByte k m ≠ some (a / 8 * 8 + j)) → u.mem.byte (dpa + j) = s.mem.byte (dpa + j)))))) ∧
    (let sz := opOf k 3 % 512
     ∀ x, 8 ≤ sz → sz % 8 = 0 →
      (∀ v dpa, k.eop = 5 → Fetched k k.total (opOf k 2 + 4 * (8 * i / sz)) 4 x →
        (if x = 0xFFFFFFFF then v = 0 else Fetched k i (opOf k 1 + x * sz + 8 * i % sz) 8 v) → CrewAt ep k (opOf k 0 + 8 * i) 8 dpa → dpa % 8 = 0 →
        done 1 (fun u _ => u.mem.read dpa 8 = v ∧ OnlyBytes s.mem u.mem dpa 8)) ∧
      (k.eop = 6 → Fetched k k.total (opOf k 2 + 4 * (8 * i / sz)) 4 x →
        (x = 0xFFFFFFFF → done 1 (fun u _ => u.mem = s.mem)) ∧
        (∀ v dpa, x ≠ 0xFFFFFFFF → Fetched k i (opOf k 1 + 8 * i) 8 v → CrewAt ep k (opOf k 0 + x * sz + 8 * i % sz) 8 dpa → dpa % 8 = 0 →
          done 1 (fun u _ => u.mem.read dpa 8 = v ∧ OnlyBytes s.mem u.mem dpa 8))) ∧
      (k.eop = 7 → opOf k 3 / 2 ^ (9 : Nat) % 8 ≤ 3 →
        let w := if opOf k 3 / 2 ^ (9 : Nat) % 8 = 1 then 8 else 4
        Fetched k k.total (opOf k 2 + 4 * (w * i / sz)) 4 x →
        (x = 0xFFFFFFFF → done 0 (fun u _ => u.mem = s.mem)) ∧
        (∀ v dpa, x ≠ 0xFFFFFFFF → Fetched k (k.total + 1) (opOf k 1 + w * i) w v → CrewAt ep k (opOf k 0 + x * sz + w * i % sz) w dpa → dpa % w = 0 →
          s.mem.poisoned dpa = false →
          done 0 (fun u _ => u.mem.read dpa w = scatterSum (opOf k 3 / 2 ^ (9 : Nat) % 8) (s.mem.read dpa w) v ∧ OnlyBytes s.mem u.mem dpa w)))) ∧
    (∀ (x : Nat) (slot : BitVec 2), let n := min 8 (k.bytes - 8 * i)
      k.eop = 10 → 8 * i < k.bytes → slot.toNat = opOf k 2 % 4 → Fetched k k.total (opOf k 0 + 8 * i) n x →
      done 0 (fun u _ => u.mem = s.mem ∧ (vget slot (u.core ep).slots).lens = (vget slot (s.core ep).slots).lens ∧
        ∀ b < 256, ((vget slot (u.core ep).slots).hist.getD b 0).toNat =
          min (2 ^ (32 : Nat) - 1) (((vget slot (s.core ep).slots).hist.getD b 0).toNat + ((List.range n).filter (fun j => x / 2 ^ (8 * j) % 256 = b)).length))) ∧
    (∀ (slot : BitVec 2), k.eop = 11 → slot.toNat = opOf k 0 % 4 →
      let old := vget slot (s.core ep).slots
      let mode := opOf k 0 / 2 ^ (16 : Nat) % 4
      let becomes := fun (l : List Nat) (u : State) => u.mem = s.mem ∧ (vget slot (u.core ep).slots).lens = l.map (BitVec.ofNat 4) ∧
        (vget slot (u.core ep).slots).tag = BitVec.ofNat 8 (opOf k 0 / 2 ^ (8 : Nat)) ∧ (vget slot (u.core ep).slots).hist = old.hist
      (mode = 0 → ∃ l, BuiltFrom (fun b => (old.hist.getD b 0).toNat) l ∧ done 0 (fun u _ => becomes ((List.range 256).map l) u)) ∧
      (∀ x, mode = 1 → Fetched k 0 (opOf k 1) 256 x → i = 0 → let l := (List.range 256).map (fun j => x / 2 ^ (8 * j) % 256)
        ((∀ y ∈ l, y ≤ 12) ∧ (l.map (fun y => if y = 0 then 0 else 2 ^ (12 - y))).sum ≤ 2 ^ (12 : Nat) → done 0 (fun u _ => becomes l u)) ∧
        (¬((∀ y ∈ l, y ≤ 12) ∧ (l.map (fun y => if y = 0 then 0 else 2 ^ (12 - y))).sum ≤ 2 ^ (12 : Nat)) → FailsCheck s ep k 0 6)) ∧
      (∀ dpa, mode = 2 → CrewAt ep k (opOf k 1) 256 dpa → dpa % 8 = 0 →
        done 32 (fun u _ => (∀ j < 256, u.mem.byte (dpa + j) = (old.lens.getD j 0).setWidth 8) ∧ OnlyBytes s.mem u.mem dpa 256))) ∧
    (∀ (dpa : Nat) (slot : BitVec 2), k.eop = 8 → slot.toNat = opOf k 3 % 4 → let tab := vget slot (s.core ep).slots
      (∀ x, 4096 * i < k.bytes → Fetched k k.total (opOf k 1 + 4096 * i) (min 4096 (k.bytes - 4096 * i)) x →
        let b := encodeBlock tab.lens tab.tag slot ((List.range 4096).map (fun j => x / 2 ^ (8 * j) % 256))
        CrewAt ep k (opOf k 0 + k.outLen) b.length dpa → dpa % 8 = 0 →
        done 514 (fun u k' => HoldsBytes u.mem dpa b ∧ OnlyBytes s.mem u.mem dpa b.length ∧ k'.outLen = k.outLen + b.length)) ∧
      (k.bytes ≤ 4096 * i → CrewAt ep k (opOf k 4) 8 dpa → dpa % 8 = 0 → k.outLen < 2 ^ (64 : Nat) →
        done 1 (fun u _ => u.mem.read dpa 8 = k.outLen ∧ OnlyBytes s.mem u.mem dpa 8))) ∧
    (∀ (h : Nat), k.eop = 9 → 4096 * i < k.bytes → Fetched k i (opOf k 1 + k.srcPos) 16 h →
      let hd := readHeader h
      let tags := fun (n : BitVec 2) => (vget n (s.core ep).slots).tag
      (∀ e, hd.wrong (BitVec.ofNat 4 (opOf k 3)) tags = some e → FailsCheck s ep k i e) ∧
      (∀ x, hd.wrong (BitVec.ofNat 4 (opOf k 3)) tags = none → Fetched k i (opOf k 1 + k.srcPos + 16) (paddedLen hd.clen) x →
        (∀ e, decodePayload (vget hd.slot (s.core ep).slots).lens hd x = .error e → FailsCheck s ep k i e) ∧
        (∀ raw dpa, decodePayload (vget hd.slot (s.core ep).slots).lens hd x = .ok raw →
          CrewAt ep k (opOf k 0 + 4096 * i) (min 4096 (k.bytes - 4096 * i)) dpa → dpa % 8 = 0 →
          done 514 (fun u k' => HoldsBytes u.mem dpa (raw.take (k.bytes - 4096 * i)) ∧ k'.srcPos = k.srcPos + 16 + paddedLen hd.clen ∧
            OnlyBytes s.mem u.mem dpa (min 4096 (k.bytes - 4096 * i)))))) ∧
    (let word := fun (g e : Nat) => (randomWord (k.key1 ++ k.key0) k.did (k.base + BitVec.ofNat 64 (32 * g)) e).toNat
     let groups := fun (g n x : Nat) => (List.range n).map (fun m =>
        ternOf (opOf k 4) (word (g + m)) (fun e => x / 2 ^ (16 * (128 * m + e)) % 2 ^ (16 : Nat)))
     k.eop = 12 →
      (∀ x dpa, i < k.bytes / 1280 → Fetched k k.total (opOf k 1 + 1280 * i) 1280 x → CrewAt ep k (opOf k 0 + 128 * i) 128 dpa → dpa % 8 = 0 →
        let gs := groups (5 * i) 5 x
        let trits := gs.flatMap (fun w => w.1)
        done 16 (fun u k' =>
          HoldsBytes u.mem dpa ((List.range 128).map (fun j => ((List.range 5).map (fun e => trits.getD (5 * j + e) 0 * 3 ^ e)).sum)) ∧
          OnlyBytes s.mem u.mem dpa 128 ∧ k'.flags = gs.foldl (fun f w => f ||| BitVec.ofNat 8 w.2.2.bits.toNat) k.flags)) ∧
      (∀ x spa, k.bytes / 1280 ≤ i →
        let end_ := 8 * (i - k.bytes / 1280) + 8 - opOf k 3 % 8
        let g := end_ - 8
        let n := min (opOf k 2) end_ - g
        0 < n → Fetched k k.total (opOf k 1 + 256 * g) (256 * n) x → CrewAt ep k (opOf k 3 + g) n spa →
        done 1 (fun u _ => HoldsBytes u.mem spa ((groups g n x).map (fun w => w.2.1)) ∧ OnlyBytes s.mem u.mem spa n)))) ∧
  (∀ (lens : List (BitVec 4)) (tag : BitVec 8) (slot : BitVec 2) (raw : List Nat), raw.length = 4096 → (∀ y ∈ raw, y < 256) →
    let l := fun (y : Nat) => (lens.getD y 0).toNat
    let b := encodeBlock lens tag slot raw
    let h := packNats 8 (b.take 16)
    let clen := ((raw.map l).sum + 7) / 8
    let coded := (∀ y ∈ raw, 1 ≤ l y ∧ l y ≤ 12) ∧ clen ≤ 4095
    (coded → h = 1 + 4 * slot.toNat + 2 ^ (8 : Nat) * tag.toNat + 2 ^ (32 : Nat) * clen + 2 ^ (64 : Nat) * crc32c raw ∧ b.length = 16 + (clen + 15) / 16 * 16 ∧
      CodesFor l raw (packNats 8 (b.drop 16))) ∧
    (¬coded → h = 2 ^ (32 : Nat) * 4096 + 2 ^ (64 : Nat) * crc32c raw ∧ b.drop 16 = raw) ∧
    (TableFits l → decodePayload lens (readHeader h) (packNats 8 (b.drop 16)) = .ok raw ∧
      ∀ mask tags, (coded → mask.getLsbD slot.toNat = true ∧ tags slot = tag) → (readHeader h).wrong mask tags = none))

/-- R40, R248 to R251, R254, R255: a matrix command whose checks pass is queued with what it reads at issue; an mmt or mmtz with LA = 0 keeps its
thread at it, another leaves the command pending unless LA = 15. mwait ends when the queue is empty and waits otherwise. -/
def Obligations.MatrixCommandsQueue : Prop :=
  (∀ (i : Instr) (eop : Nat) (acc : BitVec 2) (la : BitVec 4) (gs : List Reg) (val : Thread → Dword × Dword) (s : State),
    matrixOf i = some (eop, acc, la, gs, val) → Calm s → Ready s gs → s.me.eset = true → matrixFits s i = true → s.myCore.mq = [] →
    ∃ t m, exec i s = .next t ∧ t.myCore.mq = [m] ∧ m.eop = BitVec.ofNat 5 eop ∧ m.acc = acc ∧ m.la = la ∧ (m.a, m.c) = val s.me ∧ m.phase = .queued ∧
      m.pc = s.issue.pc ∧ m.base = s.me.dctr ∧ t.me.g = s.me.g ∧ t.me.v = s.me.v ∧ t.mem = s.mem ∧ t.myCore.acc = s.myCore.acc ∧
      t.myCore.rings = s.myCore.rings ∧
      (match i with | .mmt o | .mmtz o => m.ringA = fld o.o2 0 3 ∧ m.ringB = fld o.o3 0 3 | _ => True) ∧
      (la = 0 ∧ eop ≤ 1 → t.me.pc = s.me.pc ∧ t.me.status = .parked .matrix) ∧
      (la = 15 → t.me.pc = s.issue.next ∧ t.me.pend = []) ∧
      (la ≠ 15 → ¬(la = 0 ∧ eop ≤ 1) → t.me.pc = s.issue.next ∧ t.me.pend.map (fun p => p.kind) = [.matrix m.id acc])) ∧
  (∀ (i : Instr) (s : State) (eop : Nat) (acc : BitVec 2) (la : BitVec 4) (gs : List Reg) (val : Thread → Dword × Dword),
    matrixOf i = some (eop, acc, la, gs, val) → s.me.eset = false →
    exec i s = .next (s.trap 1 (BitVec.ofNat 64 (s.issue.word.toNat / 2 ^ 26 % 32)) (s.issue.word.setWidth 64))) ∧
  (∀ (s : State) (o : OpLa), s.me.eset = true → Calm s →
    (s.myCore.mq = [] → Completes (.mwait o) s (s.me.setStBit 20 false)) ∧
    (s.myCore.mq ≠ [] → ∃ t, exec (.mwait o) s = .next t ∧ t.me.pc = s.me.pc ∧ t.me.status = .parked .matrix ∧ t.me.g = s.me.g ∧ t.mem = s.mem))

/-- R101, R249 to R251, R254 to R256: the first queued command starts when none runs. mclr clears its accumulator, AST and APC; mld loads the low 48
bits of 256 dwords; mst stores each element sign-extended and nothing else; R102: mdr writes 16 rows of converted elements, raises their flags in its
thread's ST, and leaves the accumulator; each then leaves the queue. A product goes on where its APC says it stopped at this word, else begins at step
0, with a clear accumulator for mmtz; one with no steps left is over. R81 to R86, R97 to R101, R230, R251: a K-step of a tile of any dense format by
tiles of any selector format, either of ringA and ringB the dense one, with scales or without, stationary or not, adds to element (i, j) of the
accumulator what R99 has: over the combined blocks the exact sum of products, scaled, cut toward -∞, a block of a NaN scale left out; the sum is
saturated to 48 bits, and AST records saturation, an invalid code and a NaN scale; a dense ring's HEAD and a selector's HEAD and KOFF move past what
was used, and the last step ends the command. (Where combined blocks straddle a selector's, log 86, it says nothing.) R40: with LA = 0 its end is that
of its thread's instruction, otherwise its pending result returns. Nothing is read that is no tile, and no memory is written. That mdr rounds
stochastically with the key and identity that its thread had at issue is the model's (log 33), and so is that a finite product outside an integer
output raises SA (log 85). -/
def Obligations.MatrixStartsAndSteps : Prop :=
  (∀ (s : State) (ep : Ep) (m : MxCmd) (b l : BitVec 24) (base : Nat), OnlyMatrix s ep m b l → m.phase = .queued →
      base = granaryPa ep (b.toNat + m.a.toNat % 2 ^ (63 : Nat)) →
      let others := fun (t : State) => ∀ x, x ≠ m.acc → vget x (t.core ep).acc = vget x (s.core ep).acc
      (m.eop = 5 → ∃ t, exec .matrixStart s = .next t ∧ (t.core ep).mq = [] ∧ vget m.acc (t.core ep).acc = Vector.replicate 256 0 ∧
        vget m.acc (t.core ep).ast = 0 ∧ vget m.acc (t.core ep).apc = 0 ∧ others t ∧ t.mem = s.mem) ∧
      (m.eop = 3 → m.a.toNat % 8 = 0 → b.toNat + m.a.toNat % 2 ^ (63 : Nat) + 2048 ≤ l.toNat → (∀ i < 256, s.mem.poisoned (base + 8 * i) = false) →
        ∃ t, TileRuns s ep m t ∧ t.mem = s.mem ∧ others t ∧
          (∀ i < 256, (vget m.acc (t.core ep).acc).toList.getD i 0 = BitVec.ofNat 48 (s.mem.read (base + 8 * i) 8))) ∧
      (m.eop = 4 → m.a.toNat % 8 = 0 → b.toNat + m.a.toNat % 2 ^ (63 : Nat) + 2048 ≤ l.toNat →
        ∃ t, TileRuns s ep m t ∧ (t.core ep).acc = (s.core ep).acc ∧ OnlyBytes s.mem t.mem base 2048 ∧
          (∀ i < 256, t.mem.read (base + 8 * i) 8 = (((vget m.acc (s.core ep).acc).toList.getD i 0).signExtend 64).toNat)) ∧
      (∀ (w : Nat) (x : Ctx), m.eop = 2 → drainBits (fld m.fmt 3 5).toNat = some w → (s.core ep).ctxOf m.home m.lid m.lti = some x →
        let stride := (m.c.extractLsb' 16 16).toNat
        let align := if 2 * w < 8 then 4 else 8
        let mode := RMode.ofCode m.rm
        let elem := fun (i j : Nat) => drained (m.fmt.extractLsb' 3 5).toNat w mode (if mode = .sr then randomWord m.key m.did m.base (16 * i + j) else 0)
          ((vget m.acc (s.core ep).acc).toList.getD (16 * i + j) 0)
          (if m.c.getLsbD 8 = true then some (m.scale.extractLsb' (32 * j) 32).toNat else none) (m.c.toNat % 256)
        m.a.toNat % align = 0 → stride % align = 0 → 2 * w ≤ stride → b.toNat + m.a.toNat % 2 ^ (63 : Nat) + 15 * stride + 2 * w ≤ l.toNat →
        ∃ t, TileRuns s ep m t ∧ (t.core ep).acc = (s.core ep).acc ∧ (t.core ep).ast = (s.core ep).ast ∧
          (∀ i < 16, t.mem.read (base + i * stride) (2 * w) = ((List.range 16).map (fun j => (elem i j).1 % 2 ^ w * 2 ^ (w * j))).sum) ∧
          (∀ a, (∀ i < 16, a < base + i * stride ∨ base + i * stride + 2 * w ≤ a) → t.mem.byte a = s.mem.byte a) ∧
          (t.thr ep x).st = (s.thr ep x).st |||
            (((List.range 256).foldl (fun f n => f.or (elem (n / 16) (n % 16)).2) Flags.none).bits)) ∧
      (m.eop.toNat ≤ 1 → let apc := vget m.acc (s.core ep).apc
        let word := apc.getLsbD 63 = true ∧ apc.extractLsb' 32 16 = m.pc.extractLsb' 2 16
        (word → apc.toNat % 2 ^ (32 : Nat) < m.a.toNat % 2 ^ (32 : Nat) → ∃ t, exec .matrixStart s = .next t ∧ (t.core ep).mq = [{ m with phase := .running }] ∧
          (t.core ep).acc = (s.core ep).acc ∧ (t.core ep).ast = (s.core ep).ast ∧ (t.core ep).apc = (s.core ep).apc ∧ t.mem = s.mem) ∧
        (¬word → 0 < m.a.toNat % 2 ^ (32 : Nat) → ∃ t, exec .matrixStart s = .next t ∧ (t.core ep).mq = [{ m with phase := .running }] ∧
          vget m.acc (t.core ep).acc = (if m.eop = 1 then Vector.replicate 256 0 else vget m.acc (s.core ep).acc) ∧ others t ∧
          vget m.acc (t.core ep).ast = (if m.eop = 1 then 0 else vget m.acc (s.core ep).ast) ∧
          (vget m.acc (t.core ep).apc).toNat = 2 ^ (63 : Nat) + (m.pc.extractLsb' 2 16).toNat * 2 ^ (32 : Nat) ∧ t.mem = s.mem) ∧
        (¬word → m.a.toNat % 2 ^ (32 : Nat) = 0 → m.la ≠ 0 → ∃ t, exec .matrixStart s = .next t ∧ (t.core ep).mq = [] ∧
          (vget m.acc (t.core ep).apc).getLsbD 63 = false ∧ others t ∧ t.mem = s.mem))) ∧
  (∀ (s : State) (ep : Ep) (m : MxCmd) (b l : BitVec 24) (rd rs : BitVec 3) (d e : Dword), OnlyMatrix s ep m b l → m.phase = .running →
      m.eop.toNat ≤ 1 → (s.core ep).tampered = [] → (m.ringA = rd ∧ m.ringB = rs) ∨ (m.ringA = rs ∧ m.ringB = rd) →
      d = vget rd (s.core ep).rings → e = vget rs (s.core ep).rings → ringFmt d ≤ 11 → 12 ≤ ringFmt e → ringFmt e ≤ 19 →
      let step := (vget m.acc (s.core ep).apc).toNat % 2 ^ (32 : Nat)
      let kd := (rowShape (ringFmt d)).1
      let ks := (rowShape (ringFmt e)).1
      let D := sideOf ep b d (if ringSta d = true then step * kd else 0)
      let S := sideOf ep b e (ringKoff e + if ringSta e = true then step * kd else 0)
      let held := fun (x : Dword) => (ringTail x + 8192 - ringHead x) % 8192
      let old := fun (i j : Nat) => ((vget m.acc (s.core ep).acc).toList.getD (16 * i + j) 0).toInt
      let sum := fun (i j : Nat) => old i j + if m.ringA = rd then stepTotal s.mem D S i j kd else stepTotal s.mem D S j i kd
      let kept := fun (x : Int) => max (-2 ^ (47 : Nat)) (min x (2 ^ (47 : Nat) - 1))
      D.pos / kd < held d → (S.pos + kd - 1) / ks < held e →
      ((rowShape (ringFmt d)).2 ≠ 0 → (rowShape (ringFmt e)).2 ≠ 0 → S.pos % (rowShape (ringFmt d)).2 = 0) →
      (∀ n < kd, ∀ x, (x < tileBytes d → s.mem.poisoned ((D.place n).1 + x) = false) ∧ (x < tileBytes e → s.mem.poisoned ((S.place n).1 + x) = false)) →
      step + 1 < 2 ^ (32 : Nat) →
      ∃ t, exec .matrixStep s = .next t ∧ t.mem = s.mem ∧
        (∀ i < 16, ∀ j < 16, ((vget m.acc (t.core ep).acc).toList.getD (16 * i + j) 0).toInt = kept (sum i j)) ∧
        (∀ n < 64, (vget m.acc (t.core ep).ast).getLsbD n = true ↔ (vget m.acc (s.core ep).ast).getLsbD n = true ∨
          (n = 0 ∧ ∃ i < 16, ∃ j < 16, kept (sum i j) ≠ sum i j) ∨ (n = 1 ∧ ∃ j < 16, ∃ x < kd, S.invalid s.mem j x) ∨
          (n = 2 ∧ ∃ i < 16, ∃ x < kd, D.scale s.mem i x = none ∨ S.scale s.mem i x = none)) ∧
        (∀ x, x ≠ m.acc → vget x (t.core ep).acc = vget x (s.core ep).acc ∧ vget x (t.core ep).ast = vget x (s.core ep).ast) ∧
        (∀ r, ringTail (vget r (t.core ep).rings) = ringTail (vget r (s.core ep).rings) ∧
          (r ≠ rd → r ≠ rs → vget r (t.core ep).rings = vget r (s.core ep).rings)) ∧
        (ringSta d = true → vget rd (t.core ep).rings = d) ∧ (ringSta e = true → vget rs (t.core ep).rings = e) ∧
        (ringSta d = false → ringHead (vget rd (t.core ep).rings) = (ringHead d + 1) % 8192 ∧ ringKoff (vget rd (t.core ep).rings) = ringKoff d) ∧
        (ringSta e = false → ringKoff (vget rs (t.core ep).rings) = (ringKoff e + kd) % ks ∧
          ringHead (vget rs (t.core ep).rings) = (ringHead e + (ringKoff e + kd) / ks) % 8192) ∧
        (vget m.acc (t.core ep).apc).toNat % 2 ^ (32 : Nat) = step + 1 ∧
        (step + 1 < m.a.toNat % 2 ^ (32 : Nat) → (t.core ep).mq = [m]) ∧
        (m.a.toNat % 2 ^ (32 : Nat) ≤ step + 1 → (t.core ep).mq = [] ∧ (vget m.acc (t.core ep).apc).getLsbD 63 = false ∧
          (∀ x, (s.core ep).ctxOf m.home m.lid m.lti = some x →
            (m.la ≠ 0 → (t.thr ep x).pend = (s.thr ep x).pend.filter (fun p => p.kind ≠ .matrix m.id m.acc) ∧ (t.thr ep x).pc = (s.thr ep x).pc) ∧
            (m.la = 0 → (s.thr ep x).wait = .matrixCommand m.id → (s.thr ep x).status = .parked .matrix → (s.thr ep x).heldDest = .none → (s.thr ep x).pend = [] →
              (t.thr ep x).status = .ready ∧ (t.thr ep x).wait = .none ∧ (t.thr ep x).pc = (s.thr ep x).heldNext ∧ (t.thr ep x).g = (s.thr ep x).g))))

/-- R56, R58, R80, R112, R159, R271 to R273: a fault posted against a thread makes it FAULTED with its record; a walk ends with a cached leaf that
wakes its waiters, or with the fault their reissue takes; it reads one entry of the tables at a time, as an ordinary load, the root table's first, and
a fault of a table says so in AUX0. A miss that found no room, and a refused wait, try again after 64 cycles and not before. That the tables are read
entry by entry as they then stand is the model's reading (log 26), as is AUX0 = 3 for a table that cannot be read (log 57). -/
def Obligations.FaultsWalksAndRetries : Prop :=
  (∀ (s : State) (r : FaultReq) (rest : List FaultReq), let t := s.thr s.ev.ep s.ev.ctx; t.faultQ = r :: rest → (s.core s.ev.ep).mq = [] →
    ∃ u, exec .systemFault s = .next u ∧ (u.thr s.ev.ep s.ev.ctx).status = .faulted ∧ (u.thr s.ev.ep s.ev.ctx).faultQ = rest ∧
      (u.thr s.ev.ep s.ev.ctx).g = t.g ∧ (u.thr s.ev.ep s.ev.ctx).pc = t.pc ∧ u.mem = s.mem ∧
      (let q := (s.pkg (epPkg s.ev.ep)).recSeq;
        (u.thr s.ev.ep s.ev.ctx).outstanding = t.outstanding ++ [{ ep := s.ev.ep, ctx := s.ev.ctx, seq := q, src := r.src, kind := r.kind, id := r.id }] ∧
        (u.pkg (epPkg s.ev.ep)).recSeq = q + 1 ∧
        (u.pkg (epPkg s.ev.ep)).records = (s.pkg (epPkg s.ev.ep)).records ++
          [{ ep := s.ev.ep, dwords := recordDwords s.ev.ep s.ev.ctx t.asid t.lid (decide (r.src = 0) && t.xd) true q (if r.src = 0 then t.pc else r.pc) r }])) ∧
  (∀ (s : State) (k : Walk) (w : WalkWaiter), (s.die s.ev.pkg s.ev.die).walks = [k] → (s.die s.ev.pkg s.ev.die).walkQueue = [] →
    s.ev.n = 0 → k.waiters = [w] → w.queue = none → w.copy = none → (s.thr w.ep w.ctx).wait = .walk → (s.thr w.ep w.ctx).status = .parked .fill →
    let va : Dword := BitVec.ofNat 64 (k.page * 2 ^ (16 : Nat));
    let awake := fun (t : State) f => (t.thr w.ep w.ctx).status = .ready ∧ (t.thr w.ep w.ctx).wait = .none ∧ (t.thr w.ep w.ctx).walkFault = f ∧
      (t.die s.ev.pkg s.ev.die).walks = [] ∧ t.mem = s.mem;
    let artb := (s.pkg s.ev.pkg).artb;
    let entry : Nat := s.ev.pkg.toNat * 2 ^ (44 : Nat) + (if k.read = 0 then artb.toNat / 2 ^ (19 : Nat) % 2 ^ (21 : Nat) * 2 ^ (19 : Nat) + 8 * k.asid.toNat
      else k.table + 8 * (va.toNat / 2 ^ ([42, 29, 16].getD (k.read - 1) 0) % 2 ^ (13 : Nat)));
    let e : Dword := BitVec.ofNat 64 (s.mem.read entry 8);
    let pointer := e.getLsbD 0 = true ∧ e.getLsbD 1 = false ∧ e.extractLsb' 62 2 = 0 ∧ e.extractLsb' 44 8 = 0 ∧ e.extractLsb' 6 10 = 0;
    let reaches := e.extractLsb' 52 10 = s.ev.pkg ∧ (e.extractLsb' 16 28).toNat * 2 ^ (16 : Nat) < 2 ^ (40 : Nat);
    (k.read = 0 → artb.getLsbD 0 = false → ∃ t, exec .walkComplete s = .next t ∧ awake t (some { page := k.page, kind := 1, table := true })) ∧
    (k.read ≠ 0 ∨ artb.getLsbD 0 = true → s.mem.poisoned entry = true → ∃ t, exec .walkComplete s = .next t ∧
      awake t (some { page := k.page, kind := 3, entryPa := entry })) ∧
    (k.read ≠ 0 ∨ artb.getLsbD 0 = true → s.mem.poisoned entry = false → k.read < 3 → pointer →
      (reaches → ∃ t, exec .walkComplete s = .next t ∧ (t.die s.ev.pkg s.ev.die).walks =
        [{ k with read := k.read + 1, table := (e.extractLsb' 16 28).toNat * 2 ^ (16 : Nat) }] ∧ t.mem = s.mem ∧ t.cores = s.cores) ∧
      (¬reaches → ∃ t, exec .walkComplete s = .next t ∧ awake t (some { page := k.page, kind := 1, entry := e, table := true }))) ∧
    (∀ level e, s.walkStep s.ev.pkg k.asid va k.read k.table = .leaf level e → (paPkg (leafPa level e va)).toNat < (s.pkg s.ev.pkg).npkg →
      (leafPermits e w.need = true → ∃ t, exec .walkComplete s = .next t ∧ awake t none ∧
        (((t.die s.ev.pkg s.ev.die).tlb.any (fun x => decide (x.asid = k.asid ∧ x.level = level ∧ x.vpn = vpnOf level va ∧ x.leaf = e))) = true)) ∧
      (leafPermits e w.need = false → ∃ t, exec .walkComplete s = .next t ∧ awake t (some { page := k.page, kind := 2 }) ∧
        (t.die s.ev.pkg s.ev.die).tlb = (s.die s.ev.pkg s.ev.die).tlb)) ∧
    (∀ e table, s.walkStep s.ev.pkg k.asid va k.read k.table = .invalid e table →
      ∃ t, exec .walkComplete s = .next t ∧ awake t (some { page := k.page, kind := 1, entry := e, table := table }))) ∧
  (∀ (s : State) (k : Walk) (q pa : Nat), (s.die s.ev.pkg s.ev.die).walks = [k] → (s.die s.ev.pkg s.ev.die).walkQueue = [] → s.ev.n = 0 →
    k.waiters = [{ ep := mkEp s.ev.pkg s.ev.die 0, queue := some q, need := 1 }] →
    s.walkStep s.ev.pkg k.asid (BitVec.ofNat 64 (k.page * 2 ^ (16 : Nat))) k.read k.table = .poison pa → epPkg (homeEp pa) = s.ev.pkg → ∃ t r, exec .walkComplete s = .next t ∧
      (t.die s.ev.pkg s.ev.die).walks = [] ∧ t.mem = s.mem ∧ t.cores = s.cores ∧ (t.pkg s.ev.pkg).records = (s.pkg s.ev.pkg).records ++ [r] ∧
      (r.dwords.getD 0 0).toNat % 2 ^ (12 : Nat) = 9 + 4 * 2 ^ (8 : Nat) ∧ r.ep = homeEp pa ∧ r.dwords.getD 4 0 = BitVec.ofNat 64 pa ∧
      ((t.pkg s.ev.pkg).queue q).walkFault = some { page := k.page, kind := 3, entryPa := pa }) ∧
  (∀ (s : State) (since : Nat), let t := s.thr s.ev.ep s.ev.ctx; t.wait = .walkRefused since → (∃ r, t.status = .parked r) →
    (since + 64 ≤ (s.core s.ev.ep).cyc.toNat → ∃ u, exec .walkRetry s = .next u ∧
      u.thr s.ev.ep s.ev.ctx = { t with status := .ready, wait := .none } ∧ u.mem = s.mem) ∧
    ((s.core s.ev.ep).cyc.toNat < since + 64 → exec .walkRetry s = .next s)) ∧
  (∀ (s : State) (p : Pending) (l : Lane) (since : Nat), (s.thr s.ev.ep s.ev.ctx).pend = [p] → p.id = s.ev.id → p.lanes = [l] → l.stage = .refused since →
    l.req.op ≠ .load → homeEp l.req.pa = s.ev.ep →
    ∃ u, exec .feWaitRetry s = .next u ∧ u.mem = s.mem ∧ (u.thr s.ev.ep s.ev.ctx).g = (s.thr s.ev.ep s.ev.ctx).g ∧
      (u.thr s.ev.ep s.ev.ctx).pend.map Pending.lanes =
        [[{ l with stage := if since + 64 ≤ (s.core s.ev.ep).cyc.toNat then .here else .refused since }]])

/-- R45, R58, R161: a bounded wait that has reached its limit is withdrawn and its thread takes the wait-limit trap at the instruction's own address,
with the values of R45's table: for WAITQ on a core queue, an inbox or an outbox, and for BARW, whose arrivals count those on
their way to the root (log 89); an LDF has its destination full again with the value it held, and one that its home holds is withdrawn there first.
Before the limit nothing happens. -/
def Obligations.WaitLimits : Prop :=
  (∀ (s : State) (code : BitVec 4) (n : Nat) (w : ParkReason), let t := s.thr s.ev.ep s.ev.ctx; let c := s.core s.ev.ep;
    t.waitFrom ≠ 0 → t.status = .parked w → (∃ r, t.heldDest = .reg r) → t.pend = [] → t.handles = true → c.badRegs = [] →
    let limited := fun (v0 v1 : Dword) =>
    (t.waitLimit ≠ 0 → t.waitFrom - 1 + t.waitLimit ≤ c.cyc.toNat → ∃ u, exec .waitLimitExpiry s = .next u ∧
      (u.thr s.ev.ep s.ev.ctx).tcause = 7 ∧ (u.thr s.ev.ep s.ev.ctx).tval0 = v0 ∧ (u.thr s.ev.ep s.ev.ctx).tval1 = v1 ∧
      (u.thr s.ev.ep s.ev.ctx).tepc = t.pc.setWidth 64 ∧ (u.thr s.ev.ep s.ev.ctx).status = .ready ∧ (u.thr s.ev.ep s.ev.ctx).waitFrom = 0 ∧
      (u.thr s.ev.ep s.ev.ctx).g = t.g ∧ u.mem = s.mem) ∧
    (t.waitLimit = 0 ∨ c.cyc.toNat < t.waitFrom - 1 + t.waitLimit → exec .waitLimitExpiry s = .next s);
    (t.wait = .count code n → s.targetCount s.ev.ep s.ev.ctx code < n → 1 ≤ code.toNat → code.toNat ≤ 12 →
      limited (code.setWidth 64) (if code.toNat ≤ 8 then
          BitVec.ofNat 64 ((c.queue code).head.toNat * 2 ^ (32 : Nat) + ((c.queue code).head.toNat + (c.queue code).data.length) % 32)
        else
          let used := match code.toNat with
            | 9 => c.inbox.length
            | 10 => (c.replies.toList.filter (fun x => x.owner.isSome || x.saved.isSome)).length
            | 11 => c.outbox0.length
            | _ => c.outbox1.length
          BitVec.ofNat 64 (used * 2 ^ (32 : Nat) + s.targetCount s.ev.ep s.ev.ctx code))) ∧
    (∀ g l, t.wait = .barrier g → s.launch? t.home t.lid = some l →
      let underWay := (s.arrivals.filter (fun a => decide (a.home = l.home ∧ a.lid = l.lid ∧ a.group = g))).length
      limited (g.setWidth 64) (BitVec.ofNat 64 (((l.episode g).arrivals + underWay) * 2 ^ (32 : Nat) + l.members g)))) ∧
  (∀ (s : State) (p : Pending) (l : Lane) (d : Reg) (why : ParkReason), let t := s.thr s.ev.ep s.ev.ctx;
    t.waitFrom = 0 → t.status = .parked why → t.pend = [p] → p.lanes = [l] → p.dest = .reg d → isPort d = false → d ≠ 0 → p.limit ≠ 0 →
    p.since + p.limit ≤ (s.core s.ev.ep).cyc.toNat → t.handles = true → (s.core s.ev.ep).badRegs = [] → t.quitting = false → p.id = s.ev.id →
    (l.stage = .here ∨ (∃ since, l.stage = .refused since) → ∃ u, exec .waitLimitExpiry s = .next u ∧ (u.thr s.ev.ep s.ev.ctx).tcause = 7 ∧
      (u.thr s.ev.ep s.ev.ctx).tval0 = l.req.va ∧ (u.thr s.ev.ep s.ev.ctx).tval1 = 0xFFFFFFFFFFFFFFFF ∧
      (u.thr s.ev.ep s.ev.ctx).tepc = p.pc.setWidth 64 ∧ (u.thr s.ev.ep s.ev.ctx).pend = [] ∧ (u.thr s.ev.ep s.ev.ctx).isFull d = true ∧
      (u.thr s.ev.ep s.ev.ctx).getG d = t.getG d ∧ u.mem = s.mem) ∧
    (l.stage = .waiting → ∃ u, exec .waitLimitExpiry s = .next u ∧ (u.thr s.ev.ep s.ev.ctx).pend = [{ p with lanes := [{ l with stage := .withdrawing }] }] ∧
      (u.thr s.ev.ep s.ev.ctx).tcause = t.tcause ∧ u.waiters = s.waiters) ∧
    (∀ w, l.stage = .withdrawing → s.waiters = [w] → w.isOf s.ev.ep s.ev.ctx p.id l.lane = true → dwordAt w.pa = dwordAt l.req.pa →
      ∃ u, exec .ldfWithdrawConfirm s = .next u ∧ u.waiters = [] ∧ u.mem = s.mem ∧ (u.thr s.ev.ep s.ev.ctx).tcause = 7 ∧
        (u.thr s.ev.ep s.ev.ctx).tval0 = l.req.va ∧ (u.thr s.ev.ep s.ev.ctx).tval1 = 1 ∧ (u.thr s.ev.ep s.ev.ctx).isFull d = true ∧
        (u.thr s.ev.ep s.ev.ctx).getG d = t.getG d) ∧
    (l.stage = .withdrawing → s.waiters = [] → exec .ldfWithdrawConfirm s = .next s))

/-- R51, R57, R59, R61, R66, R172, R173, R185, R190, R299, R303, R314: at its home a READ gathers its bytes and marks into one RDATA; the next
operation of a session takes effect once, advances the expected number and is acknowledged; one that came before is acknowledged again without effect,
one that is early is held, one with no session is refused. Data and values reach the access that waits for them. The host is given a request only
while fewer than 4,096 await it. How packets name the access they answer (log 8), a wait that is acknowledged when its home takes it (log 15), that a
streamed operation which meets poison is answered with a NACK that carries the mark (log 46) and an operation beyond both windows (log 59) are the
model's. -/
def Obligations.PacketsAtTheirDestination : Prop :=
  (∀ (s : State) (p : Packet), Arrives s p → p.type = .read → p.be = 0 → p.payload = 0 → p.pmask = 0 → s.ev.parts = [] →
    (paRegion p.pa.toNat ≠ .host → ∃ t pm, exec .read s = .next t ∧ t.mem = s.mem ∧ t.cores = s.cores ∧ t.tables = s.tables ∧
      (∀ i < 32, pm.getLsbD i = (decide (8 * i < p.auxf.toNat) && s.mem.poisoned (p.pa.toNat + 8 * i))) ∧
      Sends s t [{ type := .rdata, dst := p.src, src := p.dst, ctx := p.ctx, len := p.auxf.setWidth 9, pmask := pm, note := p.note / 2 ^ (32 : Nat),
                   payload := s.mem.read p.pa.toNat p.auxf.toNat }]) ∧
    (paRegion p.pa.toNat = .host → (s.pkg p.at_).hostReqs.length < 4096 → ∃ t, exec .read s = .next t ∧ t.mem = s.mem ∧ Sends s t [] ∧
      (t.pkg p.at_).hostReqs = (s.pkg p.at_).hostReqs ++ [{ pkt := p }])) ∧
  (∀ (s : State) (p : Packet) (e : Entry), Arrives s p → p.type = .write → NextOn s p e → s.waiters = [] → s.ev.parts = [] →
    p.pa.toNat % 8 = 0 → p.len.toNat % 8 = 0 → p.pa.toNat % 256 + p.len.toNat ≤ 256 → paHasFe p.pa.toNat = true →
    ∃ t, exec .write s = .next t ∧ Sends s t [ackFor p] ∧ t.entry? p = some (committed s p e) ∧
      (∀ a, t.mem.byte a = if p.pa.toNat ≤ a ∧ a < p.pa.toNat + p.len.toNat ∧ p.be.getLsbD (a - p.pa.toNat) = true then
          BitVec.ofNat 8 (p.payload / 2 ^ (8 * (a - p.pa.toNat))) else s.mem.byte a) ∧
      (∀ a, t.mem.isFull a = s.mem.isFull a) ∧
      (∀ i < p.len.toNat / 8, t.mem.poisoned (p.pa.toNat + 8 * i) = if p.str = 8 ∧ p.pmask.getLsbD i = true then true
        else if p.note.testBit i then false else s.mem.poisoned (p.pa.toNat + 8 * i)) ∧
      (∀ a, a < p.pa.toNat ∨ p.pa.toNat + p.len.toNat ≤ a → t.mem.poisoned a = s.mem.poisoned a)) ∧
  (∀ (s : State) (p : Packet) (e : Entry) (r : MemReq) (i : Instr), Arrives s p → operationEvent p.type = some i → p.req = some r →
    paRegion p.pa.toNat ≠ .host → NextOn s p e → s.waiters = [] →
    let w := s.mem.perform r
    (s.mem.condition r = true → w.poisoned = false → ∃ t, exec i s = .next t ∧ t.mem = w.mem ∧ t.entry? p = some (committed s p e) ∧
      (p.type = .signal → t.mem.read p.pa.toNat 8 = (s.mem.read p.pa.toNat 8 + p.payload) % 2 ^ (64 : Nat) ∧ t.mem.isFull p.pa.toNat = true) ∧
      Sends s t (if p.type = .atomic ∧ p.op.getLsbD 0 = true then [valueFor p w.got, ackFor p] else [{ ackFor p with note := p.note / 2 ^ (32 : Nat) }])) ∧
    (s.mem.condition r = true → w.poisoned = true → p.str ≠ 0 → ∃ t, exec i s = .next t ∧ t.mem = s.mem ∧
      t.entry? p = some { e with lastRx := s.dieCyc p.dst } ∧ Sends s t [{ nackFor p 0 with pmask := 1 }]) ∧
    (s.mem.condition r = false → ∃ t, exec i s = .next t ∧ t.mem = s.mem ∧ t.entry? p = some (committed s p e) ∧ Sends s t [ackFor p] ∧
      t.waiters.map (fun x => (x.pa, x.req, x.ep, x.ctx)) = [(r.pa, r, p.src, p.ctx)])) ∧
  (∀ (s : State) (p : Packet) (e : Entry), Arrives s p → p.type = .atomic → paRegion p.pa.toNat = .host → NextOn s p e →
    (s.pkg p.at_).hostReqs.length < 4096 →
    ∃ t, exec .atomic s = .next t ∧ t.mem = s.mem ∧ Sends s t [] ∧ (t.pkg p.at_).hostReqs = (s.pkg p.at_).hostReqs ++ [{ pkt := p }]) ∧
  (∀ (s : State) (p : Packet) (e : Entry), Arrives s p → p.type = .msg → NextOn s p e →
    let c := s.core p.dst
    (p.message.1.getLsbD 33 = false → s.launches.any (fun l => launchKey l.home l.lid = p.note / 2 ^ (10 : Nat)) = true →
      (c.inbox.length < 64 → ∃ t m, exec .msg s = .next t ∧ (t.core p.dst).inbox = c.inbox ++ [m] ∧ (m.header, m.payload) = p.message ∧
        m.holder = none ∧ m.read = 0 ∧ t.mem = s.mem ∧ Sends s t [ackFor p] ∧ t.entry? p = some (committed s p e)) ∧
      (64 ≤ c.inbox.length → ∃ t, exec .msg s = .next t ∧ t.cores = s.cores ∧ t.mem = s.mem ∧ Sends s t [nackFor p 4])) ∧
    (∀ (x : Ctx) (i : Fin 64), p.message.1.getLsbD 33 = true → p.note / 2 ^ (4 : Nat) % 64 = i.val → p.note % 16 = x.toNat →
      c.replies[i] = { owner := some x } → launchKey (s.thr p.dst x).home (s.thr p.dst x).lid = p.note / 2 ^ (10 : Nat) →
      ∃ t, exec .msg s = .next t ∧ (t.core p.dst).replies[i].msg = some p.message ∧ (t.core p.dst).replies[i].owner = some x ∧
        (t.core p.dst).inbox = c.inbox ∧ t.mem = s.mem ∧ Sends s t [ackFor p] ∧ t.entry? p = some (committed s p e))) ∧
  (∀ (s : State) (p : Packet) (i : Instr), Arrives s p → operationEvent p.type = some i →
    (∀ e, s.entry? p = some e → e.isOpen = true → e.epoch = p.epoch →
      (1 ≤ (e.expected - p.seq).toNat → (e.expected - p.seq).toNat ≤ 128 →
        ∃ t, exec i s = .next t ∧ t.mem = s.mem ∧ t.cores = s.cores ∧ Sends s t [ackFor p] ∧ t.entry? p = some { e with lastRx := s.dieCyc p.dst }) ∧
      (1 ≤ (p.seq - e.expected).toNat → (p.seq - e.expected).toNat ≤ 127 → e.held = [] → s.reorderRoom p.dst = true →
        ∃ t, exec i s = .next t ∧ t.mem = s.mem ∧ t.cores = s.cores ∧ Sends s t [] ∧
          t.entry? p = some { e with held := [p], lastRx := s.dieCyc p.dst }) ∧
      (127 < (p.seq - e.expected).toNat → 128 < (e.expected - p.seq).toNat →
        ∃ t, exec i s = .next t ∧ t.mem = s.mem ∧ t.cores = s.cores ∧ Sends s t [] ∧ t.entry? p = some { e with lastRx := s.dieCyc p.dst })) ∧
    (s.entry? p = none → p.opn = false → ∃ t, exec i s = .next t ∧ t.mem = s.mem ∧ t.cores = s.cores ∧ Sends s t [nackFor p 6])) ∧
  (∀ (s : State) (p : Packet) (q : Pending) (l : Lane) (i : Instr), Arrives s p →
    ((p.type = .rdata ∧ i = .rdata ∧ l.req.op = .load) ∨ (p.type = .aval ∧ i = .aval)) → (s.thr p.dst p.ctx).pend = [q] → q.lanes = [l] →
    l.stage = .sent → l.lane < 64 → p.note = laneKey q.id l.lane → p.pmask = 0 →
    let x := if p.type = .rdata then p.payload / 2 ^ (8 * (l.req.pa % 8)) % 2 ^ (8 * l.req.size) else p.payload
    ∃ t, exec i s = .next t ∧ t.mem = s.mem ∧ Sends s t [] ∧ OtherThreadsSame s t p.dst p.ctx ∧
      t.thr p.dst p.ctx =
        { s.thr p.dst p.ctx with pend := [{ q with lanes := [{ l with req := { l.req with got := x }, stage := .performed }] }] })

/-- R65, R66, R172, R190, R271, R285, R302, R303: an acknowledgement frees every operation up to its number; a refusal for want of room is tried again
1,024 cycles later, another counts a try; an operation not acknowledged is sent again after its timeout, and blocks its stream with a fault at the
limit of tries. A CLOSE ends its session's entry, which is freed a packet lifetime later. A READ of a copy command is sent again after its timeout,
and fails the command at the limit of tries. R303: after a CLOSE with ABN nothing of its session commits, though nothing of it came before. The epoch
that names a session (log 19), how a CLOSE is answered that meets no entry, or a closed one of the other epoch (log 36), and that a NACK which carries
a mark blocks the stream at once (log 46) are the model's readings. -/
def Obligations.SessionsAtTheirSource : Prop :=
  (∀ (s : State) (p : Packet) (n : BitVec 3), Arrives s p → p.str = n.setWidth 4 →
    let th := s.thr p.dst p.ctx
    let st := th.stream n
    let now := s.dieCyc p.dst
    let limit := tryLimit (s.pkg (epPkg p.dst))
    st.opened = true → st.wire = p.epoch → st.ep = p.src → th.abandon = false → th.pend = [] → (s.core p.dst).closes = [] →
    (p.type = .ack → p.note = 0 → ∃ t, exec .ack s = .next t ∧ Sends s t [] ∧ t.mem = s.mem ∧ OtherThreadsSame s t p.dst p.ctx ∧
      t.thr p.dst p.ctx = th.setStream n { st with unacked := st.unacked.filter (fun u => 2 ^ (15 : Nat) ≤ (p.auxf.setWidth 16 - u.pkt.seq).toNat) }) ∧
    (∀ u, p.type = .nack → p.note = 0 → st.unacked = [u] → u.pkt.seq = p.auxf.setWidth 16 → st.err = false →
      let goes := fun (u' : Sent) (qs : List Packet) => ∃ t, exec .nack s = .next t ∧ Sends s t qs ∧ t.mem = s.mem ∧
        OtherThreadsSame s t p.dst p.ctx ∧ t.thr p.dst p.ctx = th.setStream n { st with unacked := [u'] }
      (p.pmask = 0 → p.op = 1 ∨ p.op = 2 ∨ p.op = 4 → goes { u with backoff := some now } []) ∧
      (p.pmask = 0 → p.op = 0 ∨ p.op = 5 → u.tries + 1 < limit → goes { u with tries := u.tries + 1 } []) ∧
      (p.pmask = 0 → p.op = 3 → u.tries + 1 < limit → goes (sentAgain u now (u.tries + 1)) [u.pkt]) ∧
      (p.pmask ≠ 0 ∨ ((p.op = 0 ∨ p.op = 3 ∨ p.op = 5) ∧ limit ≤ u.tries + 1) → th.status = .ready → th.quitting = false →
        ∃ t, exec .nack s = .next t ∧ Sends s t [] ∧ StreamFails s t p.dst p.ctx n u.pkt.seq) ∧
      (p.pmask = 0 → p.op = 6 → u.tries = 0 → u.resent = false →
        let again := { u.pkt with epoch := st.wire + 1, opn := true }
        ∃ t, exec .nack s = .next t ∧ Sends s t [again] ∧ ((t.thr p.dst p.ctx).stream n).unacked.map Sent.pkt = [again]))) ∧
  (∀ (s : State) (p : Packet) (ob : BitVec 1), Arrives s p → p.type = .ack → p.note = 0 → p.str.toNat = 9 + ob.toNat →
    let th := s.thr p.dst p.ctx
    let st := Assoc.get th.msgStreams (msgKey ob p.src) {}
    st.opened = true → st.wire = p.epoch → st.ep = p.src → th.abandon = false → th.pend = [] →
    ∃ t, exec .ack s = .next t ∧ Sends s t [] ∧ t.mem = s.mem ∧
      (t.core p.dst).outbox ob = ((s.core p.dst).outbox ob).filter
        (fun m => !(m.dst = p.src && m.ctx = p.ctx && decide ((p.auxf.setWidth 16 - m.seq).toNat < 2 ^ (15 : Nat))))) ∧
  (∀ (s : State) (n : BitVec 3) (u : Sent), s.ev.n = n.toNat →
    let th := s.thr s.ev.ep s.ev.ctx
    let st := th.stream n
    let now := s.dieCyc s.ev.ep
    let k := s.pkg (epPkg s.ev.ep)
    st.unacked = [u] → u.pkt.seq = s.ev.seq → st.err = false → th.abandon = false → k.halted = false →
    let goes := fun (i : Instr) (u' : Sent) => ∃ t, exec i s = .next t ∧ t.net = s.net ++ [sentFrom s u.pkt] ∧ t.mem = s.mem ∧
      OtherThreadsSame s t s.ev.ep s.ev.ctx ∧ t.thr s.ev.ep s.ev.ctx = th.setStream n { st with unacked := [u'] }
    (u.backoff = none → now < u.sentAt + tryTime k → exec .retransmitTimeout s = .next s) ∧
    (u.backoff = none → u.sentAt + tryTime k ≤ now →
      (u.tries + 1 < tryLimit k → goes .retransmitTimeout (sentAgain u now (u.tries + 1))) ∧
      (tryLimit k ≤ u.tries + 1 → th.status = .ready → th.quitting = false →
        ∃ t, exec .retransmitTimeout s = .next t ∧ t.net = s.net ∧ StreamFails s t s.ev.ep s.ev.ctx n u.pkt.seq)) ∧
    (∀ b, u.backoff = some b →
      (now < b + 1024 → exec .nackBackoffExpiry s = .next s) ∧
      (b + 1024 ≤ now → goes .nackBackoffExpiry (sentAgain u now u.tries)))) ∧
  (∀ (s : State) (k : CopyCmd) (r : ReadOut), s.ev.n = 14 → (s.core s.ev.ep).copies = [k] → k.id = s.ev.id → k.reads = [r] → r.n = s.ev.value.toNat →
    let g := s.pkg (epPkg s.ev.ep)
    let now := s.dieCyc s.ev.ep
    g.halted = false →
    (now < r.sentAt + tryTime g → exec .retransmitTimeout s = .next s) ∧
    (r.sentAt + tryTime g ≤ now → r.tries + 1 < tryLimit g → ∃ t q, exec .retransmitTimeout s = .next t ∧ t.net = s.net ++ [q] ∧ q.type = .read ∧
      q.dst = homeEp r.pa ∧ q.src = s.ev.ep ∧ q.pa = BitVec.ofNat 54 (r.pa / 8 * 8) ∧ t.mem = s.mem ∧
      (t.core s.ev.ep).copies = [{ k with reads := [{ r with tries := r.tries + 1, sentAt := now }] }]) ∧
    (r.sentAt + tryTime g ≤ now → tryLimit g ≤ r.tries + 1 → k.phase ≠ .failed → ∃ t k' e, exec .retransmitTimeout s = .next t ∧ t.net = s.net ∧
      (t.core s.ev.ep).copies = [k'] ∧ k'.phase = .failed ∧ k'.fault = some e ∧ e.kind = 4 ∧ e.aux0 = 8)) ∧
  (∀ (s : State) (p : Packet) (e : Entry), Arrives s p → p.type = .close →
    (s.entry? p = none → p.opn = false → p.abn = false → ∃ t, exec .close s = .next t ∧ t.mem = s.mem ∧ t.tables = s.tables ∧ Sends s t [ackFor p]) ∧
    (s.entry? p = none → p.opn = false → p.abn = true →
      ((s.table p.dst).length < (tableRoom p.dst).1 → ∃ t, exec .close s = .next t ∧ t.mem = s.mem ∧ t.cores = s.cores ∧ Sends s t [ackFor p] ∧
        (t.entry? p).map (fun y => (y.isOpen, y.epoch, y.since)) = some (false, p.epoch, s.dieCyc p.dst)) ∧
      ((tableRoom p.dst).1 ≤ (s.table p.dst).length → ∃ t, exec .close s = .next t ∧ t.mem = s.mem ∧ t.tables = s.tables ∧ Sends s t [nackFor p 2])) ∧
    (s.entry? p = some e → e.isOpen = false → e.epoch ≠ p.epoch → p.opn = false → p.abn = true →
      ∃ t, exec .close s = .next t ∧ t.mem = s.mem ∧ t.cores = s.cores ∧ Sends s t [ackFor p] ∧
        (t.entry? p).map (fun y => (y.isOpen, y.epoch, y.since)) = some (false, p.epoch, s.dieCyc p.dst)) ∧
    (s.entry? p = some e → e.isOpen = true → e.epoch = p.epoch → e.expected = p.seq ∨ p.abn = true →
      ∃ t, exec .close s = .next t ∧ t.mem = s.mem ∧ t.cores = s.cores ∧ Sends s t [ackFor p] ∧
        t.entry? p = some { e with isOpen := false, held := [], done := [], busy := false, since := s.dieCyc p.dst, lastRx := s.dieCyc p.dst })) ∧
  (∀ (s : State) (e : Entry), (s.table s.ev.ep)[s.ev.n]? = some e →
    let now := s.dieCyc s.ev.ep
    let gone := (e.isOpen = false ∧ e.since + 2 ^ (29 : Nat) ≤ now) ∨ (e.held = [] ∧ e.busy = false ∧ e.lastRx + 2 ^ (30 : Nat) ≤ now)
    (gone → ∃ t, exec .sessionReclaim s = .next t ∧ t.table s.ev.ep = (s.table s.ev.ep).eraseIdx s.ev.n ∧ t.mem = s.mem ∧ t.cores = s.cores) ∧
    (¬gone → exec .sessionReclaim s = .next s))

/-- R296 to R301, R304, R306: a header flit lays out the packet's fields and gives every one of them back; a packet for another package goes to the
port its bank's route names, or back as NACK 5; a queued packet's flits go on the link one by one in sequence, each for a credit; the receiver takes flits in
order, whole, and puts together the packet that was sent, with one hop more; a flit damaged or out of order is discarded and replayed. By what notes a
receiver knows a packet that was damaged (log 8), and over which bits a flit's CRC runs (log 21), is the model's. -/
def Obligations.PacketsCrossLinks : Prop :=
  (∀ p : Packet, let h := BitVec.ofNat 256 (p.header p.hops.toNat)
    (h.extractLsb' 0 4).toNat = p.type.code ∧ h.extractLsb' 4 3 = p.vn ∧ h.extractLsb' 7 1 = p.bank ∧ h.extractLsb' 8 22 = p.dst ∧
      h.extractLsb' 30 22 = p.src ∧ h.extractLsb' 52 4 = p.ctx ∧ h.extractLsb' 56 4 = p.str ∧ h.extractLsb' 60 16 = p.seq ∧
      h.getLsbD 76 = p.opn ∧ h.getLsbD 77 = p.cls ∧ h.extractLsb' 78 1 = p.epoch ∧ h.getLsbD 79 = p.abn ∧ h.extractLsb' 80 9 = p.len ∧
      h.extractLsb' 89 7 = p.op ∧ h.extractLsb' 96 54 = p.pa ∧ h.extractLsb' 150 32 = p.pmask ∧ h.extractLsb' 182 5 = p.cqe ∧
      h.extractLsb' 187 5 = p.hops ∧ h.extractLsb' 192 32 = p.auxf ∧
      headerPacket h = some { p with payload := 0, be := 0, note := 0, vas := [], at_ := 0, via := none, inPort := 14, bad := false, born := 0, since := 0, crossed := false, out := 0 }) ∧
  (∀ (s : State) (p : Packet), s.net[s.ev.n]? = some p → p.via = none → epPkg p.dst ≠ p.at_ → p.type ≠ .drain → (s.pkg p.at_).halted = false →
    s.dieTime p.dst < p.born + 2 ^ (29 : Nat) → s.mayCross s.ev.n p = true →
    let k := s.pkg p.at_
    let e := k.route p.bank (epPkg p.dst)
    let port := (e.extractLsb' 0 5).toNat
    let spent := p.hops = 31 ∧ p.inPort.toNat < 14
    (¬spent → e.getLsbD 15 = true → port < 14 → (k.port (BitVec.ofNat 4 port)).up = true →
      ∃ t, exec .packetForward s = .next t ∧ t.mem = s.mem ∧ t.cores = s.cores ∧
        (let from_ := (k.port (BitVec.ofNat 4 port)).cyc - (if p.inPort.toNat < 14 then (k.port p.inPort).cyc - p.since else 0)
         t.net = s.net.set s.ev.n { p with via := some (BitVec.ofNat 4 port), since := from_ })) ∧
    (spent ∨ e.getLsbD 15 = false ∨ 14 ≤ port ∨ (k.port (BitVec.ofNat 4 port)).up = false →
      k.records.length < 256 → ∃ t, exec .packetForward s = .next t ∧ t.mem = s.mem ∧ t.cores = s.cores ∧
        (p.type ≠ .nack → ∃ q more, t.net = s.net.eraseIdx s.ev.n ++ q :: more ∧ q.type = .nack ∧ q.op = 5 ∧ q.dst = p.src ∧
          q.src = p.dst ∧ q.ctx = p.ctx ∧ (p.inSession = true ∨ p.type = .read → q.str = p.str ∧ q.auxf = p.seq.setWidth 32) ∧ q.at_ = p.at_ ∧
          (p.type ≠ .aval ∧ p.type ≠ .ack → more = [])) ∧
        (p.type = .nack → t.net = s.net.eraseIdx s.ev.n) ∧
        (∀ cause : Nat, (cause = if spent then 3 else if e.getLsbD 15 = false ∨ 14 ≤ port then 1 else 2) →
          (t.pkg p.at_).records.length = k.records.length + (if (p.bank, epPkg p.dst, cause) ∈ k.noRoute then 0 else 1)))) ∧
  (∀ (s : State) (p : Packet) (port : BitVec 4), s.net[s.ev.n]? = some p → p.via = some port → port.toNat < 14 → p.type ≠ .drain →
    (s.pkg p.at_).halted = false → (∀ m q, s.net[m]? = some q → m ≠ s.ev.n → (q.at_, q.via) ≠ (p.at_, some port)) → p.vn.toNat < 5 →
    let w := s.port p.at_ port
    w.up = true → w.unheard < 1024 → 0 < w.credits p.vn → p.out < p.flits → s.dieTime p.dst < p.born + 2 ^ (29 : Nat) ∨ 0 < p.out →
    w.cyc < max p.since w.upAt + 2 ^ (16 : Nat) →
    ∃ t f, exec .packetForward s = .next t ∧ (t.port p.at_ port).wire = w.wire ++ [f] ∧ p.flitBits[p.out]? = some f.bits ∧ f.seq = w.txSeq ∧
      f.crc = f.crcOf ∧ f.vn = p.vn ∧ f.keep = false ∧ (t.port p.at_ port).txSeq = w.txSeq + 1 ∧
      (t.port p.at_ port).credits p.vn = w.credits p.vn - 1 ∧ t.mem = s.mem ∧
      (p.out + 1 < p.flits → f.whole = none ∧ t.net = s.net.set s.ev.n { p with out := p.out + 1 }) ∧
      (p.out + 1 = p.flits → f.whole = some { p with via := none, since := 0, crossed := false, out := 0 } ∧ t.net = s.net.eraseIdx s.ev.n)) ∧
  (∀ (s : State) (w x : Port) (q : Pkg) (m : BitVec 4) (f : Flit) (rest : List Flit),
    let g := s.ev.pkg
    let n := s.ev.port
    let d := f.disturbed s.ev
    s.port g n = w → s.port q m = x → w.peer = some (q, m) → x.peer = some (g, n) → w.up = true → x.up = true → (g, n) ≠ (q, m) →
    n.toNat < 14 → m.toNat < 14 → x.wire = f :: rest →
    (d.crc = d.crcOf ∧ d.seq = w.rxSeq → f.keep = false → f.vn.toNat < 5 →
      (f.whole = none → ∃ t, exec .flitReceive s = .next t ∧ t.net = s.net ∧ t.mem = s.mem ∧ (t.port q m).wire = rest ∧
        (t.port g n).rxSeq = w.rxSeq + 1 ∧
        (t.port g n).rx.toList.getD f.vn.toNat [] = w.rx.toList.getD f.vn.toNat [] ++ [d.bits] ∧
        (∀ v : BitVec 3, v.toNat < 5 → (t.port g n).credits v = w.credits v + (if v = d.creditVn then d.credits.toNat else 0))) ∧
      (∀ p, f.whole = some p → w.rx.toList.getD f.vn.toNat [] ++ [d.bits] = p.flitBits → p.payload < 2 ^ (8 * p.len.toNat) → p.bad = false →
        ∃ t, exec .flitReceive s = .next t ∧ t.mem = s.mem ∧ (t.port g n).rxSeq = w.rxSeq + 1 ∧
          (t.port g n).rx.toList.getD f.vn.toNat [] = [] ∧
          t.net = s.net ++ [{ p with at_ := g, via := none, hops := p.hops + 1, inPort := n, since := w.cyc, crossed := false, out := 0 }])) ∧
    (¬(d.crc = d.crcOf ∧ d.seq = w.rxSeq) → ∃ t, exec .flitReceive s = .next t ∧ t.net = s.net ∧ t.mem = s.mem ∧
      (t.port q m).wire = rest ∧ (t.port q m).replayFrom = some w.rxSeq ∧ (t.port g n).rxSeq = w.rxSeq ∧ (t.port g n).rx = w.rx)) ∧
  (∀ (s : State) (q : BitVec 12),
    let w := s.port s.ev.pkg s.ev.port
    s.ev.port.toNat < 14 → w.replayFrom = some q → w.up = true → (s.pkg s.ev.pkg).halted = false →
    (q ≠ w.replayAt ∨ w.replays < 16 → ∃ t, exec .linkReplay s = .next t ∧ t.net = s.net ∧
      (t.port s.ev.pkg s.ev.port).wire = w.replay.dropWhile (fun f => f.seq ≠ q) ∧ (t.port s.ev.pkg s.ev.port).replayFrom = none) ∧
    (q = w.replayAt ∧ 16 ≤ w.replays → exec .linkReplay s = .next s)) ∧
  (∀ (s : State),
    let w := s.port s.ev.pkg s.ev.port
    s.ev.port.toNat < 14 → w.up = true → (s.pkg s.ev.pkg).halted = false → w.unheard < 1024 →
    (w.lastTx + 4096 ≤ w.cyc → ∃ t f, exec .keepalive s = .next t ∧ (t.port s.ev.pkg s.ev.port).wire = w.wire ++ [f] ∧ f.keep = true ∧
      f.seq = w.txSeq ∧ f.crc = f.crcOf ∧ (t.port s.ev.pkg s.ev.port).credit = w.credit ∧ t.net = s.net) ∧
    (w.cyc < w.lastTx + 4096 → exec .keepalive s = .next s))

/-- R299, R301, R302, R304, R305, R307 to R309, R320: a link that has been silent, blocked or replaying too long, or has not forwarded a packet in
2^16 cycles, goes down with its record, and comes back where it stood or, after 2^24 cycles, drops what it holds; two ports train when both packages
are up, but not with a package whose link was given up and which has not come up anew; a route switch flips the bank and sends its markers on every VN
of every port that has a link, up or retraining, which are noted where they arrive; a management probe is answered. What a probe's note says (log 22),
when a package may train and is new (log 37), when a switch is under way (log 39), the cause of the last way down (log 67) and which packets a link
that is given up takes with it (log 81) are the model's readings. -/
def Obligations.LinksFailAndSwitch : Prop :=
  (∀ (s : State),
    let g := s.ev.pkg
    let n := s.ev.port
    let w := s.port g n
    let queue := s.net.filter (fun p => p.at_ = g && p.via = some n)
    let down := (s.ev.n = 1 ∧ w.lastRx + 2 ^ (16 : Nat) ≤ w.cyc) ∨ (s.ev.n = 2 ∧ w.replayFrom = some w.replayAt ∧ 16 ≤ w.replays) ∨
      (s.ev.n = 3 ∧ ∃ p ∈ queue, max p.since w.upAt + 2 ^ (16 : Nat) ≤ w.cyc) ∨ (s.ev.n = 3 ∧ queue ≠ [] ∧ (∀ p ∈ queue, w.credits p.vn = 0) ∧ w.creditAt + 2 ^ (16 : Nat) ≤ w.cyc)
    n.toNat < 14 →
    (w.up = true ∧ down → (s.pkg g).halted = false → ∃ t r, exec .linkDown s = .next t ∧ (t.port g n).up = false ∧ (t.port g n).retrainFrom = some w.cyc ∧
      (t.port g n).replay = w.replay ∧ t.net = s.net ∧ t.mem = s.mem ∧ (t.pkg g).records = (s.pkg g).records ++ [r] ∧
      r.dwords.map (fun (x : Dword) => x.toNat) = [11 + 5 * 2 ^ (8 : Nat) + (s.pkg g).recSeq.toNat * 2 ^ (48 : Nat), r.ep.toNat, 0, 0, n.toNat, s.ev.n, 0, w.cyc % 2 ^ (64 : Nat)]) ∧
    (¬(w.up = true ∧ down) ∨ (s.pkg g).halted = true → exec .linkDown s = .next s)) ∧
  (∀ (s : State) (since : Nat),
    let g := s.ev.pkg
    let n := s.ev.port
    let w := s.port g n
    n.toNat < 14 → w.retrainFrom = some since →
    (∀ q m, s.ev.ok = true → w.peer = some (q, m) → m.toNat < 14 → (q, m) ≠ (g, n) → (s.port q m).peer = some (g, n) → (s.port q m).up = true →
      (s.pkg q).state = 3 → (s.pkg q).halted = false → (s.pkg g).halted = false → w.cyc ≤ since + 2 ^ (24 : Nat) →
      ∃ t, exec .retrainEnd s = .next t ∧ t.net = s.net ∧ (t.port g n).up = true ∧ (t.port q m).up = true ∧
        (t.port g n).replayFrom = some (s.port q m).rxSeq ∧ (t.port q m).replayFrom = some w.rxSeq ∧ (t.port g n).rxSeq = w.rxSeq ∧
        (t.port g n).txSeq = w.txSeq ∧ (t.port g n).replay = w.replay) ∧
    (s.ev.ok = false → w.cyc < since + 2 ^ (24 : Nat) ∨ (s.pkg g).halted = true → exec .retrainEnd s = .next s) ∧
    (s.ev.ok = false → (s.pkg g).halted = false → since + 2 ^ (24 : Nat) ≤ w.cyc → (∀ p ∈ s.net, p.at_ = g → p.via = some n ∨ (p.inPort = n ∧ p.out = 0) → p.type ≠ .aval ∧ p.type ≠ .ack) →
      (∀ f ∈ w.replay, f.whole = none) → ∃ t, exec .retrainEnd s = .next t ∧ (t.port g n).up = false ∧ (t.port g n).retrainFrom = none ∧ (t.port g n).lost = true ∧
        (t.port g n).wire = [] ∧ (t.port g n).replay = [] ∧ t.net = s.net.filter (fun p => !(p.at_ = g && (p.via = some n || (p.inPort = n && p.out = 0)))) ∧
        (t.pkg g).records.length = (s.pkg g).records.length + 1 ∧ t.mem = s.mem)) ∧
  (∀ (s : State),
    let w := s.port s.ev.pkg s.ev.port
    let x := s.port s.ev.peer s.ev.peerPort
    let alive := fun (g : Pkg) => ((s.pkg g).state = 2 ∧ (s.pkg g).ready = true ∨ (s.pkg g).state = 3) ∧ (s.pkg g).halted = false
    let gaveUp := fun (y : Port) (g : Pkg) => y.lost = true ∧ y.peer.map Prod.fst = some g ∧ y.partner = (s.pkg g).boot
    let joins := (s.ev.port.toNat < 12 ∧ s.ev.peerPort.toNat < 12) ∨ (s.ev.port = 12 ∧ s.ev.peerPort = 13) ∨ (s.ev.port = 13 ∧ s.ev.peerPort = 12)
    (s.ev.pkg, s.ev.port) ≠ (s.ev.peer, s.ev.peerPort) →
    (alive s.ev.pkg → alive s.ev.peer → w.up = false → w.retrainFrom = none → x.up = false → x.retrainFrom = none → joins →
      ¬gaveUp w s.ev.peer → ¬gaveUp x s.ev.pkg →
      ∃ t, exec .portTraining s = .next t ∧ (t.port s.ev.pkg s.ev.port).up = true ∧ (t.port s.ev.peer s.ev.peerPort).up = true ∧
        (t.port s.ev.pkg s.ev.port).peer = some (s.ev.peer, s.ev.peerPort) ∧ (t.port s.ev.peer s.ev.peerPort).peer = some (s.ev.pkg, s.ev.port) ∧
        (t.port s.ev.pkg s.ev.port).txSeq = 0 ∧ (t.port s.ev.pkg s.ev.port).rxSeq = 0 ∧
        (∀ v : BitVec 3, v.toNat < 5 → (t.port s.ev.pkg s.ev.port).credits v = (if s.ev.port.toNat < 12 then 128 else 256) -
          ((s.net.filter (fun p => p.at_ = s.ev.peer && p.inPort = s.ev.peerPort && p.vn = v)).map Packet.flits).sum)) ∧
    (¬joins ∨ w.up = true ∨ x.up = true ∨ ¬alive s.ev.pkg ∨ ¬alive s.ev.peer ∨ gaveUp w s.ev.peer ∨ gaveUp x s.ev.pkg → exec .portTraining s = .next s)) ∧
  (∀ (s : State), let g := s.ev.pkg
    (s.pkg g).state ≠ 4 → (∀ p ∈ s.net, p.type ≠ .drain) → ∃ t qs, exec .routeSwitch s = .next t ∧ (t.pkg g).rtAct = (s.pkg g).rtAct + 1 ∧
      t.net = s.net ++ qs ∧ (∀ i < 14, (t.port g (BitVec.ofNat 4 i)).drained =
        if (s.port g (BitVec.ofNat 4 i)).drainBank = (s.pkg g).rtAct + 1 then (s.port g (BitVec.ofNat 4 i)).drained else 0) ∧ t.mem = s.mem ∧
      (∀ i < 14, ∀ v < 5, (s.port g (BitVec.ofNat 4 i)).up = true ∨ (s.port g (BitVec.ofNat 4 i)).retrainFrom ≠ none →
        ∃ q ∈ qs, q.type = .drain ∧ q.vn = BitVec.ofNat 3 v ∧ q.via = some (BitVec.ofNat 4 i) ∧ q.at_ = g ∧ q.bank = (s.pkg g).rtAct + 1)) ∧
  (∀ (s : State) (p : Packet), s.net[s.ev.n]? = some p → p.type = .drain → p.inPort.toNat < 14 → (s.pkg p.at_).halted = false → p.malformed = false →
    ∃ t, exec .drain s = .next t ∧ t.net = s.net.eraseIdx s.ev.n ∧ t.mem = s.mem ∧
      (t.port p.at_ p.inPort).drainBank = p.bank ∧ (t.port p.at_ p.inPort).drained =
        (if (s.port p.at_ p.inPort).drainBank = p.bank then (s.port p.at_ p.inPort).drained else 0) ||| BitVec.ofNat 5 (2 ^ p.vn.toNat)) ∧
  (∀ (s : State),
    (s.net.length ≤ s.ev.n → (s.pkg s.ev.pkg).state = 3 → (s.pkg s.ev.pkg).halted = false → ∃ t q, exec .mgmt s = .next t ∧ t.net = s.net ++ [q] ∧
      q.type = .mgmt ∧ epPkg q.dst = s.ev.peer ∧ epPkg q.src = s.ev.pkg ∧ q.note = 0 ∧ q.vn = 4) ∧
    (∀ p, Arrives s p → p.type = .mgmt →
      (p.note = 0 → ∃ t q, exec .mgmt s = .next t ∧ t.net = s.net.eraseIdx s.ev.n ++ [q] ∧ q.type = .mgmt ∧ epPkg q.dst = epPkg p.src ∧ q.note = 1) ∧
      (p.note ≠ 0 → ∃ t, exec .mgmt s = .next t ∧ t.net = s.net.eraseIdx s.ev.n ∧ (t.pkg p.at_).replies = (s.pkg p.at_).replies ++ [.probe (epPkg p.src)])))

/-- R34, R41, R261 to R263: a head record is read and checked: one that passes waits with its group table, one that fails is aborted with its reason,
one that cannot be read waits for the supervisor. Its dependences are satisfied by their counters; an aborted one skips the launch unless it runs all
the same. A launch of which nothing is left adds 1 to its counter, sets it full, and is gone. That a record and its table are read at one moment, and read again
when a translation of one of their addresses had to walk, is the model's (log 45), and so is the order of the head's checks, of which the first that fails
gives the reason (log 95). -/
def Obligations.HeadsAndCompletion : Prop :=
  (∀ (s : State), let p := s.ev.pkg; let q := s.ev.q.toNat; let w := (s.pkg p).queue q; let lid := lidOf q w.head;
    QueueWorks s p q → w.checked = false → w.head ≠ w.tail → w.got = [] →
    (∀ i x s1, i < 16 → s.ev.parts = [i] → s.schedRead p s.ev.die q (w.slotVa w.head + BitVec.ofNat 64 (8 * i)) 1 = .ok ([x], s1) →
      ∃ t, exec .headRecordCheck s = .next t ∧ (t.pkg p).queue q = { w with got := [(i, x)] } ∧ t.launches = s.launches ∧ t.mem = s.mem) ∧
    (s.ev.parts = [] →
    (∀ record s1, s.schedRead p s.ev.die q (w.slotVa w.head) 16 = .ok (record, s1) →
      (∀ table s2, recordReason p lid w.asid record = none → s1.schedRead p s.ev.die q (record.getD 4 0) 256 = .ok (table, s2) →
        ∃ t l, exec .headRecordCheck s = .next t ∧ t.launch? p lid = some l ∧ l.record = record ∧ l.phase = .head ∧ l.placed = 0 ∧
          l.counts = (table.take 255).map (fun x => x.extractLsb' 0 24) ∧ (t.pkg p).queue q = { w with checked := true } ∧ t.mem = s.mem) ∧
      (∀ n, recordReason p lid w.asid record = some n → record.getD 5 0 = 0 → (∀ c ∈ s.cores, c.2.crew? p lid = none) →
        ∃ t r, exec .headRecordCheck s = .next t ∧ t.launch? p lid = none ∧ ((t.pkg p).queue q).head = w.head + 1 ∧ t.mem = s.mem ∧
          (t.pkg p).records = (s.pkg p).records ++ [r] ∧ (r.dwords.getD 0 0).toNat % 2 ^ (12 : Nat) = 10 + 3 * 2 ^ (8 : Nat) ∧ r.dwords.getD 2 0 = lid.setWidth 64 ∧
          r.dwords.getD 4 0 = BitVec.ofNat 64 n)) ∧
    (∀ r, s.schedRead p s.ev.die q (w.slotVa w.head) 16 = .error (.fault r) →
      ∃ t, exec .headRecordCheck s = .next t ∧ QueueFaults s t p q 6 1 ∧ t.launches = s.launches) ∧
    (∀ t, s.schedRead p s.ev.die q (w.slotVa w.head) 16 = .error (.wait t) → exec .headRecordCheck s = .next t))) ∧
  (∀ (s s1 : State) (l : Launch) (x : Dword), let p := s.ev.pkg; let q := s.ev.q.toNat; let w := (s.pkg p).queue q;
    QueueWorks s p q → s.head? p q = some l → l.satisfied = 0 → (l.dw 12).getLsbD 0 = true →
    (∀ i ∈ [13, 14, 15], (l.dw i).getLsbD 0 = false) →
    s.schedRead p s.ev.die q (BitVec.ofNat 64 ((l.dw 12).toNat % 2 ^ (55 : Nat) / 8 * 8)) 1 = .ok ([x], s1) →
    let due := (l.dw 3).toNat % 2 ^ (16 : Nat)
    (x.toNat % 2 ^ (63 : Nat) < due → ∃ t, exec .dependencePoll s = .next t ∧ (t.launch? p l.lid).map Launch.ready = some false ∧
      ((t.pkg p).queue q).head = w.head ∧ t.mem = s.mem) ∧
    (due ≤ x.toNat % 2 ^ (63 : Nat) → x.getLsbD 63 = false ∨ (l.dw 12).getLsbD 1 = true → ∃ t, exec .dependencePoll s = .next t ∧
      (t.launch? p l.lid).map Launch.ready = some true ∧ ((t.pkg p).queue q).head = w.head ∧ t.mem = s.mem) ∧
    (due ≤ x.toNat % 2 ^ (63 : Nat) → x.getLsbD 63 = true → (l.dw 12).getLsbD 1 = false → l.dw 5 = 0 → NothingLeft s l →
      ∃ t, exec .dependencePoll s = .next t ∧ t.launch? p l.lid = none ∧ ((t.pkg p).queue q).head = w.head + 1 ∧ t.mem = s.mem)) ∧
  (∀ (s : State) (l : Launch), s.launch? s.ev.pkg s.ev.lid = some l → l.counted = false → ((s.pkg l.home).queue l.queue).tearing = false →
    (s.pkg l.home).halted = false →
    (l.live ≠ 0 ∨ l.phase = .head → exec .launchComplete s = .next s) ∧
    (NothingLeft s l → l.phase = .running ∨ l.phase = .aborted ∨ l.phase = .skipped →
      (l.dw 5 = 0 → ∃ t, exec .launchComplete s = .next t ∧ t.launch? l.home l.lid = none ∧ t.mem = s.mem ∧
        ∀ c ∈ t.cores, ∀ m ∈ c.2.inbox, m.lid ≠ launchKey l.home l.lid) ∧
      (∀ pa s1, l.dw 5 ≠ 0 → s.schedReach l.home 0 l.queue (l.dw 5) .atomic = .ok pa s1 → pa % 8 = 0 → paHasFe pa = true →
        paPkg pa = l.home ∨ (s.pkg (paPkg pa)).halted = false → s.mem.poisoned pa = false → s.waiters = [] →
        ∃ t, exec .launchComplete s = .next t ∧ t.launch? l.home l.lid = none ∧
          t.mem.read pa 8 = (if l.phase = .running then (s.mem.read pa 8 + 1) % 2 ^ (64 : Nat) else 2 ^ (63 : Nat) + (s.mem.read pa 8 + 1) % 2 ^ (63 : Nat)) ∧
          t.mem.isFull pa = true ∧ OnlyBytes s.mem t.mem pa 8)))

/-- R30, R31, R41, R104, R264 to R266, R269: at a rotation boundary a FREE context takes the next thread of a startable launch, in the state that
starts it, and HEAD advances with the last; a core is taken once at a boundary, and of the cores of a die that stand at one boundary the lower first; a
head that has waited long enough holds its mask's contexts, or pre-empts a crew of lower priority. A teardown stops the queue's launches and, once all
has drained and the records that enq was writing are there, resets it. That boundaries are counted on each core's own clock and swept in that order is
the model's (log 45), as are that a teardown waits for enqs under way (log 63) and that one asked for in a quiesce stops its launches when the units go on
(log 68). -/
def Obligations.PlacementAndTeardown : Prop :=
  (∀ (s s1 : State) (ctx : Ctx) (l : Launch) (w : Queue) (q : Nat) (gms : Dword), let ep := s.ev.ep; let p := epPkg ep;
    epIsCore ep = true → (s.core ep).cyc.toNat % 16 = 0 → (s.pkg p).halted = false → (∀ c ∈ (s.core ep).crews, c.owed = []) →
    (s.core ep).swept < (s.core ep).cyc.toNat / 16 + 1 → s.lowerFirst ep = false → (s.core ep).freeCtx = [ctx] → (s.pkg p).queues = [(q, w)] →
    (∀ x ∈ s.launches, x.evicted = []) →
    s.startable p q = some l → l.co = false → s.launchesOf p q = [l] → l.saved = [] → l.placed < l.threads → s.admits ep l = true →
    s.schedRead p 0 q (l.dw 4 + BitVec.ofNat 64 (2048 + 8 * l.placed)) 1 = .ok ([gms], s1) → s.ev.parts = [] →
    ∃ t, exec .rotationBoundary s = .next t ∧ t.mem = s.mem ∧ OtherThreadsSame s t ep ctx ∧
      (let u := t.thr ep ctx;
        u.status = .ready ∧ u.pc = ((l.dw 2).extractLsb' 16 16).setWidth 18 <<< 2 ∧ u.st = 0 ∧ u.pend = [] ∧ u.full = 0xFFFFFFFF ∧
        (∀ i : Fin 32, u.g[i] = if 1 ≤ i.val ∧ i.val ≤ 4 then l.dw (i.val + 5) else 0) ∧ (∀ i : Fin 32, u.v[i] = 0) ∧ (∀ i : Fin 8, u.k[i] = 0) ∧
        u.lti = BitVec.ofNat 24 l.placed ∧ u.lid = l.lid ∧ u.asid = (l.dw 0).extractLsb' 48 16 ∧ u.dkey0 = l.dw 10 ∧ u.dkey1 = l.dw 11 ∧ u.dctr = 0 ∧
        u.did = BitVec.ofNat 64 (((l.dw 0).extractLsb' 24 24).toNat * 2 ^ (40 : Nat) + l.placed % 2 ^ (24 : Nat) * 2 ^ (16 : Nat)) ∧ u.gms = gms &&& 0xFFFFFFFFF ∧
        ∃ crew, (t.core ep).crew? p l.lid = some crew ∧ u.cgb = crew.base ∧ u.cgl = crew.limit ∧ u.eset = crew.eset) ∧
      (t.launch? p l.lid).map (fun x => (x.placed, x.live)) = some (l.placed + 1, l.live + 1) ∧
      ((t.pkg p).queue q).head = (if l.placed + 1 = l.threads then w.head + 1 else w.head)) ∧
  (∀ (s : State), (∀ c ∈ (s.core s.ev.ep).crews, c.owed = []) → (s.core s.ev.ep).cyc.toNat % 16 ≠ 0 ∨ (s.pkg (epPkg s.ev.ep)).halted = true ∨
    (s.core s.ev.ep).cyc.toNat / 16 + 1 ≤ (s.core s.ev.ep).swept ∨
    (∃ e c, (e, c) ∈ s.cores ∧ e < 2 ^ (22 : Nat) ∧ e % 2 ^ (11 : Nat) < (epUnit s.ev.ep).toNat ∧ (epUnit s.ev.ep).toNat < 512 ∧
      e / 2 ^ (11 : Nat) = s.ev.ep.toNat / 2 ^ (11 : Nat) ∧ c.cyc = (s.core s.ev.ep).cyc ∧ c.swept < c.cyc.toNat / 16 + 1) →
    exec .rotationBoundary s = .next s) ∧
  (∀ (s : State) (l : Launch), let q := s.ev.q.toNat; let w := (s.pkg s.ev.pkg).queue q;
    s.startable s.ev.pkg q = some l →
    (l.co = true → 1024 ≤ w.waited → ∃ t, exec .coresidentHold s = .next t ∧ (t.pkg s.ev.pkg).queue q = { w with holding := true } ∧
      t.mem = s.mem ∧ t.cores = s.cores) ∧
    (l.co = false ∨ w.waited < 1024 → exec .coresidentHold s = .next s)) ∧
  (∀ (s : State) (l : Launch) (from_ : Nat), let p := s.ev.pkg; let q := s.ev.q.toNat; let k := s.pkg p; let w := k.queue q;
    s.startable p q = some l → w.lackFrom = some from_ →
    (∀ (ep : Ep) (crew : Crew) (pri f : Nat) (x : Launch), from_ + 4096 ≤ (s.die p l.die).cyc → k.pren = true → w.cfg.getLsbD 62 = true → k.halted = false →
      s.lacks l = true → s.mesh = [] → s.victims l = [(pri, ep, crew)] → crew.preempt = none → epPkg ep = p → s.launch? p crew.lid = some x → x.co = false →
      (s.core ep).crew? p crew.lid = some crew → k.freeFrames 1 = [f] →
      let mode : BitVec 4 := if s.lacksContexts l = true then 0 else 1
      (mode = 1 → k.frameHolds crew = true ∧ (s.core ep).waitsForCopy crew = false) →
      ∃ t, exec .priorityPreempt s = .next t ∧ t.mesh = [{ ep := ep, home := p, lid := crew.lid, mode := mode, frame := f }] ∧
        (t.pkg p).frames = k.frames ++ [f] ∧ ((t.pkg p).queue q).lackFrom = some from_ ∧ t.cores = s.cores ∧ t.mem = s.mem) ∧
    ((s.die p l.die).cyc < from_ + 4096 ∨ k.pren = false ∨ w.cfg.getLsbD 62 = false ∨ s.lacks l = false → exec .priorityPreempt s = .next s)) ∧
  (∀ (s : State), let p := s.ev.pkg; let q := s.ev.q.toNat; let w := (s.pkg p).queue q;
    (s.pkg p).state ≠ 4 → w.tearing = false →
    ((s.pkg p).qreq = true → ∃ t, exec .teardownStart s = .next t ∧ t.mem = s.mem ∧ t.cores = s.cores ∧ t.launches = s.launches ∧ (t.pkg p).queue q =
      { w with cfg := (w.cfg &&& 0x7FFFFFFFFFFFFFFF) ||| 0x0800000000000000, holding := false, lackFrom := none, striking := false, heldTd := true }) ∧
    ((s.pkg p).qreq = false →
    (s.launchesOf p q = [] → ∃ t, exec .teardownStart s = .next t ∧ t.mem = s.mem ∧ t.cores = s.cores ∧ (t.pkg p).queue q =
      { w with cfg := (w.cfg &&& 0x7FFFFFFFFFFFFFFF) ||| 0x0800000000000000, holding := false, lackFrom := none, striking := false }) ∧
    (∀ l ep crew, s.launchesOf p q = [l] → s.launch? p l.lid = some l → (s.core ep).crews = [crew] → crew.home = l.home → crew.lid = l.lid →
      ∃ t, exec .teardownStart s = .next t ∧ ((t.pkg p).queue q).tearing = true ∧ ((t.pkg p).queue q).enabled = false ∧
        ((t.pkg p).queue q).head = w.head ∧ (t.core ep).crews.map Crew.tearing = [true] ∧
        (t.launch? p l.lid).map (fun x => (x.saved, x.evicted, x.spawning)) = some ([], [], 0)))) ∧
  (∀ (s : State), let p := s.ev.pkg; let q := s.ev.q.toNat; let w := (s.pkg p).queue q;
    w.tearing = true → w.blocked = false →
    (w.heldTd = true ∨ s.enqUnderWay p q = true → exec .teardownEnd s = .next s) ∧
    (∀ ep crew, (ep, crew) ∈ s.crewsOf p q → s.crewDrained ep crew = false → exec .teardownEnd s = .next s) ∧
    (s.crewsOf p q = [] → s.launchesOf p q = [] → w.heldTd = false → s.enqUnderWay p q = false → w.got = [] → s.ev.parts = [] →
      (w.head = w.tail → ∃ t, exec .teardownEnd s = .next t ∧ t.mem = s.mem ∧ (t.pkg p).queue q =
        { w with cfg := w.cfg &&& 0xF7FFFFFFFFFFFFFF, checked := false, claimed := 0, written := [], walkWait := .none, walkFault := none,
                 def0 := 0, def1 := 0, waited := 0, holding := false, lackFrom := none, striking := false }) ∧
      (∀ record s1, w.tail = w.head + 1 → w.checked = false → s.schedRead p 0 q (w.slotVa w.head) 16 = .ok (record, s1) → record.getD 5 0 = 0 →
        ∃ t, exec .teardownEnd s = .next t ∧ t.mem = s.mem ∧ ((t.pkg p).queue q).head = w.tail ∧ ((t.pkg p).queue q).tearing = false ∧
          t.launch? p (lidOf q w.head) = none)))

/-- R46, R47, R278, R279, R286 to R290: PREEMPT takes a frame for the crew it names and sends the core a message, waits when no frame is free, and is
refused when there is no crew; the core stops the crew, and gives the frame back for one that is being torn down; once its work has drained, its
thread's registers stand in its record in the frame, its context is FREE, and an evicted crew's granary stands in the frame too. -/
def Obligations.CrewsAreSaved : Prop :=
  (∀ (s : State) (mode : BitVec 4) (i : Instr), (mode = 0 ∧ i = .preemptPark) ∨ (mode = 1 ∧ i = .preemptEvict) →
    let p := s.ev.pkg
    let ep := s.ev.ep
    let k := s.pkg p
    let lid : Lid := k.marg0.extractLsb' 0 44
    k.busy = false → k.qreq = false → k.state ≠ 4 → epPkg ep = p →
    (∀ l w, s.launch? p lid = some l → l.co = false → (s.core ep).crew? p lid = some w → w.preempt = none → w.parkedIn = false → w.tearing = false →
      (mode = 1 → k.frameHolds w = true) →
      (∀ f, k.freeFrames 1 = [f] → ∃ t, exec i s = .next t ∧ t.mesh = s.mesh ++ [{ ep := ep, home := p, lid := lid, mode := mode, frame := f }] ∧
        (t.pkg p).busy = true ∧ (t.pkg p).frames = k.frames ++ [f] ∧ t.cores = s.cores ∧ t.mem = s.mem) ∧
      (k.freeFrames 1 = [] → ∃ t, exec i s = .next t ∧ t.mesh = s.mesh ∧ (t.pkg p).busy = true ∧
        (t.pkg p).waitPreempt = some { ep := ep, home := p, lid := lid, mode := mode } ∧ t.cores = s.cores ∧ t.mem = s.mem)) ∧
    ((s.core ep).crew? p lid = none → ∃ t, exec i s = .next t ∧ Ends t p 2 ∧ t.mesh = s.mesh ∧ t.cores = s.cores ∧ t.mem = s.mem)) ∧
  (∀ (s : State) (m : MeshMsg), s.mesh[s.ev.n]? = some m →
    (∀ w, (s.core m.ep).crew? m.home m.lid = some w → w.tearing = true → (s.pkg (epPkg m.ep)).preempting = [] → (s.pkg (epPkg m.ep)).waitPreempt = none →
      (∀ l ∈ s.launches, l.saved = [] ∧ l.evicted = []) → ∃ t, exec .meshInterrupt s = .next t ∧ t.mesh = s.mesh.eraseIdx s.ev.n ∧ t.mem = s.mem ∧
      t.cores = s.cores ∧ m.frame ∉ (t.pkg (epPkg m.ep)).frames) ∧
    (∀ w, (s.core m.ep).crew? m.home m.lid = some w → w.tearing = false → ∃ t, exec .meshInterrupt s = .next t ∧ t.mesh = s.mesh.eraseIdx s.ev.n ∧ t.mem = s.mem ∧
      (t.core m.ep).crew? m.home m.lid = some { w with preempt := some (m.mode, m.frame), written := [] } ∧
      (∀ e x r, (t.thr e x).getG r = (s.thr e x).getG r ∧ (t.thr e x).v = (s.thr e x).v ∧ (t.thr e x).k = (s.thr e x).k)) ∧
    ((s.core m.ep).crew? m.home m.lid = none → ∃ t, exec .meshInterrupt s = .next t ∧ t.mesh = s.mesh.eraseIdx s.ev.n ∧ t.cores = s.cores ∧ t.mem = s.mem)) ∧
  (∀ (s : State) (w : Crew) (l : Launch) (x : Ctx) (f : Nat) (mode : BitVec 4),
    let ep := s.ev.ep
    let p := epPkg ep
    let c := s.core ep
    let u := s.thr ep x
    let pa := (s.pkg p).frameAt f
    let size := w.limit.toNat - w.base.toNat
    c.crews = [w] → w.home = p → w.lid = s.ev.lid → w.preempt = some (mode, f) → mode.toNat ≤ 1 → w.holds = [] → w.written = [] → w.owed = [] → s.ev.parts = [] →
    c.crewCtx w = [x] → s.launch? p w.lid = some l →
    u.status = .ready → u.pend = [] → u.faultQ = [] → u.outstanding = [] → u.quitting = false → u.waitFrom = 0 → u.wait = .none → u.header = none → u.heldReq = none →
    u.replyPos = none → u.restMsg = [] → u.restReply = [] → u.msgStreams = [] → (∀ n, (u.stream n).opened = false ∧ (u.stream n).unacked = []) →
    c.combine = [] → c.mq = [] → c.copies = [] → c.closes = [] → c.outbox0 = [] → c.outbox1 = [] → (∀ i : Fin 64, c.replies[i].owner ≠ some x) → w.eset = false →
    w.base.toNat ≤ w.limit.toNat → w.limit.toNat ≤ 2 ^ 23 → w.base.toNat % 8 = 0 → (epUnit ep).toNat < 512 → pa % 8 = 0 → paRegion pa = .secondTier →
    paRegion (pa + 0x1C000 + size) = .secondTier → paPkg (pa + 0x1C000 + size) = paPkg pa → s.waiters = [] → (s.pkg p).waitPreempt = none →
    (s.pkg p).preempting = [(ep.toNat, w.lid)] →
    ∃ t v, exec .crewSave s = .next t ∧ (t.thr ep x).status = .free ∧ Ends t p 0 ∧ (t.launch? p w.lid).map Launch.saved = some (l.saved ++ [v]) ∧
      v.lti = u.lti ∧ v.frame = f ∧ v.pa = pa ∧ v.spill = [] ∧
      (∀ i : Fin 32, t.mem.read (pa + 64 * i.val) 64 = u.v[i].toNat) ∧ (∀ i : Fin 8, t.mem.read (pa + 0x800 + 8 * i.val) 8 = u.k[i].toNat) ∧
      (∀ i : Fin 32, 1 ≤ i.val → i.val ≤ 27 → t.mem.read (pa + 0x838 + 8 * i.val) 8 = u.g[i].toNat) ∧
      t.mem.read (pa + 0x918) 8 = (u.full &&& 0x0FFFFFFE).toNat ∧ t.mem.read (pa + 0x920) 8 = u.pc.toNat ∧ t.mem.read (pa + 0x928) 8 = u.st.toNat ∧
      (mode = 0 → (t.core ep).crews = [{ w with preempt := none, parkedIn := true }] ∧
        (∀ a, a < pa ∨ pa + 0x1800 ≤ a → t.mem.byte a = s.mem.byte a)) ∧
      (mode = 1 → (t.core ep).crews = [] ∧ (∀ a < size, t.mem.byte (pa + 0x1C000 + a) = s.mem.byte (granaryPa ep (w.base.toNat + a)) ∧
        t.mem.isFull (pa + 0x1C000 + a / 8 * 8) = s.mem.isFull (granaryPa ep (w.base.toNat + a / 8 * 8)) ∧
        t.mem.byte (granaryPa ep (w.base.toNat + a)) = 0)))

/-- R227, R271 to R273, R276 to R280, R285, R315: the oldest record held goes, dword by dword, to the next slot of the fault queue, which counts it,
signals it and sends its vector, or waits with OVF set. RESUME makes a FAULTED thread READY at its PC and restarts its stream, ABORT fails its stopped
copy, END ends it; one on a SAVED thread is recorded in its record, once; an action on what is the oldest record of no thread, of no ended thread and
of no queue does nothing and says so. ABORT and END dispose of the record of a thread that has ended, wherever the crew that it holds is now. While
the device is asked to quiesce, an operation waits. The model's choices here: that an event names the dwords of a record that it writes (log 9), that
a record is found by the EP, CTX and SEQ that it names, wherever its thread is now (logs 43 and 44), and that the record of an ended thread goes with
its evicted crew (log 44). -/
def Obligations.FaultQueueAndResolve : Prop :=
  (∀ (s : State) (r : FaultRec) (rest : List FaultRec),
    let p := s.ev.pkg
    let k := s.pkg p
    let slot := k.sfqBase.toNat % 2 ^ (54 : Nat) / 64 * 64 + k.sfqTail.toNat % 2 ^ (max 6 (k.sfqCfg.extractLsb' 12 4).toNat) * 64
    let home := fun (a : Nat) => paPkg a = p ∨ (s.pkg (paPkg a)).halted = false
    let homeSig := k.sfqCfg.getLsbD 61 = true → home (k.sfqSig.toNat % 2 ^ (54 : Nat) / 8 * 8)
    k.records = r :: rest →
    (∀ i, home slot → homeSig → k.sfqOn = true → (k.sfqTail - k.sfqHead).toNat ≠ 2 ^ max 6 (k.sfqCfg.extractLsb' 12 4).toNat → s.ev.parts = [i] →
      i < 8 → k.posted = [] → s.waiters = [] → ∃ t, exec .faultRecordPost s = .next t ∧ (t.pkg p).posted = [i] ∧ (t.pkg p).records = k.records ∧ (t.pkg p).sfqTail = k.sfqTail ∧
        t.mem.read (slot + 8 * i) 8 = (r.dwords.getD i 0).toNat ∧ OnlyBytes s.mem t.mem (slot + 8 * i) 8) ∧
    (home slot → homeSig → s.ev.parts = [] → k.posted = [] → k.sfqOn = true → (k.sfqTail - k.sfqHead).toNat ≠ 2 ^ max 6 (k.sfqCfg.extractLsb' 12 4).toNat →
      r.dwords.length = 8 → s.waiters = [] →
      ∃ t, exec .faultRecordPost s = .next t ∧ (t.pkg p).records = rest ∧ (t.pkg p).sfqTail = k.sfqTail + 1 ∧ (t.pkg p).sfqHead = k.sfqHead ∧
        (k.sfqCfg.getLsbD 61 = false → (∀ i < 8, t.mem.read (slot + 8 * i) 8 = (r.dwords.getD i 0).toNat) ∧ OnlyBytes s.mem t.mem slot 64) ∧
        (∀ g, g = k.sfqSig.toNat % 2 ^ (54 : Nat) / 8 * 8 → k.sfqCfg.getLsbD 61 = true → g + 8 ≤ slot ∨ slot + 64 ≤ g → s.mem.poisoned g = false →
          t.mem.read g 8 = (s.mem.read g 8 + 1) % 2 ^ (64 : Nat) ∧ t.mem.isFull g = true ∧ (∀ i < 8, t.mem.read (slot + 8 * i) 8 = (r.dwords.getD i 0).toNat)) ∧
        (let v : BitVec 11 := k.sfqCfg.extractLsb' 0 11;
          if k.sfqCfg.getLsbD 62 = true then
            (if v.toNat ∈ k.msixOpen then (t.pkg p).replies = k.replies ++ [.msix v] else v.toNat ∈ (t.pkg p).msixPending ∧ (t.pkg p).replies = k.replies)
          else (t.pkg p).replies = k.replies)) ∧
    (k.sfqOn = false ∨ (k.sfqTail - k.sfqHead).toNat = 2 ^ max 6 (k.sfqCfg.extractLsb' 12 4).toNat →
      ∃ t, exec .faultRecordPost s = .next t ∧ (t.pkg p).records = k.records ∧ (t.pkg p).sfqTail = k.sfqTail ∧ (t.pkg p).sfqCfg.getLsbD 60 = true ∧ t.mem = s.mem)) ∧
  (∀ (s : State) (o : Outstanding), Faulted s o →
    let p := s.ev.pkg
    let ep := s.ev.ep
    let ctx := s.ev.ctx
    let u := s.thr ep ctx
    let c := s.core ep
    (o.src = 0 → c.mq = [] → u.pend = [] → o.kind ≠ 4 → ∃ t, exec .resolveResume s = .next t ∧ Ends t p 0 ∧ t.mem = s.mem ∧ t.net = s.net ∧
      t.thr ep ctx = { u with status := .ready, wait := .none, outstanding := [] }) ∧
    (∀ (n : BitVec 3) (x : Sent), o.src = 0 → c.mq = [] → u.pend = [] → o.kind = 4 → o.id = n.toNat → (u.stream n).unacked = [x] →
      ∃ t, exec .resolveResume s = .next t ∧ Ends t p 0 ∧ t.net = s.net ++ [sentFrom s x.pkt] ∧ (t.thr ep ctx).status = .ready ∧
        ((t.thr ep ctx).stream n).err = false ∧ ((t.thr ep ctx).stream n).unacked = [{ x with sentAt := s.dieCyc ep, tries := 0, backoff := none, resent := true }]) ∧
    (o.src ≠ 1 → ∃ t, exec .resolveAbort s = .next t ∧ Ends t p 2 ∧ t.cores = s.cores ∧ t.mem = s.mem) ∧
    (∀ k, o.src = 1 → c.copies = [k] → k.id = o.id → k.phase = .stopped → ∃ t, exec .resolveAbort s = .next t ∧ Ends t p 0 ∧
      (t.core ep).copies = [{ k with phase := .failed, fault := none, buf := [] }] ∧ t.mem = s.mem) ∧
    (o.src = 0 → ∃ t, exec .resolveEnd s = .next t ∧ Ends t p 0 ∧ (t.thr ep ctx).quitting = true ∧ (t.thr ep ctx).outstanding = [] ∧
      (t.thr ep ctx).status = .ready ∧ (t.thr ep ctx).g = u.g ∧ t.mem = s.mem)) ∧
  (∀ (s : State) (o : Outstanding) (e : Nat) (c : Core) (x : Ctx), let p := s.ev.pkg; let k := s.pkg p; let u := vget x c.threads;
    k.busy = false → k.qreq = false → k.state ≠ 4 → epPkg s.ev.ep = p → s.cores = [(e, c)] → e < 2 ^ (22 : Nat) → u.status = .faulted → u.outstanding = [o] →
    (o.ep, o.ctx, o.seq) = (s.ev.ep, s.ev.ctx, s.ev.seq) → (∀ y, y ≠ x → (vget y c.threads).status ≠ .faulted) → o.src = 0 → o.kind ≠ 4 → c.mq = [] → u.pend = [] →
    ∃ t, exec .resolveResume s = .next t ∧ Ends t p 0 ∧ t.mem = s.mem ∧
      t.thr (BitVec.ofNat 22 e) x = { u with status := .ready, wait := .none, outstanding := [] }) ∧
  (∀ (s : State) (i : Instr) (act : Nat) (l : Launch) (w : Saved) (o : Outstanding), (i, act) ∈ [(.resolveResume, 0), (.resolveAbort, 1), (.resolveEnd, 2)] →
    (s.pkg s.ev.pkg).busy = false → (s.pkg s.ev.pkg).qreq = false → (s.pkg s.ev.pkg).state ≠ 4 → s.cores = [] → s.launches = [l] → l.evicted = [] → l.saved = [w] →
    w.outstanding.head? = some o → (o.ep, o.ctx, o.seq) = (s.ev.ep, s.ev.ctx, s.ev.seq) →
    let x : Dword := BitVec.ofNat 64 (s.mem.read (w.pa + 0xA20) 8)
    (x.getLsbD 59 = false → ∃ t, exec i s = .next t ∧ Ends t s.ev.pkg 3 ∧ OnlyBytes s.mem t.mem (w.pa + 0xA20) 8 ∧
      (let y : Dword := BitVec.ofNat 64 (t.mem.read (w.pa + 0xA20) 8);
        y.extractLsb' 57 3 = BitVec.ofNat 3 (4 + act) ∧ y.extractLsb' 0 57 = x.extractLsb' 0 57 ∧ y.extractLsb' 60 4 = x.extractLsb' 60 4)) ∧
    (x.getLsbD 59 = true → ∃ t, exec i s = .next t ∧ Ends t s.ev.pkg 1 ∧ t.mem = s.mem)) ∧
  (∀ (s : State) (i : Instr), i = .resolveResume ∨ i = .resolveAbort ∨ i = .resolveEnd → (s.pkg s.ev.pkg).busy = false →
    (s.pkg s.ev.pkg).qreq = false → (s.pkg s.ev.pkg).state ≠ 4 → NoneFaulted s →
    (∀ c ∈ s.cores, ∀ w ∈ c.2.crews, ∀ h ∈ w.holds, (h.ep, h.ctx, h.seq) ≠ (s.ev.ep, s.ev.ctx, s.ev.seq)) →
    (∀ l ∈ s.launches, ∀ v ∈ l.evicted, ∀ h ∈ v.crew.holds, (h.ep, h.ctx, h.seq) ≠ (s.ev.ep, s.ev.ctx, s.ev.seq)) →
    (∀ l ∈ s.launches, ∀ w ∈ l.saved, ∀ x, w.outstanding.head? = some x → (x.ep, x.ctx, x.seq) ≠ (s.ev.ep, s.ev.ctx, s.ev.seq)) →
    (∀ q, ∀ f ∈ ((s.pkg s.ev.pkg).queue q).faults, f.seq ≠ s.ev.seq) →
    ∃ t, exec i s = .next t ∧ Ends t s.ev.pkg 1 ∧ t.cores = s.cores ∧ t.launches = s.launches ∧ t.mem = s.mem) ∧
  (∀ (s : State) (i : Instr) (h : Hold), i = .resolveAbort ∨ i = .resolveEnd → (s.pkg s.ev.pkg).busy = false → (s.pkg s.ev.pkg).qreq = false →
    (s.pkg s.ev.pkg).state ≠ 4 → NoneFaulted s → (h.ep, h.ctx, h.seq) = (s.ev.ep, s.ev.ctx, s.ev.seq) →
    (∀ (e : Nat) (c : Core) (w : Crew), s.cores = [(e, c)] → e < 2 ^ (22 : Nat) → c.crews = [w] → w.holds = [h] → h.copy = none →
      ∃ t, exec i s = .next t ∧ Ends t s.ev.pkg 0 ∧ (t.core (BitVec.ofNat 22 e)).crews = [{ w with holds := [] }] ∧ t.mem = s.mem) ∧
    (∀ (l : Launch) (v : Evicted), (∀ c ∈ s.cores, ∀ w ∈ c.2.crews, w.holds = []) → s.launches = [l] → l.evicted = [v] → v.crew.holds = [h] →
      ∃ t, exec i s = .next t ∧ Ends t s.ev.pkg 0 ∧ t.launches = [{ l with evicted := [{ v with crew := { v.crew with holds := [] } }] }] ∧
        t.cores = s.cores ∧ t.mem = s.mem)) ∧
  (∀ (s : State) (i : Instr), i = .resolveResume ∨ i = .resolveAbort ∨ i = .resolveEnd → let k := s.pkg s.ev.pkg
    k.busy = false → k.state ≠ 4 → k.qreq = true → ∃ t, exec i s = .next t ∧ (t.pkg s.ev.pkg).busy = true ∧ (t.pkg s.ev.pkg).heldMcmd = true ∧
      t.cores = s.cores ∧ t.mem = s.mem)

/-- R33, R278, R279, R292, R293: an INVAL drops from both dies the leaves it names and no other, and is over when no access that may have used them is
under way; MOVE carries bytes, full/empty bits and marks to their new place, dword by dword; RESIDENT sets an entry over free granary, or clears one
with its range. A MOVE between ranges that overlap is left out, for the order of its dwords is open. That an event names the dwords that it moves is
the model's (log 9), and that a MOVE waits for a page of another package in a quiesce its reading (log 68). Which accesses an INVAL waits for is its
reading (log 43), as is what becomes of the range of an entry that is set anew (log 53). -/
def Obligations.SupervisorCommands : Prop :=
  (∀ (s : State) (i : Instr) (scope : BitVec 2), (scope = 0 ∧ i = .invalPage) ∨ (scope = 1 ∧ i = .invalAsid) ∨ (scope = 2 ∧ i = .invalAll) →
    let p := s.ev.pkg
    let k := s.pkg p
    let asid : Asid := k.marg0.extractLsb' 0 16
    let level : BitVec 2 := k.marg0.extractLsb' 18 2
    let named := fun (e : TlbEntry) => scope = 2 ∨ (e.asid = asid ∧ (scope = 1 ∨ (e.level = level ∧ e.vpn = vpnOf level k.marg1)))
    k.busy = false → k.qreq = false → k.state ≠ 4 → k.marg0.extractLsb' 16 2 = scope →
    (scope ≠ 0 ∨ level ≠ 0 → ∃ t, exec i s = .next t ∧ (t.pkg p).busy = true ∧ (t.pkg p).inval.isSome = true ∧ t.mem = s.mem ∧
      (∀ d e, e ∈ (t.die p d).tlb ↔ e ∈ (s.die p d).tlb ∧ ¬named e)) ∧
    (scope = 0 → level = 0 → ∃ t, exec i s = .next t ∧ Ends t p 2 ∧ t.mem = s.mem ∧ (∀ d, (t.die p d).tlb = (s.die p d).tlb))) ∧
  (∀ (s : State) (v : Inval), let p := s.ev.pkg;
    (s.pkg p).inval = some v →
    (v.sent = [] → v.lanes = [] → ∃ t, exec .invalComplete s = .next t ∧ Ends t p 0 ∧ (t.pkg p).inval = none ∧ t.mem = s.mem ∧
      (∀ d, ∀ e ∈ (t.die p d).tlb, v.names e = false)) ∧
    (∀ x ∈ v.lanes, x ∈ s.invalLanes p { v with scope := 2 } → exec .invalComplete s = .next s)) ∧
  (∀ (s : State),
    let p := s.ev.pkg
    let k := s.pkg p
    let src := k.marg0.toNat % 2 ^ (54 : Nat)
    let dst := k.marg1.toNat % 2 ^ (54 : Nat)
    let n := k.marg2.toNat
    k.busy = false → k.qreq = false → k.state ≠ 4 → k.moving = none →
    let heard := fun (a : Nat) => paPkg a = p ∨ (s.pkg (paPkg a)).halted = false
    (0 < n → n % 65536 = 0 → n ≤ 2 ^ (42 : Nat) → src % 8 = 0 → dst % 8 = 0 → paRegion src = .secondTier → paRegion (src + n - 1) = .secondTier →
      paRegion dst = .secondTier → paRegion (dst + n - 1) = .secondTier → (paPkg src).toNat < k.npkg → (paPkg dst).toNat < k.npkg → s.waiters = [] →
      dst + n ≤ src ∨ src + n ≤ dst →
      (¬heard src ∨ ¬heard dst → ∃ t, exec .moveMem s = .next t ∧ (t.pkg p).busy = true ∧
        (t.pkg p).moving = some { src := src, dst := dst, size := n } ∧ t.mem = s.mem ∧ t.cores = s.cores) ∧
      (heard src → heard dst →
      (∀ i, s.ev.parts = [i] → i < n / 8 → ∃ t, exec .moveMem s = .next t ∧ (t.pkg p).busy = true ∧
        (t.pkg p).moving = some { src := src, dst := dst, size := n, done := [i] } ∧ t.mem.read (dst + 8 * i) 8 = s.mem.read (src + 8 * i) 8 ∧
        t.mem.isFull (dst + 8 * i) = s.mem.isFull (src + 8 * i) ∧ t.mem.poisoned (dst + 8 * i) = s.mem.poisoned (src + 8 * i) ∧
        OnlyBytes s.mem t.mem (dst + 8 * i) 8) ∧
      (s.ev.parts = [] → ∃ t, exec .moveMem s = .next t ∧ Ends t p 0 ∧ t.cores = s.cores ∧
        (∀ a < n, t.mem.byte (dst + a) = s.mem.byte (src + a) ∧ t.mem.isFull (dst + a) = s.mem.isFull (src + a) ∧
          t.mem.poisoned (dst + a) = s.mem.poisoned (src + a)) ∧
        (∀ a, a < dst ∨ dst + n ≤ a → t.mem.byte a = s.mem.byte a ∧ t.mem.isFull a = s.mem.isFull a ∧ t.mem.poisoned a = s.mem.poisoned a)))) ∧
    (n % 65536 ≠ 0 ∨ 2 ^ (42 : Nat) < n → ∃ t, exec .moveMem s = .next t ∧ Ends t p 2 ∧ t.mem = s.mem)) ∧
  (∀ (s : State),
    let p := s.ev.pkg
    let ep := s.ev.ep
    let k := s.pkg p
    let i : BitVec 2 := k.marg0.extractLsb' 0 2
    let base := (k.marg1.extractLsb' 0 24).toNat
    let limit := (k.marg1.extractLsb' 24 24).toNat
    let c := s.core ep
    let held := fun (lo hi : Nat) => (∃ w ∈ c.crews, lo < w.limit.toNat ∧ w.base.toNat < hi) ∨
      ∃ j : BitVec 2, j ≠ i ∧ (vget j c.resident).getLsbD 63 = true ∧ lo < ((vget j c.resident).extractLsb' 24 24).toNat ∧
        ((vget j c.resident).extractLsb' 0 24).toNat < hi
    k.busy = false → k.qreq = false → k.state ≠ 4 →
    (epIsCore ep = true → epPkg ep = p → base % 4096 = 0 → limit % 4096 = 0 → base < limit → limit ≤ 0x800000 → ¬held base limit →
      let e := vget i c.resident
      let lo := granaryPa ep (e.extractLsb' 0 24).toNat
      let m := (e.extractLsb' 24 24).toNat - (e.extractLsb' 0 24).toNat
      ∃ t, exec .residentSet s = .next t ∧ Ends t p 0 ∧ (t.core ep).crews = c.crews ∧
        (e.getLsbD 63 = true → (∀ a, lo ≤ a → a < lo + m → t.mem.byte a = 0) ∧ (∀ a, a < lo ∨ lo + m ≤ a → t.mem.byte a = s.mem.byte a)) ∧
        (e.getLsbD 63 = false → t.mem = s.mem) ∧
        (t.core ep).resident = vset i (BitVec.ofNat 64 (2 ^ (63 : Nat) + limit * 2 ^ (24 : Nat) + base)) c.resident) ∧
    (epIsCore ep = false ∨ epPkg ep ≠ p ∨ base % 4096 ≠ 0 ∨ limit % 4096 ≠ 0 ∨ limit ≤ base ∨ 0x800000 < limit ∨ held base limit →
      ∃ t, exec .residentSet s = .next t ∧ Ends t p 2 ∧ t.cores = s.cores ∧ t.mem = s.mem) ∧
    (epIsCore ep = true → epPkg ep = p →
      let e := vget i c.resident
      let lo := granaryPa ep (e.extractLsb' 0 24).toNat
      let n := (e.extractLsb' 24 24).toNat - (e.extractLsb' 0 24).toNat
      ∃ t, exec .residentClear s = .next t ∧ Ends t p 0 ∧ (t.core ep).resident = vset i 0 c.resident ∧
        (e.getLsbD 63 = true → (∀ a, lo ≤ a → a < lo + n → t.mem.byte a = 0) ∧ (∀ a, a < lo ∨ lo + n ≤ a → t.mem.byte a = s.mem.byte a)) ∧
        (e.getLsbD 63 = false → t.mem = s.mem)))

/-- R73, R173, R312 to R314, R321: an access to BAR2 reads or writes the dword its segment maps to, at its home; one that no valid segment maps to a
package of the system (log 98), a write where none is allowed, and every AtomicOp is refused, counted, reported as a non-fatal error, and answered as
Unsupported Request where it awaits an answer; in the maintenance state each is answered so, or dropped. A device access to host memory ends with the
host's data, or as poisoned when it fails or times out, the dwords of a read each at its own time; an AtomicOp is a read by the PCI Express root and,
at a later event, its write and the answer. An access to another package in a quiesce waits (log 68). The model's choices here: how an event names
dwords (log 9), how a streamed access that ends poisoned is answered (log 46), and what an AtomicOp that fails leaves (log 48). -/
def Obligations.HostAccesses : Prop :=
  (∀ (s : State),
    let p := s.ev.pkg
    let off := s.ev.off.toNat / 8 * 8
    let w := (s.pkg p).fn s.ev.fn.toNat
    let e := Assoc.get w.segments (off / 2 ^ (29 : Nat)) 0
    let pa := (e.extractLsb' 52 10).toNat * 2 ^ (44 : Nat) + (e.extractLsb' 29 15).toNat * 2 ^ (29 : Nat) + off % 2 ^ (29 : Nat)
    let mapped := off < 2 ^ w.bar2 ∧ (s.ev.fn = 0 ∨ w.enabled = true) ∧ e.getLsbD 63 = true ∧
      (e.extractLsb' 52 10).toNat < (s.pkg p).npkg
    let heard := e.extractLsb' 52 10 = p ∨ (s.pkg (e.extractLsb' 52 10)).halted = false
    let refused := fun (t : State) (l : List HostReply) => t.mem = s.mem ∧ t.cores = s.cores ∧
      ((t.pkg p).fn s.ev.fn.toNat).errors = w.errors + 1 ∧ (t.pkg p).replies = (s.pkg p).replies ++ l
    let nonFatal : HostReply := .nonFatal s.ev.fn.toNat
    let known := paRegion (pa - off % 2 ^ (29 : Nat)) = .secondTier ∧ paRegion (pa - off % 2 ^ (29 : Nat) + 2 ^ (29 : Nat) - 1) = .secondTier
    ((s.pkg p).state = 4 → exec .bar2Write s = .next s ∧ ∀ i, i = .bar2Read ∨ i = .bar2Atomicop → ∃ t, exec i s = .next t ∧
      t.mem = s.mem ∧ t.cores = s.cores ∧ (t.pkg p).replies = (s.pkg p).replies ++ [.unsupported]) ∧
    ((s.pkg p).state ≠ 4 →
    (mapped → known → ¬heard → exec .bar2Read s = .next s ∧ (e.getLsbD 62 = true → exec .bar2Write s = .next s)) ∧
    (mapped → known → heard →
      (∃ t, exec .bar2Read s = .next t ∧ t.mem = s.mem ∧ t.cores = s.cores ∧
        (t.pkg p).replies = (s.pkg p).replies ++ [.data (s.mem.read pa 8) (s.mem.poisoned pa)]) ∧
      (e.getLsbD 62 = true → s.waiters = [] → ∃ t, exec .bar2Write s = .next t ∧ t.cores = s.cores ∧
        (∀ i < 8, t.mem.byte (pa + i) = if s.ev.be.getLsbD i = true then s.ev.value.extractLsb' (8 * i) 8 else s.mem.byte (pa + i)) ∧
        (∀ a, a < pa ∨ pa + 8 ≤ a → t.mem.byte a = s.mem.byte a) ∧ (∀ a, t.mem.isFull a = s.mem.isFull a) ∧
        t.mem.poisoned pa = (s.mem.poisoned pa && s.ev.be ≠ 0xFF)) ∧
      (e.getLsbD 62 = false → ∃ t, exec .bar2Write s = .next t ∧ refused t [nonFatal])) ∧
    (¬mapped → (∃ t, exec .bar2Read s = .next t ∧ refused t [.unsupported, nonFatal]) ∧ (∃ t, exec .bar2Write s = .next t ∧ refused t [nonFatal])) ∧
    (∃ t, exec .bar2Atomicop s = .next t ∧ refused t [.unsupported, nonFatal]))) ∧
  (∀ (s : State) (p : Packet),
    let k := s.pkg s.ev.pkg
    k.halted = false → k.hostReqs[s.ev.n]? = some { pkt := p } → p.type = .read → p.be = 0 → p.payload = 0 → p.pmask = 0 →
    epPkg p.dst = s.ev.pkg → p.auxf.toNat % 8 = 0 → 8 ≤ p.auxf.toNat → p.auxf.toNat ≤ 256 →
    let data : Packet := { type := .rdata, dst := p.src, src := p.dst, ctx := p.ctx, len := p.auxf.setWidth 9, note := p.note / 2 ^ (32 : Nat) }
    let lost : Packet := { data with pmask := BitVec.ofNat 32 (2 ^ (p.auxf.toNat / 8) - 1) }
    let rest := fun (t : State) => (t.pkg s.ev.pkg).hostReqs = k.hostReqs.eraseIdx s.ev.n ∧ t.mem = s.mem
    (∀ i, s.ev.status = 0 → s.ev.parts = [i] → 8 < p.auxf.toNat → ∃ t, exec .pcieCompletion s = .next t ∧ t.mem = s.mem ∧ t.net = s.net ∧
      (t.pkg s.ev.pkg).hostReqs = k.hostReqs.set s.ev.n { pkt := p.readDword s.mem i }) ∧
    (s.ev.status = 0 → s.ev.parts = [] → (∀ i < p.auxf.toNat, s.mem.poisoned (p.pa.toNat + i) = false) → ∃ t, exec .pcieCompletion s = .next t ∧ rest t ∧
      t.net = s.net ++ [sentFrom s { data with payload := s.mem.read p.pa.toNat p.auxf.toNat }]) ∧
    (s.ev.status ≠ 0 → ∃ t, exec .pcieCompletion s = .next t ∧ rest t ∧ t.net = s.net ++ [sentFrom s lost]) ∧
    (∃ t, exec .completionTimeout s = .next t ∧ rest t ∧ t.net = s.net ++ [sentFrom s lost])) ∧
  (∀ (s : State) (p : Packet) (r : MemReq) (e : Entry),
    let k := s.pkg s.ev.pkg
    k.halted = false → p.type = .atomic → p.req = some r → epPkg p.dst = s.ev.pkg →
    (k.hostReqs[s.ev.n]? = some { pkt := p } → s.ev.status = 0 ∨ s.ev.status = 3 →
      ((∀ x ∈ k.hostReqs, x.old.isSome = true → x.pkt.pa.toNat / 8 ≠ p.pa.toNat / 8) → ∃ t, exec .pcieCompletion s = .next t ∧ t.mem = s.mem ∧
        t.net = s.net ∧ (t.pkg s.ev.pkg).hostReqs = k.hostReqs.set s.ev.n { old := some (s.mem.read r.pa r.size), pkt := p }) ∧
      ((∃ x ∈ k.hostReqs, x.old.isSome = true ∧ x.pkt.pa.toNat / 8 = p.pa.toNat / 8) → exec .pcieCompletion s = .next s)) ∧
    (s.entry? p = some e → e.isOpen = true → e.epoch = p.epoch → e.expected = p.seq → e.busy = true → e.held = [] →
      (∀ x : Nat, k.hostReqs[s.ev.n]? = some { old := some x, pkt := p } → s.ev.status = 0 →
        ∃ t, exec .pcieCompletion s = .next t ∧ t.mem = s.mem.write r.pa r.size (r.new x) ∧
          (t.pkg s.ev.pkg).hostReqs = k.hostReqs.eraseIdx s.ev.n ∧ (t.entry? p).map (fun y => (y.expected, y.busy)) = some (p.seq + 1, false) ∧
          t.net = s.net ++ (if p.op.getLsbD 0 = true then [valueFor p x, ackFor p]
            else [{ ackFor p with note := p.note / 2 ^ (32 : Nat) }]).map (sentFrom s)) ∧
      (k.hostReqs[s.ev.n]? = some { pkt := p } → s.ev.status = 1 → p.str ≠ 0 → ∃ t, exec .pcieCompletion s = .next t ∧ t.mem = s.mem ∧
        t.net = s.net ++ [sentFrom s { nackFor p 0 with pmask := 1 }]) ∧
      (∀ o : Option Nat, k.hostReqs[s.ev.n]? = some { old := o, pkt := p } → p.str ≠ 0 → ∃ t, exec .completionTimeout s = .next t ∧
        (t.mem = s.mem ∨ t.mem = s.mem.write r.pa r.size (r.new (o.getD (s.mem.read r.pa r.size)))) ∧
        t.net = s.net ++ [sentFrom s { nackFor p 0 with pmask := 1 }])))

/-- R2, R25, R169, R259, R260, R310, R311, R315 to R318, R321, R324, R325: a write of a register changes its writable bits in the bytes it enables;
configuration space sets a function's enables and sizes and a VF's vectors; the aperture shows and rewrites the registers of a thread that is not
running, rewrites the engine set of a quiesced device, and says why where it does not; a package takes the number that SYSCFG gives it. The model's
choices here: that the package of that number takes the one it had (log 66), the offsets of the aperture that R324 does not fix (log 23), that a write
of classes 1 to 3 while QACK = 0, of which R325 says only that it is not accepted, is dropped with NQ in RBSTAT (log 23), when the aperture is alive
(log 38), that a class-0 write of what is no register is refused (log 50), and that a class-1 write of RINGn which moves TAIL ends the ring's
reservations (log 50). -/
def Obligations.HostRegisters : Prop :=
  (∀ (s : State),
    let p := s.ev.pkg
    let off := s.ev.off.toNat / 8 * 8
    let k := s.pkg p
    let bytes := fun (mask old : Dword) (y : Dword) => ∀ i < 64, y.getLsbD i =
      if mask.getLsbD i = true ∧ s.ev.be.getLsbD (i / 8) = true then s.ev.value.getLsbD i else old.getLsbD i
    s.ev.fn = 0 →
    (off = 0x28 → ∃ t y, exec .registerWrite s = .next t ∧ bytes 0xFF1F00 k.ftcfg y ∧ t = s.setPkg p { k with ftcfg := y }) ∧
    (off = 0x40 → ∃ t y, exec .registerWrite s = .next t ∧ bytes 0xFF07FF k.pwrlim y ∧ t = s.setPkg p { k with pwrlim := y }) ∧
    (off = 0x1008 → k.state ≠ 4 → k.busy = false → ∃ t y, exec .registerWrite s = .next t ∧ bytes 0xFFFFFFFFFFFFFFFF k.marg0 y ∧
      t = s.setPkg p { k with marg0 := y }) ∧
    (off = 0x1008 → k.state = 4 ∨ k.busy = true → exec .registerWrite s = .next s) ∧
    (off = 0x70 → k.queues.any (fun w => w.2.enabled) = true → exec .registerWrite s = .next s) ∧
    (off = 0x70 → k.queues.any (fun w => w.2.enabled) = false → ∃ y, bytes 0x1F03FF03FF03FF k.syscfg y ∧
      (y.extractLsb' 0 10 = p → exec .registerWrite s = .next (s.setPkg p { k with syscfg := y })) ∧
      (∀ g : Pkg, y.extractLsb' 0 10 = g → g ≠ p → s.ev.be.extractLsb' 0 2 ≠ 0 → ∃ t, exec .registerWrite s = .next t ∧ (t.pkg g).syscfg = y ∧
        (t.pkg g).board = k.board ∧ (t.pkg g).queues = k.queues ∧
        (∀ a < 2 ^ (44 : Nat), t.mem.byte (g.toNat * 2 ^ (44 : Nat) + a) = s.mem.byte (p.toNat * 2 ^ (44 : Nat) + a)) ∧
        (∀ d u, t.core (mkEp g d u) = s.core (mkEp p d u)))) ∧
    (∀ q < 4096, off = 0x20000 + 32 * q + 8 → k.state ≠ 4 →
      ((k.queue q).enabled = false → ∃ t y, exec .registerWrite s = .next t ∧ bytes 0x7FFFFFFFFFFF80 (k.queue q).base y ∧
        (t.pkg p).queue q = { k.queue q with base := y } ∧ t.mem = s.mem ∧ t.cores = s.cores) ∧
      ((k.queue q).enabled = true → exec .registerWrite s = .next s))) ∧
  (∀ (s : State),
    let p := s.ev.pkg
    let f := s.ev.fn.toNat
    let w := (s.pkg p).fn f
    (s.ev.n = 0 → ∃ t, exec .configurationWrite s = .next t ∧ t.mem = s.mem ∧ t.cores = s.cores ∧
      (t.pkg p).fn f = { w with busMaster := s.ev.bme, atomicEn := s.ev.atomicEn }) ∧
    (s.ev.n = 1 → ∃ t, exec .configurationWrite s = .next t ∧ t.mem = s.mem ∧
      ∀ i, 1 ≤ i → i ≤ 63 → ((t.pkg p).fn i).enabled = decide (i ≤ s.ev.id)) ∧
    (s.ev.n = 2 → (if f = 0 then 30 else 28) ≤ s.ev.id → s.ev.id ≤ 36 → ∃ t, exec .configurationWrite s = .next t ∧
      (t.pkg p).fn f = { w with bar2 := s.ev.id }) ∧
    (s.ev.n = 3 → f ≠ 0 → s.ev.id < 32 → ∃ t, exec .configurationWrite s = .next t ∧ ((t.pkg p).fn f).vecOpen.contains s.ev.id = s.ev.ok ∧
      (t.pkg p).replies = (s.pkg p).replies ++ (if s.ev.ok = true ∧ w.vecPending.contains s.ev.id = true then [.vfMsix f s.ev.id] else []) ∧
      ((t.pkg p).fn f).vecPending.contains s.ev.id = (w.vecPending.contains s.ev.id && !s.ev.ok))) ∧
  (∀ (s : State) (n : Nat),
    let p := s.ev.pkg
    let k := s.pkg p
    let ep := k.rbEp p
    let ctx := k.rbCtx
    s.ev.fn = 0 → s.ev.off.toNat = 0x100000 + 8 * n → k.rbClass = 0 → k.rbsel.extractLsb' 40 4 = 0 → epIsCore ep = true → k.state ≠ 4 → k.qack = false →
    let u := s.thr ep ctx
    let answers := fun (x : Dword) => ∃ t, exec .readbackRead s = .next t ∧ t.mem = s.mem ∧ t.cores = s.cores ∧
      (t.pkg p).replies = k.replies ++ [.data x.toNat false]
    (u.status = .faulted →
      (∀ r : Fin 32, 1 ≤ r.val → r.val ≤ 27 → n = 263 + r.val → answers u.g[r]) ∧ (∀ r : Fin 32, ∀ j < 8, n = 8 * r.val + j → answers (u.v[r].extractLsb' (64 * j) 64)) ∧
      (∀ r : Fin 8, n = 256 + r.val → answers u.k[r]) ∧ (n = 292 → answers (u.pc.setWidth 64)) ∧ (n = 293 → answers u.st)) ∧
    (u.status = .ready → n < 336 → ∃ t, exec .readbackRead s = .next t ∧ t.cores = s.cores ∧ (t.pkg p).rbstat = k.rbstat ||| 1 ∧
      (t.pkg p).replies = k.replies ++ [.data (2 ^ (64 : Nat) - 1) false]) ∧
    (u.status = .faulted → 336 ≤ n → n < 2 ^ (17 : Nat) → ∃ t, exec .readbackRead s = .next t ∧ (t.pkg p).rbstat = k.rbstat ||| 2 ∧
      (t.pkg p).replies = k.replies ++ [.data (2 ^ (64 : Nat) - 1) false]) ∧
    (u.status = .faulted → ∀ r : Fin 32, 1 ≤ r.val → r.val ≤ 27 → n = 263 + r.val → u.pend = [] →
      ∃ t, exec .readbackWrite s = .next t ∧ t.thr ep ctx = u.setG (BitVec.ofNat 5 r.val) s.ev.value ∧ t.mem = s.mem ∧ t.pkgs = s.pkgs) ∧
    (u.status = .faulted → n = 292 → ∃ t, exec .readbackWrite s = .next t ∧ (t.thr ep ctx).pc.toNat = s.ev.value.toNat % 2 ^ (18 : Nat) / 4 * 4 ∧
      (t.thr ep ctx).g = u.g ∧ t.mem = s.mem) ∧
    (n < 2 ^ (17 : Nat) → u.status ≠ .faulted ∨ n = 291 ∨ 319 ≤ n → ∃ t, exec .readbackWrite s = .next t ∧ t.cores = s.cores ∧ t.mem = s.mem ∧
      (t.pkg p).rbstat = k.rbstat ||| 8)) ∧
  (∀ (s : State) (n : Nat),
    let p := s.ev.pkg
    let k := s.pkg p
    let ep := k.rbEp p
    let c := s.core ep
    let x := s.ev.value
    s.ev.fn = 0 → s.ev.off.toNat = 0x100000 + 8 * n → n < 2 ^ (17 : Nat) → k.rbsel.extractLsb' 40 4 = 0 → k.state ≠ 4 →
    (4 ≤ k.rbClass → ∃ t, exec .readbackWrite s = .next t ∧ t.cores = s.cores ∧ t.mem = s.mem ∧ (t.pkg p).rbstat = k.rbstat ||| 4) ∧
    (k.rbClass = 1 → epIsCore ep = true → k.qack = true → c.badRegs = [] → 
      (∀ m < 4, ∀ j < 256, n = 256 * m + j → ∃ t, exec .readbackWrite s = .next t ∧ t.mem = s.mem ∧ t.pkgs = s.pkgs ∧ t.core ep =
        { c with acc := vset (BitVec.ofNat 2 m) ((vget (BitVec.ofNat 2 m) c.acc).setIfInBounds j (x.setWidth 48)) c.acc }) ∧
      (∀ m < 4, n = 1024 + m → ∃ t, exec .readbackWrite s = .next t ∧ t.core ep = { c with ast := vset (BitVec.ofNat 2 m) (x &&& 7) c.ast }) ∧
      (∀ j < 8, n = 1032 + j → let r : BitVec 3 := BitVec.ofNat 3 j
        (x.toNat / 2 ^ (51 : Nat) = (vget r c.rings).toNat / 2 ^ (51 : Nat) → ∃ t, exec .readbackWrite s = .next t ∧ t.core ep = { c with rings := vset r x c.rings }) ∧
        (x.toNat / 2 ^ (51 : Nat) ≠ (vget r c.rings).toNat / 2 ^ (51 : Nat) → ∃ t, exec .readbackWrite s = .next t ∧ (t.core ep).rings = vset r x c.rings ∧
          (t.core ep).ringNext = vset r (x.toNat / 2 ^ (51 : Nat)) c.ringNext ∧ (t.core ep).ringTails = vset r (x.toNat / 2 ^ (51 : Nat)) c.ringTails ∧
          (t.core ep).acc = c.acc ∧ (t.core ep).copies = c.copies ∧ (t.core ep).threads = c.threads ∧ t.mem = s.mem))) ∧
    (1 ≤ k.rbClass → k.rbClass ≤ 3 → epIsCore ep = true → k.qack = false → n < 2 ^ (11 : Nat) → ∃ t, exec .readbackWrite s = .next t ∧ t.cores = s.cores ∧
      t.mem = s.mem ∧ (t.pkg p).rbstat = k.rbstat ||| 1) ∧
    (k.rbClass = 2 → epIsCore ep = true → k.qack = true → n % 2 = 0 → (∀ j : Fin 8, (vget (BitVec.ofNat 3 j) c.rings) = 0) →
      ∃ t, exec .readbackWrite s = .next t ∧ t.mem = s.mem.write (granaryPa ep (4 * n)) 8 x.toNat))

/-- R269, R315, R320, R321, R322, R326, R328: power-up goes through its stages, boots the valid image of higher version and initialises memory, or
enters maintenance with the reason; a reset of any kind leaves the package nothing of its state, memory included; a VF's reset tears down its queues;
QREQ stops every unit, which QACK confirms; with its release a teardown asked for meanwhile begins, an operation of MCMD given meanwhile starts, and a
wait held at a home on a dword that the aperture has written meanwhile is performed if its condition holds then, but in maintenance nothing goes on;
ports may train once memory is initialised; a die's clock moves one step at most with its power and temperature; at 115 degrees the device enters
maintenance. The model's choices here: what a register holds after a reset that gives it no value (log 1) and a byte that nothing has written (log 2),
which failures belong to which stage of power-up (log 37), the copy it boots of two that have one version (log 65), and that what was asked for in a
quiesce, a teardown among it, takes effect in the step of its release (log 68). -/
def Obligations.PowerAndResets : Prop :=
  (∀ (s : State),
    let p := s.ev.pkg
    let k := s.pkg p
    let f := s.ev.failure.toNat
    let image := fun (i : BitVec 1) => vget i k.board.images
    let valid := fun (i : BitVec 1) => (image i).slot.toNat < 2 ∧ k.board.revoked.getLsbD (image i).slot.toNat = false ∧
      (image i).verifies = true ∧ k.board.minVersion ≤ (image i).version
    let stops := fun (reason : Nat) => ∃ t, exec .powerUp s = .next t ∧ (t.pkg p).state = 4 ∧
      (t.pkg p).reason = BitVec.ofNat 8 reason ∧ (∀ n, ((t.pkg p).port n).up = false) ∧ t.mem = s.mem
    (k.state = 0 → ∃ t, exec .powerUp s = .next t ∧ t = ({ s with free := s.free + 1 }).setPkg p { k with state := 1, reason := 0, boot := s.free }) ∧
    (k.state = 1 → f = 0 →
      (valid 0 → (valid 1 → (image 1).version ≤ (image 0).version) → ∃ t, exec .powerUp s = .next t ∧ t = s.setPkg p { k with state := 2, active := 0 }) ∧
      (valid 1 → (valid 0 → (image 0).version < (image 1).version) → ∃ t, exec .powerUp s = .next t ∧ t = s.setPkg p { k with state := 2, active := 1 }) ∧
      (¬valid 0 → ¬valid 1 → stops 1)) ∧
    (k.state = 2 → k.ready = true → f = 0 → exec .powerUp s = .next (s.setPkg p { k with state := 3 })) ∧
    (k.state = 2 → k.ready = false → f = 0 → ∃ t, exec .powerUp s = .next t ∧ t.pkg p = { k with ready := true } ∧ t.launches = s.launches ∧ t.net = s.net ∧
      (∀ a, paPkg a = p → paHasFe a = true → t.mem.byte a = 0 ∧ t.mem.isFull a = true ∧ t.mem.poisoned a = false) ∧
      (∀ a, paPkg a ≠ p ∨ paHasFe a = false → t.mem.byte a = s.mem.byte a) ∧
      (∀ ep, t.core ep = if epPkg ep = p then { s.core ep with slots := Vector.replicate 4 {} } else s.core ep)) ∧
    ((k.state = 1 ∧ f = 1) ∨ (k.state = 2 ∧ k.ready = false ∧ (f = 2 ∨ f = 3)) ∨ (k.state = 2 ∧ k.ready = true ∧ f = 4) → stops f) ∧
    (k.state = 3 ∨ k.state = 4 → exec .powerUp s = .next s)) ∧
  (∀ (s : State) (i : Instr), i = .deviceReset ∨ i = .pfFlr ∨ i = .powerRemoval →
    let p := s.ev.pkg
    s.net = [] → (∀ w ∈ (s.pkg p).ports.toList, ∀ x ∈ w.replay, x.whole = none) → ∃ t, exec i s = .next t ∧ t.pkg p = { ({} : Package) with
        replies := (s.pkg p).replies, board := (s.pkg p).board, was := (s.pkg p).was, dies := (s.pkg p).dies.map (fun d => { base := d.base + d.cyc }) } ∧
      (∀ a, paPkg a = p → paRegion a ≠ .host → t.mem.byte a = 0 ∧ t.mem.isFull a = true ∧ t.mem.poisoned a = false) ∧
      (∀ a, paPkg a ≠ p ∨ paRegion a = .host → t.mem.byte a = s.mem.byte a) ∧ (∀ ep, epPkg ep = p → t.core ep = {} ∧ t.table ep = []) ∧
      (∀ ep, epPkg ep ≠ p → t.core ep = s.core ep) ∧ (∀ l ∈ t.launches, l.home ≠ p) ∧ (∀ g, g ≠ p → t.pkg g = s.pkg g)) ∧
  (∀ (s : State) (w : Queue),
    let p := s.ev.pkg
    let k := s.pkg p
    let q := s.ev.q.toNat
    let f := s.ev.fn.toNat
    f ≠ 0 → k.state ≠ 4 → k.queues = [(q, w)] → s.launchesOf p q = [] →
    (Assoc.get k.qfn q 0 = BitVec.ofNat 8 f → w.tearing = false → ∃ t, exec .vfFlr s = .next t ∧ ((t.pkg p).queue q).tearing = true ∧
      ((t.pkg p).queue q).enabled = false ∧ ((t.pkg p).fn f).flr = true ∧ t.mem = s.mem) ∧
    (Assoc.get k.qfn q 0 = BitVec.ofNat 8 f → w.tearing = true → ∃ t, exec .vfFlr s = .next t ∧ (t.pkg p).queue q = w ∧ ((t.pkg p).fn f).flr = true ∧
      t.mem = s.mem) ∧
    (Assoc.get k.qfn q 0 ≠ BitVec.ofNat 8 f → ∃ t, exec .vfFlr s = .next t ∧ (t.pkg p).queue q = w ∧ ((t.pkg p).fn f).flr = false ∧ t.mem = s.mem)) ∧
  (∀ (s : State),
    let p := s.ev.pkg
    let k := s.pkg p
    (∃ t, exec .quiesceRequest s = .next t ∧ t = s.setPkg p { k with qreq := true } ∧ (t.pkg p).halted = true) ∧
    let untouched := ∀ w ∈ s.waiters, w.pa / 8 * 8 ∉ k.touched
    (k.state = 4 → ∃ t, exec .quiesceRelease s = .next t ∧ t = s.setPkg p { k with qreq := false, qack := false }) ∧
    (k.state ≠ 4 → k.waitPreempt = none →
      (k.heldMcmd = false → (∀ x ∈ k.queues, x.2.heldTd = false) → untouched → ∃ t, exec .quiesceRelease s = .next t ∧
        t = s.setPkg p { k with qreq := false, qack := false, touched := [] }) ∧
      (∀ w, k.heldMcmd = false → (∀ x ∈ k.queues, x.2.heldTd = false) → s.waiters = [w] → k.touched = [w.pa / 8 * 8] → ∃ t, exec .quiesceRelease s = .next t ∧
        (t.pkg p).qreq = false ∧ (s.mem.condition w.req = false → t.waiters = [w] ∧ t.mem = s.mem) ∧
        (s.mem.condition w.req = true → t.waiters = [] ∧ t.mem = (s.mem.perform w.req).mem)) ∧
      (∀ q w, k.heldMcmd = false → k.queues = [(q, w)] → w.heldTd = true → untouched → ∃ t, exec .quiesceRelease s = .next t ∧
        t = (((s.setPkg p { k with qreq := false, qack := false, touched := [] }).setQ p q { w with heldTd := false }).tearQueue p q).retryPreempt p) ∧
      (k.heldMcmd = true → (∀ x ∈ k.queues, x.2.heldTd = false) → untouched → ∃ t, exec .quiesceRelease s = .next t ∧
        t = ((s.setPkg p { k with qreq := false, qack := false, busy := false, heldMcmd := false, touched := [] }).startMcmd p k.mcmd).retryPreempt p)) ∧
    (k.qreq = true → ∃ t, exec .quiesceAck s = .next t ∧ t = s.setPkg p { k with qack := true }) ∧
    (k.qreq = false → exec .quiesceAck s = .next s)) ∧
  (∀ (s : State),
    let p := s.ev.pkg
    let k := s.pkg p
    let d := s.die p s.ev.die
    let watts := min 1500 (max 600 (k.pwrlim.toNat % 2048))
    let limit := min 105 (k.pwrlim.toNat / 2 ^ (16 : Nat) % 256)
    let hot := watts < s.ev.watts ∨ limit < s.ev.temp
    (d.cyc < d.stepAt + 2 ^ (20 : Nat) → exec .clockStep s = .next s) ∧
    (d.stepAt + 2 ^ (20 : Nat) ≤ d.cyc → ∃ t, exec .clockStep s = .next t ∧ (t.die p s.ev.die).stepAt = d.cyc ∧ (t.die p s.ev.die).tlb = d.tlb ∧ t.mem = s.mem ∧
      (hot → d.step < 9 → (t.die p s.ev.die).step = d.step + 1 ∧ (t.pkg p).throttled = true) ∧
      (¬hot → s.ev.watts * 100 < watts * 95 → s.ev.temp + 5 < limit → 0 < d.step → (t.die p s.ev.die).step = d.step - 1) ∧
      (¬hot → watts * 95 ≤ s.ev.watts * 100 ∨ limit ≤ s.ev.temp + 5 → (t.die p s.ev.die).step = d.step)) ∧
    (115 ≤ s.ev.temp → ∃ t, exec .thermalTrip s = .next t ∧ (t.pkg p).state = 4 ∧ (t.pkg p).reason = 5 ∧ (∀ n, ((t.pkg p).port n).up = false) ∧
      t.mem = s.mem) ∧
    (s.ev.temp < 115 → exec .thermalTrip s = .next s))

/-- R11, R270, R281, R284, R322, R323, R327: firmware answers the mailbox with values no rule fixes and clears GO, an update's request having written
the inactive image; each SPDM request is answered on a device that has come up, the measurements as digests of what they measure; a scrub read that
finds a dword or an instruction word uncorrectable marks it and reports it, once, and a channel is read only for the bursts its slice holds; a forced
refresh holds its channel for 700 cycles. The model's choices here: the values of firmware's answer are free (log 3), the codes of the responses (log 24),
which dword a scrub event names and which of a slice's channels holds a burst (log 25), that a sweep waits for room in the holding store (log 64),
and what the images, the fuses and the digest are (log 65). -/
def Obligations.MailboxAttestationScrub : Prop :=
  (∀ (s : State),
    let p := s.ev.pkg
    let k := s.pkg p
    (∃ t, exec .mailboxGo s = .next t ∧ t = s.setPkg p { k with mbxGo := true }) ∧
    let answered := fun (k1 : Package) => ∃ t m, exec .mailboxAnswer s = .next t ∧
      t = ({ s with free := s.free + 512 }).setPkg p { k1 with mbxGo := false, mailbox := m } ∧ ∀ i < 512, Assoc.get m i 0 = Config.freeDword (s.free + i)
    let image : Image := { slot := s.ev.status, verifies := s.ev.ok, version := s.ev.id, content := s.ev.value.toNat }
    (k.mbxGo = true → s.ev.n ≠ 1 → answered k) ∧
    (k.mbxGo = true → s.ev.n = 1 → answered { k with board := { k.board with images := vset (k.active + 1) image k.board.images } }) ∧
    (k.mbxGo = false → exec .mailboxAnswer s = .next s)) ∧
  (∀ (s : State) (i : Instr) (code : Nat), (i, code) ∈ [(.getVersion, 4), (.getCapabilities, 0x61), (.negotiateAlgorithms, 0x63), (.getDigests, 1),
      (.getCertificate, 2), (.challenge, 3), (.getMeasurements, 0x60)] →
    let p := s.ev.pkg
    let k := s.pkg p
    (3 ≤ k.state.toNat → ∃ t l, exec i s = .next t ∧ (t.pkg p).replies = k.replies ++ [.spdm code l] ∧ t.mem = s.mem ∧ t.cores = s.cores ∧
      (i = .getVersion → l = [0x13, 0x12]) ∧
      (i = .getDigests → l = [1, (Config.sha512 (Config.certificate (k.physical p)).toNat).toNat]) ∧
      (i = .getMeasurements → l.length = 5 ∧ l.take 4 = [Config.bootRom (k.physical p), (vget k.active k.board.images).content, k.fuses p, k.testReport p].map
        (fun x => (Config.sha512 x).toNat))) ∧
    (k.state.toNat < 3 → ∃ t, exec i s = .next t ∧ (t.pkg p).replies = k.replies ∧ t.mem = s.mem)) ∧
  (∀ (s : State) (row last : Nat),
    let ep := s.ev.ep
    let c := s.core ep
    let k := s.pkg (epPkg ep)
    let gap := max 1 (k.scrub.extractLsb' 0 16).toNat
    epIsCore ep = true → s.ev.n < 2 → k.scrub.getLsbD 63 = true →
    (256 ≤ k.records.length → exec .scrubBankRead s = .next s) ∧ (k.records.length < 256 →
    (s.ev.n = 0 → Assoc.get c.bankScrub s.ev.bank.toNat (0, 0) = (row, last) →
      let pa := granaryPa ep (512 * row + 8 * s.ev.bank.toNat)
      (c.cyc.toNat < last + gap → exec .scrubBankRead s = .next s) ∧
      (last + gap ≤ c.cyc.toNat → s.ev.ok = true → ∃ t, exec .scrubBankRead s = .next t ∧ t.mem = s.mem ∧ t.pkgs = s.pkgs ∧
        Assoc.get (t.core ep).bankScrub s.ev.bank.toNat (0, 0) = ((row + 1) % 16384, c.cyc.toNat)) ∧
      (last + gap ≤ c.cyc.toNat → s.ev.ok = false → s.mem.poisoned pa = false → row < 16384 → (epUnit ep).toNat < 512 →
        ∃ t r, exec .scrubBankRead s = .next t ∧ t.mem.poisoned pa = true ∧ (∀ a, t.mem.byte a = s.mem.byte a) ∧
          (t.pkg (epPkg ep)).records = k.records ++ [r] ∧ (r.dwords.getD 0 0).toNat % 2 ^ (12 : Nat) = 9 + 4 * 2 ^ (8 : Nat) ∧ r.dwords.getD 4 0 = BitVec.ofNat 64 pa)) ∧
    (s.ev.n = 1 → Assoc.get c.bankScrub 64 (0, 0) = (row, last) → last + gap ≤ c.cyc.toNat → s.ev.ok = false → 4 * row ∉ c.badWords →
      ∃ t r, exec .scrubBankRead s = .next t ∧ 4 * row ∈ (t.core ep).badWords ∧ (t.pkg (epPkg ep)).records = k.records ++ [r] ∧
        (r.dwords.getD 0 0).toNat % 2 ^ (12 : Nat) = 8 + 4 * 2 ^ (8 : Nat) ∧
        (∀ a, t.mem.byte a = s.mem.byte a) ∧ t.mem.poisoned (istorePa ep (4 * row)) = true))) ∧
  (∀ (s : State) (burst last i : Nat),
    let p := s.ev.pkg
    let d := s.die p s.ev.die
    let k := s.pkg p
    let gap := max 1 (k.scrub.extractLsb' 32 16).toNat
    let pa := p.toNat * 2 ^ (44 : Nat) + s.ev.off.toNat * 64 % 2 ^ (40 : Nat)
    let b := s.ev.off.toNat % 2 ^ (34 : Nat)
    let swept := Assoc.get d.sweptBursts s.ev.n []
    let owned := homeEp pa = mkEp p s.ev.die (BitVec.ofNat 11 (1024 + s.ev.n / 4)) ∧ s.ev.off.toNat % 4 = s.ev.n % 4
    s.ev.n < 64 → k.scrub.getLsbD 63 = true → Assoc.get d.channelScrub s.ev.n (0, 0) = (burst, last) → s.ev.parts = [i] → i < 8 →
    (d.cyc < last + gap ∨ d.cyc < Assoc.get d.refresh s.ev.n 0 ∨ ¬owned ∨ b ∈ swept ∨ 256 ≤ k.records.length →
      exec .scrubChannelRead s = .next s) ∧
    (last + gap ≤ d.cyc → Assoc.get d.refresh s.ev.n 0 ≤ d.cyc → owned → b ∉ swept → k.records.length < 256 → s.mem.poisoned (pa + 8 * i) = false →
      ∃ t, exec .scrubChannelRead s = .next t ∧ t.mem.poisoned (pa + 8 * i) = true ∧ (∀ a, t.mem.byte a = s.mem.byte a) ∧
        (t.pkg p).records.length = k.records.length + 1 ∧
        Assoc.get (t.die p s.ev.die).sweptBursts s.ev.n [] = (if burst + 1 = 2 ^ (27 : Nat) then [] else b :: swept))) ∧
  (∀ (s : State), let d := s.die s.ev.pkg s.ev.die;
    s.ev.n < 64 → ∃ t, exec .refreshForced s = .next t ∧ Assoc.get (t.die s.ev.pkg s.ev.die).refresh s.ev.n 0 = d.cyc + 700 ∧ t.mem = s.mem ∧ t.cores = s.cores)
end

