-- ==== Sys2Proof/Laws/Maps.lean ====
section
/-! SUPPORT. Laws of the finite maps and indexed files: what is read after a write to the same key, and after one to another. -/

namespace Sys2Proof.Machine

@[simp] theorem Assoc.get_set_same {α : Type} (l : List (Nat × α)) (n : Nat) (x d : α) :
    Assoc.get (Assoc.set l n x) n d = x := by
  induction l with
  | nil => simp [Assoc.set, Assoc.get]
  | cons h r ih =>
    obtain ⟨k, v⟩ := h
    simp only [Assoc.set]
    split
    · simp [Assoc.get]
    · split <;> simp_all [Assoc.get]

theorem Assoc.get_set_other {α : Type} (l : List (Nat × α)) {m n : Nat} (x d : α) (h : m ≠ n) :
    Assoc.get (Assoc.set l n x) m d = Assoc.get l m d := by
  induction l with
  | nil => simp [Assoc.set, Assoc.get, h]
  | cons c r ih =>
    obtain ⟨k, v⟩ := c
    simp only [Assoc.set]
    split
    · subst_vars; simp [Assoc.get, h]
    · split <;> simp_all [Assoc.get]

@[simp] theorem Assoc.set_set {α : Type} (l : List (Nat × α)) (n : Nat) (x y : α) :
    Assoc.set (Assoc.set l n x) n y = Assoc.set l n y := by
  induction l with
  | nil => simp [Assoc.set]
  | cons c r ih =>
    obtain ⟨k, v⟩ := c
    by_cases h : n = k
    · simp [Assoc.set, h]
    · by_cases g : n < k
      · simp [Assoc.set, h, g]
      · simp [Assoc.set, h, g, ih]

@[simp] theorem vget_vset_same {n : Nat} {α : Type} (i : BitVec n) (x : α) (v : Vector α (2 ^ n)) : vget i (vset i x v) = x := by
  simp [vget, vset]

theorem vget_vset_other {n : Nat} {α : Type} {i j : BitVec n} (x : α) (v : Vector α (2 ^ n)) (h : i ≠ j) :
    vget i (vset j x v) = vget i v := by
  have : j.toNat ≠ i.toNat := fun e => h (BitVec.eq_of_toNat_eq e.symm)
  simp [vget, vset, this]

@[simp] theorem vset_vset {n : Nat} {α : Type} (i : BitVec n) (x y : α) (v : Vector α (2 ^ n)) :
    vset i y (vset i x v) = vset i y v := by
  simp [vset]

@[simp] theorem vset_vget {n : Nat} {α : Type} (i : BitVec n) (v : Vector α (2 ^ n)) : vset i (vget i v) v = v := by
  simp [vset, vget]

end Sys2Proof.Machine
end

