-- ==== Sys2Proof/Laws/State.lean ====
section
/-! SUPPORT. One lemma per field per update of the state's records, so that no proof unfolds a record update. -/

namespace Sys2Proof.Machine

/-! ## Fields of a state after `setCore` -/

@[simp] theorem State.setCore_mem (s : State) (ep : Ep) (c : Core) : (s.setCore ep c).mem = s.mem := rfl
@[simp] theorem State.setCore_pkgs (s : State) (ep : Ep) (c : Core) : (s.setCore ep c).pkgs = s.pkgs := rfl
@[simp] theorem State.setCore_tables (s : State) (ep : Ep) (c : Core) : (s.setCore ep c).tables = s.tables := rfl
@[simp] theorem State.setCore_waiters (s : State) (ep : Ep) (c : Core) : (s.setCore ep c).waiters = s.waiters := rfl
@[simp] theorem State.setCore_launches (s : State) (ep : Ep) (c : Core) : (s.setCore ep c).launches = s.launches := rfl
@[simp] theorem State.setCore_net (s : State) (ep : Ep) (c : Core) : (s.setCore ep c).net = s.net := rfl
@[simp] theorem State.setCore_spawns (s : State) (ep : Ep) (c : Core) : (s.setCore ep c).spawns = s.spawns := rfl
@[simp] theorem State.setCore_arrivals (s : State) (ep : Ep) (c : Core) : (s.setCore ep c).arrivals = s.arrivals := rfl
@[simp] theorem State.setCore_mesh (s : State) (ep : Ep) (c : Core) : (s.setCore ep c).mesh = s.mesh := rfl
@[simp] theorem State.setCore_stamp (s : State) (ep : Ep) (c : Core) : (s.setCore ep c).stamp = s.stamp := rfl
@[simp] theorem State.setCore_agenda (s : State) (ep : Ep) (c : Core) : (s.setCore ep c).agenda = s.agenda := rfl
@[simp] theorem State.setCore_focus (s : State) (ep : Ep) (c : Core) : (s.setCore ep c).focus = s.focus := rfl
@[simp] theorem State.setCore_issue (s : State) (ep : Ep) (c : Core) : (s.setCore ep c).issue = s.issue := rfl
@[simp] theorem State.setCore_ev (s : State) (ep : Ep) (c : Core) : (s.setCore ep c).ev = s.ev := rfl
@[simp] theorem State.setCore_free (s : State) (ep : Ep) (c : Core) : (s.setCore ep c).free = s.free := rfl
@[simp] theorem State.setCore_tick (s : State) (ep : Ep) (c : Core) : (s.setCore ep c).tick = s.tick := rfl

/-! ## Fields of a state after `setThr` -/

@[simp] theorem State.setThr_mem (s : State) (ep : Ep) (x : Ctx) (t : Thread) : (s.setThr ep x t).mem = s.mem := rfl
@[simp] theorem State.setThr_pkgs (s : State) (ep : Ep) (x : Ctx) (t : Thread) : (s.setThr ep x t).pkgs = s.pkgs := rfl
@[simp] theorem State.setThr_tables (s : State) (ep : Ep) (x : Ctx) (t : Thread) : (s.setThr ep x t).tables = s.tables := rfl
@[simp] theorem State.setThr_waiters (s : State) (ep : Ep) (x : Ctx) (t : Thread) : (s.setThr ep x t).waiters = s.waiters := rfl
@[simp] theorem State.setThr_launches (s : State) (ep : Ep) (x : Ctx) (t : Thread) : (s.setThr ep x t).launches = s.launches := rfl
@[simp] theorem State.setThr_net (s : State) (ep : Ep) (x : Ctx) (t : Thread) : (s.setThr ep x t).net = s.net := rfl
@[simp] theorem State.setThr_spawns (s : State) (ep : Ep) (x : Ctx) (t : Thread) : (s.setThr ep x t).spawns = s.spawns := rfl
@[simp] theorem State.setThr_arrivals (s : State) (ep : Ep) (x : Ctx) (t : Thread) : (s.setThr ep x t).arrivals = s.arrivals := rfl
@[simp] theorem State.setThr_mesh (s : State) (ep : Ep) (x : Ctx) (t : Thread) : (s.setThr ep x t).mesh = s.mesh := rfl
@[simp] theorem State.setThr_stamp (s : State) (ep : Ep) (x : Ctx) (t : Thread) : (s.setThr ep x t).stamp = s.stamp := rfl
@[simp] theorem State.setThr_agenda (s : State) (ep : Ep) (x : Ctx) (t : Thread) : (s.setThr ep x t).agenda = s.agenda := rfl
@[simp] theorem State.setThr_focus (s : State) (ep : Ep) (x : Ctx) (t : Thread) : (s.setThr ep x t).focus = s.focus := rfl
@[simp] theorem State.setThr_issue (s : State) (ep : Ep) (x : Ctx) (t : Thread) : (s.setThr ep x t).issue = s.issue := rfl
@[simp] theorem State.setThr_ev (s : State) (ep : Ep) (x : Ctx) (t : Thread) : (s.setThr ep x t).ev = s.ev := rfl
@[simp] theorem State.setThr_free (s : State) (ep : Ep) (x : Ctx) (t : Thread) : (s.setThr ep x t).free = s.free := rfl
@[simp] theorem State.setThr_tick (s : State) (ep : Ep) (x : Ctx) (t : Thread) : (s.setThr ep x t).tick = s.tick := rfl

/-! ## Fields of a state after `setMyCore` -/

@[simp] theorem State.setMyCore_mem (s : State) (c : Core) : (s.setMyCore c).mem = s.mem := rfl
@[simp] theorem State.setMyCore_pkgs (s : State) (c : Core) : (s.setMyCore c).pkgs = s.pkgs := rfl
@[simp] theorem State.setMyCore_tables (s : State) (c : Core) : (s.setMyCore c).tables = s.tables := rfl
@[simp] theorem State.setMyCore_waiters (s : State) (c : Core) : (s.setMyCore c).waiters = s.waiters := rfl
@[simp] theorem State.setMyCore_launches (s : State) (c : Core) : (s.setMyCore c).launches = s.launches := rfl
@[simp] theorem State.setMyCore_net (s : State) (c : Core) : (s.setMyCore c).net = s.net := rfl
@[simp] theorem State.setMyCore_spawns (s : State) (c : Core) : (s.setMyCore c).spawns = s.spawns := rfl
@[simp] theorem State.setMyCore_arrivals (s : State) (c : Core) : (s.setMyCore c).arrivals = s.arrivals := rfl
@[simp] theorem State.setMyCore_mesh (s : State) (c : Core) : (s.setMyCore c).mesh = s.mesh := rfl
@[simp] theorem State.setMyCore_stamp (s : State) (c : Core) : (s.setMyCore c).stamp = s.stamp := rfl
@[simp] theorem State.setMyCore_agenda (s : State) (c : Core) : (s.setMyCore c).agenda = s.agenda := rfl
@[simp] theorem State.setMyCore_focus (s : State) (c : Core) : (s.setMyCore c).focus = s.focus := rfl
@[simp] theorem State.setMyCore_issue (s : State) (c : Core) : (s.setMyCore c).issue = s.issue := rfl
@[simp] theorem State.setMyCore_ev (s : State) (c : Core) : (s.setMyCore c).ev = s.ev := rfl
@[simp] theorem State.setMyCore_free (s : State) (c : Core) : (s.setMyCore c).free = s.free := rfl
@[simp] theorem State.setMyCore_tick (s : State) (c : Core) : (s.setMyCore c).tick = s.tick := rfl

/-! ## Fields of a state after `setMe` -/

@[simp] theorem State.setMe_mem (s : State) (t : Thread) : (s.setMe t).mem = s.mem := rfl
@[simp] theorem State.setMe_pkgs (s : State) (t : Thread) : (s.setMe t).pkgs = s.pkgs := rfl
@[simp] theorem State.setMe_tables (s : State) (t : Thread) : (s.setMe t).tables = s.tables := rfl
@[simp] theorem State.setMe_waiters (s : State) (t : Thread) : (s.setMe t).waiters = s.waiters := rfl
@[simp] theorem State.setMe_launches (s : State) (t : Thread) : (s.setMe t).launches = s.launches := rfl
@[simp] theorem State.setMe_net (s : State) (t : Thread) : (s.setMe t).net = s.net := rfl
@[simp] theorem State.setMe_spawns (s : State) (t : Thread) : (s.setMe t).spawns = s.spawns := rfl
@[simp] theorem State.setMe_arrivals (s : State) (t : Thread) : (s.setMe t).arrivals = s.arrivals := rfl
@[simp] theorem State.setMe_mesh (s : State) (t : Thread) : (s.setMe t).mesh = s.mesh := rfl
@[simp] theorem State.setMe_stamp (s : State) (t : Thread) : (s.setMe t).stamp = s.stamp := rfl
@[simp] theorem State.setMe_agenda (s : State) (t : Thread) : (s.setMe t).agenda = s.agenda := rfl
@[simp] theorem State.setMe_focus (s : State) (t : Thread) : (s.setMe t).focus = s.focus := rfl
@[simp] theorem State.setMe_issue (s : State) (t : Thread) : (s.setMe t).issue = s.issue := rfl
@[simp] theorem State.setMe_ev (s : State) (t : Thread) : (s.setMe t).ev = s.ev := rfl
@[simp] theorem State.setMe_free (s : State) (t : Thread) : (s.setMe t).free = s.free := rfl
@[simp] theorem State.setMe_tick (s : State) (t : Thread) : (s.setMe t).tick = s.tick := rfl

/-! ## Fields of a state after `setPkg` -/

@[simp] theorem State.setPkg_mem (s : State) (p : Pkg) (k : Package) : (s.setPkg p k).mem = s.mem := rfl
@[simp] theorem State.setPkg_cores (s : State) (p : Pkg) (k : Package) : (s.setPkg p k).cores = s.cores := rfl
@[simp] theorem State.setPkg_tables (s : State) (p : Pkg) (k : Package) : (s.setPkg p k).tables = s.tables := rfl
@[simp] theorem State.setPkg_waiters (s : State) (p : Pkg) (k : Package) : (s.setPkg p k).waiters = s.waiters := rfl
@[simp] theorem State.setPkg_launches (s : State) (p : Pkg) (k : Package) : (s.setPkg p k).launches = s.launches := rfl
@[simp] theorem State.setPkg_net (s : State) (p : Pkg) (k : Package) : (s.setPkg p k).net = s.net := rfl
@[simp] theorem State.setPkg_spawns (s : State) (p : Pkg) (k : Package) : (s.setPkg p k).spawns = s.spawns := rfl
@[simp] theorem State.setPkg_arrivals (s : State) (p : Pkg) (k : Package) : (s.setPkg p k).arrivals = s.arrivals := rfl
@[simp] theorem State.setPkg_mesh (s : State) (p : Pkg) (k : Package) : (s.setPkg p k).mesh = s.mesh := rfl
@[simp] theorem State.setPkg_stamp (s : State) (p : Pkg) (k : Package) : (s.setPkg p k).stamp = s.stamp := rfl
@[simp] theorem State.setPkg_agenda (s : State) (p : Pkg) (k : Package) : (s.setPkg p k).agenda = s.agenda := rfl
@[simp] theorem State.setPkg_focus (s : State) (p : Pkg) (k : Package) : (s.setPkg p k).focus = s.focus := rfl
@[simp] theorem State.setPkg_issue (s : State) (p : Pkg) (k : Package) : (s.setPkg p k).issue = s.issue := rfl
@[simp] theorem State.setPkg_ev (s : State) (p : Pkg) (k : Package) : (s.setPkg p k).ev = s.ev := rfl
@[simp] theorem State.setPkg_free (s : State) (p : Pkg) (k : Package) : (s.setPkg p k).free = s.free := rfl
@[simp] theorem State.setPkg_tick (s : State) (p : Pkg) (k : Package) : (s.setPkg p k).tick = s.tick := rfl

/-! ## Fields of a state after `setDie` -/

@[simp] theorem State.setDie_mem (s : State) (p : Pkg) (d : BitVec 1) (x : Die) : (s.setDie p d x).mem = s.mem := rfl
@[simp] theorem State.setDie_cores (s : State) (p : Pkg) (d : BitVec 1) (x : Die) : (s.setDie p d x).cores = s.cores := rfl
@[simp] theorem State.setDie_tables (s : State) (p : Pkg) (d : BitVec 1) (x : Die) : (s.setDie p d x).tables = s.tables := rfl
@[simp] theorem State.setDie_waiters (s : State) (p : Pkg) (d : BitVec 1) (x : Die) : (s.setDie p d x).waiters = s.waiters := rfl
@[simp] theorem State.setDie_launches (s : State) (p : Pkg) (d : BitVec 1) (x : Die) : (s.setDie p d x).launches = s.launches := rfl
@[simp] theorem State.setDie_net (s : State) (p : Pkg) (d : BitVec 1) (x : Die) : (s.setDie p d x).net = s.net := rfl
@[simp] theorem State.setDie_spawns (s : State) (p : Pkg) (d : BitVec 1) (x : Die) : (s.setDie p d x).spawns = s.spawns := rfl
@[simp] theorem State.setDie_arrivals (s : State) (p : Pkg) (d : BitVec 1) (x : Die) : (s.setDie p d x).arrivals = s.arrivals := rfl
@[simp] theorem State.setDie_mesh (s : State) (p : Pkg) (d : BitVec 1) (x : Die) : (s.setDie p d x).mesh = s.mesh := rfl
@[simp] theorem State.setDie_stamp (s : State) (p : Pkg) (d : BitVec 1) (x : Die) : (s.setDie p d x).stamp = s.stamp := rfl
@[simp] theorem State.setDie_agenda (s : State) (p : Pkg) (d : BitVec 1) (x : Die) : (s.setDie p d x).agenda = s.agenda := rfl
@[simp] theorem State.setDie_focus (s : State) (p : Pkg) (d : BitVec 1) (x : Die) : (s.setDie p d x).focus = s.focus := rfl
@[simp] theorem State.setDie_issue (s : State) (p : Pkg) (d : BitVec 1) (x : Die) : (s.setDie p d x).issue = s.issue := rfl
@[simp] theorem State.setDie_ev (s : State) (p : Pkg) (d : BitVec 1) (x : Die) : (s.setDie p d x).ev = s.ev := rfl
@[simp] theorem State.setDie_free (s : State) (p : Pkg) (d : BitVec 1) (x : Die) : (s.setDie p d x).free = s.free := rfl
@[simp] theorem State.setDie_tick (s : State) (p : Pkg) (d : BitVec 1) (x : Die) : (s.setDie p d x).tick = s.tick := rfl

/-! ## Fields of a state after `setLaunch` -/

@[simp] theorem State.setLaunch_mem (s : State) (l : Launch) : (s.setLaunch l).mem = s.mem := rfl
@[simp] theorem State.setLaunch_cores (s : State) (l : Launch) : (s.setLaunch l).cores = s.cores := rfl
@[simp] theorem State.setLaunch_pkgs (s : State) (l : Launch) : (s.setLaunch l).pkgs = s.pkgs := rfl
@[simp] theorem State.setLaunch_tables (s : State) (l : Launch) : (s.setLaunch l).tables = s.tables := rfl
@[simp] theorem State.setLaunch_waiters (s : State) (l : Launch) : (s.setLaunch l).waiters = s.waiters := rfl
@[simp] theorem State.setLaunch_net (s : State) (l : Launch) : (s.setLaunch l).net = s.net := rfl
@[simp] theorem State.setLaunch_spawns (s : State) (l : Launch) : (s.setLaunch l).spawns = s.spawns := rfl
@[simp] theorem State.setLaunch_arrivals (s : State) (l : Launch) : (s.setLaunch l).arrivals = s.arrivals := rfl
@[simp] theorem State.setLaunch_mesh (s : State) (l : Launch) : (s.setLaunch l).mesh = s.mesh := rfl
@[simp] theorem State.setLaunch_stamp (s : State) (l : Launch) : (s.setLaunch l).stamp = s.stamp := rfl
@[simp] theorem State.setLaunch_agenda (s : State) (l : Launch) : (s.setLaunch l).agenda = s.agenda := rfl
@[simp] theorem State.setLaunch_focus (s : State) (l : Launch) : (s.setLaunch l).focus = s.focus := rfl
@[simp] theorem State.setLaunch_issue (s : State) (l : Launch) : (s.setLaunch l).issue = s.issue := rfl
@[simp] theorem State.setLaunch_ev (s : State) (l : Launch) : (s.setLaunch l).ev = s.ev := rfl
@[simp] theorem State.setLaunch_free (s : State) (l : Launch) : (s.setLaunch l).free = s.free := rfl
@[simp] theorem State.setLaunch_tick (s : State) (l : Launch) : (s.setLaunch l).tick = s.tick := rfl

/-! ## Fields of a core after `setThr` -/

@[simp] theorem Core.setThr_cyc (c : Core) (x : Ctx) (t : Thread) : (c.setThr x t).cyc = c.cyc := rfl
@[simp] theorem Core.setThr_last (c : Core) (x : Ctx) (t : Thread) : (c.setThr x t).last = c.last := rfl
@[simp] theorem Core.setThr_parkOrder (c : Core) (x : Ctx) (t : Thread) : (c.setThr x t).parkOrder = c.parkOrder := rfl
@[simp] theorem Core.setThr_crews (c : Core) (x : Ctx) (t : Thread) : (c.setThr x t).crews = c.crews := rfl
@[simp] theorem Core.setThr_resident (c : Core) (x : Ctx) (t : Thread) : (c.setThr x t).resident = c.resident := rfl
@[simp] theorem Core.setThr_rings (c : Core) (x : Ctx) (t : Thread) : (c.setThr x t).rings = c.rings := rfl
@[simp] theorem Core.setThr_ringNext (c : Core) (x : Ctx) (t : Thread) : (c.setThr x t).ringNext = c.ringNext := rfl
@[simp] theorem Core.setThr_ringTails (c : Core) (x : Ctx) (t : Thread) : (c.setThr x t).ringTails = c.ringTails := rfl
@[simp] theorem Core.setThr_ringDone (c : Core) (x : Ctx) (t : Thread) : (c.setThr x t).ringDone = c.ringDone := rfl
@[simp] theorem Core.setThr_acc (c : Core) (x : Ctx) (t : Thread) : (c.setThr x t).acc = c.acc := rfl
@[simp] theorem Core.setThr_apc (c : Core) (x : Ctx) (t : Thread) : (c.setThr x t).apc = c.apc := rfl
@[simp] theorem Core.setThr_ast (c : Core) (x : Ctx) (t : Thread) : (c.setThr x t).ast = c.ast := rfl
@[simp] theorem Core.setThr_cq (c : Core) (x : Ctx) (t : Thread) : (c.setThr x t).cq = c.cq := rfl
@[simp] theorem Core.setThr_mq (c : Core) (x : Ctx) (t : Thread) : (c.setThr x t).mq = c.mq := rfl
@[simp] theorem Core.setThr_copies (c : Core) (x : Ctx) (t : Thread) : (c.setThr x t).copies = c.copies := rfl
@[simp] theorem Core.setThr_nextCmd (c : Core) (x : Ctx) (t : Thread) : (c.setThr x t).nextCmd = c.nextCmd := rfl
@[simp] theorem Core.setThr_slots (c : Core) (x : Ctx) (t : Thread) : (c.setThr x t).slots = c.slots := rfl
@[simp] theorem Core.setThr_inbox (c : Core) (x : Ctx) (t : Thread) : (c.setThr x t).inbox = c.inbox := rfl
@[simp] theorem Core.setThr_replies (c : Core) (x : Ctx) (t : Thread) : (c.setThr x t).replies = c.replies := rfl
@[simp] theorem Core.setThr_outbox0 (c : Core) (x : Ctx) (t : Thread) : (c.setThr x t).outbox0 = c.outbox0 := rfl
@[simp] theorem Core.setThr_outbox1 (c : Core) (x : Ctx) (t : Thread) : (c.setThr x t).outbox1 = c.outbox1 := rfl
@[simp] theorem Core.setThr_msgSeq (c : Core) (x : Ctx) (t : Thread) : (c.setThr x t).msgSeq = c.msgSeq := rfl
@[simp] theorem Core.setThr_combine (c : Core) (x : Ctx) (t : Thread) : (c.setThr x t).combine = c.combine := rfl
@[simp] theorem Core.setThr_closes (c : Core) (x : Ctx) (t : Thread) : (c.setThr x t).closes = c.closes := rfl
@[simp] theorem Core.setThr_epochs (c : Core) (x : Ctx) (t : Thread) : (c.setThr x t).epochs = c.epochs := rfl
@[simp] theorem Core.setThr_stall (c : Core) (x : Ctx) (t : Thread) : (c.setThr x t).stall = c.stall := rfl
@[simp] theorem Core.setThr_stale (c : Core) (x : Ctx) (t : Thread) : (c.setThr x t).stale = c.stale := rfl
@[simp] theorem Core.setThr_fresh (c : Core) (x : Ctx) (t : Thread) : (c.setThr x t).fresh = c.fresh := rfl
@[simp] theorem Core.setThr_swept (c : Core) (x : Ctx) (t : Thread) : (c.setThr x t).swept = c.swept := rfl
@[simp] theorem Core.setThr_tampered (c : Core) (x : Ctx) (t : Thread) : (c.setThr x t).tampered = c.tampered := rfl
@[simp] theorem Core.setThr_image (c : Core) (x : Ctx) (t : Thread) : (c.setThr x t).image = c.image := rfl
@[simp] theorem Core.setThr_bankScrub (c : Core) (x : Ctx) (t : Thread) : (c.setThr x t).bankScrub = c.bankScrub := rfl
@[simp] theorem Core.setThr_badRegs (c : Core) (x : Ctx) (t : Thread) : (c.setThr x t).badRegs = c.badRegs := rfl
@[simp] theorem Core.setThr_badWords (c : Core) (x : Ctx) (t : Thread) : (c.setThr x t).badWords = c.badWords := rfl

/-! ## Fields of a core after `leaveOrder` -/

@[simp] theorem Core.leaveOrder_threads (c : Core) (x : Ctx) : (c.leaveOrder x).threads = c.threads := rfl
@[simp] theorem Core.leaveOrder_cyc (c : Core) (x : Ctx) : (c.leaveOrder x).cyc = c.cyc := rfl
@[simp] theorem Core.leaveOrder_last (c : Core) (x : Ctx) : (c.leaveOrder x).last = c.last := rfl
@[simp] theorem Core.leaveOrder_crews (c : Core) (x : Ctx) : (c.leaveOrder x).crews = c.crews := rfl
@[simp] theorem Core.leaveOrder_resident (c : Core) (x : Ctx) : (c.leaveOrder x).resident = c.resident := rfl
@[simp] theorem Core.leaveOrder_rings (c : Core) (x : Ctx) : (c.leaveOrder x).rings = c.rings := rfl
@[simp] theorem Core.leaveOrder_ringNext (c : Core) (x : Ctx) : (c.leaveOrder x).ringNext = c.ringNext := rfl
@[simp] theorem Core.leaveOrder_ringTails (c : Core) (x : Ctx) : (c.leaveOrder x).ringTails = c.ringTails := rfl
@[simp] theorem Core.leaveOrder_ringDone (c : Core) (x : Ctx) : (c.leaveOrder x).ringDone = c.ringDone := rfl
@[simp] theorem Core.leaveOrder_acc (c : Core) (x : Ctx) : (c.leaveOrder x).acc = c.acc := rfl
@[simp] theorem Core.leaveOrder_apc (c : Core) (x : Ctx) : (c.leaveOrder x).apc = c.apc := rfl
@[simp] theorem Core.leaveOrder_ast (c : Core) (x : Ctx) : (c.leaveOrder x).ast = c.ast := rfl
@[simp] theorem Core.leaveOrder_cq (c : Core) (x : Ctx) : (c.leaveOrder x).cq = c.cq := rfl
@[simp] theorem Core.leaveOrder_mq (c : Core) (x : Ctx) : (c.leaveOrder x).mq = c.mq := rfl
@[simp] theorem Core.leaveOrder_copies (c : Core) (x : Ctx) : (c.leaveOrder x).copies = c.copies := rfl
@[simp] theorem Core.leaveOrder_nextCmd (c : Core) (x : Ctx) : (c.leaveOrder x).nextCmd = c.nextCmd := rfl
@[simp] theorem Core.leaveOrder_slots (c : Core) (x : Ctx) : (c.leaveOrder x).slots = c.slots := rfl
@[simp] theorem Core.leaveOrder_inbox (c : Core) (x : Ctx) : (c.leaveOrder x).inbox = c.inbox := rfl
@[simp] theorem Core.leaveOrder_replies (c : Core) (x : Ctx) : (c.leaveOrder x).replies = c.replies := rfl
@[simp] theorem Core.leaveOrder_outbox0 (c : Core) (x : Ctx) : (c.leaveOrder x).outbox0 = c.outbox0 := rfl
@[simp] theorem Core.leaveOrder_outbox1 (c : Core) (x : Ctx) : (c.leaveOrder x).outbox1 = c.outbox1 := rfl
@[simp] theorem Core.leaveOrder_msgSeq (c : Core) (x : Ctx) : (c.leaveOrder x).msgSeq = c.msgSeq := rfl
@[simp] theorem Core.leaveOrder_combine (c : Core) (x : Ctx) : (c.leaveOrder x).combine = c.combine := rfl
@[simp] theorem Core.leaveOrder_closes (c : Core) (x : Ctx) : (c.leaveOrder x).closes = c.closes := rfl
@[simp] theorem Core.leaveOrder_epochs (c : Core) (x : Ctx) : (c.leaveOrder x).epochs = c.epochs := rfl
@[simp] theorem Core.leaveOrder_stall (c : Core) (x : Ctx) : (c.leaveOrder x).stall = c.stall := rfl
@[simp] theorem Core.leaveOrder_stale (c : Core) (x : Ctx) : (c.leaveOrder x).stale = c.stale := rfl
@[simp] theorem Core.leaveOrder_fresh (c : Core) (x : Ctx) : (c.leaveOrder x).fresh = c.fresh := rfl
@[simp] theorem Core.leaveOrder_swept (c : Core) (x : Ctx) : (c.leaveOrder x).swept = c.swept := rfl
@[simp] theorem Core.leaveOrder_tampered (c : Core) (x : Ctx) : (c.leaveOrder x).tampered = c.tampered := rfl
@[simp] theorem Core.leaveOrder_image (c : Core) (x : Ctx) : (c.leaveOrder x).image = c.image := rfl
@[simp] theorem Core.leaveOrder_bankScrub (c : Core) (x : Ctx) : (c.leaveOrder x).bankScrub = c.bankScrub := rfl
@[simp] theorem Core.leaveOrder_badRegs (c : Core) (x : Ctx) : (c.leaveOrder x).badRegs = c.badRegs := rfl
@[simp] theorem Core.leaveOrder_badWords (c : Core) (x : Ctx) : (c.leaveOrder x).badWords = c.badWords := rfl

/-! ## Fields of a thread after `setV` -/

@[simp] theorem Thread.setV_status (t : Thread) (r : Reg) (x : VReg) : (t.setV r x).status = t.status := rfl
@[simp] theorem Thread.setV_wait (t : Thread) (r : Reg) (x : VReg) : (t.setV r x).wait = t.wait := rfl
@[simp] theorem Thread.setV_g (t : Thread) (r : Reg) (x : VReg) : (t.setV r x).g = t.g := rfl
@[simp] theorem Thread.setV_full (t : Thread) (r : Reg) (x : VReg) : (t.setV r x).full = t.full := rfl
@[simp] theorem Thread.setV_k (t : Thread) (r : Reg) (x : VReg) : (t.setV r x).k = t.k := rfl
@[simp] theorem Thread.setV_pc (t : Thread) (r : Reg) (x : VReg) : (t.setV r x).pc = t.pc := rfl
@[simp] theorem Thread.setV_st (t : Thread) (r : Reg) (x : VReg) : (t.setV r x).st = t.st := rfl
@[simp] theorem Thread.setV_pfx (t : Thread) (r : Reg) (x : VReg) : (t.setV r x).pfx = t.pfx := rfl
@[simp] theorem Thread.setV_tvec (t : Thread) (r : Reg) (x : VReg) : (t.setV r x).tvec = t.tvec := rfl
@[simp] theorem Thread.setV_tepc (t : Thread) (r : Reg) (x : VReg) : (t.setV r x).tepc = t.tepc := rfl
@[simp] theorem Thread.setV_tst (t : Thread) (r : Reg) (x : VReg) : (t.setV r x).tst = t.tst := rfl
@[simp] theorem Thread.setV_tcause (t : Thread) (r : Reg) (x : VReg) : (t.setV r x).tcause = t.tcause := rfl
@[simp] theorem Thread.setV_tval0 (t : Thread) (r : Reg) (x : VReg) : (t.setV r x).tval0 = t.tval0 := rfl
@[simp] theorem Thread.setV_tval1 (t : Thread) (r : Reg) (x : VReg) : (t.setV r x).tval1 = t.tval1 := rfl
@[simp] theorem Thread.setV_lti (t : Thread) (r : Reg) (x : VReg) : (t.setV r x).lti = t.lti := rfl
@[simp] theorem Thread.setV_lid (t : Thread) (r : Reg) (x : VReg) : (t.setV r x).lid = t.lid := rfl
@[simp] theorem Thread.setV_asid (t : Thread) (r : Reg) (x : VReg) : (t.setV r x).asid = t.asid := rfl
@[simp] theorem Thread.setV_did (t : Thread) (r : Reg) (x : VReg) : (t.setV r x).did = t.did := rfl
@[simp] theorem Thread.setV_dkey0 (t : Thread) (r : Reg) (x : VReg) : (t.setV r x).dkey0 = t.dkey0 := rfl
@[simp] theorem Thread.setV_dkey1 (t : Thread) (r : Reg) (x : VReg) : (t.setV r x).dkey1 = t.dkey1 := rfl
@[simp] theorem Thread.setV_dctr (t : Thread) (r : Reg) (x : VReg) : (t.setV r x).dctr = t.dctr := rfl
@[simp] theorem Thread.setV_qbind (t : Thread) (r : Reg) (x : VReg) : (t.setV r x).qbind = t.qbind := rfl
@[simp] theorem Thread.setV_gms (t : Thread) (r : Reg) (x : VReg) : (t.setV r x).gms = t.gms := rfl
@[simp] theorem Thread.setV_wlim (t : Thread) (r : Reg) (x : VReg) : (t.setV r x).wlim = t.wlim := rfl
@[simp] theorem Thread.setV_streams (t : Thread) (r : Reg) (x : VReg) : (t.setV r x).streams = t.streams := rfl
@[simp] theorem Thread.setV_msgStreams (t : Thread) (r : Reg) (x : VReg) : (t.setV r x).msgStreams = t.msgStreams := rfl
@[simp] theorem Thread.setV_shadow (t : Thread) (r : Reg) (x : VReg) : (t.setV r x).shadow = t.shadow := rfl
@[simp] theorem Thread.setV_pend (t : Thread) (r : Reg) (x : VReg) : (t.setV r x).pend = t.pend := rfl
@[simp] theorem Thread.setV_nextId (t : Thread) (r : Reg) (x : VReg) : (t.setV r x).nextId = t.nextId := rfl
@[simp] theorem Thread.setV_lastIssue (t : Thread) (r : Reg) (x : VReg) : (t.setV r x).lastIssue = t.lastIssue := rfl
@[simp] theorem Thread.setV_yielded (t : Thread) (r : Reg) (x : VReg) : (t.setV r x).yielded = t.yielded := rfl
@[simp] theorem Thread.setV_stepTrap (t : Thread) (r : Reg) (x : VReg) : (t.setV r x).stepTrap = t.stepTrap := rfl
@[simp] theorem Thread.setV_quitting (t : Thread) (r : Reg) (x : VReg) : (t.setV r x).quitting = t.quitting := rfl
@[simp] theorem Thread.setV_waitFrom (t : Thread) (r : Reg) (x : VReg) : (t.setV r x).waitFrom = t.waitFrom := rfl
@[simp] theorem Thread.setV_waitLimit (t : Thread) (r : Reg) (x : VReg) : (t.setV r x).waitLimit = t.waitLimit := rfl
@[simp] theorem Thread.setV_heldDest (t : Thread) (r : Reg) (x : VReg) : (t.setV r x).heldDest = t.heldDest := rfl
@[simp] theorem Thread.setV_heldNext (t : Thread) (r : Reg) (x : VReg) : (t.setV r x).heldNext = t.heldNext := rfl
@[simp] theorem Thread.setV_faultQ (t : Thread) (r : Reg) (x : VReg) : (t.setV r x).faultQ = t.faultQ := rfl
@[simp] theorem Thread.setV_outstanding (t : Thread) (r : Reg) (x : VReg) : (t.setV r x).outstanding = t.outstanding := rfl
@[simp] theorem Thread.setV_walkFault (t : Thread) (r : Reg) (x : VReg) : (t.setV r x).walkFault = t.walkFault := rfl
@[simp] theorem Thread.setV_home (t : Thread) (r : Reg) (x : VReg) : (t.setV r x).home = t.home := rfl
@[simp] theorem Thread.setV_cgb (t : Thread) (r : Reg) (x : VReg) : (t.setV r x).cgb = t.cgb := rfl
@[simp] theorem Thread.setV_cgl (t : Thread) (r : Reg) (x : VReg) : (t.setV r x).cgl = t.cgl := rfl
@[simp] theorem Thread.setV_eset (t : Thread) (r : Reg) (x : VReg) : (t.setV r x).eset = t.eset := rfl
@[simp] theorem Thread.setV_corun (t : Thread) (r : Reg) (x : VReg) : (t.setV r x).corun = t.corun := rfl
@[simp] theorem Thread.setV_arrived (t : Thread) (r : Reg) (x : VReg) : (t.setV r x).arrived = t.arrived := rfl
@[simp] theorem Thread.setV_episode (t : Thread) (r : Reg) (x : VReg) : (t.setV r x).episode = t.episode := rfl
@[simp] theorem Thread.setV_arrived255 (t : Thread) (r : Reg) (x : VReg) : (t.setV r x).arrived255 = t.arrived255 := rfl
@[simp] theorem Thread.setV_header (t : Thread) (r : Reg) (x : VReg) : (t.setV r x).header = t.header := rfl
@[simp] theorem Thread.setV_heldReq (t : Thread) (r : Reg) (x : VReg) : (t.setV r x).heldReq = t.heldReq := rfl
@[simp] theorem Thread.setV_replyPos (t : Thread) (r : Reg) (x : VReg) : (t.setV r x).replyPos = t.replyPos := rfl
@[simp] theorem Thread.setV_restMsg (t : Thread) (r : Reg) (x : VReg) : (t.setV r x).restMsg = t.restMsg := rfl
@[simp] theorem Thread.setV_restReply (t : Thread) (r : Reg) (x : VReg) : (t.setV r x).restReply = t.restReply := rfl
@[simp] theorem Thread.setV_restGone (t : Thread) (r : Reg) (x : VReg) : (t.setV r x).restGone = t.restGone := rfl
@[simp] theorem Thread.setV_record (t : Thread) (r : Reg) (x : VReg) : (t.setV r x).record = t.record := rfl
@[simp] theorem Thread.setV_needs (t : Thread) (r : Reg) (x : VReg) : (t.setV r x).needs = t.needs := rfl
@[simp] theorem Thread.setV_slotHome (t : Thread) (r : Reg) (x : VReg) : (t.setV r x).slotHome = t.slotHome := rfl
@[simp] theorem Thread.setV_abandon (t : Thread) (r : Reg) (x : VReg) : (t.setV r x).abandon = t.abandon := rfl

/-! ## Fields of a thread after `setK` -/

@[simp] theorem Thread.setK_status (t : Thread) (r : KReg) (x : Dword) : (t.setK r x).status = t.status := rfl
@[simp] theorem Thread.setK_wait (t : Thread) (r : KReg) (x : Dword) : (t.setK r x).wait = t.wait := rfl
@[simp] theorem Thread.setK_g (t : Thread) (r : KReg) (x : Dword) : (t.setK r x).g = t.g := rfl
@[simp] theorem Thread.setK_full (t : Thread) (r : KReg) (x : Dword) : (t.setK r x).full = t.full := rfl
@[simp] theorem Thread.setK_v (t : Thread) (r : KReg) (x : Dword) : (t.setK r x).v = t.v := rfl
@[simp] theorem Thread.setK_pc (t : Thread) (r : KReg) (x : Dword) : (t.setK r x).pc = t.pc := rfl
@[simp] theorem Thread.setK_st (t : Thread) (r : KReg) (x : Dword) : (t.setK r x).st = t.st := rfl
@[simp] theorem Thread.setK_pfx (t : Thread) (r : KReg) (x : Dword) : (t.setK r x).pfx = t.pfx := rfl
@[simp] theorem Thread.setK_tvec (t : Thread) (r : KReg) (x : Dword) : (t.setK r x).tvec = t.tvec := rfl
@[simp] theorem Thread.setK_tepc (t : Thread) (r : KReg) (x : Dword) : (t.setK r x).tepc = t.tepc := rfl
@[simp] theorem Thread.setK_tst (t : Thread) (r : KReg) (x : Dword) : (t.setK r x).tst = t.tst := rfl
@[simp] theorem Thread.setK_tcause (t : Thread) (r : KReg) (x : Dword) : (t.setK r x).tcause = t.tcause := rfl
@[simp] theorem Thread.setK_tval0 (t : Thread) (r : KReg) (x : Dword) : (t.setK r x).tval0 = t.tval0 := rfl
@[simp] theorem Thread.setK_tval1 (t : Thread) (r : KReg) (x : Dword) : (t.setK r x).tval1 = t.tval1 := rfl
@[simp] theorem Thread.setK_lti (t : Thread) (r : KReg) (x : Dword) : (t.setK r x).lti = t.lti := rfl
@[simp] theorem Thread.setK_lid (t : Thread) (r : KReg) (x : Dword) : (t.setK r x).lid = t.lid := rfl
@[simp] theorem Thread.setK_asid (t : Thread) (r : KReg) (x : Dword) : (t.setK r x).asid = t.asid := rfl
@[simp] theorem Thread.setK_did (t : Thread) (r : KReg) (x : Dword) : (t.setK r x).did = t.did := rfl
@[simp] theorem Thread.setK_dkey0 (t : Thread) (r : KReg) (x : Dword) : (t.setK r x).dkey0 = t.dkey0 := rfl
@[simp] theorem Thread.setK_dkey1 (t : Thread) (r : KReg) (x : Dword) : (t.setK r x).dkey1 = t.dkey1 := rfl
@[simp] theorem Thread.setK_dctr (t : Thread) (r : KReg) (x : Dword) : (t.setK r x).dctr = t.dctr := rfl
@[simp] theorem Thread.setK_qbind (t : Thread) (r : KReg) (x : Dword) : (t.setK r x).qbind = t.qbind := rfl
@[simp] theorem Thread.setK_gms (t : Thread) (r : KReg) (x : Dword) : (t.setK r x).gms = t.gms := rfl
@[simp] theorem Thread.setK_wlim (t : Thread) (r : KReg) (x : Dword) : (t.setK r x).wlim = t.wlim := rfl
@[simp] theorem Thread.setK_streams (t : Thread) (r : KReg) (x : Dword) : (t.setK r x).streams = t.streams := rfl
@[simp] theorem Thread.setK_msgStreams (t : Thread) (r : KReg) (x : Dword) : (t.setK r x).msgStreams = t.msgStreams := rfl
@[simp] theorem Thread.setK_shadow (t : Thread) (r : KReg) (x : Dword) : (t.setK r x).shadow = t.shadow := rfl
@[simp] theorem Thread.setK_pend (t : Thread) (r : KReg) (x : Dword) : (t.setK r x).pend = t.pend := rfl
@[simp] theorem Thread.setK_nextId (t : Thread) (r : KReg) (x : Dword) : (t.setK r x).nextId = t.nextId := rfl
@[simp] theorem Thread.setK_lastIssue (t : Thread) (r : KReg) (x : Dword) : (t.setK r x).lastIssue = t.lastIssue := rfl
@[simp] theorem Thread.setK_yielded (t : Thread) (r : KReg) (x : Dword) : (t.setK r x).yielded = t.yielded := rfl
@[simp] theorem Thread.setK_stepTrap (t : Thread) (r : KReg) (x : Dword) : (t.setK r x).stepTrap = t.stepTrap := rfl
@[simp] theorem Thread.setK_quitting (t : Thread) (r : KReg) (x : Dword) : (t.setK r x).quitting = t.quitting := rfl
@[simp] theorem Thread.setK_waitFrom (t : Thread) (r : KReg) (x : Dword) : (t.setK r x).waitFrom = t.waitFrom := rfl
@[simp] theorem Thread.setK_waitLimit (t : Thread) (r : KReg) (x : Dword) : (t.setK r x).waitLimit = t.waitLimit := rfl
@[simp] theorem Thread.setK_heldDest (t : Thread) (r : KReg) (x : Dword) : (t.setK r x).heldDest = t.heldDest := rfl
@[simp] theorem Thread.setK_heldNext (t : Thread) (r : KReg) (x : Dword) : (t.setK r x).heldNext = t.heldNext := rfl
@[simp] theorem Thread.setK_faultQ (t : Thread) (r : KReg) (x : Dword) : (t.setK r x).faultQ = t.faultQ := rfl
@[simp] theorem Thread.setK_outstanding (t : Thread) (r : KReg) (x : Dword) : (t.setK r x).outstanding = t.outstanding := rfl
@[simp] theorem Thread.setK_walkFault (t : Thread) (r : KReg) (x : Dword) : (t.setK r x).walkFault = t.walkFault := rfl
@[simp] theorem Thread.setK_home (t : Thread) (r : KReg) (x : Dword) : (t.setK r x).home = t.home := rfl
@[simp] theorem Thread.setK_cgb (t : Thread) (r : KReg) (x : Dword) : (t.setK r x).cgb = t.cgb := rfl
@[simp] theorem Thread.setK_cgl (t : Thread) (r : KReg) (x : Dword) : (t.setK r x).cgl = t.cgl := rfl
@[simp] theorem Thread.setK_eset (t : Thread) (r : KReg) (x : Dword) : (t.setK r x).eset = t.eset := rfl
@[simp] theorem Thread.setK_corun (t : Thread) (r : KReg) (x : Dword) : (t.setK r x).corun = t.corun := rfl
@[simp] theorem Thread.setK_arrived (t : Thread) (r : KReg) (x : Dword) : (t.setK r x).arrived = t.arrived := rfl
@[simp] theorem Thread.setK_episode (t : Thread) (r : KReg) (x : Dword) : (t.setK r x).episode = t.episode := rfl
@[simp] theorem Thread.setK_arrived255 (t : Thread) (r : KReg) (x : Dword) : (t.setK r x).arrived255 = t.arrived255 := rfl
@[simp] theorem Thread.setK_header (t : Thread) (r : KReg) (x : Dword) : (t.setK r x).header = t.header := rfl
@[simp] theorem Thread.setK_heldReq (t : Thread) (r : KReg) (x : Dword) : (t.setK r x).heldReq = t.heldReq := rfl
@[simp] theorem Thread.setK_replyPos (t : Thread) (r : KReg) (x : Dword) : (t.setK r x).replyPos = t.replyPos := rfl
@[simp] theorem Thread.setK_restMsg (t : Thread) (r : KReg) (x : Dword) : (t.setK r x).restMsg = t.restMsg := rfl
@[simp] theorem Thread.setK_restReply (t : Thread) (r : KReg) (x : Dword) : (t.setK r x).restReply = t.restReply := rfl
@[simp] theorem Thread.setK_restGone (t : Thread) (r : KReg) (x : Dword) : (t.setK r x).restGone = t.restGone := rfl
@[simp] theorem Thread.setK_record (t : Thread) (r : KReg) (x : Dword) : (t.setK r x).record = t.record := rfl
@[simp] theorem Thread.setK_needs (t : Thread) (r : KReg) (x : Dword) : (t.setK r x).needs = t.needs := rfl
@[simp] theorem Thread.setK_slotHome (t : Thread) (r : KReg) (x : Dword) : (t.setK r x).slotHome = t.slotHome := rfl
@[simp] theorem Thread.setK_abandon (t : Thread) (r : KReg) (x : Dword) : (t.setK r x).abandon = t.abandon := rfl

/-! ## Fields of a thread after `setStBit` -/

@[simp] theorem Thread.setStBit_status (t : Thread) (i : Nat) (b : Bool) : (t.setStBit i b).status = t.status := rfl
@[simp] theorem Thread.setStBit_wait (t : Thread) (i : Nat) (b : Bool) : (t.setStBit i b).wait = t.wait := rfl
@[simp] theorem Thread.setStBit_g (t : Thread) (i : Nat) (b : Bool) : (t.setStBit i b).g = t.g := rfl
@[simp] theorem Thread.setStBit_full (t : Thread) (i : Nat) (b : Bool) : (t.setStBit i b).full = t.full := rfl
@[simp] theorem Thread.setStBit_v (t : Thread) (i : Nat) (b : Bool) : (t.setStBit i b).v = t.v := rfl
@[simp] theorem Thread.setStBit_k (t : Thread) (i : Nat) (b : Bool) : (t.setStBit i b).k = t.k := rfl
@[simp] theorem Thread.setStBit_pc (t : Thread) (i : Nat) (b : Bool) : (t.setStBit i b).pc = t.pc := rfl
@[simp] theorem Thread.setStBit_pfx (t : Thread) (i : Nat) (b : Bool) : (t.setStBit i b).pfx = t.pfx := rfl
@[simp] theorem Thread.setStBit_tvec (t : Thread) (i : Nat) (b : Bool) : (t.setStBit i b).tvec = t.tvec := rfl
@[simp] theorem Thread.setStBit_tepc (t : Thread) (i : Nat) (b : Bool) : (t.setStBit i b).tepc = t.tepc := rfl
@[simp] theorem Thread.setStBit_tst (t : Thread) (i : Nat) (b : Bool) : (t.setStBit i b).tst = t.tst := rfl
@[simp] theorem Thread.setStBit_tcause (t : Thread) (i : Nat) (b : Bool) : (t.setStBit i b).tcause = t.tcause := rfl
@[simp] theorem Thread.setStBit_tval0 (t : Thread) (i : Nat) (b : Bool) : (t.setStBit i b).tval0 = t.tval0 := rfl
@[simp] theorem Thread.setStBit_tval1 (t : Thread) (i : Nat) (b : Bool) : (t.setStBit i b).tval1 = t.tval1 := rfl
@[simp] theorem Thread.setStBit_lti (t : Thread) (i : Nat) (b : Bool) : (t.setStBit i b).lti = t.lti := rfl
@[simp] theorem Thread.setStBit_lid (t : Thread) (i : Nat) (b : Bool) : (t.setStBit i b).lid = t.lid := rfl
@[simp] theorem Thread.setStBit_asid (t : Thread) (i : Nat) (b : Bool) : (t.setStBit i b).asid = t.asid := rfl
@[simp] theorem Thread.setStBit_did (t : Thread) (i : Nat) (b : Bool) : (t.setStBit i b).did = t.did := rfl
@[simp] theorem Thread.setStBit_dkey0 (t : Thread) (i : Nat) (b : Bool) : (t.setStBit i b).dkey0 = t.dkey0 := rfl
@[simp] theorem Thread.setStBit_dkey1 (t : Thread) (i : Nat) (b : Bool) : (t.setStBit i b).dkey1 = t.dkey1 := rfl
@[simp] theorem Thread.setStBit_dctr (t : Thread) (i : Nat) (b : Bool) : (t.setStBit i b).dctr = t.dctr := rfl
@[simp] theorem Thread.setStBit_qbind (t : Thread) (i : Nat) (b : Bool) : (t.setStBit i b).qbind = t.qbind := rfl
@[simp] theorem Thread.setStBit_gms (t : Thread) (i : Nat) (b : Bool) : (t.setStBit i b).gms = t.gms := rfl
@[simp] theorem Thread.setStBit_wlim (t : Thread) (i : Nat) (b : Bool) : (t.setStBit i b).wlim = t.wlim := rfl
@[simp] theorem Thread.setStBit_streams (t : Thread) (i : Nat) (b : Bool) : (t.setStBit i b).streams = t.streams := rfl
@[simp] theorem Thread.setStBit_msgStreams (t : Thread) (i : Nat) (b : Bool) : (t.setStBit i b).msgStreams = t.msgStreams := rfl
@[simp] theorem Thread.setStBit_shadow (t : Thread) (i : Nat) (b : Bool) : (t.setStBit i b).shadow = t.shadow := rfl
@[simp] theorem Thread.setStBit_pend (t : Thread) (i : Nat) (b : Bool) : (t.setStBit i b).pend = t.pend := rfl
@[simp] theorem Thread.setStBit_nextId (t : Thread) (i : Nat) (b : Bool) : (t.setStBit i b).nextId = t.nextId := rfl
@[simp] theorem Thread.setStBit_lastIssue (t : Thread) (i : Nat) (b : Bool) : (t.setStBit i b).lastIssue = t.lastIssue := rfl
@[simp] theorem Thread.setStBit_yielded (t : Thread) (i : Nat) (b : Bool) : (t.setStBit i b).yielded = t.yielded := rfl
@[simp] theorem Thread.setStBit_stepTrap (t : Thread) (i : Nat) (b : Bool) : (t.setStBit i b).stepTrap = t.stepTrap := rfl
@[simp] theorem Thread.setStBit_quitting (t : Thread) (i : Nat) (b : Bool) : (t.setStBit i b).quitting = t.quitting := rfl
@[simp] theorem Thread.setStBit_waitFrom (t : Thread) (i : Nat) (b : Bool) : (t.setStBit i b).waitFrom = t.waitFrom := rfl
@[simp] theorem Thread.setStBit_waitLimit (t : Thread) (i : Nat) (b : Bool) : (t.setStBit i b).waitLimit = t.waitLimit := rfl
@[simp] theorem Thread.setStBit_heldDest (t : Thread) (i : Nat) (b : Bool) : (t.setStBit i b).heldDest = t.heldDest := rfl
@[simp] theorem Thread.setStBit_heldNext (t : Thread) (i : Nat) (b : Bool) : (t.setStBit i b).heldNext = t.heldNext := rfl
@[simp] theorem Thread.setStBit_faultQ (t : Thread) (i : Nat) (b : Bool) : (t.setStBit i b).faultQ = t.faultQ := rfl
@[simp] theorem Thread.setStBit_outstanding (t : Thread) (i : Nat) (b : Bool) : (t.setStBit i b).outstanding = t.outstanding := rfl
@[simp] theorem Thread.setStBit_walkFault (t : Thread) (i : Nat) (b : Bool) : (t.setStBit i b).walkFault = t.walkFault := rfl
@[simp] theorem Thread.setStBit_home (t : Thread) (i : Nat) (b : Bool) : (t.setStBit i b).home = t.home := rfl
@[simp] theorem Thread.setStBit_cgb (t : Thread) (i : Nat) (b : Bool) : (t.setStBit i b).cgb = t.cgb := rfl
@[simp] theorem Thread.setStBit_cgl (t : Thread) (i : Nat) (b : Bool) : (t.setStBit i b).cgl = t.cgl := rfl
@[simp] theorem Thread.setStBit_eset (t : Thread) (i : Nat) (b : Bool) : (t.setStBit i b).eset = t.eset := rfl
@[simp] theorem Thread.setStBit_corun (t : Thread) (i : Nat) (b : Bool) : (t.setStBit i b).corun = t.corun := rfl
@[simp] theorem Thread.setStBit_arrived (t : Thread) (i : Nat) (b : Bool) : (t.setStBit i b).arrived = t.arrived := rfl
@[simp] theorem Thread.setStBit_episode (t : Thread) (i : Nat) (b : Bool) : (t.setStBit i b).episode = t.episode := rfl
@[simp] theorem Thread.setStBit_arrived255 (t : Thread) (i : Nat) (b : Bool) : (t.setStBit i b).arrived255 = t.arrived255 := rfl
@[simp] theorem Thread.setStBit_header (t : Thread) (i : Nat) (b : Bool) : (t.setStBit i b).header = t.header := rfl
@[simp] theorem Thread.setStBit_heldReq (t : Thread) (i : Nat) (b : Bool) : (t.setStBit i b).heldReq = t.heldReq := rfl
@[simp] theorem Thread.setStBit_replyPos (t : Thread) (i : Nat) (b : Bool) : (t.setStBit i b).replyPos = t.replyPos := rfl
@[simp] theorem Thread.setStBit_restMsg (t : Thread) (i : Nat) (b : Bool) : (t.setStBit i b).restMsg = t.restMsg := rfl
@[simp] theorem Thread.setStBit_restReply (t : Thread) (i : Nat) (b : Bool) : (t.setStBit i b).restReply = t.restReply := rfl
@[simp] theorem Thread.setStBit_restGone (t : Thread) (i : Nat) (b : Bool) : (t.setStBit i b).restGone = t.restGone := rfl
@[simp] theorem Thread.setStBit_record (t : Thread) (i : Nat) (b : Bool) : (t.setStBit i b).record = t.record := rfl
@[simp] theorem Thread.setStBit_needs (t : Thread) (i : Nat) (b : Bool) : (t.setStBit i b).needs = t.needs := rfl
@[simp] theorem Thread.setStBit_slotHome (t : Thread) (i : Nat) (b : Bool) : (t.setStBit i b).slotHome = t.slotHome := rfl
@[simp] theorem Thread.setStBit_abandon (t : Thread) (i : Nat) (b : Bool) : (t.setStBit i b).abandon = t.abandon := rfl

/-! ## Fields of a thread after `setG` -/

@[simp] theorem Thread.setG_status (t : Thread) (r : Reg) (x : Dword) : (t.setG r x).status = t.status := by unfold Thread.setG; split <;> rfl
@[simp] theorem Thread.setG_wait (t : Thread) (r : Reg) (x : Dword) : (t.setG r x).wait = t.wait := by unfold Thread.setG; split <;> rfl
@[simp] theorem Thread.setG_v (t : Thread) (r : Reg) (x : Dword) : (t.setG r x).v = t.v := by unfold Thread.setG; split <;> rfl
@[simp] theorem Thread.setG_k (t : Thread) (r : Reg) (x : Dword) : (t.setG r x).k = t.k := by unfold Thread.setG; split <;> rfl
@[simp] theorem Thread.setG_pc (t : Thread) (r : Reg) (x : Dword) : (t.setG r x).pc = t.pc := by unfold Thread.setG; split <;> rfl
@[simp] theorem Thread.setG_st (t : Thread) (r : Reg) (x : Dword) : (t.setG r x).st = t.st := by unfold Thread.setG; split <;> rfl
@[simp] theorem Thread.setG_pfx (t : Thread) (r : Reg) (x : Dword) : (t.setG r x).pfx = t.pfx := by unfold Thread.setG; split <;> rfl
@[simp] theorem Thread.setG_tvec (t : Thread) (r : Reg) (x : Dword) : (t.setG r x).tvec = t.tvec := by unfold Thread.setG; split <;> rfl
@[simp] theorem Thread.setG_tepc (t : Thread) (r : Reg) (x : Dword) : (t.setG r x).tepc = t.tepc := by unfold Thread.setG; split <;> rfl
@[simp] theorem Thread.setG_tst (t : Thread) (r : Reg) (x : Dword) : (t.setG r x).tst = t.tst := by unfold Thread.setG; split <;> rfl
@[simp] theorem Thread.setG_tcause (t : Thread) (r : Reg) (x : Dword) : (t.setG r x).tcause = t.tcause := by unfold Thread.setG; split <;> rfl
@[simp] theorem Thread.setG_tval0 (t : Thread) (r : Reg) (x : Dword) : (t.setG r x).tval0 = t.tval0 := by unfold Thread.setG; split <;> rfl
@[simp] theorem Thread.setG_tval1 (t : Thread) (r : Reg) (x : Dword) : (t.setG r x).tval1 = t.tval1 := by unfold Thread.setG; split <;> rfl
@[simp] theorem Thread.setG_lti (t : Thread) (r : Reg) (x : Dword) : (t.setG r x).lti = t.lti := by unfold Thread.setG; split <;> rfl
@[simp] theorem Thread.setG_lid (t : Thread) (r : Reg) (x : Dword) : (t.setG r x).lid = t.lid := by unfold Thread.setG; split <;> rfl
@[simp] theorem Thread.setG_asid (t : Thread) (r : Reg) (x : Dword) : (t.setG r x).asid = t.asid := by unfold Thread.setG; split <;> rfl
@[simp] theorem Thread.setG_did (t : Thread) (r : Reg) (x : Dword) : (t.setG r x).did = t.did := by unfold Thread.setG; split <;> rfl
@[simp] theorem Thread.setG_dkey0 (t : Thread) (r : Reg) (x : Dword) : (t.setG r x).dkey0 = t.dkey0 := by unfold Thread.setG; split <;> rfl
@[simp] theorem Thread.setG_dkey1 (t : Thread) (r : Reg) (x : Dword) : (t.setG r x).dkey1 = t.dkey1 := by unfold Thread.setG; split <;> rfl
@[simp] theorem Thread.setG_dctr (t : Thread) (r : Reg) (x : Dword) : (t.setG r x).dctr = t.dctr := by unfold Thread.setG; split <;> rfl
@[simp] theorem Thread.setG_qbind (t : Thread) (r : Reg) (x : Dword) : (t.setG r x).qbind = t.qbind := by unfold Thread.setG; split <;> rfl
@[simp] theorem Thread.setG_gms (t : Thread) (r : Reg) (x : Dword) : (t.setG r x).gms = t.gms := by unfold Thread.setG; split <;> rfl
@[simp] theorem Thread.setG_wlim (t : Thread) (r : Reg) (x : Dword) : (t.setG r x).wlim = t.wlim := by unfold Thread.setG; split <;> rfl
@[simp] theorem Thread.setG_streams (t : Thread) (r : Reg) (x : Dword) : (t.setG r x).streams = t.streams := by unfold Thread.setG; split <;> rfl
@[simp] theorem Thread.setG_msgStreams (t : Thread) (r : Reg) (x : Dword) : (t.setG r x).msgStreams = t.msgStreams := by unfold Thread.setG; split <;> rfl
@[simp] theorem Thread.setG_shadow (t : Thread) (r : Reg) (x : Dword) : (t.setG r x).shadow = t.shadow := by unfold Thread.setG; split <;> rfl
@[simp] theorem Thread.setG_pend (t : Thread) (r : Reg) (x : Dword) : (t.setG r x).pend = t.pend := by unfold Thread.setG; split <;> rfl
@[simp] theorem Thread.setG_nextId (t : Thread) (r : Reg) (x : Dword) : (t.setG r x).nextId = t.nextId := by unfold Thread.setG; split <;> rfl
@[simp] theorem Thread.setG_lastIssue (t : Thread) (r : Reg) (x : Dword) : (t.setG r x).lastIssue = t.lastIssue := by unfold Thread.setG; split <;> rfl
@[simp] theorem Thread.setG_yielded (t : Thread) (r : Reg) (x : Dword) : (t.setG r x).yielded = t.yielded := by unfold Thread.setG; split <;> rfl
@[simp] theorem Thread.setG_stepTrap (t : Thread) (r : Reg) (x : Dword) : (t.setG r x).stepTrap = t.stepTrap := by unfold Thread.setG; split <;> rfl
@[simp] theorem Thread.setG_quitting (t : Thread) (r : Reg) (x : Dword) : (t.setG r x).quitting = t.quitting := by unfold Thread.setG; split <;> rfl
@[simp] theorem Thread.setG_waitFrom (t : Thread) (r : Reg) (x : Dword) : (t.setG r x).waitFrom = t.waitFrom := by unfold Thread.setG; split <;> rfl
@[simp] theorem Thread.setG_waitLimit (t : Thread) (r : Reg) (x : Dword) : (t.setG r x).waitLimit = t.waitLimit := by unfold Thread.setG; split <;> rfl
@[simp] theorem Thread.setG_heldDest (t : Thread) (r : Reg) (x : Dword) : (t.setG r x).heldDest = t.heldDest := by unfold Thread.setG; split <;> rfl
@[simp] theorem Thread.setG_heldNext (t : Thread) (r : Reg) (x : Dword) : (t.setG r x).heldNext = t.heldNext := by unfold Thread.setG; split <;> rfl
@[simp] theorem Thread.setG_faultQ (t : Thread) (r : Reg) (x : Dword) : (t.setG r x).faultQ = t.faultQ := by unfold Thread.setG; split <;> rfl
@[simp] theorem Thread.setG_outstanding (t : Thread) (r : Reg) (x : Dword) : (t.setG r x).outstanding = t.outstanding := by unfold Thread.setG; split <;> rfl
@[simp] theorem Thread.setG_walkFault (t : Thread) (r : Reg) (x : Dword) : (t.setG r x).walkFault = t.walkFault := by unfold Thread.setG; split <;> rfl
@[simp] theorem Thread.setG_home (t : Thread) (r : Reg) (x : Dword) : (t.setG r x).home = t.home := by unfold Thread.setG; split <;> rfl
@[simp] theorem Thread.setG_cgb (t : Thread) (r : Reg) (x : Dword) : (t.setG r x).cgb = t.cgb := by unfold Thread.setG; split <;> rfl
@[simp] theorem Thread.setG_cgl (t : Thread) (r : Reg) (x : Dword) : (t.setG r x).cgl = t.cgl := by unfold Thread.setG; split <;> rfl
@[simp] theorem Thread.setG_eset (t : Thread) (r : Reg) (x : Dword) : (t.setG r x).eset = t.eset := by unfold Thread.setG; split <;> rfl
@[simp] theorem Thread.setG_corun (t : Thread) (r : Reg) (x : Dword) : (t.setG r x).corun = t.corun := by unfold Thread.setG; split <;> rfl
@[simp] theorem Thread.setG_arrived (t : Thread) (r : Reg) (x : Dword) : (t.setG r x).arrived = t.arrived := by unfold Thread.setG; split <;> rfl
@[simp] theorem Thread.setG_episode (t : Thread) (r : Reg) (x : Dword) : (t.setG r x).episode = t.episode := by unfold Thread.setG; split <;> rfl
@[simp] theorem Thread.setG_arrived255 (t : Thread) (r : Reg) (x : Dword) : (t.setG r x).arrived255 = t.arrived255 := by unfold Thread.setG; split <;> rfl
@[simp] theorem Thread.setG_header (t : Thread) (r : Reg) (x : Dword) : (t.setG r x).header = t.header := by unfold Thread.setG; split <;> rfl
@[simp] theorem Thread.setG_heldReq (t : Thread) (r : Reg) (x : Dword) : (t.setG r x).heldReq = t.heldReq := by unfold Thread.setG; split <;> rfl
@[simp] theorem Thread.setG_replyPos (t : Thread) (r : Reg) (x : Dword) : (t.setG r x).replyPos = t.replyPos := by unfold Thread.setG; split <;> rfl
@[simp] theorem Thread.setG_restMsg (t : Thread) (r : Reg) (x : Dword) : (t.setG r x).restMsg = t.restMsg := by unfold Thread.setG; split <;> rfl
@[simp] theorem Thread.setG_restReply (t : Thread) (r : Reg) (x : Dword) : (t.setG r x).restReply = t.restReply := by unfold Thread.setG; split <;> rfl
@[simp] theorem Thread.setG_restGone (t : Thread) (r : Reg) (x : Dword) : (t.setG r x).restGone = t.restGone := by unfold Thread.setG; split <;> rfl
@[simp] theorem Thread.setG_record (t : Thread) (r : Reg) (x : Dword) : (t.setG r x).record = t.record := by unfold Thread.setG; split <;> rfl
@[simp] theorem Thread.setG_needs (t : Thread) (r : Reg) (x : Dword) : (t.setG r x).needs = t.needs := by unfold Thread.setG; split <;> rfl
@[simp] theorem Thread.setG_slotHome (t : Thread) (r : Reg) (x : Dword) : (t.setG r x).slotHome = t.slotHome := by unfold Thread.setG; split <;> rfl
@[simp] theorem Thread.setG_abandon (t : Thread) (r : Reg) (x : Dword) : (t.setG r x).abandon = t.abandon := by unfold Thread.setG; split <;> rfl

/-! ## Fields of a thread after `settle` and `retire` -/

@[simp] theorem Thread.settle_g (t : Thread) : t.settle.g = t.g := by unfold Thread.settle; split <;> rfl
@[simp] theorem Thread.settle_full (t : Thread) : t.settle.full = t.full := by unfold Thread.settle; split <;> rfl
@[simp] theorem Thread.settle_v (t : Thread) : t.settle.v = t.v := by unfold Thread.settle; split <;> rfl
@[simp] theorem Thread.settle_k (t : Thread) : t.settle.k = t.k := by unfold Thread.settle; split <;> rfl
@[simp] theorem Thread.settle_pc (t : Thread) : t.settle.pc = t.pc := by unfold Thread.settle; split <;> rfl
@[simp] theorem Thread.settle_st (t : Thread) : t.settle.st = t.st := by unfold Thread.settle; split <;> rfl
@[simp] theorem Thread.settle_pfx (t : Thread) : t.settle.pfx = t.pfx := by unfold Thread.settle; split <;> rfl
@[simp] theorem Thread.settle_tvec (t : Thread) : t.settle.tvec = t.tvec := by unfold Thread.settle; split <;> rfl
@[simp] theorem Thread.settle_tepc (t : Thread) : t.settle.tepc = t.tepc := by unfold Thread.settle; split <;> rfl
@[simp] theorem Thread.settle_tst (t : Thread) : t.settle.tst = t.tst := by unfold Thread.settle; split <;> rfl
@[simp] theorem Thread.settle_tcause (t : Thread) : t.settle.tcause = t.tcause := by unfold Thread.settle; split <;> rfl
@[simp] theorem Thread.settle_tval0 (t : Thread) : t.settle.tval0 = t.tval0 := by unfold Thread.settle; split <;> rfl
@[simp] theorem Thread.settle_tval1 (t : Thread) : t.settle.tval1 = t.tval1 := by unfold Thread.settle; split <;> rfl
@[simp] theorem Thread.settle_lti (t : Thread) : t.settle.lti = t.lti := by unfold Thread.settle; split <;> rfl
@[simp] theorem Thread.settle_lid (t : Thread) : t.settle.lid = t.lid := by unfold Thread.settle; split <;> rfl
@[simp] theorem Thread.settle_asid (t : Thread) : t.settle.asid = t.asid := by unfold Thread.settle; split <;> rfl
@[simp] theorem Thread.settle_did (t : Thread) : t.settle.did = t.did := by unfold Thread.settle; split <;> rfl
@[simp] theorem Thread.settle_dkey0 (t : Thread) : t.settle.dkey0 = t.dkey0 := by unfold Thread.settle; split <;> rfl
@[simp] theorem Thread.settle_dkey1 (t : Thread) : t.settle.dkey1 = t.dkey1 := by unfold Thread.settle; split <;> rfl
@[simp] theorem Thread.settle_dctr (t : Thread) : t.settle.dctr = t.dctr := by unfold Thread.settle; split <;> rfl
@[simp] theorem Thread.settle_qbind (t : Thread) : t.settle.qbind = t.qbind := by unfold Thread.settle; split <;> rfl
@[simp] theorem Thread.settle_gms (t : Thread) : t.settle.gms = t.gms := by unfold Thread.settle; split <;> rfl
@[simp] theorem Thread.settle_wlim (t : Thread) : t.settle.wlim = t.wlim := by unfold Thread.settle; split <;> rfl
@[simp] theorem Thread.settle_streams (t : Thread) : t.settle.streams = t.streams := by unfold Thread.settle; split <;> rfl
@[simp] theorem Thread.settle_msgStreams (t : Thread) : t.settle.msgStreams = t.msgStreams := by unfold Thread.settle; split <;> rfl
@[simp] theorem Thread.settle_shadow (t : Thread) : t.settle.shadow = t.shadow := by unfold Thread.settle; split <;> rfl
@[simp] theorem Thread.settle_pend (t : Thread) : t.settle.pend = t.pend := by unfold Thread.settle; split <;> rfl
@[simp] theorem Thread.settle_nextId (t : Thread) : t.settle.nextId = t.nextId := by unfold Thread.settle; split <;> rfl
@[simp] theorem Thread.settle_lastIssue (t : Thread) : t.settle.lastIssue = t.lastIssue := by unfold Thread.settle; split <;> rfl
@[simp] theorem Thread.settle_yielded (t : Thread) : t.settle.yielded = t.yielded := by unfold Thread.settle; split <;> rfl
@[simp] theorem Thread.settle_stepTrap (t : Thread) : t.settle.stepTrap = t.stepTrap := by unfold Thread.settle; split <;> rfl
@[simp] theorem Thread.settle_quitting (t : Thread) : t.settle.quitting = t.quitting := by unfold Thread.settle; split <;> rfl
@[simp] theorem Thread.settle_waitFrom (t : Thread) : t.settle.waitFrom = t.waitFrom := by unfold Thread.settle; split <;> rfl
@[simp] theorem Thread.settle_waitLimit (t : Thread) : t.settle.waitLimit = t.waitLimit := by unfold Thread.settle; split <;> rfl
@[simp] theorem Thread.settle_heldDest (t : Thread) : t.settle.heldDest = t.heldDest := by unfold Thread.settle; split <;> rfl
@[simp] theorem Thread.settle_heldNext (t : Thread) : t.settle.heldNext = t.heldNext := by unfold Thread.settle; split <;> rfl
@[simp] theorem Thread.settle_faultQ (t : Thread) : t.settle.faultQ = t.faultQ := by unfold Thread.settle; split <;> rfl
@[simp] theorem Thread.settle_outstanding (t : Thread) : t.settle.outstanding = t.outstanding := by unfold Thread.settle; split <;> rfl
@[simp] theorem Thread.settle_walkFault (t : Thread) : t.settle.walkFault = t.walkFault := by unfold Thread.settle; split <;> rfl
@[simp] theorem Thread.settle_home (t : Thread) : t.settle.home = t.home := by unfold Thread.settle; split <;> rfl
@[simp] theorem Thread.settle_cgb (t : Thread) : t.settle.cgb = t.cgb := by unfold Thread.settle; split <;> rfl
@[simp] theorem Thread.settle_cgl (t : Thread) : t.settle.cgl = t.cgl := by unfold Thread.settle; split <;> rfl
@[simp] theorem Thread.settle_eset (t : Thread) : t.settle.eset = t.eset := by unfold Thread.settle; split <;> rfl
@[simp] theorem Thread.settle_corun (t : Thread) : t.settle.corun = t.corun := by unfold Thread.settle; split <;> rfl
@[simp] theorem Thread.settle_arrived (t : Thread) : t.settle.arrived = t.arrived := by unfold Thread.settle; split <;> rfl
@[simp] theorem Thread.settle_episode (t : Thread) : t.settle.episode = t.episode := by unfold Thread.settle; split <;> rfl
@[simp] theorem Thread.settle_arrived255 (t : Thread) : t.settle.arrived255 = t.arrived255 := by unfold Thread.settle; split <;> rfl
@[simp] theorem Thread.settle_header (t : Thread) : t.settle.header = t.header := by unfold Thread.settle; split <;> rfl
@[simp] theorem Thread.settle_heldReq (t : Thread) : t.settle.heldReq = t.heldReq := by unfold Thread.settle; split <;> rfl
@[simp] theorem Thread.settle_replyPos (t : Thread) : t.settle.replyPos = t.replyPos := by unfold Thread.settle; split <;> rfl
@[simp] theorem Thread.settle_restMsg (t : Thread) : t.settle.restMsg = t.restMsg := by unfold Thread.settle; split <;> rfl
@[simp] theorem Thread.settle_restReply (t : Thread) : t.settle.restReply = t.restReply := by unfold Thread.settle; split <;> rfl
@[simp] theorem Thread.settle_restGone (t : Thread) : t.settle.restGone = t.restGone := by unfold Thread.settle; split <;> rfl
@[simp] theorem Thread.settle_record (t : Thread) : t.settle.record = t.record := by unfold Thread.settle; split <;> rfl
@[simp] theorem Thread.settle_needs (t : Thread) : t.settle.needs = t.needs := by unfold Thread.settle; split <;> rfl
@[simp] theorem Thread.settle_slotHome (t : Thread) : t.settle.slotHome = t.slotHome := by unfold Thread.settle; split <;> rfl
@[simp] theorem Thread.settle_abandon (t : Thread) : t.settle.abandon = t.abandon := by unfold Thread.settle; split <;> rfl
@[simp] theorem Thread.retire_g (t : Thread) (n : BitVec 18) : (t.retire n).g = t.g := by unfold Thread.retire; simp
@[simp] theorem Thread.retire_full (t : Thread) (n : BitVec 18) : (t.retire n).full = t.full := by unfold Thread.retire; simp
@[simp] theorem Thread.retire_v (t : Thread) (n : BitVec 18) : (t.retire n).v = t.v := by unfold Thread.retire; simp
@[simp] theorem Thread.retire_k (t : Thread) (n : BitVec 18) : (t.retire n).k = t.k := by unfold Thread.retire; simp
@[simp] theorem Thread.retire_pfx (t : Thread) (n : BitVec 18) : (t.retire n).pfx = t.pfx := by unfold Thread.retire; simp
@[simp] theorem Thread.retire_tvec (t : Thread) (n : BitVec 18) : (t.retire n).tvec = t.tvec := by unfold Thread.retire; simp
@[simp] theorem Thread.retire_tepc (t : Thread) (n : BitVec 18) : (t.retire n).tepc = t.tepc := by unfold Thread.retire; simp
@[simp] theorem Thread.retire_tst (t : Thread) (n : BitVec 18) : (t.retire n).tst = t.tst := by unfold Thread.retire; simp
@[simp] theorem Thread.retire_tcause (t : Thread) (n : BitVec 18) : (t.retire n).tcause = t.tcause := by unfold Thread.retire; simp
@[simp] theorem Thread.retire_tval0 (t : Thread) (n : BitVec 18) : (t.retire n).tval0 = t.tval0 := by unfold Thread.retire; simp
@[simp] theorem Thread.retire_tval1 (t : Thread) (n : BitVec 18) : (t.retire n).tval1 = t.tval1 := by unfold Thread.retire; simp
@[simp] theorem Thread.retire_lti (t : Thread) (n : BitVec 18) : (t.retire n).lti = t.lti := by unfold Thread.retire; simp
@[simp] theorem Thread.retire_lid (t : Thread) (n : BitVec 18) : (t.retire n).lid = t.lid := by unfold Thread.retire; simp
@[simp] theorem Thread.retire_asid (t : Thread) (n : BitVec 18) : (t.retire n).asid = t.asid := by unfold Thread.retire; simp
@[simp] theorem Thread.retire_did (t : Thread) (n : BitVec 18) : (t.retire n).did = t.did := by unfold Thread.retire; simp
@[simp] theorem Thread.retire_dkey0 (t : Thread) (n : BitVec 18) : (t.retire n).dkey0 = t.dkey0 := by unfold Thread.retire; simp
@[simp] theorem Thread.retire_dkey1 (t : Thread) (n : BitVec 18) : (t.retire n).dkey1 = t.dkey1 := by unfold Thread.retire; simp
@[simp] theorem Thread.retire_dctr (t : Thread) (n : BitVec 18) : (t.retire n).dctr = t.dctr := by unfold Thread.retire; simp
@[simp] theorem Thread.retire_qbind (t : Thread) (n : BitVec 18) : (t.retire n).qbind = t.qbind := by unfold Thread.retire; simp
@[simp] theorem Thread.retire_gms (t : Thread) (n : BitVec 18) : (t.retire n).gms = t.gms := by unfold Thread.retire; simp
@[simp] theorem Thread.retire_wlim (t : Thread) (n : BitVec 18) : (t.retire n).wlim = t.wlim := by unfold Thread.retire; simp
@[simp] theorem Thread.retire_streams (t : Thread) (n : BitVec 18) : (t.retire n).streams = t.streams := by unfold Thread.retire; simp
@[simp] theorem Thread.retire_msgStreams (t : Thread) (n : BitVec 18) : (t.retire n).msgStreams = t.msgStreams := by unfold Thread.retire; simp
@[simp] theorem Thread.retire_pend (t : Thread) (n : BitVec 18) : (t.retire n).pend = t.pend := by unfold Thread.retire; simp
@[simp] theorem Thread.retire_nextId (t : Thread) (n : BitVec 18) : (t.retire n).nextId = t.nextId := by unfold Thread.retire; simp
@[simp] theorem Thread.retire_lastIssue (t : Thread) (n : BitVec 18) : (t.retire n).lastIssue = t.lastIssue := by unfold Thread.retire; simp
@[simp] theorem Thread.retire_yielded (t : Thread) (n : BitVec 18) : (t.retire n).yielded = t.yielded := by unfold Thread.retire; simp
@[simp] theorem Thread.retire_stepTrap (t : Thread) (n : BitVec 18) : (t.retire n).stepTrap = t.stepTrap := by unfold Thread.retire; simp
@[simp] theorem Thread.retire_quitting (t : Thread) (n : BitVec 18) : (t.retire n).quitting = t.quitting := by unfold Thread.retire; simp
@[simp] theorem Thread.retire_waitFrom (t : Thread) (n : BitVec 18) : (t.retire n).waitFrom = t.waitFrom := by unfold Thread.retire; simp
@[simp] theorem Thread.retire_waitLimit (t : Thread) (n : BitVec 18) : (t.retire n).waitLimit = t.waitLimit := by unfold Thread.retire; simp
@[simp] theorem Thread.retire_heldDest (t : Thread) (n : BitVec 18) : (t.retire n).heldDest = t.heldDest := by unfold Thread.retire; simp
@[simp] theorem Thread.retire_heldNext (t : Thread) (n : BitVec 18) : (t.retire n).heldNext = t.heldNext := by unfold Thread.retire; simp
@[simp] theorem Thread.retire_faultQ (t : Thread) (n : BitVec 18) : (t.retire n).faultQ = t.faultQ := by unfold Thread.retire; simp
@[simp] theorem Thread.retire_outstanding (t : Thread) (n : BitVec 18) : (t.retire n).outstanding = t.outstanding := by unfold Thread.retire; simp
@[simp] theorem Thread.retire_home (t : Thread) (n : BitVec 18) : (t.retire n).home = t.home := by unfold Thread.retire; simp
@[simp] theorem Thread.retire_cgb (t : Thread) (n : BitVec 18) : (t.retire n).cgb = t.cgb := by unfold Thread.retire; simp
@[simp] theorem Thread.retire_cgl (t : Thread) (n : BitVec 18) : (t.retire n).cgl = t.cgl := by unfold Thread.retire; simp
@[simp] theorem Thread.retire_eset (t : Thread) (n : BitVec 18) : (t.retire n).eset = t.eset := by unfold Thread.retire; simp
@[simp] theorem Thread.retire_corun (t : Thread) (n : BitVec 18) : (t.retire n).corun = t.corun := by unfold Thread.retire; simp
@[simp] theorem Thread.retire_arrived (t : Thread) (n : BitVec 18) : (t.retire n).arrived = t.arrived := by unfold Thread.retire; simp
@[simp] theorem Thread.retire_episode (t : Thread) (n : BitVec 18) : (t.retire n).episode = t.episode := by unfold Thread.retire; simp
@[simp] theorem Thread.retire_arrived255 (t : Thread) (n : BitVec 18) : (t.retire n).arrived255 = t.arrived255 := by unfold Thread.retire; simp
@[simp] theorem Thread.retire_header (t : Thread) (n : BitVec 18) : (t.retire n).header = t.header := by unfold Thread.retire; simp
@[simp] theorem Thread.retire_heldReq (t : Thread) (n : BitVec 18) : (t.retire n).heldReq = t.heldReq := by unfold Thread.retire; simp
@[simp] theorem Thread.retire_replyPos (t : Thread) (n : BitVec 18) : (t.retire n).replyPos = t.replyPos := by unfold Thread.retire; simp
@[simp] theorem Thread.retire_restMsg (t : Thread) (n : BitVec 18) : (t.retire n).restMsg = t.restMsg := by unfold Thread.retire; simp
@[simp] theorem Thread.retire_restReply (t : Thread) (n : BitVec 18) : (t.retire n).restReply = t.restReply := by unfold Thread.retire; simp
@[simp] theorem Thread.retire_restGone (t : Thread) (n : BitVec 18) : (t.retire n).restGone = t.restGone := by unfold Thread.retire; simp
@[simp] theorem Thread.retire_record (t : Thread) (n : BitVec 18) : (t.retire n).record = t.record := by unfold Thread.retire; simp
@[simp] theorem Thread.retire_needs (t : Thread) (n : BitVec 18) : (t.retire n).needs = t.needs := by unfold Thread.retire; simp
@[simp] theorem Thread.retire_slotHome (t : Thread) (n : BitVec 18) : (t.retire n).slotHome = t.slotHome := by unfold Thread.retire; simp
@[simp] theorem Thread.retire_abandon (t : Thread) (n : BitVec 18) : (t.retire n).abandon = t.abandon := by unfold Thread.retire; simp
@[simp] theorem Thread.retire_pc (t : Thread) (n : BitVec 18) : (t.retire n).pc = n := by unfold Thread.retire; simp
@[simp] theorem Thread.retire_st (t : Thread) (n : BitVec 18) : (t.retire n).st = putBit t.st 22 false := by unfold Thread.retire; simp
@[simp] theorem Thread.retire_walkFault (t : Thread) (n : BitVec 18) : (t.retire n).walkFault = none := by unfold Thread.retire; simp
@[simp] theorem Thread.retire_shadow (t : Thread) (n : BitVec 18) : (t.retire n).shadow = if t.pend.isEmpty then t.shadow else t.shadow - 1 := by unfold Thread.retire; simp

/-! ## Parts of a state read after they are replaced -/

@[simp] theorem State.core_setCore (s : State) (ep : Ep) (c : Core) : (s.setCore ep c).core ep = c := by
  simp [State.core, State.setCore]

theorem State.core_setCore_other (s : State) {e ep : Ep} (c : Core) (h : e ≠ ep) : (s.setCore ep c).core e = s.core e := by
  simp only [State.core, State.setCore]
  exact Assoc.get_set_other _ _ _ (fun g => h (BitVec.eq_of_toNat_eq g))

@[simp] theorem State.setCore_setCore (s : State) (ep : Ep) (c d : Core) : (s.setCore ep c).setCore ep d = s.setCore ep d := by
  simp [State.setCore]

@[simp] theorem Core.thr_setThr (c : Core) (x : Ctx) (t : Thread) : vget x (c.setThr x t).threads = t := by
  simp [Core.setThr]

theorem Core.thr_setThr_other (c : Core) {x y : Ctx} (t : Thread) (h : y ≠ x) :
    vget y (c.setThr x t).threads = vget y c.threads := by
  simp only [Core.setThr]
  exact vget_vset_other _ _ h

@[simp] theorem Core.setThr_setThr (c : Core) (x : Ctx) (t u : Thread) : (c.setThr x t).setThr x u = c.setThr x u := by
  simp [Core.setThr]

@[simp] theorem State.core_setThr (s : State) (ep : Ep) (x : Ctx) (t : Thread) : (s.setThr ep x t).core ep = (s.core ep).setThr x t := by
  simp [State.setThr]

@[simp] theorem State.thr_setThr (s : State) (ep : Ep) (x : Ctx) (t : Thread) : (s.setThr ep x t).thr ep x = t := by
  simp [State.thr]

theorem State.thr_setThr_ctx (s : State) (ep : Ep) {x y : Ctx} (t : Thread) (h : y ≠ x) : (s.setThr ep x t).thr ep y = s.thr ep y := by
  simp only [State.thr, State.core_setThr]
  exact Core.thr_setThr_other _ _ h

theorem State.thr_setThr_core (s : State) {e ep : Ep} (x y : Ctx) (t : Thread) (h : e ≠ ep) : (s.setThr ep x t).thr e y = s.thr e y := by
  simp only [State.thr, State.setThr, State.core_setCore_other _ _ h]

@[simp] theorem State.setThr_setThr (s : State) (ep : Ep) (x : Ctx) (t u : Thread) : (s.setThr ep x t).setThr ep x u = s.setThr ep x u := by
  simp [State.setThr]

@[simp] theorem State.me_setMe (s : State) (t : Thread) : (s.setMe t).me = t := by
  simp [State.me, State.setMe]

@[simp] theorem State.setMe_setMe (s : State) (t u : Thread) : (s.setMe t).setMe u = s.setMe u := by
  simp [State.setMe]

@[simp] theorem State.myCore_setMyCore (s : State) (c : Core) : (s.setMyCore c).myCore = c := by
  simp [State.myCore, State.setMyCore]

@[simp] theorem State.myCore_setMe (s : State) (t : Thread) : (s.setMe t).myCore = s.myCore.setThr s.issue.ctx t := by
  simp [State.myCore, State.setMe]

@[simp] theorem State.pkg_setPkg (s : State) (p : Pkg) (k : Package) : (s.setPkg p k).pkg p = k := by
  simp [State.pkg, State.setPkg]

theorem State.pkg_setPkg_other (s : State) {p q : Pkg} (k : Package) (h : q ≠ p) : (s.setPkg p k).pkg q = s.pkg q := by
  simp only [State.pkg, State.setPkg]
  exact Assoc.get_set_other _ _ _ (fun g => h (BitVec.eq_of_toNat_eq g))

@[simp] theorem State.die_setDie (s : State) (p : Pkg) (d : BitVec 1) (x : Die) : (s.setDie p d x).die p d = x := by
  simp [State.die, State.setDie]

end Sys2Proof.Machine
end

