-- ==== Sys2Proof/Laws/Operands.lean ====
section
/-! SUPPORT. What the shared operations of the meanings do: reading operands, writing a destination, ending an instruction. -/

namespace Sys2Proof.Machine

open Sys2Proof.Spec

theorem State.setMyCore_self_threads (s : State) (t : Thread) :
    s.setMe t = s.setMyCore { s.myCore with threads := vset s.issue.ctx t s.myCore.threads } := rfl

/-- Everything the end of an instruction does. -/
theorem State.retire_eq (s : State) : s.retire = ended s s.me s.issue.next := by
  simp [State.retire, State.leaveOrder, ended, Core.leaveOrder, State.setMe, State.setThr, State.setMyCore, State.me, State.thr, State.myCore, Core.setThr]

theorem State.setMyCore_setMe (s : State) (u : Thread) (c : Core) : (s.setMe u).setMyCore c = s.setMyCore c :=
  State.setCore_setCore s s.issue.ep _ c

theorem State.ended_setMe (s : State) (u w : Thread) (n : BitVec 18) : ended (s.setMe u) w n = ended s w n := by
  unfold ended
  rw [State.setMyCore_setMe, State.myCore_setMe]
  simp only [State.setMe_issue, Core.setThr, vset_vset]
  rfl

theorem State.retire_setMe (s : State) (u : Thread) : (s.setMe u).retire = ended s u s.issue.next := by
  rw [State.retire_eq, State.ended_setMe, State.me_setMe]; rfl

theorem State.retireTo_eq (s : State) (n : BitVec 18) : s.retireTo n = { ended s s.me n with issue := { s.issue with next := n } } := by
  rw [State.retireTo, State.retire_eq]; rfl

theorem State.portStop_nonport (s : State) {r : Reg} (b : Bool) (h : isPort r = false) : s.portStop r b = none := by
  simp [State.portStop, h]

theorem State.portStops_nonport (s : State) {srcs dsts : List Reg} (h1 : ∀ r ∈ srcs, isPort r = false) (h2 : ∀ r ∈ dsts, isPort r = false) :
    s.portStops srcs dsts = none := by
  have a : srcs.findSome? (fun r => s.portStop r false) = none :=
    List.findSome?_eq_none_iff.2 (fun r hr => s.portStop_nonport false (h1 r hr))
  have b : dsts.findSome? (fun r => s.portStop r true) = none :=
    List.findSome?_eq_none_iff.2 (fun r hr => s.portStop_nonport true (h2 r hr))
  have c : srcs.any (fun r => s.me.bindsTo r 9 9) = false := by
    simp only [List.any_eq_false, Thread.bindsTo, Bool.and_eq_true, not_and]
    exact fun r hr h => by simp [h1 r hr] at h
  simp only [State.portStops, a, b, c, Bool.false_eq_true, if_false]

theorem Thread.waitsOn_none (t : Thread) {rs : List Reg} (h : ∀ r ∈ rs, t.isFull r = true) : t.waitsOn rs = none :=
  List.find?_eq_none.2 (fun r hr => by simp [h r hr])

theorem State.readReg_nonport (s : State) {r : Reg} (h : isPort r = false) : s.readReg r = .ok (s.me.getG r, s) := by
  simp [State.readReg, h]

theorem State.readRegs_nonport (s : State) {rs : List Reg} (h : ∀ r ∈ rs, isPort r = false) :
    s.readRegs rs = .ok (rs.map s.me.getG, s) := by
  induction rs with
  | nil => rfl
  | cons r rs ih =>
    rw [State.readRegs, s.readReg_nonport (h r (by simp))]
    simp only [ih (fun x hx => h x (by simp [hx])), List.map_cons]

theorem State.readRegs_length (s s1 : State) (rs : List Reg) (xs : List Dword) (h : s.readRegs rs = .ok (xs, s1)) :
    xs.length = rs.length := by
  induction rs generalizing s xs with
  | nil => simp [State.readRegs] at h; simp [← h.1]
  | cons r rs ih =>
    simp only [State.readRegs] at h
    split at h
    · cases h
    · split at h
      · cases h
      · rename_i h2
        cases h
        simp [ih _ _ h2]

theorem State.writeReg_nonport (s : State) {r : Reg} (x : Dword) (h : isPort r = false) : s.writeReg r x = .ok (s.setMe (s.me.setG r x)) := by
  simp [State.writeReg, h]

/-- Operands in registers that are full. -/
theorem State.operands_ready (s : State) {srcs dsts : List Reg} (h : Ready s (srcs ++ dsts)) :
    s.operands srcs dsts = .ok (srcs.map s.me.getG, s) := by
  have h1 : ∀ r ∈ srcs, isPort r = false := fun r hr => (h r (by simp [hr])).1
  have h2 : ∀ r ∈ dsts, isPort r = false := fun r hr => (h r (by simp [hr])).1
  simp [State.operands, s.portStops_nonport h1 h2, s.me.waitsOn_none (fun r hr => (h r hr).2), s.readRegs_nonport h1]

/-- Operands in registers that are full, beside vector registers that no pending result writes. -/
theorem State.operandsV_ready (s : State) {srcs dsts vs : List Reg} (h : Ready s (srcs ++ dsts)) (hv : VecReady s vs) :
    s.operandsV srcs dsts vs = .ok (srcs.map s.me.getG, s) := by
  have h1 : ∀ r ∈ srcs, isPort r = false := fun r hr => (h r (by simp [hr])).1
  have h2 : ∀ r ∈ dsts, isPort r = false := fun r hr => (h r (by simp [hr])).1
  have h3 : s.me.vecWaitsOn vs = none := List.find?_eq_none.2 (fun r hr => by simp [hv r hr])
  simp [State.operandsV, s.portStops_nonport h1 h2, s.me.waitsOn_none (fun r hr => (h r hr).2), h3, s.readRegs_nonport h1]

/-- The scalar operation on registers alone. -/
theorem State.alu_ready (s : State) {srcs : List Reg} {d : Reg} (f : List Dword → Dword) (h : Ready s (srcs ++ [d])) :
    s.alu srcs d f = ended s (s.me.setG d (f (srcs.map s.me.getG))) s.issue.next := by
  rw [State.alu, s.operands_ready h]
  simp only [s.writeReg_nonport _ (h d (by simp)).1]
  exact s.retire_setMe _

/-- The scalar operation when its operands are read and its result is taken, through ports or not. -/
theorem State.alu_ok (s s1 s2 : State) {srcs : List Reg} {d : Reg} (f : List Dword → Dword) {xs : List Dword}
    (h : s.operands srcs [d] = .ok (xs, s1)) (g : s1.writeReg d (f xs) = .ok s2) : s.alu srcs d f = ended s2 s2.me s2.issue.next := by
  rw [State.alu, h]
  simp only [g]
  exact s2.retire_eq

/-- A vector operation whose registers no pending result writes. -/
theorem State.vector_ready (s : State) {vs : List Reg} (f : Thread → Thread) (h : VecReady s vs) :
    s.vector vs f = ended s ((f s.me).setStBit 20 false) s.issue.next := by
  rw [State.vector, s.operandsV_ready (srcs := []) (dsts := []) (by intro r hr; simp at hr) h]
  simp only [State.consumeFmt, State.me_setMe, State.setMe_setMe]
  exact s.retire_setMe _

end Sys2Proof.Machine
end

