-- ==== Sys2Proof/Laws/Issue.lean ====
section
/-! SUPPORT. What issuing a word alone does, whatever the meanings are. -/

namespace Sys2Proof.Machine

theorem State.fetchError_clean (s : State) (pc : BitVec 18) (h : (s.core s.issue.ep).badWords = []) : s.fetchError pc = none := by
  simp [State.fetchError, h]

theorem State.fetchWord_fresh (s : State) (ep : Ep) (pc : BitVec 18) (h : (s.core ep).stale = []) :
    s.fetchWord ep pc = (BitVec.ofNat 32 (s.mem.read (istorePa ep pc.toNat) 4), s) := by
  simp [State.fetchWord, h]

theorem State.registerError_clean (s : State) (i : Instr) (h : (s.core s.issue.ep).badRegs = []) : s.registerError i = none := by
  simp [State.registerError, Core.badEntry, h]

@[simp] theorem State.core_issuing (s : State) (e ep : Ep) (ctx : Ctx) : (s.issuing ep ctx).core e = s.core e := rfl
@[simp] theorem State.me_issuing (s : State) (ep : Ep) (ctx : Ctx) : (s.issuing ep ctx).me = s.thr ep ctx := rfl
@[simp] theorem State.issue_issuing (s : State) (ep : Ep) (ctx : Ctx) : (s.issuing ep ctx).issue = { ep := ep, ctx := ctx } := rfl
@[simp] theorem State.mem_issuing (s : State) (ep : Ep) (ctx : Ctx) : (s.issuing ep ctx).mem = s.mem := rfl

theorem State.unitAt_me (s : State) (pc next : BitVec 18) : (s.unitAt pc next).me = s.me := rfl

/-- A word alone, on a core whose store and registers are sound and whose words are all fetchable: its meaning runs with the PC of the
next unit four bytes on. -/
theorem issueUnit_alone (run : Run) (s : State) (w : Word)
    (hb : (s.core s.issue.ep).badWords = []) (hr : (s.core s.issue.ep).badRegs = []) (hs : (s.core s.issue.ep).stale = [])
    (hw : w = BitVec.ofNat 32 (s.mem.read (istorePa s.issue.ep s.me.pc.toNat) 4)) (hp : wordP w = false) (hx : s.me.xd = false) :
    issueUnit run s = andThen (run (instrOf w) ((s.unitAt s.me.pc (s.me.pc + 4)).withWord w)) (fun s' => .next (s'.closed s.me [instrOf w])) := by
  simp only [issueUnit]
  generalize hu : s.unitAt s.me.pc (s.me.pc + 4) = u
  have hc : u.core u.issue.ep = s.core s.issue.ep := by subst hu; rfl
  have he : u.issue.ep = s.issue.ep := by subst hu; rfl
  have hm : u.mem = s.mem := by subst hu; rfl
  have hme : u.me = s.me := by subst hu; rfl
  have hf : u.fetchWord u.issue.ep s.me.pc = (w, u) := by
    rw [u.fetchWord_fresh _ _ (by rw [hc]; exact hs), hm, he, ← hw]
  simp only [u.fetchError_clean s.me.pc (by rw [hc]; exact hb), hf, hp, hme, hx, Bool.false_and, Bool.false_eq_true, if_false, u.registerError_clean _ (by rw [hc]; exact hr)]

/-- A core's cycle on which a context takes its issue boundary with no fault and no step trap waiting: its unit issues. -/
theorem coreCycle_issues (run : Run) (ep : Ep) (s : State) (c : Core) (ctx : Ctx)
    (h4 : (s.pkg (epPkg ep)).halted = false) (hh : ((s.clocked ep).pkg (epPkg ep)).halted = false)
    (hp : ((s.clocked ep).core ep).pick ((s.clocked ep).core ep).rotation = (c, some ctx))
    (hf : (vget ctx c.threads).faultQ = []) (hst : (vget ctx c.threads).stepTrap = false) :
    coreCycle run ep s =
      andThen (issueUnit run (((s.clocked ep).setCore ep c).issuing ep ctx))
        (fun s' => .next (s'.afterUnit (((s.clocked ep).setCore ep c).thr ep ctx))) := by
  have hq : (s.pkg (epPkg ep)).qreq = false ∧ (s.pkg (epPkg ep)).state ≠ 4 := by
    simpa [Package.halted] using h4
  have hs : (s.pkg (epPkg ep)).still = false := by simpa [Package.still, hq.1] using hq.2
  simp only [coreCycle, hq.2, hs, hh, hp, hf, hst, List.isEmpty_nil, Bool.not_true, Bool.false_eq_true, if_false]

/-- A core's turn from the agenda. -/
theorem runStep_issue (run : Run) (s : State) (ep : Ep) (r : List Turn) (h : s.agenda = .issue ep :: r) :
    runStep run s = coreCycle run ep { s with agenda := r } := by
  unfold runStep
  rw [h]
  rfl

end Sys2Proof.Machine
end

