-- ==== Sys2Proof/Laws/Memory.lean ====
section
/-! SUPPORT. Laws of memory: what is read after a write, and that every operation keeps the canonical form. -/

namespace Sys2Proof.Machine

/-! ## Rising lists -/

theorem rising_iff_pairwise (l : List Nat) : rising l = true ↔ l.Pairwise (· < ·) := by
  induction l with
  | nil => simp [rising]
  | cons a r ih =>
    cases r with
    | nil => simp [rising]
    | cons b r =>
      simp only [rising, Bool.and_eq_true, decide_eq_true_eq, ih, List.pairwise_cons, List.mem_cons]
      constructor
      · rintro ⟨h, hb, hr⟩
        refine ⟨?_, hb, hr⟩
        rintro x (rfl | hx)
        · exact h
        · exact Nat.lt_trans h (hb x hx)
      · rintro ⟨h, hb, hr⟩
        exact ⟨h b (Or.inl rfl), hb, hr⟩

theorem rising_filter {l : List Nat} (p : Nat → Bool) (h : rising l = true) : rising (l.filter p) = true :=
  (rising_iff_pairwise _).2 (((rising_iff_pairwise _).1 h).filter _)

theorem mem_natInsert (l : List Nat) (a x : Nat) : x ∈ natInsert l a ↔ x = a ∨ x ∈ l := by
  induction l with
  | nil => simp [natInsert]
  | cons k r ih =>
    simp only [natInsert]
    split
    · simp
    · simp only [List.mem_cons, ih]
      constructor
      · rintro (h | h | h) <;> simp [h]
      · rintro (h | h | h) <;> simp [h]

theorem rising_natInsert {l : List Nat} {a : Nat} (h : rising l = true) (ha : a ∉ l) : rising (natInsert l a) = true := by
  rw [rising_iff_pairwise] at *
  induction l with
  | nil => simp [natInsert]
  | cons k r ih =>
    obtain ⟨hk, hr⟩ := List.pairwise_cons.1 h
    simp only [List.mem_cons, not_or] at ha
    simp only [natInsert]
    split
    · refine List.pairwise_cons.2 ⟨?_, h⟩
      intro x hx
      rcases List.mem_cons.1 hx with rfl | hx
      · assumption
      · exact Nat.lt_trans ‹_› (hk x hx)
    · refine List.pairwise_cons.2 ⟨?_, ih hr ha.2⟩
      intro x hx
      rcases (mem_natInsert r a x).1 hx with rfl | hx
      · omega
      · exact hk x hx

theorem rising_natSet {l : List Nat} (a : Nat) (b : Bool) (h : rising l = true) : rising (natSet l a b) = true := by
  unfold natSet
  split
  · exact rising_natInsert (rising_filter _ h) (by simp)
  · exact rising_filter _ h

theorem mem_natSet (l : List Nat) (a x : Nat) (b : Bool) : x ∈ natSet l a b ↔ (x = a ∧ b = true) ∨ (x ≠ a ∧ x ∈ l) := by
  unfold natSet
  cases b <;> simp [mem_natInsert, and_comm]

/-! ## Listed bytes -/

theorem fst_cellInsert (l : List Host.Cell) (a : Nat) (b : BitVec 8) :
    (cellInsert l a b).map Prod.fst = natInsert (l.map Prod.fst) a := by
  induction l with
  | nil => simp [cellInsert, natInsert]
  | cons c r ih =>
    obtain ⟨k, v⟩ := c
    simp only [cellInsert, List.map_cons, natInsert]
    split <;> simp [ih]

theorem fst_cellSet (l : List Host.Cell) (a : Nat) (b : BitVec 8) :
    (cellSet l a b).map Prod.fst = natSet (l.map Prod.fst) a (decide (b ≠ 0)) := by
  unfold cellSet natSet
  by_cases h : b = 0#8 <;> simp [h, fst_cellInsert, List.filter_map, Function.comp_def]

theorem mem_cellInsert (l : List Host.Cell) (a : Nat) (b : BitVec 8) (c : Host.Cell) :
    c ∈ cellInsert l a b ↔ c = (a, b) ∨ c ∈ l := by
  induction l with
  | nil => simp [cellInsert]
  | cons h r ih =>
    obtain ⟨k, v⟩ := h
    simp only [cellInsert]
    split
    · simp
    · simp only [List.mem_cons, ih]
      constructor
      · rintro (h | h | h) <;> simp [h]
      · rintro (h | h | h) <;> simp [h]

theorem nonzero_cellSet {l : List Host.Cell} (a : Nat) (b : BitVec 8) (h : l.all (fun c => c.2 ≠ 0) = true) :
    (cellSet l a b).all (fun c => c.2 ≠ 0) = true := by
  simp only [List.all_eq_true, decide_eq_true_eq] at *
  intro c hc
  unfold cellSet at hc
  by_cases hb : b = 0
  · simp [hb] at hc
    exact h c hc.1
  · simp only [hb, if_false, mem_cellInsert] at hc
    rcases hc with rfl | hc
    · exact hb
    · exact h c (List.mem_filter.1 hc).1

@[simp] theorem cellGet_nil (a : Nat) : cellGet [] a = 0 := rfl

theorem cellGet_filter (l : List Host.Cell) (a x : Nat) :
    cellGet (l.filter (fun c => c.1 ≠ a)) x = if x = a then 0 else cellGet l x := by
  induction l with
  | nil => simp
  | cons c r ih =>
    obtain ⟨k, v⟩ := c
    by_cases hk : k = a
    · subst hk
      simp only [ne_eq, decide_not] at ih
      simp only [ne_eq, decide_not, List.filter_cons, decide_true, Bool.not_true]
      simp only [Bool.false_eq_true, if_false, ih, cellGet]
      split <;> simp_all
    · have : (decide ((k, v).1 ≠ a)) = true := by simpa using hk
      simp only [List.filter_cons, this, if_true, cellGet, ih]
      by_cases hx : x = k
      · subst hx; simp [hk]
      · simp [hx]

theorem cellGet_insert (l : List Host.Cell) (a x : Nat) (b : BitVec 8) (h : ∀ c ∈ l, c.1 ≠ a) :
    cellGet (cellInsert l a b) x = if x = a then b else cellGet l x := by
  induction l with
  | nil => simp [cellInsert, cellGet]
  | cons c r ih =>
    obtain ⟨k, v⟩ := c
    have hk : k ≠ a := h (k, v) (by simp)
    simp only [cellInsert]
    split
    · simp [cellGet]
    · simp only [cellGet, ih (fun c hc => h c (by simp [hc]))]
      by_cases hx : x = k
      · subst hx; simp [hk]
      · simp [hx]

/-- The byte read at an address after one byte is replaced. -/
@[simp] theorem cellGet_set (l : List Host.Cell) (a x : Nat) (b : BitVec 8) :
    cellGet (cellSet l a b) x = if x = a then b else cellGet l x := by
  unfold cellSet
  by_cases hb : b = 0
  · simp only [hb, if_true, cellGet_filter]
  · simp only [hb, if_false]
    rw [cellGet_insert _ _ _ _ (by intro c hc; simpa using (List.mem_filter.1 hc).2), cellGet_filter]
    split <;> rfl

/-! ## Bytes, marks and full/empty bits -/

@[simp] theorem Memory.byte_setByte (m : Memory) (a x : Nat) (b : BitVec 8) :
    (m.setByte a b).byte x = if x = a then b else m.byte x := by
  simp [Memory.setByte, Memory.byte]

@[simp] theorem Memory.byte_setFull (m : Memory) (a x : Nat) (f : Bool) : (m.setFull a f).byte x = m.byte x := rfl
@[simp] theorem Memory.byte_setPoison (m : Memory) (a x : Nat) (p : Bool) : (m.setPoison a p).byte x = m.byte x := rfl
@[simp] theorem Memory.isFull_setByte (m : Memory) (a x : Nat) (b : BitVec 8) : (m.setByte a b).isFull x = m.isFull x := rfl
@[simp] theorem Memory.isFull_setPoison (m : Memory) (a x : Nat) (p : Bool) : (m.setPoison a p).isFull x = m.isFull x := rfl
@[simp] theorem Memory.poisoned_setByte (m : Memory) (a x : Nat) (b : BitVec 8) : (m.setByte a b).poisoned x = m.poisoned x := rfl
@[simp] theorem Memory.poisoned_setFull (m : Memory) (a x : Nat) (f : Bool) : (m.setFull a f).poisoned x = m.poisoned x := rfl

@[simp] theorem Memory.isFull_setFull (m : Memory) (a x : Nat) (f : Bool) :
    (m.setFull a f).isFull x = if dwordAt x = dwordAt a then f else m.isFull x := by
  simp only [Memory.setFull, Memory.isFull]
  by_cases h : dwordAt x = dwordAt a
  · rw [if_pos h]
    cases f <;> simp [h, mem_natSet]
  · rw [if_neg h]
    cases f <;> simp [h, mem_natSet]

@[simp] theorem Memory.poisoned_setPoison (m : Memory) (a x : Nat) (p : Bool) :
    (m.setPoison a p).poisoned x = if dwordAt x = dwordAt a then p else m.poisoned x := by
  simp only [Memory.setPoison, Memory.poisoned]
  by_cases h : dwordAt x = dwordAt a
  · rw [if_pos h]
    cases p <;> simp [h, mem_natSet]
  · rw [if_neg h]
    cases p <;> simp [h, mem_natSet]

/-- A write changes the bytes it covers, and no other. -/
theorem Memory.byte_write (m : Memory) (a n x i : Nat) :
    (m.write a n x).byte i = if a ≤ i ∧ i < a + n then byteOf x (i - a) else m.byte i := by
  induction n generalizing m a x with
  | zero => rw [if_neg (by omega)]; rfl
  | succ n ih =>
    simp only [Memory.write, ih, byte_setByte]
    by_cases h : i = a
    · subst h
      simp [byteOf]
    · by_cases g : a + 1 ≤ i ∧ i < a + 1 + n
      · have e : i - a = (i - (a + 1)) + 1 := by omega
        rw [if_pos g, if_pos (by omega), byteOf, byteOf, e, Nat.mul_add, Nat.pow_add, Nat.mul_comm (2 ^ _), ← Nat.div_div_eq_div_mul]
      · rw [if_neg g, if_neg h, if_neg (by omega)]

@[simp] theorem Memory.isFull_write (m : Memory) (a n x i : Nat) : (m.write a n x).isFull i = m.isFull i := by
  induction n generalizing m a x with
  | zero => rfl
  | succ n ih => simp [Memory.write, ih]

@[simp] theorem Memory.poisoned_write (m : Memory) (a n x i : Nat) : (m.write a n x).poisoned i = m.poisoned i := by
  induction n generalizing m a x with
  | zero => rfl
  | succ n ih => simp [Memory.write, ih]

/-- Reading depends on the bytes read alone. -/
theorem Memory.read_congr (m m' : Memory) (a n : Nat) (h : ∀ i, a ≤ i → i < a + n → m.byte i = m'.byte i) :
    m.read a n = m'.read a n := by
  induction n generalizing a with
  | zero => rfl
  | succ n ih =>
    simp only [Memory.read]
    rw [h a (Nat.le_refl _) (by omega), ih (a + 1) (fun i h1 h2 => h i (by omega) (by omega))]

/-- Reading what was written gives the number written, cut to the width. -/
theorem Memory.read_write (m : Memory) (a n x : Nat) : (m.write a n x).read a n = x % 2 ^ (8 * n) := by
  induction n generalizing m a x with
  | zero => simp [Memory.read, Nat.mod_one]
  | succ n ih =>
    have hb : ((m.write a (n + 1) x).byte a) = byteOf x 0 := by
      rw [Memory.byte_write, if_pos (by omega), Nat.sub_self]
    have hr : (m.write a (n + 1) x).read (a + 1) n = (x / 256) % 2 ^ (8 * n) := by
      simp only [Memory.write]
      exact ih _ _ _
    simp only [Memory.read, hb, hr, byteOf, BitVec.toNat_ofNat]
    rw [show 8 * (n + 1) = 8 + 8 * n by omega, Nat.pow_add, Nat.mod_mul]
    simp

/-- Reading elsewhere is unchanged by a write. -/
theorem Memory.read_write_other (m : Memory) (a n x b k : Nat) (h : b + k ≤ a ∨ a + n ≤ b) :
    (m.write a n x).read b k = m.read b k := by
  refine Memory.read_congr _ _ _ _ (fun i h1 h2 => ?_)
  rw [Memory.byte_write, if_neg (by omega)]

/-! ## The canonical form -/

theorem Memory.wf_setByte {m : Memory} (a : Nat) (b : BitVec 8) (h : m.wf = true) : (m.setByte a b).wf = true := by
  simp only [Memory.wf, Bool.and_eq_true] at *
  refine ⟨⟨⟨?_, nonzero_cellSet a b h.1.1.2⟩, h.1.2⟩, h.2⟩
  show rising ((cellSet m.cells a b).map Prod.fst) = true
  rw [fst_cellSet]
  exact rising_natSet _ _ h.1.1.1

theorem Memory.wf_setFull {m : Memory} (a : Nat) (f : Bool) (h : m.wf = true) : (m.setFull a f).wf = true := by
  simp only [Memory.wf, Bool.and_eq_true] at *
  exact ⟨⟨h.1.1, rising_natSet _ _ h.1.2⟩, h.2⟩

theorem Memory.wf_setPoison {m : Memory} (a : Nat) (p : Bool) (h : m.wf = true) : (m.setPoison a p).wf = true := by
  simp only [Memory.wf, Bool.and_eq_true] at *
  exact ⟨⟨h.1.1, h.1.2⟩, rising_natSet _ _ h.2⟩

theorem Memory.wf_write {m : Memory} (a n x : Nat) (h : m.wf = true) : (m.write a n x).wf = true := by
  induction n generalizing m a x with
  | zero => exact h
  | succ n ih => exact ih _ _ (wf_setByte _ _ h)

theorem Memory.wf_setBytes {m : Memory} (l : List Host.Cell) (h : m.wf = true) :
    (l.foldl (fun (m : Memory) (c : Host.Cell) => m.setByte c.1 c.2) m).wf = true := by
  induction l generalizing m with
  | nil => exact h
  | cons c r ih => exact ih (wf_setByte _ _ h)

/-- Memory restricted to the addresses a test keeps is in its canonical form. -/
theorem Memory.wf_filter {m : Memory} (p : Nat → Bool) (h : m.wf = true) :
    ({ cells := m.cells.filter (fun c => p c.1), empty := m.empty.filter p, poison := m.poison.filter p } : Memory).wf = true := by
  simp only [Memory.wf, Bool.and_eq_true] at *
  refine ⟨⟨⟨?_, ?_⟩, rising_filter _ h.1.2⟩, rising_filter _ h.2⟩
  · have e : (m.cells.filter (fun c => p c.1)).map Prod.fst = (m.cells.map Prod.fst).filter p := by
      simp [List.filter_map, Function.comp_def]
    rw [e]
    exact rising_filter _ h.1.1.1
  · simp only [List.all_eq_true, decide_eq_true_eq] at *
    exact fun c hc => h.1.1.2 c (List.mem_filter.1 hc).1

/-- Everything one operation on one dword does to the canonical form: it keeps it. -/
theorem Memory.wf_perform {m : Memory} (r : MemReq) (h : m.wf = true) : (m.perform r).mem.wf = true := by
  unfold Memory.perform
  repeat' split
  all_goals first
    | exact h
    | (dsimp only; repeat' split) <;> first
      | exact h
      | exact wf_write _ _ _ h
      | exact wf_setFull _ _ h
      | exact wf_setPoison _ _ (wf_write _ _ _ h)
      | exact wf_setFull _ _ (wf_write _ _ _ h)
      | exact wf_setPoison _ _ (wf_setFull _ _ (wf_write _ _ _ h))

/-- The memory of a state after reset is in its canonical form. -/
theorem State.reset_mem_wf : State.reset.mem.wf = true := by decide

end Sys2Proof.Machine
end

