-- ==== Sys2Proof/Laws/MemoryMoves.lean ====
section
/-! SUPPORT. The memory operations on whole ranges keep the canonical form. -/

namespace Sys2Proof.Machine

theorem rising_foldl_natSet {l : List Nat} (xs : List Nat) (b : Bool) (h : rising l = true) :
    rising (xs.foldl (fun l x => natSet l x b) l) = true := by
  induction xs generalizing l with
  | nil => exact h
  | cons x r ih => exact ih (rising_natSet x b h)

theorem wf_foldr_cellSet {l : List Host.Cell} (xs : List Host.Cell)
    (h : rising (l.map Prod.fst) = true ∧ l.all (fun c => c.2 ≠ 0) = true) :
    rising ((xs.foldr (fun c l => cellSet l c.1 c.2) l).map Prod.fst) = true ∧
      (xs.foldr (fun c l => cellSet l c.1 c.2) l).all (fun c => c.2 ≠ 0) = true := by
  induction xs with
  | nil => exact h
  | cons x r ih => exact ⟨by rw [List.foldr_cons, fst_cellSet]; exact rising_natSet _ _ ih.1, nonzero_cellSet _ _ ih.2⟩

/-- Dwords moved elsewhere (R287, R293). -/
theorem Memory.wf_moveWhere {m : Memory} (src dst : Nat) (inside : Nat → Nat → Bool) (h : m.wf = true) :
    (m.moveWhere src dst inside).wf = true := by
  simp only [Memory.wf, Bool.and_eq_true] at h
  have hc := wf_filter (fun x => !inside dst x) (m := m) (by simp only [Memory.wf, Bool.and_eq_true]; exact h)
  simp only [Memory.wf, Bool.and_eq_true] at hc
  have hb := wf_foldr_cellSet
    ((m.cells.filter (fun c => inside src c.1)).map (fun c => (c.1 - src + dst, c.2))) hc.1.1
  simp only [Memory.moveWhere, Memory.wf, Bool.and_eq_true]
  refine ⟨⟨⟨hb.1, hb.2⟩, ?_⟩, ?_⟩ <;> split
  · exact rising_foldl_natSet _ _ (rising_filter _ h.1.2)
  · exact h.1.2
  · exact h.2
  · exact rising_foldl_natSet _ _ (rising_filter _ h.2)

/-- A range moved elsewhere (R287). -/
theorem Memory.wf_moveRange {m : Memory} (src dst n : Nat) (h : m.wf = true) : (m.moveRange src dst n).wf = true :=
  Memory.wf_moveWhere src dst _ h

/-- A range cleared when a crew leaves (R36). -/
theorem Memory.wf_clearRange {m : Memory} (base n : Nat) (h : m.wf = true) : (m.clearRange base n).wf = true :=
  wf_filter (fun x => decide (x < base ∨ base + n ≤ x)) h

/-- What a package holds forgotten at its reset (R320). -/
theorem Memory.wf_forget {m : Memory} (p : Pkg) (h : m.wf = true) : (m.forget p).wf = true :=
  wf_filter (fun a => paPkg a ≠ p || paRegion a = .host) h

/-- A package's memory as bring-up leaves it (R320). -/
theorem Memory.wf_initialise {m : Memory} (p : Pkg) (h : m.wf = true) : (m.initialise p).wf = true :=
  wf_filter (fun a => paPkg a ≠ p || !paHasFe a) h

/-- Two packages' memories exchanged (R318). -/
theorem Memory.wf_exchange {m : Memory} (p q : Pkg) (h : m.wf = true) : (m.exchange p q).wf = true := by
  have hc := wf_filter (fun a => decide (2 ^ 54 ≤ a) || (paPkg a ≠ p && paPkg a ≠ q)) h
  simp only [Memory.wf, Bool.and_eq_true] at h hc
  have hb := wf_foldr_cellSet ((m.cells.filter (fun c => !(decide (2 ^ 54 ≤ c.1) || (paPkg c.1 ≠ p && paPkg c.1 ≠ q)))).map (fun c => (swapPa p q c.1, c.2))) hc.1.1
  simp only [Memory.exchange, Memory.wf, Bool.and_eq_true]
  exact ⟨⟨⟨hb.1, hb.2⟩, rising_foldl_natSet _ _ (rising_filter _ h.1.2)⟩, rising_foldl_natSet _ _ (rising_filter _ h.2)⟩

/-- The marks of a save's damaged entries (R283). -/
theorem Memory.wf_markEntries {m : Memory} (at_ : Nat) (bad : List (BitVec 16)) (entries : List (BitVec 16 × Nat × Nat)) (h : m.wf = true) :
    (m.markEntries at_ bad entries).wf = true := by
  have inner (e : BitVec 16 × Nat × Nat) (l : List Nat) (m : Memory) (h : m.wf = true) :
      (l.foldl (fun (m : Memory) i => m.setPoison (at_ + e.2.1 + 8 * i) true) m).wf = true := by
    induction l generalizing m with
    | nil => exact h
    | cons i r ih => exact ih _ (wf_setPoison _ _ h)
  unfold Memory.markEntries
  generalize entries.filter (fun e => bad.contains e.1) = l
  induction l generalizing m with
  | nil => exact h
  | cons e r ih => exact ih (inner e _ m h)

/-- A dword of a frame put back (R287). -/
theorem Memory.wf_put {m : Memory} (x : FrameDword) (h : m.wf = true) : (m.put x).wf = true :=
  wf_setPoison _ _ (wf_setFull _ _ (wf_write _ _ _ h))

theorem Memory.wf_putAll {m : Memory} (l : List FrameDword) (h : m.wf = true) : (m.putAll l).wf = true := by
  induction l generalizing m with
  | nil => exact h
  | cons x r ih => exact ih (wf_put x h)

/-- A dword amended in place keeps its mark, and every other dword its own (R173). -/
theorem Memory.poison_write (m : Memory) (a n x : Nat) : (m.write a n x).poison = m.poison := by
  induction n generalizing m a x with
  | zero => rfl
  | succ n ih => simp [Memory.write, ih, Memory.setByte]

theorem State.poisoned_amendDword (s : State) (pa : Nat) (f : Dword → Dword) (a : Nat) :
    (s.amendDword pa f).mem.poisoned a = s.mem.poisoned a := by
  simp [State.amendDword, Memory.poisoned, Memory.poison_write]

end Sys2Proof.Machine
end

