-- ==== Sys2Proof/Tests/Slice0.lean ====
section
/-! SUPPORT. The model's own tests: words decoded, terms that WellFormed refuses, and for each obligation with hypotheses a witness that meets
them. They are elaborated one at a time: each asks the kernel to evaluate, and waits for it. -/

open Sys2Proof Sys2Proof.Machine Sys2Proof.Spec
namespace Sys2Proof.Tests

set_option Elab.async false

/-! ## Decoding: a word of every major, from the manual's encodings -/

/-- `add g5, g6, g7` (R140). -/
theorem test_decode_add : decodeTableWord 32 0x400298E0 = some (.add ⟨5, 6, 7, 0⟩) := by decide

/-- `ld.d.x.l2 g5, [g4+16]` (R121). -/
theorem test_decode_ld : decodeTableWord 32 0x00A40592 = some (.ldX ⟨5, 4, 2, 3, 2⟩) := by decide

/-- The word 0 is `ld.b zr, [zr+0]` (R124). -/
theorem test_decode_zero : decodeTableWord 32 0 = some (.ld ⟨0, 0, 0, 0, 0⟩) := by decide

/-- `st.d.s3 g6, [g7-8]` (R121). -/
theorem test_decode_st : decodeTableWord 32 0x04C7FFB0 = some (.st ⟨6, 7, 0x7F, 3, 3, 0⟩) := by decide

/-- `vld.x v3, [g4+128]` (R176). -/
theorem test_decode_vm : decodeTableWord 32 0x08640410 = some (.vldX ⟨3, 4, 2, 0⟩) := by decide

/-- `ldf g5, [g6], g7` (R179). -/
theorem test_decode_fe : decodeTableWord 32 0x0C0531C0 = some (.ldf ⟨5, 6, 7, 0⟩) := by decide

/-- Major 4: d = 5, b = 6, a = 7, aop = 0, sc = 8, S = 0, w = 1 (R120, R183). -/
theorem test_decode_ami : decodeTableWord 32 0b0_00100_00101_00110_00111_000_1000_000_1 = some (.aadd ⟨5, 6, 7, 8, 0, 1⟩) := by decide

/-- `sig` of a dword in scope 1 on stream 3 (R120, R185). -/
theorem test_decode_amf : decodeTableWord 32 0x14063E17 = some (.sig ⟨6, 7, 1, 3⟩) := by decide

/-- `send` of a request (R189). -/
theorem test_decode_msg : decodeTableWord 32 0x18042801 = some (.send ⟨8, 10, 0, 0, 0, 1⟩) := by decide

/-- `beq g3, zr` five words on (R149). -/
theorem test_decode_br : decodeTableWord 32 0x1C060005 = some (.beq ⟨3, 0, 5⟩) := by decide

/-- `jal g27` sixteen words back (R150). -/
theorem test_decode_jmp : decodeTableWord 32 0x237FFFF0 = some (.jal ⟨27, 0x1FFFF0⟩) := by decide

/-- `spawn g9, g10` (R168). -/
theorem test_decode_sys : decodeTableWord 32 0x24E4A800 = some (.spawn ⟨9, 10⟩) := by decide

/-- `bar` of group 3 (R195). -/
theorem test_decode_bar : decodeTableWord 32 0x28029903 = some (.bar ⟨5, 6, 1, 3⟩) := by decide

/-- Major 11: eop 0, o1 = 1, LA = 0 (R120, R223). -/
theorem test_decode_cpe : decodeTableWord 32 0b0_01011_00000_00001_00000_00000_00_0000 = some (.cpy ⟨1, 0, 0, 0, 0⟩) := by decide

/-- `mdr` of accumulator 0 (R254). -/
theorem test_decode_mxe : decodeTableWord 32 0x304849D0 = some (.mdr ⟨8, 9, 7, 1, 0⟩) := by decide

/-- `vgld.d v4, [g5], v6, k2` (R177). -/
theorem test_decode_gs : decodeTableWord 32 0x342429A0 = some (.vgldD ⟨4, 5, 6, 2, 0⟩) := by decide

/-- `li g4, -1` (R142). -/
theorem test_decode_li : decodeTableWord 32 0x709FFFFF = some (.li ⟨4, 0x1FFFFF⟩) := by decide

/-- Major 17: d = 3, a = 4, imm16 = -2 (R120). -/
theorem test_decode_ii : decodeTableWord 32 0b0_10001_00011_00100_1111111111111110 = some (.addi ⟨3, 4, 0xFFFE⟩) := by decide

/-- Major 18: fn 4, d = 1, a = 2, b = 3, ty = 1, the division of words (R143). -/
theorem test_decode_im : decodeTableWord 32 0b0_10010_000100_00001_00010_00011_00001 = some (.div ⟨1, 2, 3, 1⟩) := by decide

/-- Major 19: fn 2, d = 1, a = 2 (R144). -/
theorem test_decode_ib : decodeTableWord 32 0b0_10011_000010_00001_00010_00000_00000 = some (.popc ⟨1, 2⟩) := by decide

/-- Major 20: fn 11, d = 1, a = 2, i = -16 in ty (R146). -/
theorem test_decode_cmp : decodeTableWord 32 0b0_10100_001011_00001_00010_00000_10000 = some (.sltui ⟨1, 2, 16⟩) := by decide

/-- Major 21: fn 0, d = 1, a = 2, b = 3, k = 0, w = 2 (R120, R203). -/
theorem test_decode_vi : decodeTableWord 32 0b0_10101_000000_00001_00010_00011_000_10 = some (.vadd ⟨1, 2, 3, 0, 2⟩) := by decide

/-- `vfcmplt` of words into k2 (R207). -/
theorem test_decode_vf : decodeTableWord 32 0x59110442 = some (.vfcmplt ⟨2, 1, 2, 0, 2⟩) := by decide

/-- `vdp4 v8, v9, v10, v8` (R208). -/
theorem test_decode_vfma : decodeTableWord 32 0x5C942548 = some (.vdp4 ⟨8, 9, 10, 8⟩) := by decide

/-- `vtpk` with P = 3 (R218). -/
theorem test_decode_vcv : decodeTableWord 32 0x60612460 = some (.vtpk ⟨2, 9, 3, 0⟩) := by decide

/-- `vred` of words under k1 (R213). -/
theorem test_decode_vpm : decodeTableWord 32 0x65038C06 = some (.vred ⟨7, 3, 1, 2⟩) := by decide

/-- `draw g5` (R222). -/
theorem test_decode_vrn : decodeTableWord 32 0x68028000 = some (.draw ⟨5⟩) := by decide

/-- Major 27: fn 23, d = 5, a = 3, the count of k3's bits (R148). -/
theorem test_decode_xmv : decodeTableWord 32 0b0_11011_010111_00101_00011_00000_00000 = some (.kpop ⟨5, 3⟩) := by decide

/-- An FMT and an EXT (R113). -/
theorem test_decode_pfx :
    decodeTableWord 32 0b0_11110_00_10110_10100_101_1_1_1_00000000 = some (.fmt ⟨22, 20, 5, 1, 1, 1⟩) ∧
    decodeTableWord 32 0b0_11110_01_000000000000000000000100 = some (.ext ⟨4⟩) := by decide

/-- Reserved majors, LD with S = 2, an unassigned sub-op, a reserved prefix kind and bit (R115, R123). -/
theorem test_decode_refuses :
    ([0x38000000, 0x3C000000, 0x74000000, 0x7C000000, 0x00A40520, 0b0_10100_000110_00001_00010_00011_00000, 0x7A000000, 0x78000001].map
      (decodeTableWord 32)).all (fun x => x.isNone) = true := by decide

/-! ## WellFormed: a term that each check refuses -/

/-- A streamed atomic with a destination, of both layouts (R182). -/
theorem test_ill_atomic : (Instr.aadd ⟨5, 6, 7, 8, 1, 1⟩).wellFormed = false ∧ (Instr.afmax ⟨5, 6, 7, 8, 1⟩).wellFormed = false := by decide

/-- A `send` of a reply that asks for one, one from a port, and one whose payload passes g27 (R189). -/
theorem test_ill_send : [(⟨8, 10, 1, 0, 1, 1⟩ : OpSend), ⟨8, 28, 0, 0, 0, 1⟩, ⟨8, 26, 0, 0, 0, 3⟩].all (fun o => !(Instr.send o).wellFormed) = true := by decide

/-- A target code out of range, a count of 0, counts beyond the target's (R194). -/
theorem test_ill_waitq :
    [(⟨5, 0, 1, 0⟩ : OpWaitq), ⟨5, 0, 1, 13⟩, ⟨5, 0, 0, 1⟩, ⟨5, 0, 33, 8⟩].all (fun o => !(Instr.waitq o).wellFormed) = true ∧
      (Instr.waitq ⟨5, 0, 63, 9⟩).wellFormed = true := by decide

theorem test_ill_qlen : (Instr.qlen ⟨5, 0⟩).wellFormed = false ∧ (Instr.qlen ⟨5, 13⟩).wellFormed = false := by decide

/-- A register R154 does not assign, and a read-only one (R153). -/
theorem test_ill_sreg : (Instr.mfs ⟨3, 3⟩).wellFormed = false ∧ (Instr.mts ⟨3, 3⟩).wellFormed = false ∧ (Instr.mts ⟨3, 0⟩).wellFormed = false := by decide

/-- Register blocks that pass g27 (R167, R268). -/
theorem test_ill_blocks : (Instr.spawn ⟨9, 24⟩).wellFormed = false ∧ (Instr.spawn ⟨9, 0⟩).wellFormed = false ∧ (Instr.enq ⟨5, 27⟩).wellFormed = false := by decide

/-- Copy commands whose operand block passes g27, and fields that their action does not take (R223). -/
theorem test_ill_copies :
    [Instr.cpy ⟨26, 0, 0, 0, 0⟩, .cpys ⟨23, 0, 0, 0, 0⟩, .gth ⟨25, 0, 0, 0, 0⟩, .cpz ⟨24, 0, 0, 0, 0⟩, .tbld ⟨27, 0, 0, 0, 0⟩, .cpy ⟨0, 0, 0, 0, 0⟩,
      .cpy ⟨1, 5, 0, 0, 0⟩, .cpy ⟨1, 0, 5, 1, 0⟩, .cpy ⟨1, 5, 28, 1, 0⟩, .cpy ⟨1, 5, 1, 2, 0⟩, .cpy ⟨1, 5, 0, 3, 0⟩].all (fun i => !i.wellFormed) = true := by decide

/-- Ring numbers beyond 7 (R251). -/
theorem test_ill_mmt : (Instr.mmt ⟨5, 8, 1, 0, 0⟩).wellFormed = false ∧ (Instr.mmtz ⟨5, 0, 8, 0, 0⟩).wellFormed = false := by decide

/-- `bfi` into zr, `sel` by a port (R145, R146). -/
theorem test_ill_scalar : (Instr.bfi ⟨0, 1, 2⟩).wellFormed = false ∧ (Instr.sel ⟨1, 2, 3, 28⟩).wellFormed = false := by decide

/-- Lanes beyond the width's, masks beyond k7 (R147). -/
theorem test_ill_moves :
    [Instr.movvsD ⟨1, 2, 8⟩, .movsvW ⟨1, 2, 16⟩, .mvgk ⟨8, 1⟩, .mvkg ⟨1, 8⟩, .kand ⟨0, 8, 0⟩, .kand ⟨0, 0, 8⟩, .kand ⟨8, 0, 0⟩, .knot ⟨8, 0⟩, .knot ⟨0, 8⟩].all
      (fun i => !i.wellFormed) = true := by decide

/-- Prefix fields not given that are not zero (R115). -/
theorem test_ill_fmt : [(⟨1, 0, 0, 0, 1, 1⟩ : OpFmt), ⟨0, 1, 0, 1, 0, 1⟩, ⟨0, 0, 1, 1, 1, 0⟩].all (fun o => !(Instr.fmt o).wellFormed) = true := by decide

/-- Comparisons into no mask register, a `vsel` without a mask (R204, R207). -/
theorem test_ill_vector : (Instr.vcmpeq ⟨8, 1, 2, 0, 2⟩).wellFormed = false ∧ (Instr.vfcmplt ⟨8, 1, 2, 0, 2⟩).wellFormed = false ∧
    (Instr.vsel ⟨1, 2, 3, 0, 2⟩).wellFormed = false := by decide

/-! ## Small states -/

/-- Core 0 of package 0 with one thread, whose word issues at address 0. -/
def solo (t : Thread) (c : Core := {}) : State :=
  { cores := [(0, { c with threads := vset (0 : Ctx) t c.threads })], issue := { next := 4 } }

/-- A READY thread with an allocation of 4 KiB; g6 holds the local address 0x40. -/
def plain : Thread := { status := .ready, cgl := 0x1000, g := vset (6 : Reg) 0x8000000000000040 (Vector.replicate 32 0) }

/-- The thread with the engine set, q0 bound to core queue 0. -/
def engine : Thread := { plain with eset := true, qbind := 1 }

/-- Core queue 0 with some dwords. -/
def queue0 (l : List Dword) : Core := { cq := vset (0 : BitVec 3) ({ data := l } : CoreQueue) (Vector.replicate 8 {}) }

/-- The thread with a pending FMT of both formats. -/
def formatted (fa fb : Nat) : Thread := { plain with st := 0x100000, pfx := BitVec.ofNat 64 (0xC000 + 256 * fa + 8 * fb) }

theorem ready_of_all (s : State) (rs : List Reg) (h : rs.all (fun r => !isPort r && s.me.isFull r) = true) : Ready s rs := by
  simpa [Ready] using h

theorem vecReady_of_all (s : State) (rs : List Reg) (h : rs.all (fun r => !s.me.vecPending r) = true) : VecReady s rs := by
  simpa [VecReady] using h

theorem clean_of_empty (s : State) (h : s.mem.poison = []) (pa n : Nat) : Clean s.mem pa n := by
  intro i _; simp [Memory.poisoned, h]

theorem witness_ScalarResult : ∃ i srcs d f s, scalar i = some (srcs, d, f) ∧ Ready s (srcs ++ [d]) :=
  ⟨.add ⟨5, 5, 27, 0⟩, _, _, _, solo plain, rfl, ready_of_all _ _ (by decide +kernel)⟩

theorem witness_ScalarThroughPorts : ∃ i srcs d f, ∃ s s1 s2 : State, ∃ xs,
    scalar i = some (srcs, d, f) ∧ s.portStops srcs [d] = none ∧ (srcs ++ [d]).all (fun r => s.me.isFull r) = true ∧
    s.readRegs srcs = .ok (xs, s1) ∧ s1.writeReg d (f xs) = .ok s2 :=
  ⟨.add ⟨5, 28, 7, 0⟩, [28, 7], 5, _, solo engine (queue0 [7]), _, _, _, rfl, by decide +kernel, by decide +kernel, rfl, rfl⟩

theorem readsThrough_of {s : State} {srcs dsts : List Reg} {xs : List Dword} {s1 : State}
    (h : s.portStops srcs dsts = none ∧ (srcs ++ dsts).all (fun r => s.me.isFull r) = true) (hr : s.readRegs srcs = .ok (xs, s1)) :
    ReadsThrough s srcs dsts xs s1 := ⟨h.1, List.all_eq_true.mp h.2, hr⟩

/-- Port q0 as both sources, as source and destination, as destination alone, of an instruction of each kind. -/
theorem witness_ScalarThroughPorts_more :
    (∃ i o f lo hi, ∃ s s1 s2 : State, ∃ x y, saturating i = some (o, f, lo, hi) ∧ ReadsThrough s [o.a, o.b] [o.d] [x, y] s1 ∧
      s1.writeReg o.d (BitVec.ofInt 64 (max lo (min (f x y) hi))) = .ok s2) ∧
    (∃ i o p, ∃ s s1 : State, ∃ x y, Spec.branch i = some (o, p) ∧ ReadsThrough s [o.a, o.b] [] [x, y] s1) ∧
    (∃ s s1 s2 : State, ∃ x, ReadsThrough s [28] [28] [x] s1 ∧ x.toInt % 4 = 0 ∧ s1.writeReg 28 x = .ok s2) ∧
    (∃ s s1 : State, ∃ x, ReadsThrough s [28] [] [x] s1 ∧ x.toInt % 4 ≠ 0 ∧ VecReady s [3]) ∧
    (∃ s s2 : State, ReadsThrough s [] [28] [] s ∧ s.writeReg 28 5 = .ok s2 ∧ s.sreg 1 = some 0) := by
  refine ⟨⟨.addus ⟨5, 28, 28⟩, _, _, _, _, solo engine (queue0 [7, 9]), _, _, _, _, rfl, readsThrough_of (by decide +kernel) rfl, rfl⟩,
    ⟨.beq ⟨28, 0, 5⟩, _, _, solo engine (queue0 [7]), _, _, _, rfl, readsThrough_of (by decide +kernel) rfl⟩,
    ⟨solo engine (queue0 [8]), _, _, 8, readsThrough_of (by decide +kernel) rfl, by decide +kernel, rfl⟩,
    ⟨solo engine (queue0 [7]), _, 7, readsThrough_of (by decide +kernel) rfl, by decide +kernel, vecReady_of_all _ _ (by decide +kernel)⟩,
    solo engine, _, readsThrough_of (by decide +kernel) rfl, rfl, by decide +kernel⟩

theorem witness_SaturatingAndImmediateResults : ∃ i o f lo hi s, saturating i = some (o, f, lo, hi) ∧ Ready s [o.a, o.b, o.d] :=
  ⟨.addus ⟨5, 27, 6⟩, _, _, _, _, solo plain, rfl, ready_of_all _ _ (by decide +kernel)⟩

theorem witness_BranchesAndJumps : ∃ i o p s, Spec.branch i = some (o, p) ∧ Ready s [o.a, o.b] :=
  ⟨.blt ⟨5, 0, 0xFFF⟩, _, _, solo plain, rfl, ready_of_all _ _ (by decide +kernel)⟩

/-- A target that is a multiple of 4, and one that is not. -/
theorem witness_BranchesAndJumps_jalr : Ready (solo plain) [6, 0] ∧ (((solo plain).me.getG 6).toInt + 4 * (1 : BitVec 10).toInt) % 4 = 0 ∧
    Ready (solo { plain with g := vset (6 : Reg) 3 plain.g }) [6, 5] ∧
    (((solo { plain with g := vset (6 : Reg) 3 plain.g }).me.getG 6).toInt + 4 * (1 : BitVec 10).toInt) % 4 ≠ 0 :=
  ⟨ready_of_all _ _ (by decide +kernel), by decide +kernel, ready_of_all _ _ (by decide +kernel), by decide +kernel⟩

theorem witness_PendingOperandParks : ∃ i srcs d f, ∃ s : State, scalar i = some (srcs, d, f) ∧
    (srcs ++ [d]).all (fun r => !isPort r) = true ∧ (srcs ++ [d]).any (fun r => !s.me.isFull r) = true :=
  ⟨.add ⟨5, 7, 8, 0⟩, [7, 8], 5, _, solo { plain with full := 0xFFFFFF7F }, rfl, by decide +kernel, by decide +kernel⟩

/-- A queue with a dword, an empty one, one with room and a full one; a port bound to nothing or without the engine set. -/
theorem witness_QueuePorts :
    ((solo engine).me.portCode 28 = 1 ∧ ((solo engine (queue0 [7])).myCore.queue 1).data = [7] ∧ (solo engine (queue0 [7])).behind 1 false = false) ∧
    ((solo engine).myCore.queue 1).data = [] ∧
    (((solo engine).myCore.queue 1).data.length + ((solo engine).myCore.queue 1).reserved < 32 ∧ (solo engine).behind 1 true = false ∧
      (solo engine).me.owesPush 1 = false) ∧
    32 ≤ ((solo engine (queue0 (List.replicate 32 7))).myCore.queue 1).data.length ∧
    (solo plain).me.portCode 28 = 0 ∧ (solo { engine with eset := false }).me.eset = false := by decide +kernel

/-- The engine's thread of launch 3, with q0 bound to a target. -/
def bound (code : Nat) : Thread := { engine with qbind := BitVec.ofNat 64 code, lid := 3 }

/-- A message for the thread's launch, and what of it is left; replies in two slots, the earlier one first; a reply with room, with none and
with the trap set; headers that name no core of the system; a header that wants no reply. -/
theorem witness_QueuePorts_messages :
    (let m : InMsg := { id := 5, lid := launchKey 0 3, header := 0x77, payload := [1, 2] };
      (solo (bound 9)).me.portCode 28 = 9 ∧ (solo (bound 9)).me.restMsg = [] ∧ (solo (bound 9)).me.heldReq = none ∧
      (solo (bound 9) { inbox := [m] }).myCore.inbox.find?
        (fun (w : InMsg) => decide (w.lid = launchKey (solo (bound 9)).me.home (solo (bound 9)).me.lid) && w.holder.isNone) = some m ∧
      ({} : Core).inbox.find? (fun (w : InMsg) => w.holder.isNone) = none ∧
      ([{ m with holder := some 0 }].find? (fun (w : InMsg) => decide (w.id = 5))).isSome = true ∧ 0 + 1 < m.payload.length ∧ m.payload.length ≤ 1 + 1) ∧
    (let rv : Vector Slot 64 := ((Vector.replicate 64 {}).set 3 { owner := some 0, msg := some (0x99, [4, 5]), order := 1 }).set 7
        { owner := some 0, msg := some (0x98, [6]), order := 2 };
      let full := fun (i : Fin 64) => rv[i].owner = some 0 ∧ rv[i].msg.isSome = true;
      (solo (bound 10)).me.portCode 28 = 10 ∧ (solo (bound 10)).me.restReply = [] ∧ full 3 ∧ rv[3].msg = some (0x99, [4, 5]) ∧
      (∀ j : Fin 64, full j → j ≠ 3 → rv[3].order < rv[j].order) ∧ (∀ i : Fin 64, ¬((solo (bound 10)).myCore.replies[i].owner = some 0)) ∧
      0 + 1 < [4, 5].length ∧ [4, 5].length ≤ 1 + 1) ∧
    (∀ n ∈ [0, 1], let s := solo { bound (11 + n) with header := some 0x0042000000000007 };
      (s.me.portCode 28).toNat = 11 + (BitVec.ofNat 1 n).toNat ∧ (0x0042000000000007#64).getLsbD 32 = false ∧
      (epUnit ((0x0042000000000007#64).extractLsb' 0 22)).toNat < 512 ∧ (epPkg ((0x0042000000000007#64).extractLsb' 0 22)).toNat < (s.pkg (epPkg s.issue.ep)).npkg ∧ s.myCore.outboxUsed (BitVec.ofNat 1 n) < 64 ∧
      s.behindOutbox (BitVec.ofNat 1 n) = false ∧ s.me.owesPush (s.me.portCode 28) = false ∧ s.me.msgStreams = [] ∧
      64 ≤ ({ outbox0 := List.replicate 64 {}, outbox1 := List.replicate 64 {} } : Core).outboxUsed (BitVec.ofNat 1 n)) ∧
    (∀ n ∈ [0x200, 0x1007], let h := BitVec.ofNat 64 n; h.getLsbD 32 = false ∧
      ¬((epUnit (h.extractLsb' 0 22)).toNat < 512 ∧ (epPkg (h.extractLsb' 0 22)).toNat < ((solo (bound 11)).pkg 0).npkg)) ∧
    (scalar (.add ⟨28, 5, 6, 0⟩)).isSome = true ∧ (0x100000000#64).getLsbD 32 = true := by
  refine ⟨?_, ?_, ?_, ?_, ?_⟩ <;> decide +kernel

/-- A thread with a handler outside it, one without a handler, and one inside its handler; an error in a register that the entry reads, and in one that
it writes. -/
theorem witness_TrapEntry :
    ((solo { plain with tvec := 0x41 }).me.tvec.getLsbD 0 = true ∧ (solo { plain with tvec := 0x41 }).me.st.getLsbD 24 = false) ∧
    (solo plain).me.tvec.getLsbD 0 = false ∧ (solo { plain with tvec := 0x41, st := 0x1000000 }).me.st.getLsbD 24 = true ∧
    ((solo plain).core 0).badRegs = [] ∧
    (∀ n ∈ [0, 1, 8, 9], let s := solo { plain with tvec := 0x41 } { badRegs := [(0, regCode 4 0 n)] };
      (s.core 0).badRegs = [(0, regCode 4 0 n)] ∧ (n = 9 ↔ ∀ m ∈ [0, 1, 8], ((0 : Ctx), regCode 4 0 m) ∉ (s.core 0).badRegs)) := by decide +kernel

theorem witness_SystemRegisters :
    ((solo plain).sreg 1 = some 0 ∧ sregOfSet 1 = false ∧ Ready (solo plain) [5]) ∧ (sregWritable 24 = true ∧ sregWritable 80 = false) ∧
    ((solo engine).me.eset = true ∧ (solo engine).myCore.ringBusy 7 = false ∧ (solo engine).accBusy 2 = false) ∧
    ((solo engine { mq := [{ acc := 2 }] }).me.eset = true ∧ (solo engine { mq := [{ acc := 2 }] }).accBusy 2 = true) ∧ (sregMap (solo plain)).all (fun p => decide (p.1 ≠ 3)) = true ∧
    (solo plain).me.eset = false ∧ (∃ q ∈ (solo engine { mq := [{ ringB := 5 }] }).myCore.mq, (q.ringA = 5 ∨ q.ringB = 5) ∧ q.eop.toNat ≤ 1 ∧ q.phase = .queued) ∧
    (∃ k ∈ (solo engine { copies := [{ ring := some 5, phase := .running }] }).myCore.copies, k.ring = some 5 ∧ k.phase = .running) := by
  refine ⟨⟨by decide +kernel, by decide +kernel, ready_of_all _ _ (by decide +kernel)⟩, by decide +kernel, by decide +kernel, by decide +kernel, by decide +kernel,
    by decide +kernel, by decide +kernel, by decide +kernel⟩

/-- A word of a reserved major, alone. -/
theorem witness_ReservedWordTraps : ∃ (s : State) (e : DecodeError), decodeWord s.issue.word = .error e ∧ s.issue.word.getLsbD 31 = false :=
  ⟨{ issue := { word := 0x38000000 } }, _, rfl, by decide +kernel⟩

theorem witness_IllegalInstruction : (solo { plain with tvec := 0x41 }).me.handles = true ∧ (solo { plain with tvec := 0x41 }).myCore.badRegs = [] := by decide +kernel

theorem witness_DecodeEncode : ∃ i w, encode i = some w ∧ i.wellFormed = true :=
  ⟨.st ⟨6, 7, 0x7F, 3, 3, 0⟩, 0x04C7FFB0, by decide +kernel, by decide +kernel⟩

theorem witness_EncodeDecode : ∃ (w : Word) (i : Instr), decodeWord w = .ok i := ⟨0x2802_9903, _, rfl⟩

/-- The word `add g5, g6, g7` at the PC of the one READY thread. -/
theorem witness_StepRunsTheTurn :
    let s : State := ({ agenda := [.issue 0] } : State).withFetchWord 32 0x400298E0
    let s1 := State.clocked { s with agenda := [] } 0
    s.agenda = [.issue 0] ∧ (s.pkg (epPkg 0)).halted = false ∧ (s1.pkg (epPkg 0)).halted = false ∧
    ((s1.core 0).pick (s1.core 0).rotation).2 = some 0 ∧ (vget (0 : Ctx) ((s1.core 0).pick (s1.core 0).rotation).1.threads).faultQ = [] ∧
    BitVec.ofNat 32 (s1.mem.read (istorePa 0 0) 4) = 0x400298E0#32 ∧ (0x400298E0#32).getLsbD 31 = false := by decide +kernel

theorem witness_StepRunsTheEvent : encode .launchComplete = none ∧ Instr.launchComplete ≠ .illegalInstruction ∧
    State.quiesced { agenda := [] } .launchComplete {} = false := by decide +kernel

/-- A branch beside an addition; jumps that link beside an addition that reads the link register; and a jump to a misaligned address, with a handler. -/
theorem witness_BundlesReadFirstAndTrapWhole :
    (Ready (solo plain) [5, 0] ∧ Ready (solo plain) ([6, 7] ++ [8]) ∧ (solo plain).me.status = .ready ∧ (solo plain).me.pend = []) ∧
    (linking (solo plain) (.jal ⟨7, 5⟩) = some (7, [], 20) ∧ linking (solo plain) (.jalr ⟨7, 7, 4⟩) = some (7, [7], 16) ∧
      (scalar (.add ⟨5, 7, 8, 0⟩)).map (fun x => (x.1, x.2.1)) = some ([7, 8], 5) ∧ Ready (solo plain) ([7] ++ [7]) ∧ Ready (solo plain) ([7, 8] ++ [5])) ∧
    (Ready (solo { plain with tvec := 0x41, g := vset (9 : Reg) 2 plain.g }) [9, 0] ∧ (solo { plain with tvec := 0x41 }).myCore.badRegs = [] ∧
      (solo { plain with tvec := 0x41, g := vset (9 : Reg) 2 plain.g }).me.handles = true ∧
      (((solo { plain with tvec := 0x41, g := vset (9 : Reg) 2 plain.g }).me.getG 9).toInt + 4 * (0 : BitVec 10).toInt) % 4 ≠ 0) := by
  refine ⟨⟨ready_of_all _ _ (by decide +kernel), ready_of_all _ _ (by decide +kernel), by decide +kernel, by decide +kernel⟩,
    ⟨by decide +kernel, by decide +kernel, by decide +kernel, ready_of_all _ _ (by decide +kernel), ready_of_all _ _ (by decide +kernel)⟩,
    ready_of_all _ _ (by decide +kernel), by decide +kernel, by decide +kernel, by decide +kernel⟩

theorem witness_StepKeepsCanonicalMemory : ∃ s s' : State, s.Canonical ∧ step s = .next s' :=
  ⟨{ agenda := [.event .quiesceRequest {}] }, _, by unfold State.Canonical; decide +kernel, rfl⟩

theorem witness_MoveResult : (∃ i d v f, toScalar i = some (d, .inl v, f) ∧ Ready (solo plain) [d] ∧ VecReady (solo plain) [v]) ∧
    (∃ i d a w p, toLanes i = some (d, a, w, p) ∧ i.wellFormed = true ∧ Ready (solo plain) [a] ∧ VecReady (solo plain) [d]) ∧
    (∃ i k f, maskResult i = some (k, f)) := by
  refine ⟨⟨.movvsD ⟨5, 31, 7⟩, _, _, _, rfl, ready_of_all _ _ (by decide +kernel), vecReady_of_all _ _ (by decide +kernel)⟩,
    ⟨.movsvW ⟨31, 5, 15⟩, _, _, _, _, rfl, by decide +kernel, ready_of_all _ _ (by decide +kernel), vecReady_of_all _ _ (by decide +kernel)⟩,
    .knot ⟨7, 0⟩, _, _, rfl⟩

theorem witness_VectorIntegerLanes : (∃ i o f, laneOp i = some (o, f) ∧ VecReady (solo plain) [o.a, o.b, o.d]) ∧
    (∃ i o f lo hi, laneSat i = some (o, f, lo, hi) ∧ VecReady (solo plain) [o.a, o.b, o.d]) := by
  refine ⟨⟨.vmulh ⟨1, 1, 31, 7, 3⟩, _, _, rfl, vecReady_of_all _ _ (by decide +kernel)⟩,
    .vadds ⟨0, 1, 2, 0, 0⟩, _, _, _, _, rfl, vecReady_of_all _ _ (by decide +kernel)⟩

theorem witness_CompareMasks : (∃ i o f, laneCmp i = some (o, f) ∧ VecReady (solo plain) [o.a, o.b]) ∧
    (∃ i o f un q fmt, floatCmp i = some (o, f, un, q) ∧ VecReady (solo plain) [o.a, o.b] ∧ formatOf (solo plain).me o.w = some fmt ∧
      (solo plain).me.fmt.rm ≠ some 6) := by
  refine ⟨⟨.vcmplt ⟨7, 1, 2, 0, 0⟩, _, _, rfl, vecReady_of_all _ _ (by decide +kernel)⟩,
    .vfcmplt ⟨0, 1, 2, 3, 1⟩, _, _, _, _, bf16, rfl, vecReady_of_all _ _ (by decide +kernel), rfl, by decide +kernel⟩

theorem witness_SelectAndByteDot : ∃ i o sg sat, byteDots i = some (o, sg, sat) ∧ VecReady (solo plain) [o.a, o.b, o.c, o.d] :=
  ⟨.vdp4s ⟨8, 9, 10, 8⟩, _, _, _, rfl, vecReady_of_all _ _ (by decide +kernel)⟩

/-- A width that has a format, one that has none, and the rounding code 6. -/
theorem witness_FloatLanes : (∃ i o fmt, floatOp i = some o ∧ VecReady (solo plain) (o.srcs ++ [o.d]) ∧ formatOf (solo plain).me o.w = some fmt ∧
      (solo plain).me.fmt.rm ≠ some 6) ∧ (∃ i o, floatOp i = some o ∧ formatOf (solo plain).me o.w = none) ∧
    (solo { plain with st := 0x100000, pfx := 0x2006 }).me.fmt.rm = some 6 := by
  refine ⟨⟨.vfadd ⟨3, 1, 2, 7, 2⟩, _, fp32, rfl, vecReady_of_all _ _ (by decide +kernel), rfl, by decide +kernel⟩,
    ⟨.vfadd ⟨3, 1, 2, 7, 3⟩, _, rfl, rfl⟩, by decide +kernel⟩

theorem witness_RoundingAndExactValues : fp16 ∈ [fp32, fp16, bf16, e5m2, e4m3] ∧ 0x3C01 < 2 ^ fp16.width ∧ (fp16.decode 0x3C01).isNan = false := by
  refine ⟨by simp, by decide +kernel, by decide +kernel⟩

theorem witness_PermuteLanes : ∃ i d srcs k w f, permuted i = some (d, srcs, k, w, f) ∧ VecReady (solo plain) (srcs ++ [d]) :=
  ⟨.vsldu ⟨1, 1, 31, 0, 0⟩, _, _, _, _, _, rfl, vecReady_of_all _ _ (by decide +kernel)⟩

theorem witness_ReductionsAndScans : (∃ i o f, reduced i = some (o, f) ∧ VecReady (solo plain) [o.a, o.d]) ∧
    formatOf (solo plain).me 2 = some fp32 ∧ formatOf (solo plain).me 1 = some bf16 ∧ (solo plain).me.fmt.rm ≠ some 6 ∧ (solo plain).me.fmt.fa = none := by
  refine ⟨⟨.vredmin ⟨1, 1, 0, 3⟩, _, _, rfl, vecReady_of_all _ _ (by decide +kernel)⟩, rfl, rfl, by decide +kernel, by decide +kernel⟩

/-- FP32 to BF16; E8M0 to an integer, a pair that R94 does not list; T5 packing; a format without a lane width, and none given. -/
theorem witness_ConversionsAndPacking :
    (formats (solo (formatted 22 20)).me = some (22, 20) ∧ (solo (formatted 22 20)).me.fmt.rm ≠ some 6 ∧ VecReady (solo (formatted 22 20)) [1, 2] ∧
      laneFmtWidth 22 = some 32 ∧ laneFmtWidth 20 = some 16 ∧ fclass 22 = some (.float fp32) ∧ fclass 20 = some (.float bf16) ∧
      convertible (.float fp32) (.float bf16) = true ∧ (1 : BitVec 2).toNat < max 32 16 / min 32 16) ∧
    (∃ ca cb, fclass 25 = some ca ∧ fclass 0 = some cb ∧ convertible ca cb = false ∧ formats (solo (formatted 25 0)).me = some (25, 0)) ∧
    (∃ i o code u, packing (solo plain).me i = some (o, code, u) ∧ packable code = true ∧ 64 * o.part.toNat < imageCap code ∧
      VecReady (solo plain) [o.a, o.d]) ∧
    (formats (solo (formatted 22 5)).me = some (22, 5) ∧ laneFmtWidth 5 = none) ∧
    (formats (solo plain).me = none ∧ (solo plain).me.fmt.fa = none ∧ (solo plain).me.fmt.fb = none) := by
  refine ⟨⟨by decide +kernel, by decide +kernel, vecReady_of_all _ _ (by decide +kernel), rfl, rfl, rfl, rfl, rfl, by decide +kernel⟩,
    ⟨_, _, rfl, rfl, rfl, by decide +kernel⟩, ⟨.vtpk ⟨2, 9, 4, 0⟩, _, _, _, rfl, by decide +kernel, by decide +kernel, vecReady_of_all _ _ (by decide +kernel)⟩,
    ⟨by decide +kernel, rfl⟩, by decide +kernel⟩

theorem witness_QuantisedSlots :
    (formats (solo (formatted 22 18)).me = some (22, 18) ∧ isScaledDest 18 = true ∧ (solo (formatted 22 18)).me.fmt.rm ≠ some 6 ∧
      32 * (3 : BitVec 2).toNat + 31 < imageCap 18 ∧ VecReady (solo (formatted 22 18)) ([1, 2] ++ [3, 4])) ∧
    (formats (solo (formatted 10 20)).me = some (10, 20) ∧ isScaledDest 10 = true ∧ 32 * (1 : BitVec 2).toNat + 31 < imageCap 10) := by
  refine ⟨⟨by decide +kernel, by decide +kernel, by decide +kernel, by decide +kernel, vecReady_of_all _ _ (by decide +kernel)⟩,
    by decide +kernel, by decide +kernel, by decide +kernel⟩

theorem witness_DrawsAndPrefixes_fmt : (⟨22, 20, 5, 1, 1, 1⟩ : OpFmt).ok = true ∧ (22 : BitVec 5).toNat < 29 ∧ (20 : BitVec 5).toNat < 29 ∧ (5 : BitVec 3) ≠ 6 := by
  decide +kernel

/-- The thread's result pending with its last shadow instruction, and one not. -/
theorem witness_RegistersAndRetirement : isPort 5 = false ∧ (5 : Reg) ≠ 0 ∧ (6 : Reg) ≠ 5 ∧ plain.status = .ready ∧ plain.pend = [] ∧
    ({ plain with pend := [{}], shadow := 1 } : Thread).pend ≠ [] := by decide +kernel

theorem witness_TrapInstruction : Ready (solo { plain with tvec := 0x41 }) [5] ∧ (solo { plain with tvec := 0x41 }).me.handles = true ∧
    (solo { plain with tvec := 0x41 }).myCore.badRegs = [] ∧
    isPort 5 = false ∧ (solo { plain with full := 0xFFFFFFDF }).me.isFull 5 = false :=
  ⟨ready_of_all _ _ (by decide +kernel), by decide +kernel⟩

/-- A read below the bytes written, and one above. -/
theorem witness_MemoryReadAfterWrite : (0 : Nat) + 8 ≤ 8 ∨ 8 + 8 ≤ 0 := by decide

/-- Draws into g5 and v6. -/
theorem witness_DrawsAndPrefixes : Ready (solo plain) [5] ∧ VecReady (solo plain) [6] :=
  ⟨ready_of_all _ _ (by decide +kernel), vecReady_of_all _ _ (by decide +kernel)⟩

/-- A state with one package 0 beside a state's other parts. -/
def State.withPkg (s : State) (k : Package) : State := { s with pkgs := [(0, k)] }

/-- Package 0 whose first die caches the leaf of VA page 0: valid, RD, WR, AT, second-tier address 0 or another. -/
def mapped (leaf : Dword := 0x1F) : Package := { dies := vset (0 : BitVec 1) (({} : Die).cache 0 1 0 leaf) (Vector.replicate 2 {}) }

/-- A thread with a global address in g6, its page mapped to second-tier memory from `pa` on. -/
def abroad (pa : Nat) (t : Thread := plain) : State :=
  State.withPkg (solo { t with g := vset (6 : Reg) 0x140 t.g }) (mapped (BitVec.ofNat 64 (0x1F + pa)))

/-- The leaf that maps it. -/
def leafAbroad (pa : Nat) : TlbEntry := { set := tlbSet 0 0, leaf := BitVec.ofNat 64 (0x1F + pa), used := 1 }

theorem globalAt_of (s : State) (va : Dword) (size : Nat) (a : Access) (pa : Nat) (e : TlbEntry)
    (h : va.extractLsb' 55 9 = 0 ∧ va.toNat % size = 0 ∧ (paPkg pa).toNat < (s.pkg (epPkg s.issue.ep)).npkg ∧ homeEp pa ≠ s.issue.ep ∧
      s.hostBars (lidQueue s.me.lid) pa a = false ∧ (s.die (epPkg s.issue.ep) (epDie s.issue.ep)).lookup s.me.asid va = some e ∧
      e.leaf.extractLsb' 2 3 = 7 ∧ pa = leafGives e va) : GlobalAt s va size a pa := by
  refine ⟨h.1, h.2.1, h.2.2.1, h.2.2.2.1, h.2.2.2.2.1, e, h.2.2.2.2.2.1, ?_, h.2.2.2.2.2.2.2⟩
  rw [h.2.2.2.2.2.2.1]; cases a <;> decide

theorem calm_plain : Calm (solo plain) := by unfold Calm; decide +kernel

theorem local_plain : LocalAt (solo plain) ((solo plain).me.getG 6) 8 (granaryPa 0 0x40) := by unfold LocalAt; decide +kernel

/-- Loads of the last dword of the allocation, of a marked dword and to a port; stores there, misaligned and beyond it. -/
theorem witness_LocalLoadsAndStores :
    (∃ i b off size la gs vs wr, loadOf i = some (b, off, size, la, gs, vs, wr) ∧ Calm (solo plain) ∧
      LocalAt (solo plain) (address (solo plain) b off size) size (granaryPa 0 0x40) ∧ Ready (solo plain) gs ∧
      Clean (solo plain).mem (granaryPa 0 0x40) size) ∧
    (Memory.poisoned { poison := [granaryPa 0 0x40 / 8] } (granaryPa 0 0x40) = true ∨ Memory.poisoned { poison := [granaryPa 0 0x40] } (granaryPa 0 0x40) = true) ∧
    (isPort 28 = true ∧ (solo engine).me.portCode 28 = 1 ∧ (solo engine).me.eset = true ∧ (solo engine).behind 1 true = false) ∧
    (∃ i b off size strm la gs vs data, storeOf i = some (b, off, size, strm, la, gs, vs, data) ∧ strm = 0 ∧ Calm (solo plain) ∧
      Ready (solo plain) gs ∧ LocalAt (solo plain) (address (solo plain) b off size) size (granaryPa 0 0x40)) ∧
    (∃ i b off size la gs vs wr, loadOf i = some (b, off, size, la, gs, vs, wr) ∧ size = 64 ∧ Calm (solo plain) ∧ Ready (solo plain) gs ∧
      (address (solo plain) b off size).toNat % 64 = 0 ∧ (address (solo plain) b off size).getLsbD 63 = true ∧
      (solo plain).me.cgl.toNat - (solo plain).me.cgb.toNat < (address (solo plain) b off size).toNat % 2 ^ 63 + 64) ∧
    (address (solo { plain with g := vset (6 : Reg) 0x8000000000000041 plain.g }) 6 0 8).toNat % 8 ≠ 0 ∧
    ((address (solo plain) 6 0x3F 64).toNat % 64 = 0 ∧ (address (solo plain) 6 0x3F 64).getLsbD 63 = true ∧
      (solo plain).me.cgl.toNat - (solo plain).me.cgb.toNat < (address (solo plain) 6 0x3F 64).toNat % 2 ^ 63 + 64) := by
  refine ⟨⟨.ld ⟨5, 6, 0, 3, 0⟩, _, _, _, _, _, _, _, rfl, calm_plain, ?_, ready_of_all _ _ (by decide +kernel), clean_of_empty _ rfl _ _⟩,
    by decide +kernel, by decide +kernel, ⟨.st ⟨5, 6, 0, 3, 0, 0⟩, _, _, _, _, _, _, _, _, rfl, rfl, calm_plain, ready_of_all _ _ (by decide +kernel), ?_⟩,
    ⟨.vldX ⟨3, 6, 0x3F, 0⟩, _, _, _, _, _, _, _, rfl, rfl, calm_plain, ready_of_all _ _ (by decide +kernel), by decide +kernel⟩, by decide +kernel, by decide +kernel⟩ <;> (unfold LocalAt; decide +kernel)

/-- A streamed store; a load and a store of a global address. -/
theorem witness_StreamedStores : (∃ i b off size strm la gs vs data, storeOf i = some (b, off, size, strm, la, gs, vs, data) ∧ strm ≠ 0 ∧
    Calm (solo plain) ∧ Ready (solo plain) gs ∧ LocalAt (solo plain) (address (solo plain) b off size) size (granaryPa 0 0x40) ∧
    ((solo plain).me.stream strm).opened = false ∧ ((solo plain).me.stream strm).bound = false ∧ ((solo plain).me.stream strm).err = false ∧
    (solo plain).myCore.cyc.toNat + 64 < 2 ^ 64) ∧
    (∃ i b off size la gs vs wr, loadOf i = some (b, off, size, la, gs, vs, wr) ∧ Calm (abroad 0) ∧ Ready (abroad 0) gs ∧
      GlobalAt (abroad 0) (address (abroad 0) b off size) size .read 0x140) ∧
    (∃ i b off size la gs vs data, storeOf i = some (b, off, size, 0, la, gs, vs, data) ∧ Calm (abroad 0) ∧ Ready (abroad 0) gs ∧ FreshStream (abroad 0) 0 ∧
      GlobalAt (abroad 0) (address (abroad 0) b off size) size .write 0x140 ∧ paRegion 0x140 ≠ .istore) := by
  have calm : Calm (abroad 0) := by unfold Calm; decide +kernel
  refine ⟨⟨.st ⟨5, 6, 0, 0, 7, 3⟩, _, _, _, _, _, _, _, _, rfl, by decide +kernel, calm_plain, ready_of_all _ _ (by decide +kernel), ?_, by decide +kernel,
      by decide +kernel, by decide +kernel, by decide +kernel⟩,
    ⟨.vld ⟨3, 6, 0, 0⟩, _, _, _, _, _, _, _, rfl, calm, ready_of_all _ _ (by decide +kernel), globalAt_of _ _ _ _ _ (leafAbroad 0) (by decide +kernel)⟩,
    .st ⟨5, 6, 0, 3, 0, 0⟩, _, _, _, _, _, _, _, rfl, calm, ready_of_all _ _ (by decide +kernel), by unfold FreshStream; decide +kernel,
    globalAt_of _ _ _ _ _ (leafAbroad 0) (by decide +kernel), by decide +kernel⟩
  unfold LocalAt; decide +kernel

theorem witness_GathersAndScatters : ∃ i o n size store, gatherOf i = some (o, n, size, store) ∧ Calm (solo plain) ∧ Ready (solo plain) [o.b] ∧
    (∀ L ∈ actives (solo plain).me (o.m.setWidth 3) n, LocalAt (solo plain) (laneAddress (solo plain) o size L) size (granaryPa 0 0x40)) ∧
    (∀ L ∈ actives (solo plain).me (o.m.setWidth 3) n, Clean (solo plain).mem (granaryPa 0 0x40) size) := by
  refine ⟨.vgldD ⟨4, 6, 5, 0, 0⟩, _, _, _, _, rfl, calm_plain, ready_of_all _ _ (by decide +kernel), ?_, fun _ _ => clean_of_empty _ rfl _ _⟩
  intro L hL
  have h : (List.range 8).all (fun L => laneAddress (solo plain) ⟨4, 6, 5, 0, 0⟩ 8 L = (solo plain).me.getG 6) = true := by decide +kernel
  have hx : L ∈ List.range 8 := (List.mem_filter.mp hL).1
  have := List.all_eq_true.mp h L hx
  rw [of_decide_eq_true this]; exact local_plain

/-- A dword that is full: LDF's condition holds and STF's does not. An operation on a global address. -/
theorem witness_FullEmptyOperations : (∃ i b la gs d f, feOf i = some (b, la, gs, d, f) ∧ Calm (solo plain) ∧ Ready (solo plain) gs ∧
      LocalAt (solo plain) ((solo plain).me.getG b) 8 (granaryPa 0 0x40) ∧ Clean (solo plain).mem (granaryPa 0 0x40) 8 ∧
      (f (solo plain).me ((solo plain).mem.isFull (granaryPa 0 0x40)) 0).1 = true) ∧
    (∃ i b la gs d f, feOf i = some (b, la, gs, d, f) ∧ Ready (solo plain) gs ∧
      (f (solo plain).me ((solo plain).mem.isFull (granaryPa 0 0x40)) 0).1 = false) ∧
    (∃ i b la gs d f, feOf i = some (b, la, gs, d, f) ∧ Calm (abroad 0) ∧ Ready (abroad 0) gs ∧ FreshStream (abroad 0) 0 ∧
      GlobalAt (abroad 0) ((abroad 0).me.getG b) 8 .atomic 0x140 ∧ paHasFe 0x140 = true ∧ d ≠ 0) := by
  refine ⟨⟨.ldf ⟨5, 6, 7, 0⟩, _, _, _, _, _, rfl, calm_plain, ready_of_all _ _ (by decide +kernel), local_plain, clean_of_empty _ rfl _ _, by decide +kernel⟩,
    ⟨.stf ⟨5, 6, 0⟩, _, _, _, _, _, rfl, ready_of_all _ _ (by decide +kernel), by decide +kernel⟩,
    .waita ⟨5, 6, 7, 0⟩, _, _, _, _, _, rfl, by unfold Calm; decide +kernel, ready_of_all _ _ (by decide +kernel), by unfold FreshStream; decide +kernel,
    globalAt_of _ _ _ _ _ (leafAbroad 0) (by decide +kernel), by decide +kernel, by decide +kernel⟩

/-- An ordinary atomic, a streamed one, and scopes that are reserved or misused; a thread that has its group, in its ring, with no unit busy. -/
theorem witness_Atomics : (∃ i d b a sc strm n f, atomicOf i = some (d, b, a, sc, strm, n, f) ∧ Calm (solo plain) ∧ Ready (solo plain) [a, b, d] ∧
      LocalAt (solo plain) ((solo plain).me.getG b) n (granaryPa 0 0x40) ∧ strm = 0 ∧ sc = 8 ∧ Clean (solo plain).mem (granaryPa 0 0x40) n) ∧
    (∃ i d b a sc strm n f, atomicOf i = some (d, b, a, sc, strm, n, f) ∧ strm ≠ 0 ∧ i.wellFormed = true ∧ sc = 1 ∧
      ((solo plain).me.stream strm).opened = false ∧ ((solo plain).me.stream strm).bound = false ∧ ((solo plain).me.stream strm).err = false) ∧
    (∃ i d b a sc strm n f, atomicOf i = some (d, b, a, sc, strm, n, f) ∧ sc = 1 ∧ strm = 0 ∧ i.wellFormed = true) ∧
    (∃ i d b a sc strm n f, atomicOf i = some (d, b, a, sc, strm, n, f) ∧ sc.toNat = 10 ∧ i.wellFormed = true) := by
  refine ⟨⟨.aadd ⟨5, 6, 7, 8, 0, 1⟩, _, _, _, _, _, _, _, rfl, calm_plain, ready_of_all _ _ (by decide +kernel), local_plain, rfl, rfl, clean_of_empty _ rfl _ _⟩,
    ⟨.sig ⟨6, 7, 1, 3⟩, _, _, _, _, _, _, _, rfl, by decide +kernel, by decide +kernel, rfl, by decide +kernel, by decide +kernel, by decide +kernel⟩,
    ⟨.aadd ⟨5, 6, 7, 1, 0, 1⟩, _, _, _, _, _, _, _, rfl, rfl, rfl, by decide +kernel⟩,
    .aadd ⟨5, 6, 7, 10, 0, 1⟩, _, _, _, _, _, _, _, rfl, by decide +kernel, by decide +kernel⟩

/-- A thread of a co-resident launch, whose group it has. -/
def grouped : State :=
  { solo { plain with corun := true, gms := 2 ^ 32 + 3 } with launches := [{ counts := (List.replicate 256 0).set 3 1 }] }

theorem witness_Atomics_scopes : HasGroup grouped ∧ InRing grouped 0 ∧ grouped.unitBusy 0 (granaryPa 0 0x40) = false ∧ Calm grouped ∧
    LocalAt grouped (grouped.me.getG 6) 8 (granaryPa 0 0x40) :=
  ⟨⟨by decide +kernel, by decide +kernel, by decide +kernel, _, rfl, by decide +kernel⟩, by unfold InRing; decide +kernel, by decide +kernel,
    by unfold Calm; decide +kernel, by unfold LocalAt; decide +kernel⟩

/-- Atomics on a global address in each scope that takes it, in host memory, and at the cluster unit. -/
theorem witness_Atomics_global : ∀ pa ∈ [0x140, granaryPa 1 0x140, 2 ^ 43 + 0x140], ∀ strm ∈ [0, 3],
      let s := { abroad (pa - 0x140) { plain with corun := true } with pkgs := [(0, { (abroad (pa - 0x140)).pkg 0 with fns := [(0, { busMaster := true, atomicEn := true })] })] };
      Calm s ∧ ([7, 6, 5] : List Reg).all (fun r => !isPort r && s.me.isFull r) = true ∧ FreshStream s (BitVec.ofNat 3 strm) ∧
      (s.me.getG 6 = 0x140 ∧ (s.me.getG 6).extractLsb' 55 9 = 0 ∧ (paPkg pa).toNat < (s.pkg 0).npkg ∧ homeEp pa ≠ 0 ∧ s.hostBars 0 pa .atomic = false ∧
        (s.die 0 0).lookup 0 0x140 = some (leafAbroad (pa - 0x140)) ∧ (leafAbroad (pa - 0x140)).leaf.extractLsb' 2 3 = 7 ∧ pa = leafGives (leafAbroad (pa - 0x140)) 0x140) ∧
      InRing s 0 ∧ paPkg pa = epPkg 0 ∧ (paRegion pa = .host ↔ 2 ^ 43 ≤ pa) ∧ (pa < 2 ^ 43 → paHasFe pa = true) ∧ epDie (homeEp pa) = epDie 0 ∧
      s.unitBusy 0 pa = false ∧ s.mem.poison = [] := by
  unfold Calm FreshStream InRing; decide +kernel

/-- Atomics whose operand comes from a core queue, and whose old value goes to one. -/
theorem witness_Atomics_ports : (∃ i d b a n f, ∃ s s1 : State, ∃ x y, atomicOf i = some (d, b, a, 2, 0, n, f) ∧ Calm s ∧ isPort d = false ∧ isPort a = true ∧
      ReadsThrough s ([a, b] ++ []) [d] [x, y] s1 ∧ LocalAt s y n (granaryPa 0 0x40)) ∧
    (∃ i d b a n f, ∃ s : State, atomicOf i = some (d, b, a, 2, 0, n, f) ∧ Calm s ∧ isPort d = true ∧ (s.me.portCode d).toNat = 1 ∧ s.me.eset = true ∧
      s.behind (s.me.portCode d) true = false ∧ (s.myCore.queue (s.me.portCode d)).data.length + (s.myCore.queue (s.me.portCode d)).reserved < 32 ∧
      Ready s [a, b] ∧ LocalAt s (s.me.getG b) n (granaryPa 0 0x40)) := by
  refine ⟨⟨.aadd ⟨5, 6, 28, 2, 0, 1⟩, _, _, _, _, _, solo engine (queue0 [7]), _, _, _, rfl, by unfold Calm; decide +kernel, by decide +kernel, by decide +kernel,
      ⟨by decide +kernel, by decide +kernel, rfl⟩, ?_⟩,
    .aadd ⟨28, 6, 7, 2, 0, 1⟩, _, _, _, _, _, solo engine, rfl, by unfold Calm; decide +kernel, by decide +kernel, by decide +kernel, by decide +kernel,
    by decide +kernel, by decide +kernel, ready_of_all _ _ (by decide +kernel), ?_⟩ <;> (unfold LocalAt; decide +kernel)

/-- A request to core 0 itself with room in the outbox; a full outbox, trapping and not; a queue with enough dwords and one without. -/
theorem witness_MessageInstructions :
    (Calm (solo engine) ∧ (solo engine).myCore.parkOrder = [] ∧ (solo engine).me.msgStreams = []) ∧
    ((Instr.send ⟨8, 10, 0, 0, 0, 1⟩).wellFormed = true ∧ Ready (solo engine) [8] ∧ Ready (solo engine) (sendRegs 10 1) ∧
      (epUnit (((solo engine).me.getG 8).setWidth 22)).toNat < 512 ∧ (epPkg (((solo engine).me.getG 8).setWidth 22)).toNat < ((solo engine).pkg 0).npkg ∧
      (solo engine).myCore.outboxUsed 0 < 64 ∧ (solo engine).myCore.freeSlot.isSome = true) ∧
    (64 ≤ (solo engine { outbox1 := List.replicate 64 {} }).myCore.outboxUsed 1 ∧ (solo { engine with st := 0x800000 }).me.st.getLsbD 23 = true) ∧
    ((Instr.waitq ⟨5, 0, 1, 1⟩).wellFormed = true ∧ Ready (solo engine) [0, 5] ∧ (1 : BitVec 6).toNat ≤ (solo engine (queue0 [7])).targetCount 0 0 1 ∧
      (solo engine).targetCount 0 0 1 < (1 : BitVec 6).toNat) ∧
    ((Instr.qlen ⟨5, 12⟩).wellFormed = true ∧ (Instr.qlen ⟨5, 1⟩).wellFormed = true) := by
  refine ⟨⟨by unfold Calm; decide +kernel, by decide +kernel, by decide +kernel⟩,
    ⟨by decide +kernel, ready_of_all _ _ (by decide +kernel), ready_of_all _ _ (by decide +kernel), by decide +kernel, by decide +kernel, by decide +kernel, by decide +kernel⟩,
    by decide +kernel, ⟨by decide +kernel, ready_of_all _ _ (by decide +kernel), by decide +kernel, by decide +kernel⟩, by decide +kernel⟩

/-- A launch of one thread, its thread of group 255. -/
def member : State := { solo { plain with corun := true } with launches := [{}] }

theorem witness_Barriers : (∃ l, member.launch? member.me.home member.me.lid = some l ∧ member.me.memberOf l 255 = true ∧ member.me.hasArrived l 255 = false) ∧
    Calm member ∧ Ready member [6, 5] ∧ (solo plain).groupOf 255 = none ∧ (solo plain).portStops [6] [5] = none := by
  refine ⟨⟨{}, by decide +kernel, by decide +kernel, by decide +kernel⟩, by unfold Calm; decide +kernel, ready_of_all _ _ (by decide +kernel), by decide +kernel,
    by decide +kernel⟩

/-- A member that has arrived, with its arrival on its way to the root. -/
theorem witness_Barriers_arrived :
    let s : State := { solo { plain with corun := true, arrived255 := true } with launches := [{}], arrivals := [{ group := 255 }] }
    Calm s ∧ s.launch? s.me.home s.me.lid = some {} ∧ s.me.memberOf {} 255 = true ∧ s.me.hasArrived {} 255 = true ∧
      (s.arrivals.filter (fun a => decide (a.home = ({} : Launch).home ∧ a.lid = ({} : Launch).lid ∧ a.group = 255))).length = 1 ∧
      (solo plain).portStops [6] [] = none ∧ (solo plain).portStops [] [5] = none := by
  refine ⟨by unfold Calm; decide +kernel, ?_⟩; decide +kernel

/-- An arrival that is the last of its group, with the member that waits; and one of two. -/
theorem witness_BarrierArrival :
    let t : Thread := { plain with corun := true, status := .parked .barrier, wait := .barrier 255, waitFrom := 1, arrived255 := true, heldDest := .reg 5 }
    let a : Arrival := { group := 255 }
    let s : State := { solo t with launches := [{}], arrivals := [a] }
    let l2 : Launch := { record := [1] }
    (s.ev.n = 0 ∧ s.launch? a.home a.lid = some {} ∧ ({} : Launch).saved = []) ∧
    ({} : Launch).members a.group ≤ ((({} : Launch).episode a.group).join a).arrivals ∧ s.contexts.Nodup ∧ (0, 0) ∈ s.contexts ∧
    (s.thr 0 0).hasArrived {} a.group = true ∧ (s.thr 0 0).pend = [] ∧
    ((l2.episode a.group).join a).arrivals < l2.members a.group := by decide +kernel

/-- Stale words of this thread's stores and of another's (R78). -/
theorem witness_FencesAndEnds_ifnc : let s := solo plain { stale := [(4, 1, 0), (8, 5, 3)] };
    Calm s ∧ (4, 1, 0) ∈ s.myCore.stale ∧ (8, 5, 3) ∈ s.myCore.stale ∧ s.me.nameKey = 0 ∧
    (∀ y ∈ s.myCore.stale, y.1 = 8 → y.2.2 ≠ s.me.nameKey) := by
  refine ⟨by unfold Calm; decide +kernel, ?_⟩; decide +kernel

/-- A thread with a copy command in the queue, and one with a store outstanding. -/
theorem witness_FencesAndEnds_fnc :
    (let s := solo plain { copies := [{}] };
      s.me.pend = [] ∧ s.myCore.combine = [] ∧ ∃ k ∈ s.myCore.copies, k.ended = false ∧ s.me.owns k.home k.lid k.lti = true ∧ k.phase ≠ .done) ∧
    (let s := solo { plain with streams := vset (1 : BitVec 3) ({ unacked := [{}] } : Stream) (Vector.replicate 8 {}) };
      s.me.pend = [] ∧ s.myCore.combine = [] ∧ (s.me.stream 1).unacked ≠ []) := by decide +kernel

/-- A fence with a store outstanding; a thread whose QUIT and release end at once; a crew with nothing left. -/
theorem witness_FencesAndEnds :
    (let t : Thread := { plain with streams := vset (1 : BitVec 3) ({ unacked := [{}] } : Stream) (Vector.replicate 8 {}) };
      (solo t).me.pend = [] ∧ (solo t).myCore.combine = [] ∧ ((solo t).me.stream 1).unacked ≠ [] ∧ (⟨1⟩ : OpFns).streams.getLsbD 0 = true) ∧
    (Calm member ∧ (∀ n : BitVec 3, (member.me.stream n).opened = false) ∧ member.me.outstanding = [] ∧ member.myCore.mq = [] ∧
      member.launch? member.me.home member.me.lid = some {} ∧ member.me.heldReq = none ∧ member.myCore.closes = []) ∧
    (let w : Crew := { limit := 0x1000 };
      let s : State := { cores := [(0, { crews := [w] })] };
      (s.core 0).crews = [w] ∧ s.ev.ep = 0 ∧ s.ev.pkg = w.home ∧ s.ev.lid = w.lid ∧ s.crewIdle 0 w = true) := by
  refine ⟨by decide +kernel, ⟨by unfold Calm; decide +kernel, by decide +kernel⟩, by decide +kernel⟩

/-- A parent that spawns on core 0, and one whose entry is misaligned; a request that the launch takes, with the parent's pending result. -/
theorem witness_Spawning :
    (Calm (solo plain) ∧ (Instr.spawn ⟨9, 10⟩).wellFormed = true ∧ Ready (solo plain) ([10, 11, 12, 13, 14] ++ [9]) ∧
      ((solo plain).me.getG 10).extractLsb' 40 23 = 0 ∧ ((solo plain).me.getG 10).toNat % 4 = 0 ∧ (solo plain).spawnTargetOk ((solo plain).me.getG 10) = true ∧
      ((solo { plain with g := vset (10 : Reg) 2 plain.g }).me.getG 10).toNat % 4 ≠ 0) ∧
    (let p : Pending := { kind := .spawn, dest := .reg 9 };
      let r : SpawnReq := {};
      let l : Launch := {};
      let s : State := { solo { plain with pend := [p] } with launches := [l], spawns := [r] };
      s.ev.n = 0 ∧ s.launch? r.home r.lid = some l ∧ (s.thr r.from_ r.ctx).pend = [p] ∧ isPort 9 = false ∧ (s.thr r.from_ r.ctx).quitting = false ∧
        r.targets.any l.selects = true ∧ l.threads + l.nextChild < 2 ^ 24 ∧ 2 ^ 24 ≤ ({ nextChild := 2 ^ 24 } : Launch).threads + 2 ^ 24 ∧
        r.targets.any ({ nextChild := 2 ^ 24 } : Launch).selects = true ∧ r.targets.any ({ record := [0, 2] } : Launch).selects = false) ∧
    (let r : SpawnReq := { stored := true, home := 0 };
      let l : Launch := {};
      let s : State := { launches := [l], spawns := [r] };
      spawnUnit r.cluster r.tgt = spawnUnit false s.ev.ep ∧ s.launch? r.home r.lid = some l ∧ ((s.core s.ev.ep).freeCtx.length = 16) ∧
        (s.core s.ev.ep).cyc.toNat % 16 = 0 ∧ (s.pkg (epPkg s.ev.ep)).halted = false ∧ s.ev.ep ∈ r.targets ∧ s.admits s.ev.ep l = true ∧
        s.heldFrom s.ev.ep l.queue ((s.pkg r.home).queue l.queue).pri = false) := by
  refine ⟨⟨calm_plain, by decide +kernel, ready_of_all _ _ (by decide +kernel), by decide +kernel⟩, by decide +kernel, by decide +kernel⟩

/-! ## Engines, faults and waits -/

/-- A thread whose g6 names a record in its allocation and whose g7 names queue 0. -/
def sender : Thread := { plain with cgl := 0x1000, g := vset (6 : Reg) 0x8000000000000080 (Vector.replicate 32 0) }

/-- The record that its thread has read for an ENQ there. -/
def recorded : Thread :=
  { sender with record := some { va := 0x8000000000000080, dwords := (List.range 16).map (fun i => BitVec.ofNat 64 (0xAAAA000000000100 + i)) } }

/-- An ENQ whose record is to be read; one that has it, to a queue that is not there, to one that takes it in second-tier memory or in the thread's own
bank, to one that is full; an ENQ whose slot is written, the next in order and not. A tail write of the host to a queue with room and beyond it. -/
theorem witness_Enqueueing :
    (Calm (solo sender) ∧ (Instr.enq ⟨8, 6⟩).wellFormed = true ∧ Ready (solo sender) [6, 6 + 1, 8] ∧
      LocalAt (solo sender) ((solo sender).me.getG 6) 128 (granaryPa 0 0x80) ∧ Clean (solo sender).mem (granaryPa 0 0x80) 128 ∧ (solo sender).me.record = none) ∧
    (∃ r, Calm (solo recorded) ∧ Ready (solo recorded) [6, 6 + 1, 8] ∧ LocalAt (solo recorded) ((solo recorded).me.getG 6) 128 (granaryPa 0 0x80) ∧
      HasRecord (solo recorded) ((solo recorded).me.getG 6) r ∧ r.length = 16) ∧
    (((solo sender).pkg 0).queue 0).enabled = false ∧
    (∀ leaf ∈ [0x1F, 0x1F + granaryPa 0 0], let q : Queue := { cfg := 0x8400000000000000 };
      let s := State.withPkg (solo recorded) { mapped (BitVec.ofNat 64 leaf) with queues := [(0, q)] };
      (s.me.getG 7).toNat = 0 ∧ q.enabled = true ∧ q.device = true ∧ q.tearing = false ∧ q.asid = s.me.asid ∧ q.filled + q.claimed ≠ q.slots ∧ q.written = [] ∧
      (s.me.stream 0).opened = false ∧ (s.me.stream 0).bound = false ∧ (s.me.stream 0).err = false ∧
      (match s.reach (q.slotVa (q.tail + BitVec.ofNat 32 q.claimed)) .write with
        | .ok pa _ => decide (pa % 128 = 0) && (if leaf = 0x1F then decide (paRegion pa = .secondTier) else decide (paRegion pa = .granary ∧ homeEp pa = 0))
        | _ => false) = true) ∧
    (let q : Queue := { cfg := 0x8400000000000000, tail := 1 };
      q.enabled = true ∧ q.device = true ∧ q.tearing = false ∧ q.asid = sender.asid ∧ q.filled + q.claimed = q.slots) ∧
    (∀ n ∈ [0, 1], let x : Pending := { kind := .enq 0 5 (BitVec.ofNat 32 n), dest := .reg 8, lanes := [{ stage := .performed }] };
      let s := State.withPkg (solo { plain with pend := [x] }) { queues := [(5, { cfg := 0x8400000000000000, claimed := n + 1 })] };
      (s.thr 0 0).pend = [x] ∧ x.id = s.ev.id ∧ isPort 8 = false ∧ (s.thr 0 0).quitting = false ∧ s.ev.parts = [] ∧ (∀ l ∈ x.lanes, l.stage = .performed) ∧
      ((s.pkg 0).queue 5).tearing = false ∧ ((s.pkg 0).queue 5).written = [] ∧ (n = 0 ↔ BitVec.ofNat 32 n = ((s.pkg 0).queue 5).tail)) ∧
    (let w : Queue := { cfg := 0x8000000000000000 };
      w.device = false ∧ w.tearing = false ∧ ({} : Package).state ≠ 4 ∧ ¬ w.slots < ((1 : Word) - w.head).toNat ∧ w.slots < ((2 : Word) - w.head).toNat ∧
        ¬ w.slots < ((0 : Word) - w.head).toNat ∧ w.head = 0 ∧ (({} : State).launchesOf 0 0).isEmpty = true) := by
  refine ⟨⟨by unfold Calm; decide +kernel, by decide +kernel, ready_of_all _ _ (by decide +kernel), by unfold LocalAt; decide +kernel, clean_of_empty _ rfl _ _,
      rfl⟩, ⟨_, by unfold Calm; decide +kernel, ready_of_all _ _ (by decide +kernel), by unfold LocalAt; decide +kernel, rfl, by decide +kernel⟩,
    by decide +kernel, by decide +kernel, by decide +kernel, by decide +kernel, by decide +kernel⟩

/-- The operands of a copy from `a` to `d` of `n` bytes in g16 to g18. -/
def copier (d a n : Dword) : Thread := { plain with g := vset (18 : Reg) n (vset (17 : Reg) a (vset (16 : Reg) d plain.g)) }

/-- A thread whose TLD takes tile 2 of column 1 by the shape record at 0x800, and such a record: 8 rows of 2 tiles, two scale bytes a row, at 0x4000. -/
def shaper : Thread := copier 0x8000000000000000 0x8000000000000800 0x100000002
def shape : List Dword := [0x8000000000004000, 0x800000002, 0x400, 0x2CDAB, 0x8000000000006000, 0x20, 0, 0]

/-- A copy; a TLD that has its record, one that has yet to read it, and records with a reserved bit set; operands that trap. -/
theorem witness_CopyCommandsQueue :
    (∃ i o eop n, ∃ s : State, copyOf i = some (o, eop, n) ∧ i.wellFormed = true ∧ Calm s ∧ Ready s (copyRegs o n) ∧ s.myCore.copies.length < 32 ∧
      (∀ m : BitVec 2, (vget m s.myCore.slots).refs = 0) ∧ designated (s.me.getG o.o1) = none ∧ eop = 0 ∧
      s.copyStop (copyPlan eop ((blockOf s o n).map (fun (x : Dword) => x.toNat)) none 1) (if o.m = 0 then none else some (s.me.getG o.o2).toNat) none = none) ∧
    (∃ i o eop n record, ∃ s : State, copyOf i = some (o, eop, n) ∧ eop = 3 ∧ i.wellFormed = true ∧ Calm s ∧ Ready s (copyRegs o n) ∧
      designated (s.me.getG o.o1) = none ∧
      s.copyStop (copyPlan eop ((blockOf s o n).map (fun (x : Dword) => x.toNat)) none 1) (if o.m = 0 then none else some (s.me.getG o.o2).toNat) none = none ∧
      s.shapeRecord ((blockOf s o n).map (fun (x : Dword) => x.toNat)) none 1 = .ok record) ∧
    (∃ src, LocalAt (solo shaper) ((solo shaper).me.getG (16 + 1)) 64 src ∧ Clean (solo shaper).mem src 64 ∧ (solo shaper).me.record = none) ∧
    (∀ x ∈ [(2, 2 ^ 40), (3, 2 ^ 24), (3, 17 * 2 ^ 16), (5, 2 ^ 40), (6, 1), (7, 2 ^ 63)], let r := shape.set x.1 (BitVec.ofNat 64 x.2);
      HasRecord (solo { shaper with record := some { va := (solo shaper).me.getG (16 + 1), dwords := r } }) ((solo shaper).me.getG (16 + 1)) r ∧ r.length = 8 ∧
      ((r.getD 2 0).extractLsb' 40 24 ≠ 0 ∨ (r.getD 3 0).extractLsb' 24 40 ≠ 0 ∨ (r.getD 5 0).extractLsb' 40 24 ≠ 0 ∨ r.getD 6 0 ≠ 0 ∨ r.getD 7 0 ≠ 0 ∨
        16 < ((r.getD 3 0).extractLsb' 16 8).toNat)) ∧
    (∀ x ∈ [(0x8000000000000000, 0x8000000000000800, 0x1000000001), (0x8000000000000004, 0x8000000000000800, 8), (0x8000000000000000, 0x8000000000000801, 8),
        (0x8000000000000FF8, 0x8000000000000800, 0x10)],
      Calm (solo (copier x.1 x.2.1 x.2.2)) ∧ Ready (solo (copier x.1 x.2.1 x.2.2)) (copyRegs (⟨16, 0, 0, 0, 15⟩ : OpCopy) 3) ∧ designated x.1 = none) := by
  refine ⟨⟨.cpy ⟨16, 0, 0, 0, 15⟩, _, _, _, solo (copier 0x8000000000000000 0x8000000000000800 0x800), rfl, by decide +kernel, by unfold Calm; decide +kernel,
      ready_of_all _ _ (by decide +kernel), by decide +kernel, by decide +kernel, by decide +kernel, rfl, by decide +kernel⟩,
    ⟨.tld ⟨16, 0, 0, 0, 15⟩, _, _, _, _, solo { shaper with record := some { va := 0x8000000000000800, dwords := shape } }, rfl, rfl, by decide +kernel,
      by unfold Calm; decide +kernel, ready_of_all _ _ (by decide +kernel), by decide +kernel, by decide +kernel, rfl⟩,
    ⟨granaryPa 0 0x800, by unfold LocalAt; decide +kernel, clean_of_empty _ rfl _ _, rfl⟩, by unfold HasRecord; decide +kernel, ?_⟩
  intro x hx
  simp only [List.mem_cons, List.not_mem_nil, or_false] at hx
  rcases hx with rfl | rfl | rfl | rfl <;> exact ⟨by unfold Calm; decide +kernel, ready_of_all _ _ (by decide +kernel), by decide +kernel⟩

/-- A copy into ring 0, which is usable, or has size 0, with the engine set or without; and operands of CPYS, CPX and HIST that trap. -/
theorem witness_CopyCommandsQueue_rings :
    (∀ size ∈ [0, 1], ∀ eset ∈ [false, true],
      let d : Dword := BitVec.ofNat 64 (size * 2 ^ 16)
      let s := solo { copier 0xC000000000000000 0x8000000000000800 0x800 with eset := eset } { rings := vset (0 : BitVec 3) d (Vector.replicate 8 0) }
      let o : OpCopy := ⟨16, 0, 0, 0, 15⟩
      copyOf (.cpy o) = some (o, 0, 3) ∧ (Instr.cpy o).wellFormed = true ∧ Calm s ∧ (copyRegs o 3).all (fun r => !isPort r && s.me.isFull r) = true ∧
        s.myCore.copies.length < 32 ∧ s.me.getG o.o1 = ringDesignator 0 ∧ s.me.eset = eset ∧ d = vget (0 : BitVec 3) s.myCore.rings ∧
        s.copyStop (copyPlan 0 ((blockOf s o 3).map (fun (x : Dword) => x.toNat)) (some 0) (tileBytes d)) none none = none ∧
        (size = 1 ↔ 1 ≤ (d.extractLsb' 16 5).toNat ∧ (d.extractLsb' 16 5).toNat ≤ 13 ∧
          (d.extractLsb' 0 16).toNat * 128 + 2 ^ ((d.extractLsb' 16 5).toNat - 1) * tileBytes d ≤ s.me.cgl.toNat - s.me.cgb.toNat)) ∧
    (∀ x ∈ [(2 ^ 24 + 8, 0), (8, 2 ^ 24 + 1), (2, 1)],
      let t := { plain with g := vset (16 + 2 : Reg) (BitVec.ofNat 64 x.1) (vset (16 + 3 : Reg) (BitVec.ofNat 64 x.2) (vset (16 + 1 : Reg) 0x8000000000000808 plain.g)) }
      let s := solo t
      let o : OpCopy := ⟨16, 6, 0, 2, 15⟩
      Calm s ∧ s.myCore.copies.length < 32 ∧ designated (s.me.getG o.o1) = none ∧ (Instr.cpys o).wellFormed = true ∧ (Instr.cpx o).wellFormed = true ∧
        (Instr.hist o).wellFormed = true ∧ (copyRegs o 6).all (fun r => !isPort r && s.me.isFull r) = true ∧ (s.me.getG (o.o1 + 1)).toNat % 16 ≠ 0 ∧
        (s.me.getG (o.o1 + 2)).toNat = x.1 ∧ (s.me.getG (o.o1 + 3)).toNat = x.2 ∧ o.m ≠ 0) ∧
    (let t := { plain with g := vset (16 + 2 : Reg) 3 (vset (6 : Reg) 0x8000000000000001 plain.g) }
      let o : OpCopy := ⟨16, 6, 0, 2, 15⟩
      ((solo t).me.getG (o.o1 + 1)).toNat ≤ 2 ^ 36 ∧ ((solo t).me.getG (o.o1 + 2)).toNat < 4 ∧ ((solo t).me.getG o.o2).toNat % 8 ≠ 0) := by
  unfold Calm
  refine ⟨?_, ?_, ?_⟩ <;> decide +kernel

/-- A copy command of crew 0, whose allocation lies at 0x1000, and the core that has it alone. -/
def command (eop : Nat) (ops : List Nat) (total : Nat) : CopyCmd :=
  { eop := BitVec.ofNat 5 eop, ops := ops.map (BitVec.ofNat 64), total := total, cgb := 0x1000, cgl := 0x10000 }
def working (k : CopyCmd) (c : Core := {}) : State :=
  { cores := [(0, { c with copies := [k], crews := [{ home := k.home, lid := k.lid, base := k.cgb, limit := k.cgl }] })] }

/-- A local address. -/
def at_ (off : Nat) : Nat := 2 ^ 63 + off

theorem ownCrew_working (k : CopyCmd) (c : Core) : OwnCrew (working k c) 0 k.home k.lid k.cgb k.cgl := ⟨_, rfl, rfl, rfl, rfl, rfl, rfl, rfl, rfl⟩

/-- What OnlyCopy asks beside the crew, of a command of this crew. -/
theorem onlyCopy_working (k : CopyCmd) (c : Core)
    (h : (k.ahead = [] ∧ k.streams = [] ∧ k.buf = [] ∧ k.reads = [] ∧ k.puts = [] ∧ k.tail = []) ∧ k.cgl.toNat ≤ 2 ^ 23 ∧ k.cgb.toNat % 128 = 0 ∧ k.total < 2 ^ 40) :
    OnlyCopy (working k c) 0 k :=
  ⟨rfl, ownCrew_working k c, h.1.1, h.1.2.1, h.1.2.2.1, h.1.2.2.2.1, h.1.2.2.2.2.1, h.1.2.2.2.2.2, rfl, rfl, by decide, h.2⟩

/-- A copy of a crew's allocation, a fill with a completion word, a failed command, a push that fits and one that waits. -/
theorem witness_CopiesRunAndPush :
    (let k := command 0 [at_ 0, at_ 0x800, 0x800] 0x100;
      LoneCopy (working k) 0 k ∧ CrewAt 0 k (at_ 0) 0x800 (granaryPa 0 0x1000) ∧ CrewAt 0 k (at_ 0x800) 0x800 (granaryPa 0 0x1800)) ∧
    (let k : CopyCmd := { command 2 [at_ 0, 7, 0x800] 0x100 with action := 1, w := BitVec.ofNat 64 (at_ 0x800) };
      LoneCopy (working k) 0 k ∧ CrewAt 0 k (at_ 0) 0x800 (granaryPa 0 0x1000) ∧ CrewAt 0 k k.w.toNat 8 (granaryPa 0 0x1800)) ∧
    (∃ x, (let r : FaultReq := {};
      let k : CopyCmd := { phase := .failed, fault := some r };
      let s : State := solo { plain with status := x } { copies := [k] };
      (s.core 0).copies = [k] ∧ k.streams = [] ∧ k.puts = [] ∧ k.buf = [] ∧ k.tail = [] ∧ k.ended = false ∧ (s.core 0).ctxOf k.home k.lid k.lti = some 0 ∧ (s.core 0).closes = [] ∧
        (s.thr 0 0).status = .ready)) ∧
    (∃ x, (let r : FaultReq := {};
      let k : CopyCmd := { phase := .failed, fault := some r };
      let s : State := solo { plain with status := .parked x } { copies := [k] };
      (s.core 0).copies = [k] ∧ (s.core 0).ctxOf k.home k.lid k.lti = some 0 ∧ (s.core 0).closes = [] ∧ (s.thr 0 0).status = .parked x)) ∧
    (∀ tile ∈ [0, 7, 8], let d : Dword := BitVec.ofNat 64 (4 * 2 ^ 16);
      let k : CopyCmd := { command 0 [0xC000000000000000, at_ 0x4000, 0x800] 0x100 with phase := .running, ring := some 0, tile := tile, tileLen := tileBytes d };
      let s := working k { rings := vset (0 : BitVec 3) d (Vector.replicate 8 0) };
      OnlyCopy s 0 k ∧ k.ops.map (fun (x : Dword) => x.toNat) = [(ringDesignator 0).toNat, at_ 0x4000, 0x800] ∧ d = vget (0 : BitVec 3) (s.core 0).rings ∧
        CrewAt 0 k (at_ 0x4000) 0x800 (granaryPa 0 0x5000) ∧ (s.core 0).ringDone = [] ∧ ringUsable d (k.cgl.toNat - k.cgb.toNat) = true ∧
        vget (0 : BitVec 3) (s.core 0).ringTails % 8192 = ringTail d ∧
        (tile ≤ 7 ↔ k.tile + ringCount d < vget (0 : BitVec 3) (s.core 0).ringTails + ringSlots d)) := by
  refine ⟨⟨⟨onlyCopy_working _ _ (by decide +kernel), by decide +kernel⟩, ?_⟩, ⟨⟨onlyCopy_working _ _ (by decide +kernel), by decide +kernel⟩, ?_⟩,
    ⟨.ready, by decide +kernel⟩, ⟨.copy, by decide +kernel⟩, fun tile h => ?_⟩
  · unfold CrewAt; decide +kernel
  · unfold CrewAt; decide +kernel
  · simp only [List.mem_cons, List.not_mem_nil, or_false] at h
    refine ⟨onlyCopy_working _ _ ?_, ?_⟩ <;> rcases h with rfl | rfl | rfl <;> first | decide +kernel | (unfold CrewAt; decide +kernel)

theorem loneRunning_of (k : CopyCmd) (c : Core) (h : ((k.ahead = [] ∧ k.streams = [] ∧ k.buf = [] ∧ k.reads = [] ∧ k.puts = [] ∧ k.tail = []) ∧
    k.cgl.toNat ≤ 2 ^ 23 ∧ k.cgb.toNat % 128 = 0 ∧ k.total < 2 ^ 40) ∧ k.phase = .running ∧ k.ring = none ∧ k.next < k.total ∧
    (k.eop = 3 ∨ k.eop = 4 → k.record ≠ [])) :
    LoneRunning (working k c) 0 k := ⟨onlyCopy_working k _ h.1, h.2⟩

/-- A dword read for a unit. -/
def got (key va x : Nat) : Fetch := { key := key, va := va, pa := 0, value := x, marked := false }

/-- `Fetched`, of a command whose reads hold the bytes: as a Boolean. -/
theorem fetched_of (k : CopyCmd) (key va n x : Nat) (hx : x < 2 ^ (8 * n))
    (h : (List.range n).all (fun j => match k.fetched key ((va + j) / 8 * 8 % 2 ^ 64) with
      | some f => !f.marked && decide (f.value < 2 ^ 64) && decide (x / 2 ^ (8 * j) % 256 = f.value / 2 ^ (8 * ((va + j) % 8)) % 256)
      | none => false) = true) : Fetched k key va n x := by
  refine ⟨hx, fun j hj => ?_⟩
  have := List.all_eq_true.mp h j (List.mem_range.mpr hj)
  split at this
  · rename_i f hf
    simp only [Bool.and_eq_true, Bool.not_eq_true', decide_eq_true_eq] at this
    exact ⟨f, hf, this.1.1, this.1.2, this.2⟩
  · simp at this

/-- Dwords read one after the other, the `d`-th holding `g d`. -/
def gotRun (key va n : Nat) (g : Nat → Nat) : List Fetch := (List.range n).map (fun d => got key (va + 8 * d) (g d))

theorem fetched_of_run (k : CopyCmd) (key va m : Nat) (g : Nat → Nat) (hk : k.got = gotRun key va m g) (d : Nat) (hd : d < m) :
    k.fetched key (va + 8 * d) = some (got key (va + 8 * d) (g d)) := by
  have h : (List.range m).find? (fun x => decide (va + 8 * x = va + 8 * d)) = some d := by
    rw [List.find?_range_eq_some]
    exact ⟨by simp, List.mem_range.mpr hd, fun j hj => by simp; omega⟩
  simp only [CopyCmd.fetched, hk, gotRun, List.find?_map, Function.comp_def, got, decide_true, Bool.true_and, h, Option.map_some]

/-- Bytes that a run of dwords holds were read. -/
theorem fetched_of_dwords (k : CopyCmd) (key va n x : Nat) (hx : x < 2 ^ (8 * n)) (ha : va % 8 = 0) (hv : va + n ≤ 2 ^ 64)
    (h : ∀ d < (n + 7) / 8, k.fetched key (va + 8 * d) = some (got key (va + 8 * d) (x / 2 ^ (64 * d) % 2 ^ 64))) : Fetched k key va n x := by
  refine ⟨hx, fun j hj => ⟨got key (va + 8 * (j / 8)) (x / 2 ^ (64 * (j / 8)) % 2 ^ 64), ?_, rfl, Nat.mod_lt _ (by decide), ?_⟩⟩
  · rw [show (va + j) / 8 * 8 % 2 ^ 64 = va + 8 * (j / 8) by omega]
    exact h _ (by omega)
  · have e : 2 ^ 64 = 2 ^ (8 * (j % 8)) * 2 ^ (64 - 8 * (j % 8)) := by rw [← Nat.pow_add]; congr 1; omega
    have f : 256 ∣ 2 ^ (64 - 8 * (j % 8)) := Nat.pow_dvd_pow 2 (show 8 ≤ 64 - 8 * (j % 8) by omega)
    show _ = x / 2 ^ (64 * (j / 8)) % 2 ^ 64 / 2 ^ (8 * ((va + j) % 8)) % 256
    rw [show (va + j) % 8 = j % 8 by omega, e, Nat.mod_mul_right_div_self, Nat.mod_mod_of_dvd _ f, Nat.div_div_eq_div_mul, ← Nat.pow_add]
    congr 3; omega

/-- Running commands at a unit, of each kind the statement tells apart, with what the unit has read. -/
def atUnit (eop : Nat) (ops : List Nat) (total i : Nat) (l : List Fetch) : CopyCmd := { command eop ops total with phase := .running, next := i, got := l }
def cpysAt : CopyCmd := atUnit 1 [at_ 0, at_ 0x800, 16, 2, 32, 64] 4 3 [got 3 (at_ 0x848) 77]
def tldAt (i : Nat) (l : List Fetch) : CopyCmd := { atUnit 3 [at_ 0, 0, 0x100000002] 300 i l with record := shape }
def tstAt (i : Nat) (l : List Fetch) : CopyCmd := { atUnit 4 [at_ 0, 0, 0x100000002] 288 i l with record := shape }
def indexed (eop op idx : Nat) (l : List Fetch) : CopyCmd :=
  atUnit eop [at_ 0, at_ 0x800, at_ 0x1000, 16 + 512 * op] 40 0 (got 40 (at_ 0x1000) idx :: l)
def histAt : CopyCmd := { atUnit 10 [at_ 0x800, 0, 2] 2 1 [got 2 (at_ 0x808) 0x0102030401] with bytes := 13 }

/-- A unit that wants a dword; CPYS and TLD moves; TLD's fill, a scale unit beyond the tensor; TST of a row beyond it; elements gathered, skipped,
scattered and added; bytes counted. -/
theorem witness_CopiesRunAndPush_units :
    (let k := atUnit 0 [at_ 0, at_ 0x800, 16] 2 0 [];
      LoneRunning (working k) 0 k ∧ (∃ w, k.unitStep ((working k).core 0).slots 0 = .want [w] ∧ CrewAt 0 k w.at_ 1 (granaryPa 0 0x1800) ∧
        w.at_ / 8 = w.va / 8 ∧ w.va % 8 = 0)) ∧
    (LoneRunning (working cpysAt) 0 cpysAt ∧ ∃ a d, moved cpysAt 3 = some (a, d) ∧ Fetched cpysAt (movedKey cpysAt 3) a 8 77 ∧ CrewAt 0 cpysAt d 8 (granaryPa 0 0x1028)) ∧
    (let k := tldAt 3 [got 301 (at_ 0x4898) 88];
      LoneRunning (working k) 0 k ∧ ∃ a d, moved k 3 = some (a, d) ∧ Fetched k (movedKey k 3) a 8 88 ∧ CrewAt 0 k d 8 (granaryPa 0 0x1018)) ∧
    (let k := tstAt 3 [got 288 (at_ 0x18) 99];
      LoneRunning (working k) 0 k ∧ ∃ a d, moved k 3 = some (a, d) ∧ Fetched k (movedKey k 3) a 8 99 ∧ CrewAt 0 k d 8 (granaryPa 0 0x5898)) ∧
    (let k := tldAt 96 []; LoneRunning (working k) 0 k ∧ tensorRow k 6 = none ∧ CrewAt 0 k (opOf k 0 + 8 * 96) 8 (granaryPa 0 0x1300)) ∧
    (let k := tldAt 261 []; LoneRunning (working k) 0 k ∧ (∀ j < 8, tensorRow k ((8 * (261 - 256) + j) / 2) = none)) ∧
    (let k := tstAt 96 []; LoneRunning (working k) 0 k ∧ tensorRow k 6 = none) ∧
    (let k := tstAt 256 [got 288 (at_ 0x800) 0x0807060504030201];
      LoneRunning (working k) 0 k ∧ LoneRunning (working (tstAt 257 [])) 0 (tstAt 257 []) ∧
        (∃ a b, scaleByte k 0 = some a ∧ scaleByte k 1 = some b ∧ b / 8 = a / 8 ∧ CrewAt 0 k (a / 8 * 8) 8 (granaryPa 0 0x7040) ∧
          ∃ bs : Nat → Nat, ∀ j < 8, ∀ m, LastScale k m (a / 8 * 8 + j) → Fetched k k.total (opOf k 0 + 2048 + m) 1 (bs j))) ∧
    (let k := tstAt 268 []; LoneRunning (working k) 0 k ∧ scaleByte k 12 = none) ∧
    (∀ x ∈ [3, 0xFFFFFFFF], let k := indexed 5 0 x [got 0 (at_ 0x830) 66]; LoneRunning (working k) 0 k ∧ Fetched k k.total (opOf k 2) 4 x ∧
      Fetched k 0 (opOf k 1 + 3 * 16) 8 66 ∧ CrewAt 0 k (opOf k 0) 8 (granaryPa 0 0x1000)) ∧
    (∀ x ∈ [3, 0xFFFFFFFF], let k := indexed 6 0 x [got 0 (at_ 0x800) 66]; LoneRunning (working k) 0 k ∧ Fetched k k.total (opOf k 2) 4 x ∧
      Fetched k 0 (opOf k 1) 8 66 ∧ CrewAt 0 k (opOf k 0 + 3 * 16) 8 (granaryPa 0 0x1030)) ∧
    (∀ op ∈ [0, 1, 2, 3], ∀ x ∈ [3, 0xFFFFFFFF], let k := indexed 7 op x [got 41 (at_ 0x800) 66]; LoneRunning (working k) 0 k ∧ Fetched k k.total (opOf k 2) 4 x ∧
      opOf k 3 / 2 ^ 9 % 8 = op ∧ Fetched k (k.total + 1) (opOf k 1) (if op = 1 then 8 else 4) 66 ∧ CrewAt 0 k (opOf k 0 + 3 * 16) 8 (granaryPa 0 0x1030) ∧
      (working k).mem.poisoned (granaryPa 0 0x1030) = false) ∧
    (LoneRunning (working histAt) 0 histAt ∧ min 8 (histAt.bytes - 8) = 5 ∧ Fetched histAt histAt.total (opOf histAt 0 + 8) 5 0x0102030401) := by
  have run := fun k => loneRunning_of k {}
  unfold CrewAt
  refine ⟨⟨run _ (by decide +kernel), _, rfl, by decide +kernel⟩,
    ⟨run _ (by decide +kernel), _, _, rfl, fetched_of _ _ _ _ _ (by decide) (by decide +kernel), by decide +kernel⟩,
    ⟨run _ (by decide +kernel), _, _, rfl, fetched_of _ _ _ _ _ (by decide) (by decide +kernel), by decide +kernel⟩,
    ⟨run _ (by decide +kernel), _, _, rfl, fetched_of _ _ _ _ _ (by decide) (by decide +kernel), by decide +kernel⟩,
    ⟨run _ (by decide +kernel), by decide +kernel, by decide +kernel⟩, ⟨run _ (by decide +kernel), by decide +kernel⟩,
    ⟨run _ (by decide +kernel), by decide +kernel⟩,
    ⟨run _ (by decide +kernel), run _ (by decide +kernel), at_ 0x6042, at_ 0x6043, by decide +kernel, by decide +kernel, by decide +kernel, by decide +kernel,
      fun j => j - 1, fun j hj m h => ?_⟩,
    ⟨run _ (by decide +kernel), by decide +kernel⟩, ?_, ?_, ?_,
    ⟨run _ (by decide +kernel), by decide +kernel, fetched_of _ _ _ _ _ (by decide) (by decide +kernel)⟩⟩
  · have few : ∀ m < 32, ∀ j < 8, scaleByte (tstAt 256 [got 288 (at_ 0x800) 0x0807060504030201]) m = some (at_ 0x6042 / 8 * 8 + j) →
        (m = 0 ∧ j = 2) ∨ (m = 1 ∧ j = 3) := by decide +kernel
    by_cases hm : m < 32
    · obtain ⟨rfl, rfl⟩ | ⟨rfl, rfl⟩ := few m hm j hj h.1 <;> exact fetched_of _ _ _ _ _ (by decide) (by decide +kernel)
    · refine absurd h.1 ?_
      rw [show scaleByte (tstAt 256 [got 288 (at_ 0x800) 0x0807060504030201]) m = none from if_neg hm]
      simp
  · intro x h
    simp only [List.mem_cons, List.not_mem_nil, or_false] at h
    rcases h with rfl | rfl <;> exact ⟨run _ (by decide +kernel), fetched_of _ _ _ _ _ (by decide) (by decide +kernel),
      fetched_of _ _ _ _ _ (by decide) (by decide +kernel), by decide +kernel⟩
  · intro x h
    simp only [List.mem_cons, List.not_mem_nil, or_false] at h
    rcases h with rfl | rfl <;> exact ⟨run _ (by decide +kernel), fetched_of _ _ _ _ _ (by decide) (by decide +kernel),
      fetched_of _ _ _ _ _ (by decide) (by decide +kernel), by decide +kernel⟩
  · intro op h x h2
    simp only [List.mem_cons, List.not_mem_nil, or_false] at h h2
    rcases h with rfl | rfl | rfl | rfl <;> rcases h2 with rfl | rfl <;>
      exact ⟨run _ (by decide +kernel), fetched_of _ _ _ _ _ (by decide) (by decide +kernel), by decide +kernel,
        fetched_of _ _ _ _ _ (by decide) (by decide +kernel), by decide +kernel, by decide +kernel⟩

/-- A run of bytes read for a unit, at a dword's address. -/
def gotAll (key va : Nat) (l : List Nat) : List Fetch := (List.range ((l.length + 7) / 8)).map (fun j => got key (va + 8 * j) (packNats 8 ((l.drop (8 * j)).take 8)))

/-- A block of 13 bytes, the last of its input; a table of two symbols, and the block coded with it. -/
def raw : List Nat := [3, 5, 5, 5, 3, 5, 5, 5, 5, 5, 3, 5, 5]
def coder : Core :=
  { slots := vset (2 : BitVec 2) { lens := ((List.replicate 256 (0 : BitVec 4)).set 3 2).set 5 1, tag := 0x5A, hist := [] } (Vector.replicate 4 ({} : TableSlot)) }
def cpzAt (i : Nat) : CopyCmd :=
  { atUnit 8 [at_ 0, at_ 0x2000, 13, 2, at_ 0x7000] 2 i (if i = 0 then gotAll 2 (at_ 0x2000) raw else []) with bytes := 13, outLen := 640 }
def cpxAt (h : Nat) : CopyCmd :=
  { atUnit 9 [at_ 0, at_ 0x4000, 13, 4] 1 0 (gotRun 0 (at_ 0x4280) 514 (fun d => h / 2 ^ (64 * d) % 2 ^ 64)) with bytes := 13, srcPos := 640 }
theorem cpxAt_got (h : Nat) : (cpxAt h).got = gotRun 0 (at_ 0x4280) 514 (fun d => h / 2 ^ (64 * d) % 2 ^ 64) := by simp only [cpxAt, atUnit]
theorem cpxAt_crew (h : Nat) : (cpxAt h).cgb = 0x1000 ∧ (cpxAt h).cgl = 0x10000 ∧ opOf (cpxAt h) 0 = at_ 0 :=
  ⟨rfl, rfl, (by decide : (BitVec.ofNat 64 (at_ 0)).toNat = at_ 0)⟩
def ternAt (i : Nat) : CopyCmd :=
  { atUnit 12 [at_ 0, at_ 0x2000, 10, at_ 0x1000, 0] 4 i (gotRun 4 (at_ 0x2500) 160 (fun d => 0x3F80 / 2 ^ (64 * d) % 2 ^ 64)) with bytes := 2560 }
def tbldAt (mode x : Nat) : CopyCmd :=
  atUnit 11 [1 + 0x5A00 + 0x10000 * mode, at_ 0x800] 1 0 (gotRun 0 (at_ 0x800) 32 (fun d => x / 2 ^ (64 * d) % 2 ^ 64))

/-- A command that has read a run of dwords has read its bytes. -/
theorem fetched_of_got (k : CopyCmd) (key va m n x : Nat) (hk : k.got = gotRun key va m (fun d => x / 2 ^ (64 * d) % 2 ^ 64))
    (h : x < 2 ^ (8 * n) ∧ va % 8 = 0 ∧ va + n ≤ 2 ^ 64 ∧ (n + 7) / 8 ≤ m) : Fetched k key va n x :=
  fetched_of_dwords k key va n x h.1 h.2.1 h.2.2.1 (fun d hd => fetched_of_run k key va m _ hk d (by omega))

/-- CRC-32C has 32 bits (R239). -/
theorem crc32c_lt (l : List Nat) (h : ∀ b ∈ l, b < 2 ^ 32) : crc32c l < 2 ^ 32 := by
  have bits : ∀ n c, c < 2 ^ 32 → crcBits n c < 2 ^ 32 := by
    intro n
    induction n with
    | zero => exact fun c hc => hc
    | succ n ih => exact fun c hc => ih _ (by split <;> [exact Nat.xor_lt_two_pow (by omega) (by decide); omega])
  have fold : ∀ l : List Nat, (∀ b ∈ l, b < 2 ^ 32) → ∀ c, c < 2 ^ 32 → l.foldl (fun c b => crcBits 8 (Nat.xor c b)) c < 2 ^ 32 := by
    intro l
    induction l with
    | nil => exact fun _ c hc => hc
    | cons b l ih =>
      exact fun h c hc => ih (fun x hx => h x (List.mem_cons_of_mem _ hx)) _ (bits _ _ (Nat.xor_lt_two_pow hc (h b List.mem_cons_self)))
  exact Nat.xor_lt_two_pow (fold l h _ (by decide)) (by decide)

/-- The headers of a raw block, of a coded block that ends early, and of a raw block that names a table. -/
def rawHeader (crc : Nat) : Nat := 4096 * 2 ^ 32 + crc * 2 ^ 64
def shortHeader : Nat := 9 + 0x5A00 + 2 ^ 32
def wrongHeader : Nat := 8 + 4096 * 2 ^ 32

theorem readHeader_raw (c : Nat) (h : c < 2 ^ 32) :
    readHeader (rawHeader c) = { mode := 0, slot := 0, tag := 0, clen := 4096, crc := c, stray := false } := by
  unfold readHeader rawHeader
  simp only [BlockHeader.mk.injEq, BitVec.ofNat_eq_ofNat, ← BitVec.toNat_inj, BitVec.toNat_ofNat, Bool.or_eq_false_iff, decide_eq_false_iff_not, ne_eq,
    Decidable.not_not]
  omega

/-- A raw block of bytes of 0 has a CRC under which it is accepted. -/
theorem rawBlock (lens : List (BitVec 4)) : ∃ c z, c < 2 ^ 32 ∧ decodePayload lens (readHeader (rawHeader c)) 0 = .ok z := by
  have small : ∀ n, ∀ b ∈ unpackNats 8 n 0, b < 2 ^ 32 := by
    intro n
    induction n with
    | zero => simp [unpackNats]
    | succ n ih => simp only [unpackNats, List.mem_cons, Nat.zero_mod, Nat.zero_div]; rintro b (rfl | hb) <;> [decide; exact ih b hb]
  have h := crc32c_lt _ (small 4096)
  refine ⟨_, unpackNats 8 4096 0, h, ?_⟩
  rw [readHeader_raw _ h]
  generalize hz : unpackNats 8 4096 0 = z
  simp only [decodePayload, if_pos, Nat.zero_mod, hz]

/-- A table built, read from memory, refused and stored; a block coded, and the length after it; a block expanded, and one whose header or payload
is refused; a block of trits. -/
theorem witness_CopiesRunAndPush_codecs :
    (∀ x ∈ [(0, 0), (1, 0x0101), (1, 0x010101), (1, 13), (2, 0)], let k := tbldAt x.1 x.2; let l := (List.range 256).map (fun j => x.2 / 2 ^ (8 * j) % 256);
      LoneRunning (working k) 0 k ∧ Fetched k 0 (opOf k 1) 256 x.2 ∧
      (1 : BitVec 2).toNat = opOf k 0 % 4 ∧ opOf k 0 / 2 ^ 16 % 4 = x.1 ∧ CrewAt 0 k (opOf k 1) 256 (granaryPa 0 0x1800) ∧
      ((∀ y ∈ l, y ≤ 12) ↔ x.2 ≠ 13) ∧ ((l.map (fun y => if y = 0 then 0 else 2 ^ (12 - y))).sum ≤ 2 ^ 12 ↔ x.2 ≠ 0x010101)) ∧
    (LoneRunning (working (cpzAt 0) coder) 0 (cpzAt 0) ∧ Fetched (cpzAt 0) (cpzAt 0).total (at_ 0x2000) 13 (packNats 8 raw) ∧
      (∀ n ≤ 4112, CrewAt 0 (cpzAt 0) (opOf (cpzAt 0) 0 + 640) n (granaryPa 0 0x1280))) ∧
    (LoneRunning (working (cpzAt 1) coder) 0 (cpzAt 1) ∧ (cpzAt 1).bytes ≤ 4096 * 1 ∧ CrewAt 0 (cpzAt 1) (opOf (cpzAt 1) 4) 8 (granaryPa 0 0x8000)) ∧
    (∀ h, h < 2 ^ 128 → (readHeader h).clen ≤ 4096 → LoneRunning (working (cpxAt h) coder) 0 (cpxAt h) ∧ Fetched (cpxAt h) 0 (at_ 0x4280) 16 h ∧
      Fetched (cpxAt h) 0 (at_ 0x4290) (paddedLen (readHeader h).clen) 0 ∧ CrewAt 0 (cpxAt h) (opOf (cpxAt h) 0) 13 (granaryPa 0 0x1000)) ∧
    (let wrong := fun h => (readHeader h).wrong 4 (fun n => (vget n coder.slots).tag);
      (∃ c z, rawHeader c < 2 ^ 128 ∧ (readHeader (rawHeader c)).clen ≤ 4096 ∧ wrong (rawHeader c) = none ∧
        decodePayload (vget (0 : BitVec 2) coder.slots).lens (readHeader (rawHeader c)) 0 = .ok z) ∧
      wrong shortHeader = none ∧ (readHeader shortHeader).clen ≤ 4096 ∧
      decodePayload (vget (2 : BitVec 2) coder.slots).lens (readHeader shortHeader) 0 = .error 4 ∧
      wrong wrongHeader = some 1 ∧ (readHeader wrongHeader).clen ≤ 4096) ∧
    (LoneRunning (working (ternAt 1)) 0 (ternAt 1) ∧ Fetched (ternAt 1) (ternAt 1).total (at_ 0x2500) 1280 0x3F80 ∧
      CrewAt 0 (ternAt 1) (opOf (ternAt 1) 0 + 128) 128 (granaryPa 0 0x1080) ∧ 1 < (ternAt 1).bytes / 1280) ∧
    (let k := ternAt 3; LoneRunning (working k) 0 k ∧ k.bytes / 1280 ≤ 3 ∧ opOf k 2 = 10 ∧ opOf k 3 % 8 = 0 ∧ Fetched k k.total (opOf k 1 + 256 * 8) (256 * 2) 0 ∧
      CrewAt 0 k (opOf k 3 + 8) 2 (granaryPa 0 0x2008)) := by
  refine ⟨fun x h => ?_,
    ⟨loneRunning_of _ _ (by decide +kernel), fetched_of _ _ _ _ _ (by decide +kernel) (by decide +kernel), fun n hn => ?_⟩,
    ⟨loneRunning_of _ _ (by decide +kernel), by decide +kernel, by unfold CrewAt; decide +kernel⟩, fun h hx hc => ?_, ⟨?_, by decide +kernel⟩,
    ⟨loneRunning_of _ _ (by decide +kernel), fetched_of_got _ _ _ _ _ _ rfl (by decide +kernel), by unfold CrewAt; decide +kernel, by decide +kernel⟩,
    ⟨loneRunning_of _ _ (by decide +kernel), by decide +kernel, by decide +kernel, by decide +kernel,
      fetched_of _ _ _ _ _ (by decide +kernel) (by decide +kernel), by unfold CrewAt; decide +kernel⟩⟩
  · simp only [List.mem_cons, List.not_mem_nil, or_false] at h
    rcases h with rfl | rfl | rfl | rfl | rfl <;>
      exact ⟨loneRunning_of _ _ (by decide +kernel), fetched_of_got _ _ _ _ _ _ rfl (by decide +kernel), by unfold CrewAt; decide +kernel⟩
  · have : (cpzAt 0).cgb.toNat + (opOf (cpzAt 0) 0 + 640 - 2 ^ 63) + 4112 ≤ (cpzAt 0).cgl.toNat ∧ 2 ^ 63 ≤ opOf (cpzAt 0) 0 + 640 ∧
      opOf (cpzAt 0) 0 + 640 < 2 ^ 64 ∧ granaryPa 0 0x1280 = granaryPa 0 ((cpzAt 0).cgb.toNat + (opOf (cpzAt 0) 0 + 640 - 2 ^ 63)) := by decide +kernel
    exact ⟨this.2.1, this.2.2.1, by omega, this.2.2.2⟩
  · have hp : paddedLen (readHeader h).clen ≤ 4096 := by unfold paddedLen; omega
    refine ⟨loneRunning_of _ _ ⟨⟨⟨rfl, rfl, rfl, rfl, rfl, rfl⟩, (by decide : (0x10000#24).toNat ≤ 2 ^ 23), (by decide : (0x1000#24).toNat % 128 = 0),
        (by decide : 1 < 2 ^ 40)⟩, rfl, rfl, (by decide : 0 < 1),
        fun e => absurd e (show ¬(BitVec.ofNat 5 9 = 3 ∨ BitVec.ofNat 5 9 = 4) by decide)⟩,
      fetched_of_got _ _ _ 514 _ _ (cpxAt_got h) ⟨hx, by decide +kernel, by decide +kernel, by decide +kernel⟩, ?_, ?_⟩
    rotate_left
    · have e := cpxAt_crew h
      unfold CrewAt
      rw [e.1, e.2.1, e.2.2]; decide +kernel
    refine fetched_of_dwords _ _ _ _ _ (by positivity) (by decide +kernel) (by simp only [at_]; omega) (fun d hd => ?_)
    have e : h / 2 ^ (64 * (d + 2)) = 0 := Nat.div_eq_of_lt (lt_of_lt_of_le hx (Nat.pow_le_pow_right (by decide) (by omega)))
    have := fetched_of_run (cpxAt h) 0 (at_ 0x4280) 514 _ (cpxAt_got h) (d + 2) (by omega)
    rw [e] at this
    rw [show at_ 0x4290 + 8 * d = at_ 0x4280 + 8 * (d + 2) by simp only [at_]; omega, this, Nat.zero_div]
  · obtain ⟨c, z, hc, hz⟩ := rawBlock (vget (0 : BitVec 2) coder.slots).lens
    refine ⟨c, z, by unfold rawHeader; omega, by rw [readHeader_raw _ hc], ?_, hz⟩
    show (readHeader (rawHeader c)).wrong 4 _ = none
    rw [readHeader_raw _ hc]; simp [BlockHeader.wrong, BlockHeader.clenOk]

/-- A block of bytes that all have codes, and one of bytes that have none. -/
theorem witness_CopiesRunAndPush_blocks :
    let l := fun (y : Nat) => (((vget (2 : BitVec 2) coder.slots).lens).getD y 0).toNat
    TableFits l ∧ (∀ x ∈ [5, 0], (List.replicate 4096 x).length = 4096 ∧ (∀ y ∈ List.replicate 4096 x, y < 256)) ∧
    ((∀ y ∈ List.replicate 4096 5, 1 ≤ l y ∧ l y ≤ 12) ∧ (((List.replicate 4096 5).map l).sum + 7) / 8 ≤ 4095) ∧
    (¬∀ y ∈ List.replicate 4096 0, 1 ≤ l y ∧ l y ≤ 12) ∧ ((2 : BitVec 2).toNat < 4 ∧ (4 : BitVec 4).getLsbD (2 : BitVec 2).toNat = true) := by
  intro l
  have h5 : l 5 = 1 := by decide +kernel
  have h0 : l 0 = 0 := by decide +kernel
  have mem : ∀ {n x y : Nat}, y ∈ List.replicate n x → y = x := fun h => List.eq_of_mem_replicate h
  refine ⟨by unfold TableFits; decide +kernel, fun x hx => ⟨List.length_replicate, fun y hy => ?_⟩, ⟨fun y hy => ?_, ?_⟩, fun h => ?_, by decide⟩
  · rw [mem hy]; simp only [List.mem_cons, List.not_mem_nil, or_false] at hx; omega
  · rw [mem hy, h5]; decide
  · rw [List.map_replicate, List.sum_replicate, h5]; decide
  · have := h 0 (List.mem_replicate.mpr ⟨by decide, rfl⟩)
    omega

/-- Ring descriptors of one slot: I8 at 0, T2 at 4096. -/
def dense : Dword := 0x10000
def selector : Dword := BitVec.ofNat 64 (4096 / 128 + 2 ^ 16 + 13 * 2 ^ 21)

/-- A core whose rings 0 and 1 hold a dense tile and a selector tile or two: I8 by T2; MX8 by T5, both with scales, the step across two tiles; I4 by L5,
across two tiles; and I8 by T2 with both rings stationary. -/
def tiles (kind : Nat) : Core :=
  let rings := fun (d e : Nat) => vset (1 : BitVec 3) (selector + BitVec.ofNat 64 e) (vset (0 : BitVec 3) (dense + BitVec.ofNat 64 d) (Vector.replicate 8 0))
  { rings := match kind with
      | 0 => rings (2 ^ 51) (2 ^ 51)
      | 1 => rings (2 ^ 51 + 7 * 2 ^ 21 + 2 ^ 26) (2 * 2 ^ 51 + 2 ^ 16 - 2 ^ 21 + 2 ^ 26 + 544 * 2 ^ 28)
      | 2 => rings (2 ^ 51 + 4 * 2 ^ 21) (2 * 2 ^ 51 + 2 ^ 16 + 4 * 2 ^ 21)
      | _ => rings (2 ^ 51 + 2 ^ 27) (2 ^ 51 + 2 ^ 27) }

theorem witness_MatrixCommandsQueue :
    (∃ i eop acc la gs val s, matrixOf i = some (eop, acc, la, gs, val) ∧ Calm s ∧ Ready s gs ∧ s.me.eset = true ∧ matrixFits s i = true ∧ s.myCore.mq = [] ∧
      la = 0 ∧ eop ≤ 1) ∧
    (∃ i eop acc la gs val s, matrixOf i = some (eop, acc, la, gs, val) ∧ Calm s ∧ Ready s gs ∧ s.me.eset = true ∧ matrixFits s i = true ∧ s.myCore.mq = [] ∧
      la = 15) ∧
    (∃ i eop acc la gs val s, matrixOf i = some (eop, acc, la, gs, val) ∧ Calm s ∧ Ready s gs ∧ s.me.eset = true ∧ matrixFits s i = true ∧ s.myCore.mq = [] ∧
      la = 3) ∧
    (∃ i eop acc la gs val, matrixOf i = some (eop, acc, la, gs, val) ∧ (solo plain).me.eset = false) ∧
    (Calm (solo engine) ∧ (solo engine).me.eset = true ∧ (solo engine).myCore.mq = [] ∧ (solo engine { mq := [{}] }).myCore.mq ≠ []) := by
  refine ⟨⟨.mmt ⟨5, 0, 1, 0, 0⟩, _, _, _, _, _, solo { engine with cgl := 0x4000 } (tiles 0), rfl, by unfold Calm; decide +kernel, ready_of_all _ _ (by decide +kernel),
      by decide +kernel, by decide +kernel, by decide +kernel, by decide +kernel, by decide +kernel⟩,
    ⟨.mclr ⟨0, 15⟩, _, _, _, _, _, solo engine, rfl, by unfold Calm; decide +kernel, ready_of_all _ _ (by decide +kernel), by decide +kernel, by decide +kernel,
      by decide +kernel, by decide +kernel⟩,
    ⟨.mdr ⟨6, 0, 7, 0, 3⟩, _, _, _, _, _,
      solo { engine with st := 0x100000, pfx := BitVec.ofNat 64 (0xC000 + 256 * 0 + 8 * 0), g := vset (7 : Reg) 0x800000 plain.g } , rfl, by unfold Calm; decide +kernel,
      ready_of_all _ _ (by decide +kernel), by decide +kernel, by decide +kernel, by decide +kernel, by decide +kernel⟩,
    ⟨.mclr ⟨0, 15⟩, _, _, _, _, _, rfl, by decide +kernel⟩, by unfold Calm; decide +kernel⟩

/-- A core whose matrix engine has one command, of the crew at 0x1000, and what OnlyMatrix asks of the command. -/
def multiplying (m : MxCmd) (c : Core := {}) (t : Thread := plain) : State :=
  { cores := [(0, { c with mq := [m], crews := [{ base := 0x1000, limit := 0x10000 }], threads := vset (0 : Ctx) t c.threads })] }

theorem onlyMatrix_multiplying (m : MxCmd) (c : Core) (t : Thread)
    (h : (0 = m.home ∧ 0 = m.lid ∧ c.badRegs = []) ∧ m.units = [] ∧ m.got = [] ∧ m.ended = false) : OnlyMatrix (multiplying m c t) 0 m 0x1000 0x10000 :=
  ⟨rfl, ⟨_, rfl, h.1.1, h.1.2.1, rfl, rfl, rfl, rfl, rfl⟩, h.2.1, h.2.2.1, h.2.2.2, h.1.2.2, rfl, rfl, by decide, by decide, by decide, rfl, rfl⟩

/-- A queued clear, load, store, drain and multiply, which begins, goes on or has no steps; a step that is the last, of a thread that waits at it and of
one that does not, and a step that is not. -/
theorem witness_MatrixStartsAndSteps :
    (∀ e ∈ [1, 2, 3, 4, 5], let m : MxCmd :=
        { eop := BitVec.ofNat 5 e, la := 15, a := BitVec.ofNat 64 (at_ 0x800), c := 0x200000, fmt := BitVec.ofNat 16 (0x8000 + 8 * 20) };
      OnlyMatrix (multiplying m) 0 m 0x1000 0x10000 ∧ m.phase = .queued ∧ m.a.toNat % 8 = 0 ∧ 0x1000 + m.a.toNat % 2 ^ 63 + 2048 ≤ 0x10000 ∧
      (e = 1 → 0 < m.a.toNat % 2 ^ 32 ∧ (vget m.acc ({} : Core).apc).getLsbD 63 = false) ∧ (multiplying m).mem.poison = [] ∧
      (e = 2 → drainBits (fld m.fmt 3 5).toNat = some 16 ∧ ((multiplying m).core 0).ctxOf m.home m.lid m.lti = some 0 ∧
        (m.c.extractLsb' 16 16).toNat = 32 ∧ 0x1000 + m.a.toNat % 2 ^ 63 + 15 * 32 + 2 * 16 ≤ 0x10000)) ∧
    (∀ x ∈ [(0, 3), (8, 0)], let m : MxCmd := { eop := 0, la := BitVec.ofNat 4 x.2, a := BitVec.ofNat 64 x.1, pc := 0x40 };
      let c : Core := { apc := Vector.replicate 4 (if x.1 = 0 then 0 else 0x8000001000000005) };
      OnlyMatrix (multiplying m c) 0 m 0x1000 0x10000 ∧ m.phase = .queued ∧
      (x.1 = 0 → (vget m.acc c.apc).getLsbD 63 = false ∧ m.a.toNat % 2 ^ 32 = 0 ∧ m.la ≠ 0) ∧
      (x.1 = 8 → (vget m.acc c.apc).getLsbD 63 = true ∧ (vget m.acc c.apc).extractLsb' 32 16 = m.pc.extractLsb' 2 16 ∧
        (vget m.acc c.apc).toNat % 2 ^ 32 < m.a.toNat % 2 ^ 32)) ∧
    (∀ x ∈ [(1, 15, 0), (2, 15, 1), (1, 0, 2), (2, 15, 3)], let m : MxCmd :=
        { eop := 0, la := BitVec.ofNat 4 x.2.1, ringA := if x.2.2 = 2 then 1 else 0, ringB := if x.2.2 = 2 then 0 else 1, a := BitVec.ofNat 64 x.1,
          phase := .running, id := 4 };
      let rd : BitVec 3 := 0
      let rs : BitVec 3 := 1
      let t : Thread := { plain with status := .parked .matrix, wait := .matrixCommand 4 };
      let s := multiplying m (tiles x.2.2) (if x.2.1 = 0 then t else plain);
      let d := vget rd (s.core 0).rings;
      let e := vget rs (s.core 0).rings;
      let kd := (rowShape (ringFmt d)).1;
      let D := sideOf 0 0x1000 d (if ringSta d = true then 0 * kd else 0);
      let S := sideOf 0 0x1000 e (ringKoff e + if ringSta e = true then 0 * kd else 0);
      OnlyMatrix s 0 m 0x1000 0x10000 ∧ m.phase = .running ∧ (s.core 0).tampered = [] ∧
        ((m.ringA = rd ∧ m.ringB = rs) ∨ (m.ringA = rs ∧ m.ringB = rd)) ∧ ringFmt d ≤ 11 ∧ 12 ≤ ringFmt e ∧ ringFmt e ≤ 19 ∧
        (x.2.2 = 1 → ringSc d = true ∧ ringSc e = true ∧ (rowShape (ringFmt d)).2 ≠ 0 ∧ (rowShape (ringFmt e)).2 ≠ 0) ∧
        (x.2.2 = 3 → ringSta d = true ∧ ringSta e = true) ∧
        D.pos / kd < (ringTail d + 8192 - ringHead d) % 8192 ∧ (S.pos + kd - 1) / (rowShape (ringFmt e)).1 < (ringTail e + 8192 - ringHead e) % 8192 ∧
        ((rowShape (ringFmt d)).2 ≠ 0 → (rowShape (ringFmt e)).2 ≠ 0 → S.pos % (rowShape (ringFmt d)).2 = 0) ∧
        s.mem.poison = [] ∧ (vget m.acc (s.core 0).apc).toNat % 2 ^ 32 + 1 < 2 ^ 32 ∧ (s.core 0).ctxOf m.home m.lid m.lti = some 0 ∧
        (x.1 = 1 ↔ m.a.toNat % 2 ^ 32 ≤ 0 + 1) ∧ (x.1 = 2 ↔ 0 + 1 < m.a.toNat % 2 ^ 32) ∧
        (x.2.1 = 0 → (s.thr 0 0).wait = .matrixCommand m.id ∧ (s.thr 0 0).status = .parked .matrix ∧ (s.thr 0 0).heldDest = .none ∧ (s.thr 0 0).pend = [])) := by
  refine ⟨fun e h => ?_, fun x h => ?_, fun x h => ?_⟩ <;> simp only [List.mem_cons, List.not_mem_nil, or_false] at h
  · rcases h with rfl | rfl | rfl | rfl | rfl <;> exact ⟨onlyMatrix_multiplying _ _ _ (by decide +kernel), by decide +kernel⟩
  · rcases h with rfl | rfl <;> exact ⟨onlyMatrix_multiplying _ _ _ (by decide +kernel), by decide +kernel⟩
  · rcases h with rfl | rfl | rfl | rfl <;> exact ⟨onlyMatrix_multiplying _ _ _ (by decide +kernel), by decide +kernel⟩

/-- A thread of core 0 whose access waits for the walk of VA page 5, at entry `read` of its tables; and a scheduler's queue 7 that does. -/
def walking (read table need : Nat) (mem : Memory) (artb : Dword := 0x80001) (w : WalkWaiter := { need := need }) : State :=
  { State.withPkg (solo { plain with status := .parked .fill, wait := .walk })
      { artb := artb, dies := vset (0 : BitVec 1) { walks := [{ read := read, table := table, page := 5, waiters := [w] }] } (Vector.replicate 2 {}) } with mem := mem }

/-- A posted fault; a walk without a root, at poison, at a table that is reached or not, at a leaf that permits and one that does not, at no leaf; the
walk of a queue at poison; a refused walk; a refused wait. -/
theorem witness_FaultsWalksAndRetries :
    (let s : State := solo { plain with faultQ := [{}] }; (s.thr 0 0).faultQ = [{}] ∧ (s.core 0).mq = []) ∧
    (∀ x ∈ [(0, 0, 1), (3, 0x100000, 1), (3, 0x100000, 2)], let w : WalkWaiter := { need := x.2.2 };
      let k : Walk := { read := x.1, table := x.2.1, page := 5, waiters := [w] };
      let s := walking x.1 x.2.1 x.2.2 { cells := [(0x100028, 7), (0x10002A, 3)] };
      (s.die 0 0).walks = [k] ∧ (s.die 0 0).walkQueue = [] ∧ s.ev.n = 0 ∧ w.queue = none ∧ w.copy = none ∧ (s.thr 0 0).wait = .walk ∧
        (s.thr 0 0).status = .parked .fill ∧ (s.pkg 0).artb.getLsbD 0 = true ∧
        (x.1 = 3 → (match s.walkStep 0 0 0x50000 3 0x100000 with
          | .leaf level e => decide ((paPkg (leafPa level e 0x50000)).toNat < (s.pkg 0).npkg) && (leafPermits e x.2.2 == decide (x.2.2 = 1))
          | _ => false) = true) ∧
        (x.1 = 0 → (match s.walkStep 0 0 0x50000 0 0 with | .invalid _ _ => true | _ => false) = true)) ∧
    (0#64).getLsbD 0 = false ∧
    (Memory.poisoned { poison := [0x80000] } 0x80000 = true) ∧
    (∀ x ∈ [0, 2 ^ 52], let e : Dword := BitVec.ofNat 64 (0x100001 + x);
      e.getLsbD 0 = true ∧ e.getLsbD 1 = false ∧ e.extractLsb' 62 2 = 0 ∧ e.extractLsb' 44 8 = 0 ∧ e.extractLsb' 6 10 = 0 ∧
        (x = 0 ↔ e.extractLsb' 52 10 = (0 : Pkg)) ∧ (e.extractLsb' 16 28).toNat * 2 ^ 16 < 2 ^ 40) ∧
    (let w : WalkWaiter := { ep := mkEp 0 0 0, queue := some 7, need := 1 };
      let s := walking 3 0x100000 1 { poison := [0x100028] } 0x80001 w;
      (s.die 0 0).walks = [{ read := 3, table := 0x100000, page := 5, waiters := [w] }] ∧
        (match s.walkStep 0 0 0x50000 3 0x100000 with | .poison pa => decide (pa = 0x100028 ∧ epPkg (homeEp pa) = s.ev.pkg) | _ => false) = true) ∧
    (∀ c ∈ [63, 64], let s : State := solo { plain with status := .parked .fill, wait := .walkRefused 0 } { cyc := BitVec.ofNat 64 c };
      (s.thr 0 0).wait = .walkRefused 0 ∧ (s.thr 0 0).status = .parked .fill ∧ (c = 64 → 0 + 64 ≤ (s.core 0).cyc.toNat) ∧ (c = 63 → (s.core 0).cyc.toNat < 0 + 64)) ∧
    (let l : Lane := { req := { op := .ldf, pa := granaryPa 0 0 }, stage := .refused 0 };
      let p : Pending := { lanes := [l] };
      let s : State := solo { plain with pend := [p] };
      (s.thr 0 0).pend = [p] ∧ p.id = s.ev.id ∧ l.req.op ≠ .load ∧ homeEp l.req.pa = s.ev.ep) := by
  refine ⟨?_, ?_, ?_, ?_, ?_, ?_, ?_, ?_⟩ <;> decide +kernel

/-- A bounded WAITQ, on a core queue, on a box and on an outbox, and a BARW, at their limit and before it; a bounded LDF in every stage the rule tells
apart. -/
theorem witness_WaitLimits :
    (∀ code ∈ [1, 8, 9, 10, 11, 12], ∀ c ∈ [4, 5], let wait : Wait := .count (BitVec.ofNat 4 code) 65;
      let s : State := solo { plain with tvec := 0x41, waitFrom := 1, waitLimit := 5, status := .parked .queue, wait := wait, heldDest := .reg 5 } { cyc := BitVec.ofNat 64 c };
      let t := s.thr 0 0;
      t.waitFrom ≠ 0 ∧ (s.core 0).badRegs = [] ∧ t.status = .parked .queue ∧ t.wait = wait ∧ s.targetCount 0 0 (BitVec.ofNat 4 code) < 65 ∧ t.handles = true ∧ t.heldDest = .reg 5 ∧ t.pend = [] ∧
        t.waitLimit ≠ 0 ∧ (c = 5 → t.waitFrom - 1 + t.waitLimit ≤ (s.core 0).cyc.toNat) ∧ (c = 4 → (s.core 0).cyc.toNat < t.waitFrom - 1 + t.waitLimit)) ∧
    (let s : State := { solo { plain with tvec := 0x41, waitFrom := 1, waitLimit := 5, status := .parked .barrier, wait := .barrier 3, heldDest := .reg 5 } { cyc := 5 } with
        launches := [{}] };
      (s.thr 0 0).wait = .barrier 3 ∧ s.launch? (s.thr 0 0).home (s.thr 0 0).lid = some {} ∧ (s.thr 0 0).handles = true ∧ (s.thr 0 0).pend = [] ∧
        (s.thr 0 0).waitFrom - 1 + (s.thr 0 0).waitLimit ≤ (s.core 0).cyc.toNat) ∧
    (∀ g ∈ [Stage.here, .refused 0, .waiting, .withdrawing], let l : Lane := { stage := g };
      let p : Pending := { lanes := [l], dest := .reg 5, limit := 5 };
      let w : Waiter := {};
      let s : State := { solo { plain with tvec := 0x41, status := .parked .fill, pend := [p] } { cyc := 5 } with waiters := [w] };
      let t := s.thr 0 0;
      t.waitFrom = 0 ∧ (s.core 0).badRegs = [] ∧ t.status = .parked .fill ∧ t.pend = [p] ∧ isPort 5 = false ∧ p.limit ≠ 0 ∧ p.since + p.limit ≤ (s.core 0).cyc.toNat ∧ t.handles = true ∧
        t.quitting = false ∧ p.id = s.ev.id ∧ s.waiters = [w] ∧ w.isOf 0 0 p.id l.lane = true ∧ dwordAt w.pa = dwordAt l.req.pa) := by decide +kernel

/-! ## Packets, sessions and links -/

/-- A network of one packet, for core 0 from core 1, with one session open that expects operation 5. -/
def facing (p : Packet) (k : State := {}) : State := { k with net := [p], tables := [(0, [{ src := 1, str := 1, expected := 5 }])] }

/-- An operation of that session. -/
def operation (t : PType) (seq : BitVec 16 := 5) (pa : Nat := granaryPa 0 0) : Packet :=
  { type := t, src := 1, str := 1, seq := seq, len := if t = .msg then 16 else 8, be := 0xFF, payload := 7, pa := BitVec.ofNat 54 pa, op := 2 }

theorem witness_PacketsAtTheirDestination :
    (∀ pa ∈ [granaryPa 0 0, 2 ^ 43], let p : Packet := { type := .read, src := 1, auxf := 8, pa := BitVec.ofNat 54 pa };
      Arrives ({ net := [p] } : State) p ∧ (paRegion p.pa.toNat = .host ↔ pa = 2 ^ 43) ∧ (({ net := [p] } : State).pkg p.at_).hostReqs.length < 4096) ∧
    (let p := operation .write;
      (Arrives (facing p) p ∧ NextOn (facing p) p { src := 1, str := 1, expected := 5 } ∧ (facing p).waiters = [] ∧ (facing p).ev.parts = [] ∧
        p.pa.toNat % 8 = 0 ∧ p.len.toNat % 8 = 0 ∧ p.pa.toNat % 256 + p.len.toNat ≤ 256 ∧ paHasFe p.pa.toNat = true) ∧
      NextOn ({ net := [{ p with opn := true }] } : State) { p with opn := true } { src := 1, str := 1, expected := 5 }) ∧
    (∀ t ∈ [PType.atomic, .signal], let p := operation t;
      Arrives (facing p) p ∧ (operationEvent p.type).isSome = true ∧ paRegion p.pa.toNat ≠ .host ∧ NextOn (facing p) p { src := 1, str := 1, expected := 5 } ∧
        (p.req.any (fun r => (facing p).mem.condition r && !((facing p).mem.perform r).poisoned)) = true ∧
        (p.req.any (fun r => let m : Memory := { poison := [granaryPa 0 0] }; m.condition r && (m.perform r).poisoned)) = true) ∧
    (let p : Packet := { operation .atomic with op := 0x4A };
      Arrives (facing p) p ∧ NextOn (facing p) p { src := 1, str := 1, expected := 5 } ∧ (p.req.any (fun r => !(facing p).mem.condition r)) = true) ∧
    (let p := operation .atomic 5 (2 ^ 43);
      Arrives (facing p) p ∧ paRegion p.pa.toNat = .host ∧ NextOn (facing p) p { src := 1, str := 1, expected := 5 }) ∧
    (let p := operation .msg;
      Arrives (facing p) p ∧ NextOn (facing p) p { src := 1, str := 1, expected := 5 } ∧ p.message.1.getLsbD 33 = false ∧
        [({} : Launch)].any (fun l => launchKey l.home l.lid = p.note / 2 ^ 10) = true) ∧
    (let p : Packet := { operation .msg with payload := 2 ^ 33 };
      let c : Core := { replies := (Vector.replicate 64 {}).set 0 { owner := some 0 } };
      let s := facing p { cores := [(0, c)] };
      Arrives s p ∧ NextOn s p { src := 1, str := 1, expected := 5 } ∧ p.message.1.getLsbD 33 = true ∧ p.note / 2 ^ 4 % 64 = 0 ∧ p.note % 16 = 0 ∧
        (s.core 0).replies[(0 : Fin 64)] = { owner := some 0 } ∧ launchKey (s.thr p.dst 0).home (s.thr p.dst 0).lid = p.note / 2 ^ 10) ∧
    (∀ n ∈ [4, 6, 1000], let p := operation .write (BitVec.ofNat 16 n); let e : Entry := { src := 1, str := 1, expected := 5 };
      Arrives (facing p) p ∧ (facing p).entry? p = some e ∧ (facing p).reorderRoom p.dst = true ∧ e.held = [] ∧
        (n = 4 → (e.expected - p.seq).toNat = 1) ∧ (n = 6 → (p.seq - e.expected).toNat = 1) ∧
        (n = 1000 → 127 < (p.seq - e.expected).toNat ∧ 128 < (e.expected - p.seq).toNat)) ∧
    (let p := operation .write; Arrives ({ net := [p] } : State) p ∧ ({ net := [p] } : State).entry? p = none ∧ p.opn = false) ∧
    (∀ t ∈ [PType.rdata, .aval], let p : Packet := { type := t, src := 1, len := 8, note := laneKey 0 0, payload := 9 };
      let l : Lane := { stage := .sent };
      let q : Pending := { lanes := [l] };
      let s : State := { solo { plain with pend := [q] } with net := [p] };
      Arrives s p ∧ (s.thr p.dst p.ctx).pend = [q] ∧ l.req.op = .load ∧ p.note = laneKey q.id l.lane ∧ p.pmask = 0) := by
  unfold Arrives NextOn
  refine ⟨?_, ?_, ?_, ?_, ?_, ?_, ?_, ?_, ?_, ?_⟩ <;> decide +kernel

/-- A source whose stream 1 has one operation outstanding, and the packet that answers it. -/
def waiting (u : Sent) : Thread := { plain with streams := vset (1 : BitVec 3) { opened := true, ep := 1, unacked := [u] } (Vector.replicate 8 {}) }

theorem witness_SessionsAtTheirSource :
    (∀ x ∈ [(PType.ack, 0, 0, 0), (.nack, 1, 0, 0), (.nack, 0, 0, 0), (.nack, 3, 0, 0), (.nack, 0, 1, 0), (.nack, 3, 0, 1000), (.nack, 6, 0, 0)],
      let p : Packet := { type := x.1, src := 1, str := 1, op := BitVec.ofNat 7 x.2.1, pmask := BitVec.ofNat 32 x.2.2.1 };
      let u : Sent := { tries := x.2.2.2 };
      let s : State := { solo (waiting u) with net := [p] };
      let st := (s.thr p.dst p.ctx).stream 1;
      Arrives s p ∧ p.str = (1 : BitVec 3).setWidth 4 ∧ st.opened = true ∧ st.wire = p.epoch ∧ st.ep = p.src ∧ (s.thr p.dst p.ctx).abandon = false ∧
        (s.thr p.dst p.ctx).pend = [] ∧ (s.core p.dst).closes = [] ∧ p.note = 0 ∧ st.unacked = [u] ∧ u.pkt.seq = p.auxf.setWidth 16 ∧ st.err = false ∧
        (x.2.2.2 = 0 → u.tries + 1 < tryLimit (s.pkg 0)) ∧ (x.2.2.2 = 1000 → tryLimit (s.pkg 0) ≤ u.tries + 1) ∧ (s.thr p.dst p.ctx).status = .ready ∧
        (s.thr p.dst p.ctx).quitting = false ∧ u.resent = false) ∧
    (let p : Packet := { type := .ack, src := 1, str := 9 };
      let s : State := { solo { plain with msgStreams := [(msgKey 0 1, { opened := true, ep := 1 })] } with net := [p] };
      let st := Assoc.get (s.thr p.dst p.ctx).msgStreams (msgKey 0 p.src) {};
      Arrives s p ∧ p.note = 0 ∧ p.str.toNat = 9 + (0 : BitVec 1).toNat ∧ st.opened = true ∧ st.wire = p.epoch ∧ st.ep = p.src) ∧
    (∀ x ∈ [(0, 0, 0), (0, 2 ^ 28, 0), (0, 2 ^ 28, 1000), (1, 0, 0), (1, 2 ^ 28, 0)],
      let u : Sent := { tries := x.2.2, backoff := if x.1 = 1 then some 0 else none };
      let k : Package := { dies := vset (0 : BitVec 1) { cyc := x.2.1 } (Vector.replicate 2 {}) };
      let s : State := { solo (waiting u) with pkgs := [(0, k)], ev := { n := 1 } };
      let st := (s.thr 0 0).stream 1;
      st.unacked = [u] ∧ u.pkt.seq = s.ev.seq ∧ st.err = false ∧ (s.thr 0 0).abandon = false ∧ (s.pkg 0).halted = false ∧
        (x.2.1 = 0 → s.dieCyc 0 < u.sentAt + tryTime (s.pkg 0) ∧ s.dieCyc 0 < 0 + 1024) ∧
        (x.2.1 = 2 ^ 28 → u.sentAt + tryTime (s.pkg 0) ≤ s.dieCyc 0 ∧ 0 + 1024 ≤ s.dieCyc 0) ∧
        (x.2.2 = 0 → u.tries + 1 < tryLimit (s.pkg 0)) ∧ (x.2.2 = 1000 → tryLimit (s.pkg 0) ≤ u.tries + 1)) ∧
    (∀ x ∈ [(0, 0), (2 ^ 28, 0), (2 ^ 28, 1000)], let r : ReadOut := { n := 4, pa := 0x100, tries := x.2 };
      let k : CopyCmd := { id := 3, reads := [r], phase := .running };
      let g : Package := { dies := vset (0 : BitVec 1) { cyc := x.1 } (Vector.replicate 2 {}) };
      let s : State := { cores := [(0, { copies := [k] })], pkgs := [(0, g)], ev := { n := 14, id := 3, value := 4 } };
      (s.core 0).copies = [k] ∧ k.id = s.ev.id ∧ k.reads = [r] ∧ r.n = s.ev.value.toNat ∧ g.halted = false ∧ k.phase ≠ .failed ∧
        (x.1 = 0 ↔ s.dieCyc 0 < r.sentAt + tryTime g) ∧ (x.2 = 0 ↔ r.tries + 1 < tryLimit g)) ∧
    (let p : Packet := { type := .close, src := 1, str := 1, seq := 5 };
      Arrives (facing p) p ∧ (facing p).entry? p = some { src := 1, str := 1, expected := 5 } ∧ Arrives ({ net := [p] } : State) p ∧
        ({ net := [p] } : State).entry? p = none ∧ p.opn = false ∧ p.abn = false) ∧
    (∀ n ∈ [0, 256], let p : Packet := { type := .close, src := 1, str := 1, seq := 5, abn := true };
      let s : State := { net := [p], tables := [(0, List.replicate n {})] };
      Arrives s p ∧ s.entry? p = none ∧ p.opn = false ∧ p.abn = true ∧ (n = 0 → (s.table p.dst).length < (tableRoom p.dst).1) ∧
        (n = 256 → (tableRoom p.dst).1 ≤ (s.table p.dst).length)) ∧
    (let p : Packet := { type := .close, src := 1, str := 1, seq := 5, abn := true, epoch := 1 };
      let e : Entry := { src := 1, str := 1, isOpen := false };
      let s : State := { net := [p], tables := [(0, [e])] };
      Arrives s p ∧ s.entry? p = some e ∧ e.epoch ≠ p.epoch ∧ p.opn = false) ∧
    (let e : Entry := { isOpen := false }; ({ tables := [(0, [e])] } : State).table 0 = [e] ∧ e.isOpen = false ∧ e.since + 2 ^ 29 ≤ 2 ^ 29) := by
  unfold Arrives
  refine ⟨?_, ?_, ?_, ?_, ?_, ?_, ?_, ?_⟩ <;> decide +kernel

/-- Package 1, as the supervisor of package 0 routes it: by port 2 under both banks. -/
def routed (up : Bool) (e : BitVec 16) : Package :=
  { bankA := [(1, e)], bankB := [(1, e)],
    ports := (Vector.replicate 14 {}).set 2 { up := up, peer := some (1, 3), credit := Vector.replicate 5 128 } }

theorem witness_PacketsCrossLinks :
    (∀ x ∈ [(true, 0x8002, 0), (true, 0x8002, 31), (true, 2, 0), (false, 0x8002, 0), (true, 0x800E, 0)],
      let p : Packet := { operation .write with dst := BitVec.ofNat 22 (2 ^ 12), hops := BitVec.ofNat 5 x.2.2, inPort := if x.2.2 = 31 then 3 else 14 };
      let k := routed x.1 (BitVec.ofNat 16 x.2.1);
      let s : State := { net := [p], pkgs := [(0, k)] };
      let e := k.route p.bank (epPkg p.dst);
      let port := (e.extractLsb' 0 5).toNat;
      s.net[s.ev.n]? = some p ∧ p.via = none ∧ epPkg p.dst ≠ p.at_ ∧ p.type ≠ .drain ∧ (s.pkg p.at_).halted = false ∧
        s.dieTime p.dst < p.born + 2 ^ 29 ∧ s.mayCross s.ev.n p = true ∧ k.records.length < 256 ∧
        (x = (true, 0x8002, 0) → e.getLsbD 15 = true ∧ port < 14 ∧ (k.port (BitVec.ofNat 4 port)).up = true) ∧
        (x.2.2 = 31 → p.hops = 31 ∧ p.inPort.toNat < 14) ∧ (x.2.1 = 2 → e.getLsbD 15 = false) ∧ (x.2.1 = 0x800E → 14 ≤ port) ∧
        (x.1 = false → (k.port (BitVec.ofNat 4 port)).up = false)) ∧
    (∀ n ∈ [0, 1], let p : Packet := { operation .write with via := some 2, len := 8, out := n };
      let s : State := { net := [p], pkgs := [(0, routed true 0x8002)] };
      let w := s.port 0 2;
      s.net[s.ev.n]? = some p ∧ p.vn.toNat < 5 ∧ (s.pkg p.at_).halted = false ∧ w.up = true ∧ w.unheard < 1024 ∧ 0 < w.credits p.vn ∧ p.out < p.flits ∧
        (n = 0 → p.out + 1 < p.flits) ∧ (n = 1 → p.out + 1 = p.flits) ∧ s.dieTime p.dst < p.born + 2 ^ 29 ∧ w.cyc < max p.since w.upAt + 2 ^ 16) ∧
    (let p : Packet := { type := .ack, src := 1 };
      let f : Flit := { bits := p.flitBits.headD 0 };
      let good : Flit := { f with crc := f.crcOf, whole := some p };
      let x : Port := { up := true, peer := some (0, 2), wire := [good] };
      let s : State := { pkgs := [(0, routed true 0x8002), (1, { ports := (Vector.replicate 14 {}).set 3 x })], ev := { port := 2 } };
      let w := s.port 0 2;
      let d := good.disturbed s.ev;
      s.port 1 3 = x ∧ w.peer = some (1, 3) ∧ x.peer = some (0, 2) ∧ w.up = true ∧ x.up = true ∧ x.wire = [good] ∧
        d.crc = d.crcOf ∧ d.seq = w.rxSeq ∧ good.keep = false ∧ good.vn.toNat < 5 ∧ w.rx.toList.getD good.vn.toNat [] ++ [d.bits] = p.flitBits ∧
        p.payload < 2 ^ (8 * p.len.toNat) ∧ p.bad = false ∧ (let e := good.disturbed { value := 1 }; e.crc ≠ e.crcOf)) ∧
    (let f : Flit := {};
      let good : Flit := { f with crc := f.crcOf };
      let x : Port := { up := true, peer := some (0, 2), wire := [good] };
      let s : State := { pkgs := [(0, routed true 0x8002), (1, { ports := (Vector.replicate 14 {}).set 3 x })], ev := { port := 2 } };
      let d := good.disturbed s.ev;
      s.port 1 3 = x ∧ (s.port 0 2).peer = some (1, 3) ∧ (s.port 0 2).up = true ∧ x.wire = [good] ∧ good.whole = none ∧ good.keep = false ∧
        good.vn.toNat < 5 ∧ d.crc = d.crcOf ∧ d.seq = (s.port 0 2).rxSeq) ∧
    (∀ n ∈ [15, 16], let w : Port := { up := true, replayFrom := some 0, replays := n };
      (w.replayFrom = some 0 ∧ w.up = true ∧ (0 = w.replayAt) ∧ (n = 15 → w.replays < 16) ∧ (n = 16 → 16 ≤ w.replays))) ∧
    (∀ n ∈ [4095, 4096], let w : Port := { up := true, cyc := n };
      w.up = true ∧ w.unheard < 1024 ∧ (n = 4096 → w.lastTx + 4096 ≤ w.cyc) ∧ (n = 4095 → w.cyc < w.lastTx + 4096)) := by
  refine ⟨?_, ?_, ?_, ?_, ?_, ?_⟩ <;> decide +kernel

/-- A port of package 0 that is up, silent for 2^16 cycles; one that retrains; two that may train; a switch and its marker; a probe. -/
theorem witness_LinksFailAndSwitch :
    (∀ n ∈ [1, 2, 3], let p : Packet := { operation .write with via := some 2 };
      let w : Port := { up := true, cyc := 2 ^ 16, replayFrom := some 0, replays := 16 };
      let s : State := { net := [p], pkgs := [(0, { ports := (Vector.replicate 14 {}).set 2 w })], ev := { port := 2, n := n } };
      let queue := s.net.filter (fun p => p.at_ = 0 && p.via = some 2);
      s.port 0 2 = w ∧ (s.pkg 0).halted = false ∧ ({ qreq := true } : Package).halted = true ∧ w.up = true ∧ w.lastRx + 2 ^ 16 ≤ w.cyc ∧ w.replayFrom = some w.replayAt ∧ 16 ≤ w.replays ∧ queue ≠ [] ∧
        (∀ p ∈ queue, w.credits p.vn = 0 ∧ max p.since w.upAt + 2 ^ 16 ≤ w.cyc) ∧ w.creditAt + 2 ^ 16 ≤ w.cyc) ∧
    (∀ n ∈ [0, 2 ^ 24], let w : Port := { retrainFrom := some 0, cyc := n, peer := some (1, 3) };
      let x : Port := { up := true, peer := some (0, 2) };
      let s : State := { pkgs := [(0, { ports := (Vector.replicate 14 {}).set 2 w }), (1, { state := 3, ports := (Vector.replicate 14 {}).set 3 x })] };
      s.port 0 2 = w ∧ (s.port 1 3).peer = some (0, 2) ∧ (s.port 1 3).up = true ∧ (s.pkg 1).state = 3 ∧ (s.pkg 1).halted = false ∧ (s.pkg 0).halted = false ∧
        w.cyc ≤ 0 + 2 ^ 24 ∧ (n = 0 → w.cyc < 0 + 2 ^ 24) ∧ (n = 2 ^ 24 → 0 + 2 ^ 24 ≤ w.cyc) ∧ s.net = [] ∧ w.wire = [] ∧ w.replay = []) ∧
    (let s : State := { pkgs := [(0, { state := 3 }), (1, { state := 3 })], ev := { port := 2, peer := 1, peerPort := 3 } };
      (s.ev.pkg, s.ev.port) ≠ (s.ev.peer, s.ev.peerPort) ∧ (s.pkg 0).state = 3 ∧ (s.pkg 0).halted = false ∧ (s.pkg 1).state = 3 ∧ (s.pkg 1).halted = false ∧
        (s.port 0 2).up = false ∧ (s.port 0 2).retrainFrom = none ∧ (s.port 1 3).up = false ∧ (s.port 1 3).retrainFrom = none ∧
        s.ev.port.toNat < 12 ∧ s.ev.peerPort.toNat < 12 ∧ (s.port 0 2).lost = false ∧ (s.port 1 3).lost = false) ∧
    (let w : Port := { lost := true, peer := some (1, 3), partner := 5 }; w.peer.map Prod.fst = some 1 ∧ w.partner = ({ state := 3, boot := 5 } : Package).boot) ∧
    ((({} : State).pkg 0).state ≠ 4 ∧ ({} : State).net = [] ∧ (({ pkgs := [(0, routed true 0x8002)] } : State).port 0 (BitVec.ofNat 4 2)).up = true) ∧
    (let p : Packet := { type := .drain, inPort := 2 }; p.inPort.toNat < 14 ∧ p.malformed = false) ∧
    (∀ n ∈ [0, 1], let p : Packet := { type := .mgmt, src := 1, note := n }; Arrives ({ net := [p] } : State) p) := by
  unfold Arrives
  refine ⟨?_, ?_, ?_, ?_, ?_, ?_, ?_⟩ <;> decide +kernel

/-- Package 0 with a queue 0 whose head record lies at VA 0, with its group table where the record's dword 4 says. -/
def headed (l : List Host.Cell) (poison : List Nat := []) (w : Queue := { cfg := 0x8000000000000000, tail := 1 }) : State :=
  { mem := { cells := l, poison := poison }, pkgs := [(0, { mapped with queues := [(0, w)] })] }

theorem witness_HeadsAndCompletion :
    (∀ l ∈ [[], [((33 : Nat), (8 : BitVec 8))]],
      let s := headed l;
      QueueWorks s 0 0 ∧ ((s.pkg 0).queue 0).checked = false ∧ ((s.pkg 0).queue 0).head ≠ ((s.pkg 0).queue 0).tail ∧ s.cores = [] ∧
      ((s.pkg 0).queue 0).got = [] ∧ (∀ i < 16, (match s.schedRead 0 0 0 (((s.pkg 0).queue 0).slotVa 0 + BitVec.ofNat 64 (8 * i)) 1 with
        | .ok ([_], _) => true
        | _ => false) = true) ∧
      (match s.schedRead 0 0 0 (((s.pkg 0).queue 0).slotVa 0) 16 with
        | .ok (record, s1) =>
          if l = [] then decide (recordReason 0 (lidOf 0 0) 0 record = some 4) && decide (record.getD 5 0 = 0)
          else decide (recordReason 0 (lidOf 0 0) 0 record = none) && (s1.schedRead 0 0 0 (record.getD 4 0) 256).toOption.isSome
        | .error _ => false) = true) ∧
    (let s := headed [] [0]; QueueWorks s 0 0 ∧
      (match s.schedRead 0 0 0 (((s.pkg 0).queue 0).slotVa 0) 16 with | .error (.fault _) => true | _ => false) = true) ∧
    (let s : State := { pkgs := [(0, { artb := 1, queues := [(0, { cfg := 0x8000000000000000, tail := 1 })] })] }; QueueWorks s 0 0 ∧
      (match s.schedRead 0 0 0 (((s.pkg 0).queue 0).slotVa 0) 16 with | .error (.wait _) => true | _ => false) = true) ∧
    (∀ x ∈ [(2, 0), (0, 0), (0, 128)], let record : List Dword := (List.replicate 16 0).set 3 (BitVec.ofNat 64 x.1) |>.set 12 1;
      let l : Launch := { record := record };
      let s := { headed (if x.2 = 0 then [] else [(7, 128)]) [] { cfg := 0x8000000000000000, tail := 1, checked := true } with launches := [l] };
      QueueWorks s 0 0 ∧ s.head? 0 0 = some l ∧ l.satisfied = 0 ∧ (l.dw 12).getLsbD 0 = true ∧ (∀ i ∈ [13, 14, 15], (l.dw i).getLsbD 0 = false) ∧
        (match s.schedRead 0 0 0 (BitVec.ofNat 64 ((l.dw 12).toNat % 2 ^ 55 / 8 * 8)) 1 with
          | .ok ([v], _) => decide (v.toNat % 2 ^ 63 = 0) && v.getLsbD 63 == decide (x.2 = 128) && decide ((l.dw 3).toNat % 2 ^ 16 = x.1)
          | _ => false) = true ∧ (l.dw 12).getLsbD 1 = false ∧ l.dw 5 = 0 ∧ s.cores = [] ∧ l.live = 0 ∧ l.spawning = 0 ∧ l.saved = [] ∧ l.evicted = []) ∧
    (∀ ph ∈ [LaunchPhase.running, .aborted, .skipped], ∀ ctr ∈ [0, 8], let l : Launch := { phase := ph, record := (List.replicate 16 0).set 5 (BitVec.ofNat 64 ctr) };
      let s := { headed [] with launches := [l] };
      s.launch? 0 0 = some l ∧ l.counted = false ∧ ((s.pkg l.home).queue l.queue).tearing = false ∧ (s.pkg l.home).halted = false ∧
        NothingLeft s l ∧ s.waiters = [] ∧
        (ctr = 8 → (match s.schedReach 0 0 l.queue (l.dw 5) .atomic with
          | .ok pa _ => decide (pa % 8 = 0) && paHasFe pa && !s.mem.poisoned pa && decide (paPkg pa = l.home)
          | _ => false) = true)) := by
  unfold QueueWorks NothingLeft
  refine ⟨?_, ?_, ?_, ?_, ?_⟩ <;> decide +kernel

/-! ## Launches, the supervisor and the host -/

/-- A launch of one thread on core 0 alone. -/
def single (hi : Nat := 0) : Launch := { record := [0, 1, BitVec.ofNat 64 (hi * 2 ^ 56 + 1), 0, 8] }

/-- The launch at the head of queue 0 of package 0, whose core 0 runs what `c` says. -/
def ranked (l : Launch) (w : Queue) (c : Core) (k : Package := {}) : State :=
  { cores := [(0, c)], launches := [l],
    pkgs := [(0, { k with dies := mapped.dies, queues := [(0, { w with cfg := w.cfg ||| 0x8000000000000000, checked := true, tail := w.head + 1 })] })] }

/-- Fifteen contexts of another launch's threads, and context 15 free. -/
def busyCore : Core := { threads := vset (15 : Ctx) {} (Vector.replicate 16 { plain with lid := 2 ^ 32 }) }

theorem witness_PlacementAndTeardown :
    (let l := single;
      let s := ranked l {} busyCore;
      epIsCore 0 = true ∧ (s.core 0).cyc.toNat % 16 = 0 ∧ (s.pkg 0).halted = false ∧
        (∀ c ∈ (s.core 0).crews, c.owed = []) ∧ (s.core 0).swept < (s.core 0).cyc.toNat / 16 + 1 ∧ s.lowerFirst 0 = false ∧ (s.core 0).freeCtx = [15] ∧ (s.pkg 0).queues.length = 1 ∧ (∀ x ∈ s.launches, x.evicted = []) ∧ s.ev.parts = [] ∧
        s.startable 0 0 = some l ∧ l.co = false ∧ s.launchesOf 0 0 = [l] ∧ l.saved = [] ∧ l.placed < l.threads ∧ s.admits 0 l = true ∧
        (match s.schedRead 0 0 0 (l.dw 4 + BitVec.ofNat 64 (2048 + 8 * l.placed)) 1 with | .ok ([_], _) => true | _ => false) = true) ∧
    ((ranked single {} { cyc := 1 }).core 0).cyc.toNat % 16 ≠ 0 ∧ (({ swept := 1 } : Core).cyc.toNat / 16 + 1 ≤ ({ swept := 1 } : Core).swept) ∧
    (let s : State := { cores := [(0, {}), (1, { swept := 1 })], ev := { ep := 1 } };
      ∃ x ∈ s.cores, x.1 < 2 ^ 22 ∧ x.1 % 2 ^ 11 < (epUnit s.ev.ep).toNat ∧ (epUnit s.ev.ep).toNat < 512 ∧ x.1 / 2 ^ 11 = s.ev.ep.toNat / 2 ^ 11 ∧
        x.2.cyc = (s.core s.ev.ep).cyc ∧ x.2.swept < x.2.cyc.toNat / 16 + 1) ∧
    (∀ n ∈ [1023, 1024], let l := single 16; (ranked l { waited := n } {}).startable 0 0 = some l ∧ l.co = true ∧ (n = 1023 → n < 1024) ∧ (n = 1024 → 1024 ≤ n)) ∧
    (let l := single;
      let crew : Crew := { lid := 2 ^ 32, limit := 0x1000 };
      let x : Launch := { lid := 2 ^ 32, phase := .running };
      let k : Package := { pren := true, psbase := 1, psfsz := 2 };
      let s0 := ranked l { cfg := 0x5000000000000000, lackFrom := some 0 } { busyCore with crews := [crew], threads := Vector.replicate 16 { plain with lid := 2 ^ 32 } } k;
      let s : State := { s0 with launches := [l, x], pkgs := s0.pkgs.map (fun g => (g.1, { g.2 with dies := vset (0 : BitVec 1) { cyc := 4096 } (Vector.replicate 2 {}) })) };
      s.startable 0 0 = some l ∧ ((s.pkg 0).queue 0).lackFrom = some 0 ∧ 0 + 4096 ≤ (s.die 0 l.die).cyc ∧ (s.pkg 0).pren = true ∧
        ((s.pkg 0).queue 0).cfg.getLsbD 62 = true ∧ (s.pkg 0).halted = false ∧ s.lacks l = true ∧ s.mesh = [] ∧ s.victims l = [(0, 0, crew)] ∧
        crew.preempt = none ∧ s.launch? 0 crew.lid = some x ∧ x.co = false ∧ (s.core 0).crew? 0 crew.lid = some crew ∧ (s.pkg 0).freeFrames 1 = [0] ∧
        (s.pkg 0).frameHolds crew = true ∧ (s.core 0).waitsForCopy crew = false) ∧
    (let l := single;
      let crew : Crew := {};
      let s := ranked l {} { crews := [crew] };
      (s.pkg 0).state ≠ 4 ∧ (s.pkg 0).qreq = false ∧ ({ qreq := true } : Package).state ≠ 4 ∧ ((s.pkg 0).queue 0).tearing = false ∧ s.launchesOf 0 0 = [l] ∧ s.launch? 0 l.lid = some l ∧ (s.core 0).crews = [crew] ∧
        crew.home = l.home ∧ crew.lid = l.lid ∧ ({ s with launches := [] } : State).launchesOf 0 0 = []) ∧
    (∀ n ∈ [0, 1], let w : Queue := { cfg := 0x0800000000000000, tail := BitVec.ofNat 32 n };
      let s : State := { pkgs := [(0, { mapped with queues := [(0, w)] })] };
      w.tearing = true ∧ w.blocked = false ∧ s.crewsOf 0 0 = [] ∧ s.launchesOf 0 0 = [] ∧ w.heldTd = false ∧ s.enqUnderWay 0 0 = false ∧ w.got = [] ∧
        s.ev.parts = [] ∧ (n = 0 → w.head = w.tail) ∧
        (n = 1 → w.tail = w.head + 1 ∧ w.checked = false ∧
          (match s.schedRead 0 0 0 (w.slotVa w.head) 16 with | .ok (record, _) => decide (record.getD 5 0 = 0) | _ => false) = true)) ∧
    (let crew : Crew := {};
      let w : Queue := { cfg := 0x0800000000000000 };
      let s : State := { solo { plain with pend := [{}] } { crews := [crew] } with pkgs := [(0, { queues := [(0, w)] })] };
      let e : State := { solo { plain with pend := [{ kind := .enq 0 0 0 }] } with pkgs := [(0, { queues := [(0, w)] })] };
      e.enqUnderWay 0 0 = true ∧ w.tearing = true ∧ ({ w with heldTd := true } : Queue).tearing = true ∧ w.blocked = false ∧ s.crewsOf 0 0 = [(0, crew)] ∧ s.crewDrained 0 crew = false) := by
  refine ⟨?_, ?_, ?_, ?_, ?_, ?_, ?_, ?_, ?_⟩ <;> decide +kernel

theorem witness_CrewsAreSaved :
    (∀ n ∈ [0, 1], let w : Crew := { limit := 0x1000 };
      let l : Launch := { phase := .running };
      let s : State := { cores := [(0, { crews := [w] })], launches := [l], pkgs := [(0, { psbase := BitVec.ofNat 64 n, psfsz := 2 })] };
      let k := s.pkg 0;
      k.busy = false ∧ k.qreq = false ∧ k.state ≠ 4 ∧ (k.marg0.extractLsb' 0 44) = 0 ∧ s.launch? 0 0 = some l ∧ l.co = false ∧ (s.core 0).crew? 0 0 = some w ∧
        w.preempt = none ∧ w.parkedIn = false ∧ w.tearing = false ∧ k.frameHolds w = true ∧ (n = 0 → k.freeFrames 1 = []) ∧ (n = 1 → k.freeFrames 1 = [0]) ∧
        ({} : Core).crew? 0 0 = none) ∧
    (let m : MeshMsg := {};
      let s : State := { cores := [(0, { crews := [{}] })], mesh := [m] };
      let t : State := { cores := [(0, { crews := [{ tearing := true }] })], mesh := [m], pkgs := [(0, { frames := [0] })] };
      ((t.core m.ep).crew? m.home m.lid).map Crew.tearing = some true ∧ (t.pkg (epPkg m.ep)).preempting = [] ∧ (t.pkg (epPkg m.ep)).waitPreempt = none ∧
        t.launches = [] ∧ m.frame ∈ (t.pkg (epPkg m.ep)).frames ∧
      s.mesh[s.ev.n]? = some m ∧ ({} : Crew).tearing = false ∧ (s.core m.ep).crew? m.home m.lid = some {} ∧ (({ mesh := [m] } : State).core m.ep).crew? m.home m.lid = none) ∧
    (∀ n ∈ [0, 1], let w : Crew := { limit := 0x1000, preempt := some (BitVec.ofNat 4 n, 0) };
      let l : Launch := { phase := .running };
      let s : State := { solo plain { crews := [w] } with launches := [l], pkgs := [(0, { psbase := 1, psfsz := 2, preempting := [(0, 0)] })] };
      let c := s.core 0;
      let u := s.thr 0 0;
      let pa := (s.pkg 0).frameAt 0;
      let size := w.limit.toNat - w.base.toNat;
      (c.crews = [w] ∧ w.holds = [] ∧ w.written = [] ∧ w.owed = [] ∧ u.wait = .none ∧ s.ev.parts = [] ∧ c.crewCtx w = [0] ∧ s.launch? 0 w.lid = some l ∧ u.status = .ready ∧ u.pend = [] ∧ u.faultQ = [] ∧ u.outstanding = [] ∧
        u.quitting = false ∧ u.waitFrom = 0 ∧ u.header = none ∧ u.heldReq = none ∧ u.replyPos = none ∧ u.restMsg = [] ∧ u.restReply = [] ∧ u.msgStreams = []) ∧
      (∀ n, (u.stream n).opened = false ∧ (u.stream n).unacked = []) ∧
      (c.combine = [] ∧ c.mq = [] ∧ c.copies = [] ∧ c.closes = [] ∧ c.outbox0 = [] ∧ c.outbox1 = [] ∧ (∀ i : Fin 64, c.replies[i].owner ≠ some 0) ∧
        w.eset = false ∧ w.base.toNat ≤ w.limit.toNat ∧ w.limit.toNat ≤ 2 ^ 23 ∧ w.base.toNat % 8 = 0 ∧ pa % 8 = 0 ∧ paRegion pa = .secondTier ∧
        paRegion (pa + 0x1C000 + size) = .secondTier ∧ paPkg (pa + 0x1C000 + size) = paPkg pa ∧ s.waiters = [] ∧ (s.pkg 0).waitPreempt = none ∧
        (s.pkg 0).preempting = [((0 : Ep).toNat, w.lid)])) := by
  refine ⟨?_, ?_, ?_⟩ <;> decide +kernel

/-- A record and room for it with a signal, with a vector that is open and one that is masked, and no room; FAULTED threads with records of
a word, a stream and a copy; an action on another SEQ. -/
theorem witness_FaultQueueAndResolve :
    (∀ cfg ∈ [0, 2 ^ 61, 2 ^ 62], let r : FaultRec := { dwords := List.replicate 8 1 };
      let k : Package := { records := [r], sfqCfg := BitVec.ofNat 64 (2 ^ 63 + cfg), sfqSig := 0x1000, msixOpen := [0] };
      let slot := k.sfqBase.toNat % 2 ^ 54 / 64 * 64 + k.sfqTail.toNat % 2 ^ (max 6 (k.sfqCfg.extractLsb' 12 4).toNat) * 64;
      k.posted = [] ∧ paPkg slot = 0 ∧ paPkg (k.sfqSig.toNat % 2 ^ 54 / 8 * 8) = 0 ∧ (∀ i ∈ [0, 7], let s : State := { ev := { parts := [i] } }; s.ev.parts = [i] ∧ i < 8) ∧
      k.sfqOn = true ∧ (k.sfqTail - k.sfqHead).toNat ≠ 2 ^ max 6 (k.sfqCfg.extractLsb' 12 4).toNat ∧ r.dwords.length = 8 ∧
        slot + 64 ≤ k.sfqSig.toNat % 2 ^ 54 / 8 * 8 ∧ (cfg = 2 ^ 61 → k.sfqCfg.getLsbD 61 = true) ∧
        (cfg = 2 ^ 62 → k.sfqCfg.getLsbD 62 = true ∧ (k.sfqCfg.extractLsb' 0 11).toNat ∈ k.msixOpen)) ∧
    (({} : Package).sfqOn = false ∧ (let k : Package := { sfqCfg := BitVec.ofNat 64 (2 ^ 63), sfqTail := 64 }; (k.sfqTail - k.sfqHead).toNat = 64)) ∧
    (∀ x ∈ [(0, 2), (0, 4), (1, 2)], let o : Outstanding := { src := BitVec.ofNat 4 x.1, kind := BitVec.ofNat 8 x.2, id := if x.2 = 4 then 1 else 0 };
      let k : CopyCmd := { phase := .stopped };
      let s : State := solo { waiting {} with status := .faulted, outstanding := [o] } { copies := [k] };
      Faulted s o ∧ (s.core 0).mq = [] ∧ (s.thr 0 0).pend = [] ∧ ((s.thr 0 0).stream 1).unacked = [{}] ∧ (s.core 0).copies = [k] ∧ k.id = 0 ∧
        k.phase = .stopped) ∧
    (let o : Outstanding := { seq := 1 };
      let w : Crew := { limit := 0x1000, holds := [{ seq := 5 }] };
      let s : State := { solo { plain with status := .faulted, outstanding := [o] } { crews := [w] } with
        launches := [{ saved := [{ outstanding := [{ seq := 6 }] }] }], pkgs := [(0, { queues := [(0, { faults := [{ seq := 3 }] })] })] };
      ((s.pkg 0).busy = false ∧ (s.pkg 0).qreq = false ∧ (s.pkg 0).state ≠ 4 ∧ (s.thr 0 0).outstanding = [o] ∧ NoneFaulted s) ∧
        (∀ c ∈ s.cores, ∀ w ∈ c.2.crews, ∀ h ∈ w.holds, (h.ep, h.ctx, h.seq) ≠ (s.ev.ep, s.ev.ctx, s.ev.seq)) ∧
        (∀ l ∈ s.launches, ∀ v ∈ l.evicted, ∀ h ∈ v.crew.holds, (h.ep, h.ctx, h.seq) ≠ (s.ev.ep, s.ev.ctx, s.ev.seq)) ∧
        (∀ l ∈ s.launches, ∀ w ∈ l.saved, ∀ x ∈ w.outstanding.head?, (x.ep, x.ctx, x.seq) ≠ (s.ev.ep, s.ev.ctx, s.ev.seq)) ∧ (∀ q ∈ (s.pkg 0).queues, ∀ f ∈ q.2.faults, f.seq ≠ s.ev.seq)) ∧
    (let h : Hold := { seq := 5 };
      let a : State := { cores := [(7, { crews := [{ holds := [h] }] })], ev := { seq := 5 } };
      let v : Evicted := { crew := { holds := [h] } };
      let b : State := { launches := [{ evicted := [v] }], ev := { seq := 5 } };
      (h.ep, h.ctx, h.seq) = (a.ev.ep, a.ev.ctx, a.ev.seq) ∧ (h.ep, h.ctx, h.seq) = (b.ev.ep, b.ev.ctx, b.ev.seq) ∧ a.cores.map Prod.fst = [7] ∧
        NoneFaulted a ∧ NoneFaulted b ∧ h.copy = none ∧ b.cores = [] ∧ (a.pkg 0).busy = false ∧ (a.pkg 0).qreq = false ∧
        (a.pkg 0).state ≠ 4) ∧
    (let k : Package := { qreq := true }; k.busy = false ∧ k.state ≠ 4 ∧ k.qreq = true) ∧
    (let o : Outstanding := { ep := 7, ctx := 2, seq := 5 };
      let c : Core := { threads := vset (3 : Ctx) { plain with status := .faulted, outstanding := [o] } (Vector.replicate 16 {}) };
      let s : State := { cores := [(0, c)], ev := { ep := 7, ctx := 2, seq := 5 } };
      s.cores = [(0, c)] ∧ (vget (3 : Ctx) c.threads).status = .faulted ∧ (vget (3 : Ctx) c.threads).outstanding = [o] ∧
        (o.ep, o.ctx, o.seq) = (s.ev.ep, s.ev.ctx, s.ev.seq) ∧ (∀ y : Ctx, y ≠ 3 → (vget y c.threads).status ≠ .faulted) ∧ o.src = 0 ∧ o.kind ≠ 4 ∧
        (vget (3 : Ctx) c.threads).pend = [] ∧ epPkg s.ev.ep = 0) ∧
    (∀ v ∈ [0, 1], let o : Outstanding := { ep := 7, ctx := 2, seq := 5 };
      let w : Saved := { outstanding := [o] };
      let l : Launch := { saved := [w] };
      let s : State := { launches := [l], ev := { ep := 7, ctx := 2, seq := 5 }, mem := ({} : Memory).write 0xA20 8 (v * 2 ^ 59) };
      s.cores = [] ∧ s.launches = [l] ∧ l.evicted = [] ∧ l.saved = [w] ∧ w.outstanding.head? = some o ∧ (o.ep, o.ctx, o.seq) = (s.ev.ep, s.ev.ctx, s.ev.seq) ∧
        (BitVec.ofNat 64 (s.mem.read (w.pa + 0xA20) 8)).getLsbD 59 = decide (v = 1)) := by
  unfold Faulted NoneFaulted
  refine ⟨?_, ?_, ?_, ?_, ?_, ?_, ?_, ?_⟩ <;> decide +kernel

theorem witness_SupervisorCommands :
    (∀ scope ∈ [0, 1, 2], ∀ level ∈ [0, 1], let k : Package := { mapped with marg0 := BitVec.ofNat 64 (scope * 2 ^ 16 + level * 2 ^ 18) };
      k.busy = false ∧ k.qreq = false ∧ k.state ≠ 4 ∧ (k.marg0.extractLsb' 16 2).toNat = scope ∧ (k.marg0.extractLsb' 18 2).toNat = level) ∧
    (let s : State := { pkgs := [(0, { mapped with inval := some {} })] }; (s.pkg 0).inval = some {} ∧ ({} : Inval).sent = [] ∧ ({} : Inval).lanes = []) ∧
    (∀ n ∈ [2 ^ 16, 8, 2 ^ 42 + 2 ^ 16], let k : Package := { marg0 := 0, marg1 := 0x100000, marg2 := BitVec.ofNat 64 n };
      let src := k.marg0.toNat % 2 ^ 54; let dst := k.marg1.toNat % 2 ^ 54;
      k.busy = false ∧ k.qreq = false ∧ k.state ≠ 4 ∧ k.moving = none ∧ (n = 2 ^ 16 → 8191 < n / 8 ∧ 0 < n ∧ n % 65536 = 0 ∧ n ≤ 2 ^ 42 ∧ src % 8 = 0 ∧ dst % 8 = 0 ∧ paRegion src = .secondTier ∧
        paRegion (src + n - 1) = .secondTier ∧ paRegion dst = .secondTier ∧ paRegion (dst + n - 1) = .secondTier ∧ (paPkg src).toNat < k.npkg ∧
        (paPkg dst).toNat < k.npkg ∧ (dst + n ≤ src ∨ src + n ≤ dst) ∧ paPkg src = 0 ∧ paPkg dst = 0) ∧ (n = 8 → n % 65536 ≠ 0) ∧ (n = 2 ^ 42 + 2 ^ 16 → 2 ^ 42 < n)) ∧
    (let k : Package := { marg1 := BitVec.ofNat 64 (2 ^ 44), syscfg := 0x10000 };
      let s : State := { pkgs := [(0, k), (1, { qreq := true })] };
      (paPkg (k.marg1.toNat % 2 ^ 54)).toNat < (s.pkg 0).npkg ∧ paPkg (k.marg1.toNat % 2 ^ 54) ≠ 0 ∧ (s.pkg (paPkg (k.marg1.toNat % 2 ^ 54))).halted = true) ∧
    (let k : Package := { marg1 := 0x2000001000 };
      let s : State := { pkgs := [(0, k)] };
      let base := (k.marg1.extractLsb' 0 24).toNat; let limit := (k.marg1.extractLsb' 24 24).toNat;
      k.busy = false ∧ k.qreq = false ∧ k.state ≠ 4 ∧ epIsCore 0 = true ∧ epPkg 0 = 0 ∧ base % 4096 = 0 ∧ limit % 4096 = 0 ∧ base < limit ∧ limit ≤ 0x800000 ∧
        (s.core 0).crews = [] ∧ (∀ j : BitVec 2, (vget j (s.core 0).resident).getLsbD 63 = false) ∧
        (let c : Core := { resident := vset (0 : BitVec 2) 0x8000002000001000 (Vector.replicate 4 0) };
          c.crews = [] ∧ (vget (0 : BitVec 2) c.resident).getLsbD 63 = true ∧ (∀ j : BitVec 2, j ≠ 0 → (vget j c.resident).getLsbD 63 = false)) ∧
        (let c : Core := { crews := [{ limit := 0x2000 }], resident := vset (0 : BitVec 2) 0x8000002000001000 (Vector.replicate 4 0) };
          (∃ w ∈ c.crews, base < w.limit.toNat ∧ w.base.toNat < limit) ∧ (vget (0 : BitVec 2) c.resident).getLsbD 63 = true)) := by
  refine ⟨?_, ?_, ?_, ?_, ?_⟩ <;> decide +kernel

/-- BAR2 through a segment that maps, with and without leave to write, through one to a package in a quiesce or beyond the system, through none, and in the maintenance state; a host read that ends; a host atomic
whose read ends, waits for another's write, or fails, and whose write ends. -/
theorem witness_HostAccesses :
    (∀ e ∈ [2 ^ 63, 2 ^ 63 + 2 ^ 62], let w : Function := { enabled := true, bar2 := 30, segments := [(0, BitVec.ofNat 64 e)] };
      let s : State := { pkgs := [(0, { fns := [(0, w)] })] };
      let x := Assoc.get ((s.pkg 0).fn 0).segments 0 0;
      (s.pkg 0).state ≠ 4 ∧ 0 < 2 ^ w.bar2 ∧ x.getLsbD 63 = true ∧ (x.extractLsb' 52 10).toNat = 0 ∧ 0 < (s.pkg 0).npkg ∧ (x.extractLsb' 29 15).toNat = 0 ∧
        paRegion 0 = .secondTier ∧ paRegion (2 ^ 29 - 1) = .secondTier ∧ x.getLsbD 62 = decide (e ≠ 2 ^ 63)) ∧
    (Assoc.get ((({} : State).pkg 0).fn 0).segments 0 0).getLsbD 63 = false ∧ (({ pkgs := [(0, { state := 4 })] } : State).pkg 0).state = 4 ∧
    (∀ x ∈ [0, 0x10000], let w : Function := { enabled := true, bar2 := 30, segments := [(0, BitVec.ofNat 64 (2 ^ 63 + 2 ^ 52))] };
      let s : State := { pkgs := [(0, { fns := [(0, w)], syscfg := BitVec.ofNat 64 x }), (1, { qreq := true })] };
      let e := Assoc.get ((s.pkg 0).fn 0).segments 0 0;
      e.extractLsb' 52 10 = 1 ∧ (s.pkg 1).halted = true ∧ ((e.extractLsb' 52 10).toNat < (s.pkg 0).npkg ↔ x = 0x10000)) ∧
    (let p : Packet := { type := .read, src := 1, auxf := 8, pa := 0x80000000000 };
      let k : Package := { hostReqs := [{ pkt := p }] };
      k.halted = false ∧ k.hostReqs[0]? = some { pkt := p } ∧ p.be = 0 ∧ p.payload = 0 ∧ p.pmask = 0 ∧ epPkg p.dst = 0 ∧ p.auxf.toNat % 8 = 0 ∧
        8 ≤ p.auxf.toNat ∧ p.auxf.toNat ≤ 256 ∧ 8 < ({ p with auxf := 16 } : Packet).auxf.toNat) ∧
    (let p := operation .atomic 5 (2 ^ 43);
      let e : Entry := { src := 1, str := 1, expected := 5, busy := true };
      let other : HostReq := { old := some 3, pkt := { p with ctx := 3 } };
      (∀ r ∈ ([{ pkt := p }, { old := some 7, pkt := p }] : List HostReq), let s : State := { tables := [(0, [e])], pkgs := [(0, { hostReqs := [r] })] };
        (s.pkg 0).halted = false ∧ (s.pkg 0).hostReqs[0]? = some r ∧ p.req.isSome = true ∧ epPkg p.dst = 0 ∧
        s.entry? p = some e ∧ e.isOpen = true ∧ e.epoch = p.epoch ∧ e.expected = p.seq ∧ e.busy = true ∧ e.held = [] ∧ p.str ≠ 0) ∧
      (∀ x ∈ ([{ pkt := p }] : List HostReq), x.old.isSome = true → x.pkt.pa.toNat / 8 ≠ p.pa.toNat / 8) ∧
      (∃ x ∈ ([{ pkt := p }, other] : List HostReq), x.old.isSome = true ∧ x.pkt.pa.toNat / 8 = p.pa.toNat / 8)) := by
  refine ⟨?_, ?_, ?_, ?_, ?_, ?_⟩ <;> decide +kernel

/-- Registers of an enabled queue and of one that is not, of a package at work, busy and in maintenance; BAR2 sizes; the aperture on a FAULTED thread and
a running one; its other classes, on a quiesced device and on one that is not. -/
theorem witness_HostRegisters :
    (∀ off ∈ [0x28, 0x40, 0x1008, 0x20008, 0x20000 + 32 * 4095 + 8], let ev : EvArgs := { off := BitVec.ofNat 36 off };
      let s : State := { ev := ev };
      let on : State := { ev := ev, pkgs := [(0, { queues := [(0, { cfg := 0x8000000000000000 })] })] };
      s.ev.fn = 0 ∧ s.ev.off.toNat / 8 * 8 = off ∧ (s.pkg s.ev.pkg).state ≠ 4 ∧ (s.pkg s.ev.pkg).busy = false ∧ ((s.pkg s.ev.pkg).queue 4095).enabled = false ∧
      ((s.pkg s.ev.pkg).queue 0).enabled = false ∧ ((on.pkg on.ev.pkg).queue 0).enabled = true ∧ (on.pkg on.ev.pkg).state ≠ 4) ∧
    (∀ x ∈ [(0x3FF000, 255), (0x3FF001, 255), (0x3FF001, 2), (0x3FF001, 4)],
      let s : State := { ev := { off := 0x70, be := BitVec.ofNat 8 x.2, value := BitVec.ofNat 64 x.1 } };
      let on : State := { s with pkgs := [(0, { queues := [(0, { cfg := 0x8000000000000000 })] })] };
      s.ev.fn = 0 ∧ s.ev.off.toNat / 8 * 8 = 0x70 ∧ (s.pkg 0).queues.any (fun w => w.2.enabled) = false ∧ (on.pkg 0).queues.any (fun w => w.2.enabled) = true ∧
        ((x.1 = 0x3FF000 ∨ x.2 ≠ 255) ∨ s.ev.value.extractLsb' 0 10 ≠ s.ev.pkg ∧ s.ev.be.extractLsb' 0 2 ≠ 0)) ∧
    (∀ k ∈ [({ state := 4 } : Package), { busy := true }], let s : State := { pkgs := [(0, k)], ev := { off := 0x1008 } };
      s.ev.off.toNat / 8 * 8 = 0x1008 ∧ ((s.pkg s.ev.pkg).state = 4 ∨ (s.pkg s.ev.pkg).busy = true)) ∧
    ((if (0 : BitVec 6) = 0 then 30 else 28) ≤ 36 ∧ (if (1 : BitVec 6) = 0 then 30 else 28) ≤ 28) ∧
    (∀ g ∈ [Status.faulted, .ready], let s : State := solo { plain with status := g };
      let k := s.pkg 0;
      s.ev.fn = 0 ∧ k.rbClass = 0 ∧ k.rbsel.extractLsb' 40 4 = 0 ∧ epIsCore (k.rbEp 0) = true ∧ k.state ≠ 4 ∧ k.qack = false ∧
        (s.thr (k.rbEp 0) k.rbCtx).status = g ∧ (s.thr (k.rbEp 0) k.rbCtx).pend = []) ∧
    (∀ c ∈ [1, 2, 3, 4, 8], ∀ q ∈ [false, true], let s : State := { pkgs := [(0, { rbsel := BitVec.ofNat 64 (c * 2 ^ 60), qreq := q, qack := q })] };
      let k := s.pkg 0;
      k.rbClass = c ∧ k.rbsel.extractLsb' 40 4 = 0 ∧ k.state ≠ 4 ∧ epIsCore (k.rbEp 0) = true ∧ k.qack = q ∧ (s.core (k.rbEp 0)).badRegs = [] ∧
        (∀ j : Fin 8, vget (BitVec.ofNat 3 j) (s.core (k.rbEp 0)).rings = 0 ∧
          (∀ x ∈ [0, 2 ^ 51], (BitVec.ofNat 64 x).toNat / 2 ^ 51 = (vget (BitVec.ofNat 3 j) (s.core (k.rbEp 0)).rings).toNat / 2 ^ 51 ↔ x = 0))) ∧
    (∀ n ∈ [0, 255, 256, 263, 264, 290, 292, 293, 335, 336, 1023, 1027, 1039, 2 ^ 17 - 1], (BitVec.ofNat 36 (0x100000 + 8 * n)).toNat = 0x100000 + 8 * n) := by
  refine ⟨?_, ?_, ?_, ?_, ?_, ?_⟩ <;> decide +kernel

/-- A board whose images have versions `a` and `b`, signed with the keys of slots `x` and `y`; slot 1 is revoked and 3 the least version. -/
def boarded (a x b y : Nat) : Board :=
  { revoked := 2, minVersion := 3,
    images := vset (1 : BitVec 1) { verifies := true, version := b, slot := BitVec.ofNat 2 y }
      (Vector.replicate 2 { verifies := true, version := a, slot := BitVec.ofNat 2 x }) }

/-- Every stage of power-up, with image 0 or 1 or none to boot; a reset; a VF's queue, being torn down already and not, and another's; QREQ set and not, with
MCMD held; a clock before and after its 2^20 cycles, hot, cool and neither; a die at 115 degrees. -/
theorem witness_PowerAndResets :
    (∀ n ∈ [0, 1, 2, 3, 4], ∀ f ∈ [0, 1, 2, 3, 4], ∀ r ∈ [false, true],
      let s : State := { pkgs := [(0, { state := BitVec.ofNat 3 n, ready := r })], ev := { failure := BitVec.ofNat 3 f } };
      (s.pkg s.ev.pkg).state.toNat = n ∧ s.ev.failure.toNat = f ∧ (s.pkg s.ev.pkg).ready = r) ∧
    (∀ x ∈ [(5, 0, 4, 0), (5, 0, 5, 0), (5, 0, 9, 1), (4, 0, 5, 0), (9, 1, 5, 0), (2, 0, 9, 1)], let b := boarded x.1 x.2.1 x.2.2.1 x.2.2.2;
      let valid := fun (i : BitVec 1) => (vget i b.images).slot.toNat < 2 ∧ b.revoked.getLsbD (vget i b.images).slot.toNat = false ∧
        (vget i b.images).verifies = true ∧ b.minVersion ≤ (vget i b.images).version;
      (x.1 = 5 → valid 0 ∧ (valid 1 → (vget (1 : BitVec 1) b.images).version ≤ (vget (0 : BitVec 1) b.images).version)) ∧
      (x.1 = 4 ∨ x.1 = 9 → valid 1 ∧ (valid 0 → (vget (0 : BitVec 1) b.images).version < (vget (1 : BitVec 1) b.images).version)) ∧
      (x.1 = 2 → ¬valid 0 ∧ ¬valid 1)) ∧
    (let i := Instr.deviceReset; (i = .deviceReset ∨ i = .pfFlr ∨ i = .powerRemoval) ∧ ({} : State).net = [] ∧
      (∀ w ∈ (({} : State).pkg 0).ports.toList, ∀ x ∈ w.replay, x.whole = none)) ∧
    (({ cfg := 0x0800000000000000 } : Queue).tearing = true) ∧
    (∀ f ∈ [1, 2], let w : Queue := { cfg := 0x8000000000000000 };
      let s : State := { pkgs := [(0, { queues := [(0, w)], qfn := [(0, 1)] })], ev := { fn := BitVec.ofNat 6 f } };
      s.ev.fn.toNat ≠ 0 ∧ (s.pkg 0).state ≠ 4 ∧ (s.pkg 0).queues = [(0, w)] ∧ w.tearing = false ∧ s.launchesOf 0 0 = [] ∧
        (f = 1 → Assoc.get (s.pkg 0).qfn 0 0 = BitVec.ofNat 8 f) ∧ (f = 2 → Assoc.get (s.pkg 0).qfn 0 0 ≠ BitVec.ofNat 8 f)) ∧
    (∀ q ∈ [false, true], let s : State := { pkgs := [(0, { qreq := q, heldMcmd := q })] }; (s.pkg s.ev.pkg).qreq = q ∧ (s.pkg s.ev.pkg).heldMcmd = q ∧
      (∀ x ∈ (s.pkg s.ev.pkg).queues, x.2.heldTd = false) ∧ (s.pkg s.ev.pkg).state ≠ 4 ∧ (s.pkg s.ev.pkg).waitPreempt = none ∧
        (∀ w ∈ s.waiters, w.pa / 8 * 8 ∉ (s.pkg s.ev.pkg).touched)) ∧
    (let s : State := { waiters := [{ pa := 0x40 }] }; ∀ w ∈ s.waiters, w.pa / 8 * 8 ∉ (s.pkg s.ev.pkg).touched) ∧ ({ state := 4 } : Package).state = 4 ∧
    (∀ e ∈ [[], [0x40]], let w : Waiter := { pa := 0x40, req := { op := .ldf, pa := 0x40 } };
      let s : State := { pkgs := [(0, { qreq := true, touched := [0x40] })], waiters := [w], mem := { empty := e } };
      s.waiters = [w] ∧ (s.pkg s.ev.pkg).touched = [w.pa / 8 * 8] ∧ (s.pkg s.ev.pkg).state ≠ 4 ∧ (s.pkg s.ev.pkg).waitPreempt = none ∧ (s.mem.condition w.req = true ↔ e = []) ∧ (s.pkg s.ev.pkg).heldMcmd = false ∧
        (∀ x ∈ (s.pkg s.ev.pkg).queues, x.2.heldTd = false)) ∧
    (let w : Queue := { heldTd := true };
      let k : Package := { qreq := true, queues := [(0, w)] };
      k.heldMcmd = false ∧ k.queues = [(0, w)] ∧ w.heldTd = true) ∧
    (∀ x ∈ [(2 ^ 20 - 1, 100, 20), (2 ^ 20, 1501, 20), (2 ^ 20, 100, 106), (2 ^ 20, 100, 20), (2 ^ 20, 1450, 20), (2 ^ 20, 100, 115)],
      let s : State := { pkgs := [(0, { dies := vset (0 : BitVec 1) { cyc := x.1, step := 1 } (Vector.replicate 2 {}) })], ev := { watts := x.2.1, temp := x.2.2 } };
      let k := s.pkg s.ev.pkg;
      let d := s.die s.ev.pkg s.ev.die;
      let watts := min 1500 (max 600 (k.pwrlim.toNat % 2048));
      let limit := min 105 (k.pwrlim.toNat / 2 ^ 16 % 256);
      (x.1 = 2 ^ 20 ↔ d.stepAt + 2 ^ 20 ≤ d.cyc) ∧ d.step < 9 ∧ 0 < d.step ∧ ((x.2.1 = 1501 ∨ 106 ≤ x.2.2) ↔ watts < s.ev.watts ∨ limit < s.ev.temp) ∧
        (x.2 = (100, 20) ↔ s.ev.watts * 100 < watts * 95 ∧ s.ev.temp + 5 < limit) ∧ (x.2.2 = 115 ↔ 115 ≤ s.ev.temp)) := by
  refine ⟨?_, ?_, ?_, ?_, ?_, ?_, ?_, ?_⟩ <;> decide +kernel

/-- Firmware asked, for an update and not; a device that has come up; scrub reads that are due and not, with room for a record and none; a channel's burst
of its slice, in a slice of its own or read in this sweep. -/
theorem witness_MailboxAttestationScrub :
    (∀ n ∈ [0, 1], let s : State := { pkgs := [(0, { mbxGo := true })], ev := { n := n } }; (s.pkg s.ev.pkg).mbxGo = true ∧ (s.ev.n = 1 ↔ n = 1)) ∧
    ({} : Package).mbxGo = false ∧
    (3 ≤ ({ state := 3 } : Package).state.toNat ∧ ({} : Package).state.toNat < 3) ∧
    (∀ n ∈ [0, 1, 2 ^ 16], let s : State := { cores := [(0, { cyc := BitVec.ofNat 64 n })] };
      let k := s.pkg 0;
      let gap := max 1 (k.scrub.extractLsb' 0 16).toNat;
      epIsCore 0 = true ∧ k.scrub.getLsbD 63 = true ∧ Assoc.get (s.core 0).bankScrub 0 (0, 0) = (0, 0) ∧ Assoc.get (s.core 0).bankScrub 64 (0, 0) = (0, 0) ∧
        (n = 2 ^ 16 → 0 + gap ≤ (s.core 0).cyc.toNat) ∧ (n = 0 → (s.core 0).cyc.toNat < 0 + gap) ∧ s.mem.poisoned (granaryPa 0 0) = false ∧
        4 * 0 ∉ (s.core 0).badWords ∧ k.records.length < 256) ∧
    256 ≤ ({ records := List.replicate 256 {} } : Package).records.length ∧
    (∀ x ∈ [(0, 6), (2 ^ 16, 6), (2 ^ 16, 5), (2 ^ 16, 2)],
      let k : Package := { dies := vset (0 : BitVec 1) { cyc := x.1, sweptBursts := [(6, [10])] } (Vector.replicate 2 {}) };
      let s : State := { pkgs := [(0, k)], ev := { n := 6, off := BitVec.ofNat 36 x.2, parts := [3] } };
      let d := s.die 0 0;
      let pa := x.2 * 64;
      let gap := max 1 (k.scrub.extractLsb' 32 16).toNat;
      s.ev.n < 64 ∧ k.scrub.getLsbD 63 = true ∧ Assoc.get d.channelScrub s.ev.n (0, 0) = (0, 0) ∧ Assoc.get d.refresh s.ev.n 0 = 0 ∧
        (x.1 = 0 ↔ d.cyc < 0 + gap) ∧ s.mem.poisoned (pa + 8 * 3) = false ∧ x.2 ∉ Assoc.get d.sweptBursts s.ev.n [] ∧ 10 ∈ Assoc.get d.sweptBursts s.ev.n [] ∧
        (x.2 = 6 ↔ homeEp pa = mkEp 0 s.ev.die (BitVec.ofNat 11 (1024 + s.ev.n / 4)) ∧ s.ev.off.toNat % 4 = s.ev.n % 4)) := by
  refine ⟨?_, ?_, ?_, ?_, ?_, ?_⟩ <;> decide +kernel

end Sys2Proof.Tests
end

/-! PROOFS. Branches, jumps, trap entry and the trap instruction (R109, R149 to R151, R159, R163, R284). -/

section

namespace Sys2Proof.Machine

open Sys2Proof.Spec

/-! ### Bits of a word with a field replaced -/

/-- Each bit of a word in which one field was replaced: the field's own bits inside it, the word's outside. -/
theorem getLsbD_setFld {n : Nat} (w : BitVec n) (lo len x : Nat) {i : Nat} (hi : i < n) :
    (setFld w lo len x).getLsbD i = if lo ≤ i ∧ i < lo + len then x.testBit (i - lo) else w.getLsbD i := by
  have hsum : w.toNat % 2 ^ lo + x % 2 ^ len * 2 ^ lo + w.toNat / 2 ^ (lo + len) * 2 ^ (lo + len) =
      2 ^ lo * (2 ^ len * (w.toNat / 2 ^ (lo + len)) + x % 2 ^ len) + w.toNat % 2 ^ lo := by
    rw [Nat.pow_add]; ring
  have hlow : w.toNat % 2 ^ lo < 2 ^ lo := Nat.mod_lt _ (Nat.two_pow_pos lo)
  have hmid : x % 2 ^ len < 2 ^ len := Nat.mod_lt _ (Nat.two_pow_pos len)
  rw [setFld, hsum, BitVec.getLsbD_ofNat, decide_eq_true hi, Bool.true_and, Nat.testBit_two_pow_mul_add _ hlow,
    Nat.testBit_two_pow_mul_add _ hmid, Nat.testBit_mod_two_pow, Nat.testBit_mod_two_pow, Nat.testBit_div_two_pow]
  by_cases below : i < lo
  · simp [below, Nat.not_le.2 below, BitVec.getLsbD]
  by_cases inside : i < lo + len
  · have : i - lo < len := by omega
    simp [below, Nat.le_of_not_lt below, inside, this]
  · have hout : ¬i - lo < len := by omega
    have hpos : i - lo - len + (lo + len) = i := by omega
    simp [below, inside, hout, hpos, BitVec.getLsbD]

theorem getLsbD_putBit {n : Nat} (w : BitVec n) (j : Nat) (b : Bool) {i : Nat} (hi : i < n) :
    (putBit w j b).getLsbD i = if i = j then b else w.getLsbD i := by
  rw [putBit, getLsbD_setFld _ _ _ _ hi]
  by_cases h : i = j
  · subst h; cases b <;> simp [b2n]
  · rw [if_neg h, if_neg (by omega)]

/-- A field read by division and remainder is the extracted slice. -/
theorem fld_eq_extractLsb' {n : Nat} (w : BitVec n) (lo len : Nat) : fld w lo len = w.extractLsb' lo len := by
  rw [fld, BitVec.extractLsb', Nat.shiftRight_eq_div_pow]

/-- The low 18 bits of a whole number cut to a dword are the number cut to 18 bits. -/
theorem fld_ofInt_pc (x : Int) : fld (BitVec.ofInt 64 x) 0 18 = BitVec.ofInt 18 x := by
  apply BitVec.eq_of_toNat_eq
  simp only [fld, BitVec.toNat_ofNat, BitVec.toNat_ofInt]
  omega

/-! ### A thread read after a core or another thread is replaced -/

@[simp] theorem State.thr_setCore (s : State) (ep : Ep) (c : Core) (x : Ctx) : (s.setCore ep c).thr ep x = vget x c.threads := by
  rw [State.thr, State.core_setCore]

@[simp] theorem State.setThr_setCore (s : State) (ep : Ep) (c : Core) (x : Ctx) (t : Thread) :
    (s.setCore ep c).setThr ep x t = s.setCore ep (c.setThr x t) := by
  rw [State.setThr, State.core_setCore, State.setCore_setCore]

/-- Replacing a core by one whose threads differ in one context alone leaves every other thread. -/
theorem State.thr_setCore_other (s : State) {ep e : Ep} {ctx x : Ctx} {c : Core} (h : (e, x) ≠ (ep, ctx))
    (hc : ∀ y, y ≠ ctx → vget y c.threads = s.thr ep y) : (s.setCore ep c).thr e x = s.thr e x := by
  by_cases he : e = ep
  · subst he
    have hx : x ≠ ctx := fun hx => h (by rw [hx])
    rw [State.thr, State.core_setCore, hc x hx]
  · rw [State.thr, State.core_setCore_other s c he, State.thr]

theorem State.thr_setThr_other (s : State) {ep e : Ep} {ctx x : Ctx} (t : Thread) (h : (e, x) ≠ (ep, ctx)) :
    (s.setThr ep ctx t).thr e x = s.thr e x :=
  s.thr_setCore_other h fun _ hy => Core.thr_setThr_other (s.core ep) t hy

/-! ### Ending an instruction at a PC of its own -/

theorem State.retire_eq_retireTo (s : State) : s.retire = s.retireTo s.issue.next := rfl

@[simp] theorem State.retireTo_me (s : State) (n : BitVec 18) : (s.retireTo n).me = s.me.retire n := by
  rw [State.retireTo_eq]
  show (ended s s.me n).me = s.me.retire n
  simp [ended, State.me, State.thr, State.setMyCore]

@[simp] theorem State.retireTo_mem (s : State) (n : BitVec 18) : (s.retireTo n).mem = s.mem := rfl
@[simp] theorem State.retireTo_pkgs (s : State) (n : BitVec 18) : (s.retireTo n).pkgs = s.pkgs := rfl
@[simp] theorem State.retireTo_net (s : State) (n : BitVec 18) : (s.retireTo n).net = s.net := rfl
@[simp] theorem State.retireTo_tables (s : State) (n : BitVec 18) : (s.retireTo n).tables = s.tables := rfl
@[simp] theorem State.retireTo_waiters (s : State) (n : BitVec 18) : (s.retireTo n).waiters = s.waiters := rfl
@[simp] theorem State.retireTo_launches (s : State) (n : BitVec 18) : (s.retireTo n).launches = s.launches := rfl

theorem State.thr_retireTo_other (s : State) (n : BitVec 18) {e : Ep} {x : Ctx} (h : (e, x) ≠ (s.issue.ep, s.issue.ctx)) :
    (s.retireTo n).thr e x = s.thr e x := by
  rw [State.retireTo_eq]
  exact s.thr_setCore_other h fun _ hy => vget_vset_other _ _ hy

/-! ### An operand that is pending -/

/-- An operand register that is not full stops its instruction: it parks with reason fill (R24, R29). -/
theorem State.operands_pending (s : State) {r : Reg} (hp : isPort r = false) (hf : s.me.isFull r = false) :
    s.operands [r] [] = .error (.park .fill (.reg r)) := by
  have hports : s.portStops [r] [] = none := s.portStops_nonport (by simpa using hp) (by simp)
  have hwait : s.me.waitsOn ([r] ++ []) = some r := by simp [Thread.waitsOn, hf]
  rw [State.operands, hports, hwait]

theorem State.park_fill_me (s : State) (w : Wait) : (s.park .fill w).me = { s.me with status := .parked .fill, wait := w } :=
  s.me_setMe _

/-! ### Entering FAULTED -/

/-- What the matrix queue loses when a thread faults takes pending results from that thread, and changes no other (R249, R252). -/
theorem Core.matrixFaulted_threads (c : Core) (ctx : Ctx) :
    ∃ pend, (c.matrixFaulted ctx).threads = vset ctx { vget ctx c.threads with pend := pend } c.threads :=
  ⟨_, rfl⟩

/-- A thread once it is FAULTED: it waits for nothing but the release of a barrier that it has arrived at, and one more record is outstanding
against it (R271). -/
def Thread.faultedWith (t : Thread) (pend : List Pending) (o : Outstanding) : Thread :=
  { t with
    pend := pend, status := .faulted, wait := (match t.wait with | .barrier g => .barrier g | _ => .none), walkFault := none, record := none,
    outstanding := t.outstanding ++ [o] }

/-- The record of a thread's fault (R273). -/
def State.faultRecord (s : State) (ep : Ep) (ctx : Ctx) (r : FaultReq) (seq : BitVec 16) : FaultRec :=
  let t := s.thr ep ctx
  { ep := ep, dwords := recordDwords ep ctx t.asid t.lid (decide (r.src = 0) && t.xd) true seq (if r.src = 0 then t.pc else r.pc) r }

@[simp] theorem State.core_addRecord (s : State) (p : Pkg) (mk : BitVec 16 → FaultRec) (e : Ep) :
    (s.addRecord p mk).1.core e = s.core e := rfl

/-- Entering FAULTED posts one record and replaces one core, of whose threads the faulting one alone changes (R271). -/
theorem State.enterFault_eq (s : State) (ep : Ep) (ctx : Ctx) (r : FaultReq) :
    ∃ c pend o, c.threads = vset ctx ((s.thr ep ctx).faultedWith pend o) (s.core ep).threads ∧
      s.enterFault ep ctx r = (s.addRecord (epPkg ep) (s.faultRecord ep ctx r)).1.setCore ep c := by
  obtain ⟨pend, hpend⟩ := (s.core ep).matrixFaulted_threads ctx
  let o : Outstanding := { ep := ep, ctx := ctx, seq := (s.pkg (epPkg ep)).recSeq, src := r.src, kind := r.kind, id := r.id }
  refine ⟨(((s.core ep).matrixFaulted ctx).leaveOrder ctx).setThr ctx ((s.thr ep ctx).faultedWith pend o), pend, o, ?_, ?_⟩
  · simp only [Core.setThr, Core.leaveOrder_threads, hpend, vset_vset]
  · simp only [State.enterFault, State.thr_setCore, State.setThr_setCore, State.core_addRecord, Core.leaveOrder_threads, hpend, vget_vset_same]
    rfl

@[simp] theorem State.enterFault_mem (s : State) (ep : Ep) (ctx : Ctx) (r : FaultReq) : (s.enterFault ep ctx r).mem = s.mem := rfl
@[simp] theorem State.enterFault_net (s : State) (ep : Ep) (ctx : Ctx) (r : FaultReq) : (s.enterFault ep ctx r).net = s.net := rfl
@[simp] theorem State.enterFault_tables (s : State) (ep : Ep) (ctx : Ctx) (r : FaultReq) : (s.enterFault ep ctx r).tables = s.tables := rfl
@[simp] theorem State.enterFault_launches (s : State) (ep : Ep) (ctx : Ctx) (r : FaultReq) : (s.enterFault ep ctx r).launches = s.launches := rfl
@[simp] theorem State.enterFault_issue (s : State) (ep : Ep) (ctx : Ctx) (r : FaultReq) : (s.enterFault ep ctx r).issue = s.issue := rfl

theorem State.thr_enterFault (s : State) (ep : Ep) (ctx : Ctx) (r : FaultReq) :
    ∃ pend o, (s.enterFault ep ctx r).thr ep ctx = (s.thr ep ctx).faultedWith pend o := by
  obtain ⟨c, pend, o, hc, h⟩ := s.enterFault_eq ep ctx r
  exact ⟨pend, o, by rw [h, State.thr_setCore, hc, vget_vset_same]⟩

theorem State.thr_enterFault_other (s : State) {ep e : Ep} {ctx x : Ctx} (r : FaultReq) (hx : (e, x) ≠ (ep, ctx)) :
    (s.enterFault ep ctx r).thr e x = s.thr e x := by
  obtain ⟨c, _, _, hc, h⟩ := s.enterFault_eq ep ctx r
  rw [h]
  exact State.thr_setCore_other _ hx fun y hy => by rw [hc, vget_vset_other _ _ hy]; rfl

theorem State.records_enterFault (s : State) (ep : Ep) (ctx : Ctx) (r : FaultReq) :
    ((s.enterFault ep ctx r).pkg (epPkg ep)).records =
      (s.pkg (epPkg ep)).records ++ [s.faultRecord ep ctx r (s.pkg (epPkg ep)).recSeq] := by
  obtain ⟨c, _, _, _, h⟩ := s.enterFault_eq ep ctx r
  rw [h]
  show ((s.addRecord (epPkg ep) (s.faultRecord ep ctx r)).1.pkg (epPkg ep)).records = _
  simp [State.addRecord]

/-! ### Taking a user trap -/

theorem trapReads_any {n : Nat} (hn : n ∈ [0, 1, 8]) : trapReads.any (fun m => regCode 4 0 n = regCode 4 0 m) = true :=
  List.any_eq_true.2 ⟨n, hn, by simp⟩

/-- No register that trap entry reads carries an error (R284). -/
theorem Core.badTrap_eq_none_iff (c : Core) (ctx : Ctx) :
    c.badTrap ctx = none ↔ ∀ n ∈ [0, 1, 8], (ctx, regCode 4 0 n) ∉ c.badRegs := by
  rw [Core.badTrap, Option.map_eq_none_iff, List.find?_eq_none]
  constructor
  · intro h n hn hbad
    exact h _ hbad (by simp [trapReads_any hn])
  · rintro h ⟨x, code⟩ hb hit
    simp only [Bool.and_eq_true, decide_eq_true_eq, List.any_eq_true] at hit
    obtain ⟨rfl, n, hn, rfl⟩ := hit
    exact h n hn hb

/-- One register in error, which trap entry reads, is the one that stops it. -/
theorem Core.badTrap_singleton (c : Core) (ctx : Ctx) {n : Nat} (hbad : c.badRegs = [(ctx, regCode 4 0 n)]) (hn : n ∈ [0, 1, 8]) :
    c.badTrap ctx = some (regCode 4 0 n) := by
  simp [Core.badTrap, hbad, trapReads_any hn]

theorem Thread.handles_iff (t : Thread) : t.handles = true ↔ t.tvec.getLsbD 0 = true ∧ t.st.getLsbD 24 = false := by
  simp [Thread.handles, Thread.stBit]

theorem Thread.handles_eq_false_iff (t : Thread) : t.handles = false ↔ t.tvec.getLsbD 0 = false ∨ t.st.getLsbD 24 = true := by
  simp only [Thread.handles, Thread.stBit, Bool.and_eq_false_iff, Bool.not_eq_false']

/-- The fault of a trap that no handler takes: its cause and values, and the thread's ST (R159). -/
def Thread.unhandledTrap (t : Thread) (cause : BitVec 8) (v0 v1 : Dword) : FaultReq :=
  { kind := 6, va := 0, aux0 := cause.setWidth 64, aux1 := v0, aux2 := v1, aux3 := t.st }

/-- The thread of one core's context is FAULTED at a PC, and no longer waits at a limit (R159, R161, R284). -/
def State.faultAt (s : State) (ep : Ep) (ctx : Ctx) (pc : BitVec 18) (r : FaultReq) : State :=
  (s.setThr ep ctx { s.thr ep ctx with pc := pc, waitFrom := 0 }).enterFault ep ctx r

/-- A fault at a PC leaves the thread FAULTED there, with its registers, ST and trap registers as they were. -/
theorem State.thr_faultAt (s : State) (ep : Ep) (ctx : Ctx) (pc : BitVec 18) (r : FaultReq) :
    ∃ pend o, (s.faultAt ep ctx pc r).thr ep ctx = { s.thr ep ctx with pc := pc, waitFrom := 0 }.faultedWith pend o := by
  obtain ⟨pend, o, h⟩ := (s.setThr ep ctx { s.thr ep ctx with pc := pc, waitFrom := 0 }).thr_enterFault ep ctx r
  exact ⟨pend, o, by rw [State.faultAt, h, State.thr_setThr]⟩

/-- A fault of the thread's own word (SRC 0) at a PC posts one record, which names that PC (R273). -/
theorem State.records_faultAt (s : State) (ep : Ep) (ctx : Ctx) (pc : BitVec 18) (r : FaultReq) (hr : r.src = 0) :
    ((s.faultAt ep ctx pc r).pkg (epPkg ep)).records = (s.pkg (epPkg ep)).records ++
      [{ ep := ep, dwords := recordDwords ep ctx (s.thr ep ctx).asid (s.thr ep ctx).lid (s.thr ep ctx).xd true (s.pkg (epPkg ep)).recSeq pc r }] := by
  rw [State.faultAt, State.records_enterFault, State.faultRecord, State.thr_setThr, hr]
  rfl

/-- A register in error that the entry reads: a fault of kind 7 in place of the trap (R284). -/
theorem State.trapThread_bad (s : State) (ep : Ep) (ctx : Ctx) (cause : BitVec 8) (v0 v1 : Dword) (pc : BitVec 18) {code : BitVec 16}
    (h : (s.core ep).badTrap ctx = some code) : s.trapThread ep ctx cause v0 v1 pc = s.faultAt ep ctx pc (registerFault code) := by
  simp only [State.trapThread, h]; rfl

/-- A handler takes the trap (R159). -/
theorem State.trapThread_handled (s : State) (ep : Ep) (ctx : Ctx) (cause : BitVec 8) (v0 v1 : Dword) (pc : BitVec 18)
    (h : (s.core ep).badTrap ctx = none) (ht : (s.thr ep ctx).handles = true) :
    s.trapThread ep ctx cause v0 v1 pc =
      s.setCore ep (((s.core ep).mendTrap ctx).setThr ctx ((s.thr ep ctx).enterTrap cause v0 v1 pc)) := by
  simp only [State.trapThread, h, ht, if_true, State.setThr_setCore]

/-- No handler takes the trap: a fault of kind 6, unhandled trap (R159). -/
theorem State.trapThread_unhandled (s : State) (ep : Ep) (ctx : Ctx) (cause : BitVec 8) (v0 v1 : Dword) (pc : BitVec 18)
    (h : (s.core ep).badTrap ctx = none) (ht : (s.thr ep ctx).handles = false) :
    s.trapThread ep ctx cause v0 v1 pc = s.faultAt ep ctx pc ((s.thr ep ctx).unhandledTrap cause v0 v1) := by
  simp only [State.trapThread, h, ht, Bool.false_eq_true, if_false]; rfl

/-- What a user trap can be: its thread is FAULTED at the PC the trap would have saved, or enters its handler on its core with mended
trap registers (R159, R284). -/
theorem State.trapThread_cases (s : State) (ep : Ep) (ctx : Ctx) (cause : BitVec 8) (v0 v1 : Dword) (pc : BitVec 18) :
    (∃ r, s.trapThread ep ctx cause v0 v1 pc = s.faultAt ep ctx pc r) ∨
    s.trapThread ep ctx cause v0 v1 pc =
      s.setCore ep (((s.core ep).mendTrap ctx).setThr ctx ((s.thr ep ctx).enterTrap cause v0 v1 pc)) := by
  cases hb : (s.core ep).badTrap ctx with
  | some code => exact .inl ⟨_, s.trapThread_bad ep ctx cause v0 v1 pc hb⟩
  | none =>
    cases ht : (s.thr ep ctx).handles with
    | true => exact .inr (s.trapThread_handled ep ctx cause v0 v1 pc hb ht)
    | false => exact .inl ⟨_, s.trapThread_unhandled ep ctx cause v0 v1 pc hb ht⟩

/-- A user trap touches neither memory nor the network, the tables or the launches, and the word that issues stays the same. -/
theorem State.trapThread_frame (s : State) (ep : Ep) (ctx : Ctx) (cause : BitVec 8) (v0 v1 : Dword) (pc : BitVec 18) :
    let t := s.trapThread ep ctx cause v0 v1 pc
    t.mem = s.mem ∧ t.net = s.net ∧ t.tables = s.tables ∧ t.launches = s.launches ∧ t.issue = s.issue := by
  obtain ⟨r, h⟩ | h := s.trapThread_cases ep ctx cause v0 v1 pc <;> simp [h, State.faultAt]

theorem State.thr_trapThread_other (s : State) {ep e : Ep} {ctx x : Ctx} (cause : BitVec 8) (v0 v1 : Dword) (pc : BitVec 18)
    (hx : (e, x) ≠ (ep, ctx)) : (s.trapThread ep ctx cause v0 v1 pc).thr e x = s.thr e x := by
  obtain ⟨r, h⟩ | h := s.trapThread_cases ep ctx cause v0 v1 pc
  · rw [h, State.faultAt, State.thr_enterFault_other _ r hx, State.thr_setThr_other _ _ hx]
  · rw [h]
    exact s.thr_setCore_other hx fun y hy => Core.thr_setThr_other _ _ hy

/-- What ST becomes at trap entry: PP, XD and SS are cleared and the handler's bit is set (R159). -/
theorem trapSt_eq (st : Dword) :
    putBit (putBit (setFld st 20 3 0) 25 false) 24 true = (st &&& ~~~0x2700000#64) ||| 0x1000000#64 := by
  have hclear : ∀ i < 64, (0x2700000#64).getLsbD i = decide ((20 ≤ i ∧ i < 23) ∨ i = 25) := by decide
  have hset : ∀ i < 64, (0x1000000#64).getLsbD i = decide (i = 24) := by decide
  ext i hi
  simp only [← BitVec.getLsbD_eq_getElem, BitVec.getLsbD_or, BitVec.getLsbD_and, BitVec.getLsbD_not, getLsbD_putBit _ _ _ hi,
    getLsbD_setFld _ _ _ _ hi, hclear i hi, hset i hi]
  by_cases h24 : i = 24
  · simp [h24]
  by_cases h25 : i = 25
  · simp [h25]
  by_cases hfld : 20 ≤ i ∧ i < 23 <;> simp [h24, h25, hfld, hi]

/-- The PC of the handler that TVEC names: bits 17 to 2 of it, with two zeros below (R159). -/
theorem handlerPc_eq (w : Dword) : BitVec.ofNat 18 ((fld w 2 16).toNat * 4) = (w.extractLsb' 2 16).setWidth 18 <<< 2 := by
  rw [fld_eq_extractLsb']
  apply BitVec.eq_of_toNat_eq
  have := (w.extractLsb' 2 16).isLt
  simp only [BitVec.toNat_ofNat, BitVec.toNat_shiftLeft, BitVec.toNat_setWidth, Nat.shiftLeft_eq]
  omega

theorem Core.mendTrap_eq (c : Core) (ctx : Ctx) :
    c.mendTrap ctx =
      { c with badRegs := c.badRegs.filter (fun b => decide (b ∉ [9, 10, 11, 12, 13].map (fun n => (ctx, regCode 4 0 n)))) } := by
  rw [Core.mendTrap, Core.mend]
  congr 1
  refine List.filter_congr fun b _ => ?_
  obtain ⟨x, code⟩ := b
  by_cases hx : x = ctx
  · simp [trapWrites, hx]
  · simp [hx]

/-- Trap entry as R159's pseudocode has it. -/
theorem Thread.enterTrap_eq (t : Thread) (cause : BitVec 8) (v0 v1 : Dword) (pc : BitVec 18) :
    t.enterTrap cause v0 v1 pc =
      { t with
        tepc := pc.setWidth 64, tst := t.st, tcause := cause.setWidth 64, tval0 := v0, tval1 := v1
        st := (t.st &&& ~~~0x2700000#64) ||| 0x1000000#64
        pc := (t.tvec.extractLsb' 2 16).setWidth 18 <<< 2
        status := .ready, wait := .none, walkFault := none, record := none, waitFrom := 0 } := by
  rw [Thread.enterTrap, trapSt_eq, handlerPc_eq]

/-- KIND stands in the low byte of a record's first dword (R273). -/
theorem recordDwords_kind (ep : Ep) (ctx : Ctx) (asid : Asid) (lid : Lid) (xd held : Bool) (seq : BitVec 16) (pc : BitVec 18)
    (r : FaultReq) : ((recordDwords ep ctx asid lid xd held seq pc r).getD 0 0).toNat % 2 ^ 8 = r.kind.toNat := by
  have := r.kind.isLt
  simp only [recordDwords, List.getD_cons_zero, BitVec.toNat_ofNat]
  omega

end Sys2Proof.Machine

namespace Sys2Proof.Spec

open Sys2Proof.Machine

/-! ### Branches and jumps on registers that are full -/

/-- Each conditional branch is the branch operation with its condition (R149). -/
theorem exec_of_branch {i : Instr} {o : OpBranch} {p : Dword → Dword → Bool} (h : branch i = some (o, p)) (s : State) :
    exec i s = .next (s.branch o p) := by
  unfold branch at h
  split at h <;> cases h <;> rfl

theorem branch_ready (s : State) (o : OpBranch) (p : Dword → Dword → Bool) (h : Ready s [o.a, o.b]) :
    s.branch o p = s.retireTo (if p (s.me.getG o.a) (s.me.getG o.b) then target s.issue.pc o.off.toInt else s.issue.next) := by
  rw [State.branch, s.operands_ready (srcs := [o.a, o.b]) (dsts := []) h]
  by_cases hp : p (s.me.getG o.a) (s.me.getG o.b) = true
  · simp only [List.map_cons, List.map_nil, hp, if_true]; rfl
  · simp only [List.map_cons, List.map_nil, hp, Bool.false_eq_true, if_false]
    exact s.retire_eq_retireTo

/-- The state after a jump: the link value is in g[d] and the PC at the target. -/
def linkedTo (s : State) (d : Reg) (pc : BitVec 18) : State := (s.setMe (s.me.setG d (s.issue.next.setWidth 64))).retireTo pc

theorem linkedTo_effect (s : State) (d : Reg) (pc : BitVec 18) :
    (linkedTo s d pc).mem = s.mem ∧ (linkedTo s d pc).pkgs = s.pkgs ∧ (linkedTo s d pc).net = s.net ∧
      (linkedTo s d pc).me = (s.me.setG d (s.issue.next.setWidth 64)).retire pc := by
  simp [linkedTo]

theorem exec_jal_ready (s : State) (o : OpJump) (h : Ready s [o.d]) :
    exec (.jal o) s = .next (linkedTo s o.d (target s.issue.pc o.off.toInt)) := by
  show execJal o s = _
  rw [execJal, s.operands_ready (srcs := []) (dsts := [o.d]) h]
  simp only [s.writeReg_nonport _ (h o.d (by simp)).1]
  rfl

theorem jalrTarget_eq (x : Dword) (imm : BitVec 10) : jalrTarget x imm = BitVec.ofInt 64 (x.toInt + 4 * imm.toInt) := by
  rw [jalrTarget, BitVec.ofInt_add, BitVec.ofInt_toInt]

/-- Cutting a whole number to a dword keeps whether it is a multiple of 4. -/
theorem ofInt_toNat_mod_four (x : Int) : (BitVec.ofInt 64 x).toNat % 4 = 0 ↔ x % 4 = 0 := by
  rw [BitVec.toNat_ofInt]
  omega

theorem exec_jalr_ready (s : State) (o : OpJalr) (h : Ready s [o.a, o.d]) :
    exec (.jalr o) s = .next (
      let x := (s.me.getG o.a).toInt + 4 * o.imm.toInt
      if x % 4 = 0 then linkedTo s o.d (BitVec.ofInt 18 x) else s.trap 3 (BitVec.ofInt 64 x) 4) := by
  show execJalr o s = _
  rw [execJalr, s.operands_ready (srcs := [o.a]) (dsts := [o.d]) h]
  simp only [List.map_cons, List.headD_cons, jalrTarget_eq, s.writeReg_nonport _ (h o.d (by simp)).1, fld_ofInt_pc, ne_eq, ofInt_toNat_mod_four, ite_not]
  rfl

/-! ### The trap instruction -/

/-- The trap instruction with its operand in a full register: code 8, its immediate and g[a], with the PC of the word after it (R163). -/
def trappedBy (s : State) (imm : BitVec 10) (x : Dword) : State :=
  { (s.leaveOrder.trapThread s.issue.ep s.issue.ctx 8 (imm.setWidth 64) x (s.issue.pc + 4)) with
    issue := { s.issue with fate := .trapped (.trap 8 (imm.setWidth 64) x) } }

theorem exec_trap_ready (s : State) (o : OpMts) (h : Ready s [o.a]) : exec (.trap o) s = .next (trappedBy s o.imm (s.me.getG o.a)) := by
  show execTrap o s = _
  rw [execTrap, s.operands_ready (srcs := [o.a]) (dsts := []) h]
  obtain ⟨-, -, -, -, hissue⟩ := s.leaveOrder.trapThread_frame s.issue.ep s.issue.ctx 8 (o.imm.setWidth 64) (s.me.getG o.a) (s.issue.pc + 4)
  simp only [List.map_cons, List.headD_cons, hissue]
  rfl

theorem exec_trap_pending (s : State) (o : OpMts) (hp : isPort o.a = false) (hf : s.me.isFull o.a = false) :
    exec (.trap o) s = .next (s.park .fill (.reg o.a)) := by
  show execTrap o s = _
  rw [execTrap, s.operands_pending hp hf]
  rfl

/-- With a handler and no register in error, the trapping thread enters its handler. -/
theorem trappedBy_me (s : State) (imm : BitVec 10) (x : Dword) (hh : s.me.handles = true) (hb : s.myCore.badRegs = []) :
    (trappedBy s imm x).me = s.me.enterTrap 8 (imm.setWidth 64) x (s.issue.pc + 4) := by
  have hcore : s.leaveOrder.core s.issue.ep = s.myCore.leaveOrder s.issue.ctx := State.core_setCore s s.issue.ep _
  have hthr : s.leaveOrder.thr s.issue.ep s.issue.ctx = s.me := by rw [State.thr, hcore]; rfl
  have hsound : (s.leaveOrder.core s.issue.ep).badTrap s.issue.ctx = none := by
    rw [hcore, Core.badTrap, Core.leaveOrder_badRegs, hb]; rfl
  show (s.leaveOrder.trapThread s.issue.ep s.issue.ctx 8 (imm.setWidth 64) x (s.issue.pc + 4)).thr s.issue.ep s.issue.ctx = _
  rw [State.trapThread_handled _ _ _ _ _ _ _ hsound (by rw [hthr]; exact hh), State.thr_setCore, Core.thr_setThr, hthr]

end Sys2Proof.Spec

open Sys2Proof Sys2Proof.Machine Sys2Proof.Spec

/-- Settles O4: on full registers a branch retires to the PC that its condition chooses, and a jump ends in the state that links, unless `jalr`'s
target is no multiple of 4. -/
theorem branchesAndJumps : Obligations.BranchesAndJumps := by
  unfold Obligations.BranchesAndJumps
  refine ⟨?_, fun s => ⟨?_, ?_⟩⟩
  · intro i o p s hi h
    refine ⟨_, exec_of_branch hi s, ?_⟩
    rw [branch_ready s o p h]
    exact ⟨s.retireTo_me _, s.retireTo_mem _, fun _ _ hx => s.thr_retireTo_other _ hx, s.retireTo_pkgs _, s.retireTo_net _,
      s.retireTo_tables _, s.retireTo_waiters _, s.retireTo_launches _⟩
  · intro o h
    exact ⟨_, exec_jal_ready s o h, linkedTo_effect s o.d _⟩
  · intro o h x
    have hexec := exec_jalr_ready s o h
    refine ⟨fun hx => ⟨_, ?_, linkedTo_effect s o.d (BitVec.ofInt 18 x)⟩, fun hx => ?_⟩
    · rw [hexec]; exact congrArg _ (if_pos hx)
    · rw [hexec]; exact congrArg _ (if_neg hx)

/-- Settles O8, by the three ways in which a trap is taken: a handler's entry, a register in error, no handler. -/
theorem trapEntry : Obligations.TrapEntry := by
  unfold Obligations.TrapEntry
  intro s ep ctx cause v0 v1 pc t s' bad sound
  have hsound : sound ↔ (s.core ep).badTrap ctx = none := ((s.core ep).badTrap_eq_none_iff ctx).symm
  obtain ⟨hmem, hnet, htables, hlaunches, -⟩ := s.trapThread_frame ep ctx cause v0 v1 pc
  refine ⟨?_, ?_, ?_, hmem, hnet, htables, hlaunches, fun e x hx => s.thr_trapThread_other cause v0 v1 pc hx⟩
  · intro hs hv hth
    show s.trapThread ep ctx cause v0 v1 pc = _
    rw [s.trapThread_handled ep ctx cause v0 v1 pc (hsound.1 hs) (t.handles_iff.2 ⟨hv, hth⟩), Core.mendTrap_eq, Thread.enterTrap_eq]
    rfl
  · intro n hbad hn
    have htrap : s' = s.faultAt ep ctx pc (registerFault (regCode 4 0 n)) :=
      s.trapThread_bad ep ctx cause v0 v1 pc ((s.core ep).badTrap_singleton ctx hbad hn)
    obtain ⟨pend, o, hthr⟩ := s.thr_faultAt ep ctx pc (registerFault (regCode 4 0 n))
    have hrecords := s.records_faultAt ep ctx pc (registerFault (regCode 4 0 n)) rfl
    rw [htrap, hthr]
    exact ⟨rfl, rfl, rfl, rfl, _, hrecords, recordDwords_kind _ _ _ _ _ _ _ _ _, rfl⟩
  · intro hs hv
    have htrap : s' = s.faultAt ep ctx pc (t.unhandledTrap cause v0 v1) :=
      s.trapThread_unhandled ep ctx cause v0 v1 pc (hsound.1 hs) (t.handles_eq_false_iff.2 hv)
    obtain ⟨pend, o, hthr⟩ := s.thr_faultAt ep ctx pc (t.unhandledTrap cause v0 v1)
    have hrecords := s.records_faultAt ep ctx pc (t.unhandledTrap cause v0 v1) rfl
    rw [htrap, hthr]
    exact ⟨rfl, rfl, rfl, rfl, rfl, rfl, rfl, hrecords⟩

/-- Settles O9, by the two ways in which its operand is read: full or pending. -/
theorem trapInstruction : Obligations.TrapInstruction := by
  unfold Obligations.TrapInstruction
  intro o s
  refine ⟨fun h => ⟨_, exec_trap_ready s o h, rfl, fun hh hb => ?_⟩, fun hp hf => ⟨_, exec_trap_pending s o hp hf, ?_, ?_⟩⟩
  · rw [trappedBy_me s o.imm _ hh hb]
    exact ⟨rfl, rfl, rfl, rfl⟩
  · rw [State.park_fill_me]
  · rw [State.park_fill_me]

end
